-- ==== Sys2Proof/Word.lean ====
section
/-! DEFINITION. The word types of the host interface (spec 00_scope.md R10 to R12). -/

namespace Sys2Proof

/-- The register width of the host interface, 32 bits (R10). -/
abbrev Word := BitVec 32

/-- One byte, the smallest unit the spec numbers: PAY[j] is a byte (R13). -/
abbrev Byte := BitVec 8

end Sys2Proof
end

