-- ==== Sys2Proof/Config.lean ====
section
/-! DEFINITION. What an implementation fixes: the parameters of 00_scope.md R8 at their values, the
tables the spec leaves open (10_state.md R70 to R73) as constants without a body, the platform's
parameters, and the free values. -/

namespace Sys2Proof.Config

/-! ## Parameters (R8) -/

/-- Largest coded line count NE; words of X, XQ and XR. -/
def NE_MAX : Nat := 400
/-- Largest frame byte count; bytes of PAYLOAD. -/
def BYTES_MAX : Nat := 400
/-- Smallest legal NBYTES. -/
def NBYTES_MIN : Nat := 20
/-- Largest PVQ dimension. -/
def DIM_MAX : Nat := 16
/-- Largest PVQ pulse count. -/
def K_MAX : Nat := 10
/-- Precision of cumulative frequencies: every table totals 2^FREQ_BITS. -/
def FREQ_BITS : Nat := 10
/-- Symbols of a spectral table. -/
def NSYM_SPEC : Nat := 17
/-- The escape symbol of a spectral table. -/
def ESC : Nat := 16
/-- Number of spectral tables. -/
def NT_CF : Nat := 64
/-- Number of distinct table-selection levels. -/
def LEV_TABLES : Nat := 4
/-- Number of escape symbols a tuple may carry. -/
def LEV_LIMIT : Nat := 14
/-- Largest quantized magnitude: 2^(LEV_LIMIT+2) - 1. -/
def QMAX : Nat := 2 ^ (LEV_LIMIT + 2) - 1
/-- Largest number of TNS filters. -/
def NF_TNS_MAX : Nat := 2
/-- Largest TNS order. -/
def TNS_ORDER_MAX : Nat := 8
/-- Symbols of a TNS coefficient table. -/
def TNS_COEF_SYMS : Nat := 17
/-- Width of the global-gain field of the side information. -/
def GG_BITS : Nat := 8
/-- Iterations of the gain search. -/
def SEARCH_ITERS : Nat := 8
/-- Width of the pitch index field. -/
def PITCH_BITS : Nat := 9
/-- Width of the noise-fill level field. -/
def NF_BITS : Nat := 3
/-- Quantizer rounding offset, Q16. -/
def Q_RND : Nat := 0x8000
/-- Residual step toward zero, Q12. -/
def RES_STEP0 : Nat := 0x300
/-- Residual step away from zero, Q12. -/
def RES_STEP1 : Nat := 0x500
/-- Gain-index steps per decade of amplitude. -/
def GI_PER_DECADE : Nat := 28
/-- Gain-index units per log2 of energy, Q16. -/
def C_G : Int := 276196
/-- Log-energy of an all-zero quadruple, Q16. -/
def LE_ZERO : Int := -(2 ^ 30)
/-- Fixed headroom offset of the log-energy model, Q16. -/
def HEADROOM : Int := 0
/-- Estimator zero threshold, Q16. -/
def T_ZERO : Int := 2949120
/-- Estimator cost of a zero quadruple below a nonzero one, Q16. -/
def C_ZERO : Int := 247726
/-- Estimator segment threshold, Q16. -/
def T_LIN : Int := 3945267
/-- Estimator low-segment constant, Q16. -/
def C_A : Int := 3303014
/-- Estimator high-segment constant, Q16. -/
def C_B : Int := 642253
/-- Estimator bits-to-units factor, Q16. -/
def C_T : Int := 128451
/-- Bound of the temporal-smoothing correction, bits. -/
def OFF_CLAMP : Int := 40
/-- VERSION of PARAM1: major 1, minor 0 (10_state.md R34). -/
def VERSION : Nat := 0x10
/-- The value of ID (10_state.md R32). -/
def ID_VALUE : Nat := 0x50564431

/-! ## Tables (10_state.md R70 to R76) -/

/-- The seven read-only tables. They are configuration, never state (00_scope.md R9). -/
structure Roms where
  /-- LUT_ROM[l][t] (R70). -/
  lut : Nat → Nat → Nat
  /-- CF_ROM[id][s] (R71). -/
  cf : Nat → Nat → Nat
  /-- TNS_ORDER_ROM[w][s] (R72). -/
  tnsOrder : Nat → Nat → Nat
  /-- TNS_COEF_ROM[k][s] (R73). -/
  tnsCoef : Nat → Nat → Nat
  /-- BITCOST_ROM[id][s], Q11 bits (R74). -/
  bitcost : Nat → Nat → Nat
  /-- LOG2_ROM[i], Q16 (R75). -/
  log2 : Nat → Nat
  /-- SCALE_ROM[g] = (SM, SE) (R76). -/
  scale : Int → Nat × Int

/-- What the platform puts into LUT_ROM. The spec leaves it open (92_eei_decisions.md D43): no body.
Machine/Tables.lean reads it through the well-formedness condition of R70. -/
opaque rawLut : Nat → Nat → Nat
/-- What the platform puts into CF_ROM: open, no body. -/
opaque rawCf : Nat → Nat → Nat
/-- What the platform puts into TNS_ORDER_ROM: open, no body. -/
opaque rawTnsOrder : Nat → Nat → Nat
/-- What the platform puts into TNS_COEF_ROM: open, no body. -/
opaque rawTnsCoef : Nat → Nat → Nat

/-! ## Platform (20_memory.md R90, 60_exceptions.md R370) -/

/-- BASE in units of 0x8000: the platform's choice, open (R90). -/
opaque baseUnits : Nat

/-- The base address of the host window, a multiple of 0x8000 (R90). -/
def BASE : Nat := 0x8000 * baseUnits

/-- How `irq` reaches a host processor: an interrupt-controller input and its priority there (R370). -/
structure IrqConnection where
  input : Nat
  priority : Nat
deriving DecidableEq, Repr, Inhabited

/-- IRQ_LINE: the platform's connection of `irq`, open (R370). -/
opaque IRQ_LINE : IrqConnection

/-! ## Free values -/

/-- What a RAM byte that holds no value reads as, where the spec says the read returns an unspecified
value (10_state.md R57, 70_reset_and_hazards.md R391; 93_implementation_defined.md U2): one byte for each
epoch and each window offset. `State.epoch` moves at every write, command and reset, so that two reads
with none of these between them agree (20_memory.md R96) and nothing else is fixed. -/
opaque unspecByte : Nat → Nat → Byte

end Sys2Proof.Config
end

