-- ==== Sys2Proof/Syntax.lean ====
section
/-! DEFINITION. The command words as syntax: one constructor for each row of spec/opcode_table.json
(30_encoding.md R116). -/

namespace Sys2Proof

/-- CLASS of RC_DECSYM, bits [15:14] of its command word (30_encoding.md R117): 0 SPEC, 1 TNS_ORDER,
2 TNS_COEF, 3 UNI2. -/
inductive TableClass where
  | spec
  | tnsOrder
  | tnsCoef
  | uni2
deriving DecidableEq, Repr

/-- The command set (30_encoding.md R116). Only RC_DECSYM has operands: its CLASS and ID (R117). -/
inductive Instr where
  | nop
  | frameStart
  | pvqDeenum
  | pvqShape
  | rcInit
  | rcDecsym (cls : TableClass) (id : Nat)
  | rcDecbit
  | rcDecode
  | gainEst
  | quantize
  | gainAdj
  | resEncode
  | resDecode
  | siUnpack
  | decodeFrame
deriving DecidableEq, Repr

end Sys2Proof
end

