-- ==== Sys2Proof/Machine/State.lean ====
section
/-! DEFINITION. The state of the block (10_state.md), the reasons a step can stop, and the state after
reset (70_reset_and_hazards.md R390, R391). Every register stands under its own name, grouped by unit. A
reserved field reads 0 and ignores writes (R96), so it has no place here. -/

namespace Sys2Proof.Machine

/-! ## Why a step stops -/

/-- The machine stops with a fault. -/
inductive Fault where
  /-- An engine read of PAY[j], j < BYTES_MAX, that the host has not written since reset: the spec asks a
  model for a fault, having no value to give (10_state.md R57). Raised by the engine's payload reads.
  Safe: hardware goes on with an unspecified byte. -/
  | unwrittenPayload (j : Nat)
  /-- An engine read of PAY[j] with j ≥ BYTES_MAX, a byte the block does not hold (00_scope.md R13): only
  RC_DECSYM and RC_DECBIT can ask for one, having no configuration check (10_state.md R41). Safe: the
  model stops where hardware does something the spec does not say. -/
  | payloadBeyondRam (j : Nat)
  /-- An engine read of X[i] that the host has not written since reset (10_state.md R57). Raised by the
  engine's spectrum reads. Safe, as `unwrittenPayload`. -/
  | unwrittenX (i : Nat)
  /-- A host access at an offset outside the 24 KiB window (20_memory.md R90), where the spec says no
  address exists. Raised by a host access, never by a command. Safe: such an access does not reach the
  block. -/
  | outsideWindow (offset : Nat)
deriving DecidableEq, Repr

/-- The model gives no next state. -/
inductive Refusal where
  /-- The instruction has no meaning in this model. No arm of `exec` uses it. Safe. -/
  | notModelled (mnemonic : String)
  /-- A table configuration that fails a well-formedness condition of 10_state.md R70 to R76 is refused
  before the block runs (R77). Raised by `configure`, never by a step. Safe. -/
  | illFormedTables
deriving DecidableEq, Repr

/-! ## Control registers -/

/-- STATUS at 0x014 (R35), less BUSY: BUSY is 1 exactly while a command is pending, which
`State.pending` says. -/
structure Status where
  done : Bool
  err : Bool
  accessErr : Bool
  errcode : BitVec 8
deriving DecidableEq, Repr

/-- FSTAT at 0x018 (R36). -/
structure FrameStatus where
  biterr : Bool
  pvqErr : Bool
  budgetFlag : Bool
  zeroFrame : Bool
  requant : Bool
  bfiSeen : Bool
  siValid : Bool
  rcValid : Bool
  resValid : Bool
  shapeValid : Bool
  gestValid : Bool
  qValid : Bool
  resencValid : Bool
  qCount : BitVec 2
  adjCount : BitVec 2
  biterrCause : BitVec 4
deriving DecidableEq, Repr

/-- IRQ_EN at 0x01C (R37). -/
structure IrqEnable where
  doneIe : Bool
  errIe : Bool
deriving DecidableEq, Repr

/-! ## Configuration registers -/

/-- CFG_MODE at 0x028 (R40). -/
structure Mode where
  bwBits : BitVec 2
  nfTns : BitVec 2
  ratef : Bool
  lsbEn : Bool
  tnsLpcw : Bool
  bfi : Bool
deriving DecidableEq, Repr

/-- The frame configuration registers (R39, R40) and GG_IND (R42). `ggOff`, `xexp`, `resSlack` and
`prevOff` are signed. -/
structure FrameConfig where
  ne : BitVec 10
  nbytes : BitVec 10
  mode : Mode
  xexp : BitVec 8
  ggFloor : BitVec 8
  ggOff : BitVec 8
  target : BitVec 16
  nbitsReal : BitVec 16
  delta : BitVec 16
  consumed : BitVec 16
  resSlack : BitVec 16
  prevOff : BitVec 16
  prevTarget : BitVec 16
  prevActual : BitVec 16
  ggInd : BitVec 8
deriving DecidableEq, Repr

/-- The PVQ operand registers (R43). -/
structure PvqOperands where
  dim : BitVec 5
  k : BitVec 4
  idx : BitVec 32
  ls : Bool
deriving DecidableEq, Repr

/-! ## Result registers -/

/-- The PVQ result registers (R44). `vec` is signed. -/
structure PvqResult where
  size : BitVec 32
  vec : Vector (BitVec 32) 16
deriving DecidableEq, Repr

/-- The gain result registers (R45). `scaleE`, `nbOff` and `tEff` are signed. -/
structure GainResult where
  scaleM : BitVec 16
  scaleE : BitVec 8
  nbOff : BitVec 16
  tEff : BitVec 32
  gestRaw : BitVec 8
deriving DecidableEq, Repr

/-- The quantizer result registers (R46). -/
structure QuantResult where
  lastnz : BitVec 10
  lastnzFull : BitVec 10
  nnz : BitVec 10
  est : BitVec 32
  estFull : BitVec 32
  estLsbFull : BitVec 32
  rawbits : BitVec 32
  lsbMode : Bool
deriving DecidableEq, Repr

/-- The side-information registers (R48). -/
structure SideInfo where
  bw : BitVec 3
  lastnz : BitVec 10
  lsb : Bool
  gg : BitVec 8
  tns : BitVec 2
  pitch : Bool
  snsLf : BitVec 5
  snsHf : BitVec 5
  snsShape : BitVec 2
  snsGain : BitVec 3
  snsLsa : Bool
  snsIdxA : BitVec 24
  snsLsb : Bool
  snsIdxB : BitVec 3
  pitchIdx : BitVec 9
  ltpf : Bool
  nf : BitVec 3
  bits : BitVec 12
  bytes : BitVec 10
deriving DecidableEq, Repr

/-- RC_LOW, RC_RANGE and RC_CURSOR (R50). -/
structure RangeCoder where
  low : BitVec 24
  range : BitVec 24
  cursor : BitVec 10
deriving DecidableEq, Repr

/-- RC_FSM (R52); the host observes only idle, ready, terminal and error. -/
inductive RcFsm where
  | idle
  | ready
  | tnsOrder
  | tnsCoeffs
  | tuple
  | terminal
  | error
  | init
deriving DecidableEq, Repr

/-- The other range-decoder registers (R50) and the TNS result registers (R53). `tnsCoef` holds
TNS_COEF[f][k] at 8·f + k. -/
structure Decoder where
  ctx : BitVec 8
  fsm : RcFsm
  sym : BitVec 5
  bytes : BitVec 10
  tuples : BitVec 9
  tnsOrder : Vector (BitVec 4) 2
  tnsCoef : Vector (BitVec 5) 16
deriving DecidableEq, Repr

/-! ## Memory -/

/-- The five RAMs of the host window (20_memory.md R91) as bytes at their window offsets. Addresses rise
strictly. An unlisted address holds no value (R57), so every entry differs from what an unlisted address
reads as. -/
structure Memory where
  cells : List Host.Cell
deriving DecidableEq, Repr

/-! ## The host's side -/

/-- Width of a host access (20_memory.md R92). -/
inductive Width where
  | byte
  | half
  | word
deriving DecidableEq, Repr

/-- A host bus access at a window offset: MemRead and MemWrite (00_scope.md R13). -/
inductive Access where
  | read (width : Width) (offset : Nat)
  | write (width : Width) (offset : Nat) (value : Word)
deriving DecidableEq, Repr

/-- Who moves next: the host with an access, the engine, or the platform with `rst`. -/
inductive Move where
  | host (a : Access)
  | engine
  | reset
deriving DecidableEq, Repr

/-- What the host's last access was answered with. -/
inductive Response where
  | none
  | data (value : Word)
  | written
  | slverr
deriving DecidableEq, Repr

/-! ## The state -/

/-- The whole state. `agenda`, `response` and `epoch` are the model's own: the moves to come in the order
the platform interleaves them (R382), what the host last observed, and the count that free values depend
on. -/
structure State where
  status : Status
  fstat : FrameStatus
  irqEn : IrqEnable
  cfg : FrameConfig
  pvqIn : PvqOperands
  pvq : PvqResult
  gain : GainResult
  quant : QuantResult
  resNbits : BitVec 10
  si : SideInfo
  coder : RangeCoder
  dec : Decoder
  snsY : Vector (BitVec 32) 16
  mem : Memory
  /-- The pending command word (60_exceptions.md R366); STATUS.BUSY is whether there is one. -/
  pending : Option Word
  agenda : List Move
  response : Response
  epoch : Nat
deriving DecidableEq, Repr

/-- STATUS.BUSY (R35). -/
def State.busy (s : State) : Bool := s.pending.isSome

/-! ## Reset values (R391): every register 0 but the constant ones, which are no state -/

/-- STATUS after reset and after a write that clears all. -/
def Status.zero : Status := { done := false, err := false, accessErr := false, errcode := 0 }

/-- FSTAT with every field 0: after reset and after FRAME_START (R36). -/
def FrameStatus.zero : FrameStatus :=
  { biterr := false, pvqErr := false, budgetFlag := false, zeroFrame := false, requant := false,
    bfiSeen := false, siValid := false, rcValid := false, resValid := false, shapeValid := false,
    gestValid := false, qValid := false, resencValid := false, qCount := 0, adjCount := 0,
    biterrCause := 0 }

/-- CFG_MODE after reset. -/
def Mode.zero : Mode :=
  { bwBits := 0, nfTns := 0, ratef := false, lsbEn := false, tnsLpcw := false, bfi := false }

/-- The configuration registers after reset. -/
def FrameConfig.zero : FrameConfig :=
  { ne := 0, nbytes := 0, mode := Mode.zero, xexp := 0, ggFloor := 0, ggOff := 0, target := 0,
    nbitsReal := 0, delta := 0, consumed := 0, resSlack := 0, prevOff := 0, prevTarget := 0,
    prevActual := 0, ggInd := 0 }

/-- The PVQ results after reset and FRAME_START. -/
def PvqResult.zero : PvqResult := { size := 0, vec := Vector.replicate 16 0 }

/-- The gain results after reset and FRAME_START. -/
def GainResult.zero : GainResult := { scaleM := 0, scaleE := 0, nbOff := 0, tEff := 0, gestRaw := 0 }

/-- The quantizer results after reset and FRAME_START. -/
def QuantResult.zero : QuantResult :=
  { lastnz := 0, lastnzFull := 0, nnz := 0, est := 0, estFull := 0, estLsbFull := 0, rawbits := 0,
    lsbMode := false }

/-- The SI_* registers after reset, FRAME_START and a bad-frame SI_UNPACK. -/
def SideInfo.zero : SideInfo :=
  { bw := 0, lastnz := 0, lsb := false, gg := 0, tns := 0, pitch := false, snsLf := 0, snsHf := 0,
    snsShape := 0, snsGain := 0, snsLsa := false, snsIdxA := 0, snsLsb := false, snsIdxB := 0,
    pitchIdx := 0, ltpf := false, nf := 0, bits := 0, bytes := 0 }

/-- RC_LOW, RC_RANGE and RC_CURSOR after reset and FRAME_START. -/
def RangeCoder.zero : RangeCoder := { low := 0, range := 0, cursor := 0 }

/-- The other decoder registers after reset and FRAME_START. -/
def Decoder.zero : Decoder :=
  { ctx := 0, fsm := .idle, sym := 0, bytes := 0, tuples := 0, tnsOrder := Vector.replicate 2 0,
    tnsCoef := Vector.replicate 16 0 }

/-- SNS_Y after reset and FRAME_START, and for a bad frame. -/
def snsYZero : Vector (BitVec 32) 16 := Vector.replicate 16 0

/-- The block right after reset (R390, R391): every register at its reset value, no command pending,
no RAM element holding a value. -/
def State.reset : State :=
  { status := Status.zero
    fstat := FrameStatus.zero
    irqEn := { doneIe := false, errIe := false }
    cfg := FrameConfig.zero
    pvqIn := { dim := 0, k := 0, idx := 0, ls := false }
    pvq := PvqResult.zero
    gain := GainResult.zero
    quant := QuantResult.zero
    resNbits := 0
    si := SideInfo.zero
    coder := RangeCoder.zero
    dec := Decoder.zero
    snsY := snsYZero
    mem := { cells := [] }
    pending := none
    agenda := []
    response := .none
    epoch := 0 }

end Sys2Proof.Machine
end

