-- ==== Sys2Proof/Machine/Ops.lean ====
section
/-! DEFINITION. The named operations over memory and registers: byte and word access to the RAMs
(20_memory.md R91 to R95), the engine's reads (10_state.md R57), raising a bit error and completing a
command (60_exceptions.md R355, R361, R367), and the interrupt line (R370). -/

namespace Sys2Proof.Machine

/-! ## Bytes and words -/

/-- A bit as a number. -/
def bit (b : Bool) : Nat := if b then 1 else 0

/-- The four bytes of a word, least significant first (R93). -/
def wordBytes (w : Word) : List Byte :=
  [w.extractLsb' 0 8, w.extractLsb' 8 8, w.extractLsb' 16 8, w.extractLsb' 24 8]

/-- The word of four bytes, least significant first (R93). -/
def wordOfBytes (b0 b1 b2 b3 : Byte) : Word := b3 ++ b2 ++ b1 ++ b0

/-- A register array from the value of each index. -/
def vecOfFn {α : Type} (n : Nat) (f : Nat → α) : Vector α n :=
  ⟨⟨(List.range n).map f⟩, by simp⟩

/-! ## Memory -/

/-- The value a list of cells gives an address, if it lists it. -/
def lookupCells : List Host.Cell → Nat → Option Byte
  | [], _ => none
  | (a, b) :: rest, addr => if a = addr then some b else lookupCells rest addr

/-- The byte an address holds. An unlisted address holds no value (R57): this is the ONE definition of
what an unlisted address reads as. -/
def Memory.read (m : Memory) (addr : Nat) : Option Byte := lookupCells m.cells addr

/-- Consecutive cells from an address upward. -/
def cellsFrom : Nat → List Byte → List Host.Cell
  | _, [] => []
  | lo, b :: bs => (lo, b) :: cellsFrom (lo + 1) bs

/-- Stores bytes at consecutive addresses, replacing what stood there. -/
def Memory.store (m : Memory) (lo : Nat) (bs : List Byte) : Memory :=
  { cells :=
      m.cells.filter (fun c => decide (c.1 < lo)) ++ cellsFrom lo bs ++
        m.cells.filter (fun c => decide (lo + bs.length ≤ c.1)) }

/-- Whether addresses rise strictly. -/
def risingCells : List Host.Cell → Bool
  | [] => true
  | [_] => true
  | a :: b :: rest => decide (a.1 < b.1) && risingCells (b :: rest)

/-- The canonical form of a memory: addresses rise strictly. An unlisted address holds no value, so no
entry can equal what an unlisted address reads as. -/
def Memory.wf (m : Memory) : Bool := risingCells m.cells

/-! ## The RAMs (R55, R91) -/

/-- Window offset of PAYLOAD. -/
def PAYLOAD_BASE : Nat := 0x1000
/-- Window offset of X. -/
def X_BASE : Nat := 0x2000
/-- Window offset of XQ. -/
def XQ_BASE : Nat := 0x3000
/-- Window offset of XR. -/
def XR_BASE : Nat := 0x4000
/-- Window offset of RESBUF. -/
def RESBUF_BASE : Nat := 0x5000
/-- Bytes of the window (R90). -/
def WINDOW_BYTES : Nat := 0x6000
/-- Bytes that hold the bits RESBUF[0 .. NE_MAX - 1] (R95). -/
def RESBUF_BYTES : Nat := Config.NE_MAX / 8

/-- Whether an offset lies in one of the RAMs (R91). -/
def inRam (off : Nat) : Bool :=
  decide (PAYLOAD_BASE ≤ off ∧ off < PAYLOAD_BASE + Config.BYTES_MAX) ||
  decide (X_BASE ≤ off ∧ off < X_BASE + 4 * Config.NE_MAX) ||
  decide (XQ_BASE ≤ off ∧ off < XQ_BASE + 4 * Config.NE_MAX) ||
  decide (XR_BASE ≤ off ∧ off < XR_BASE + 4 * Config.NE_MAX) ||
  decide (RESBUF_BASE ≤ off ∧ off < RESBUF_BASE + 52)

/-- A RAM byte as a host access or an XQ read sees it: an element that holds no value gives a free value
(93_implementation_defined.md U2); the bits RESBUF[n] with n ≥ NE_MAX read 0 (R95). -/
def ramByte (s : State) (off : Nat) : Byte :=
  if RESBUF_BASE + RESBUF_BYTES ≤ off then 0
  else (s.mem.read off).getD (Config.unspecByte s.epoch off)

/-- A RAM word as a host access or an XQ read sees it. -/
def ramWord (s : State) (off : Nat) : Word :=
  wordOfBytes (ramByte s off) (ramByte s (off + 1)) (ramByte s (off + 2)) (ramByte s (off + 3))

/-- The engine's read of PAY[j], a fault where the element holds no value (R57). -/
def payByte (s : State) (j : Nat) : Except Fault Nat :=
  if j < Config.BYTES_MAX then
    match s.mem.read (PAYLOAD_BASE + j) with
    | some b => .ok b.toNat
    | none => .error (.unwrittenPayload j)
  else .error (.payloadBeyondRam j)

/-- The engine's read of X[i], a fault where the element holds no value (R57). -/
def xElem (s : State) (i : Nat) : Except Fault Int :=
  match s.mem.read (X_BASE + 4 * i), s.mem.read (X_BASE + 4 * i + 1),
      s.mem.read (X_BASE + 4 * i + 2), s.mem.read (X_BASE + 4 * i + 3) with
  | some b0, some b1, some b2, some b3 => .ok (wordOfBytes b0 b1 b2 b3).toInt
  | _, _, _, _ => .error (.unwrittenX i)

/-- X[from .. from + n - 1], as the engine reads them. -/
def xElems (s : State) : Nat → Nat → Except Fault (List Int)
  | _, 0 => .ok []
  | i, n + 1 =>
    match xElem s i with
    | .error f => .error f
    | .ok x =>
      match xElems s (i + 1) n with
      | .error f => .error f
      | .ok xs => .ok (x :: xs)

/-- The engine's read of XQ[i]. An XQ word is written before any command reads it (R391); in a state no
run reaches it gives the free value. -/
def xqElem (s : State) (i : Nat) : Int := (ramWord s (XQ_BASE + 4 * i)).toInt

/-- XQ[0 .. n - 1]. -/
def xqElems (s : State) (n : Nat) : List Int := (List.range n).map (xqElem s)

/-- The NE_MAX words that a command writes to XQ or XR: the values given, then zeros (R56). Each value is
stored as its low 32 bits (00_scope.md R11). -/
def paddedWords (vs : List Int) : List Byte :=
  (List.range Config.NE_MAX).flatMap fun i => wordBytes (BitVec.ofInt 32 (vs.getD i 0))

/-- Writes XQ, all NE_MAX words (R56). -/
def State.setXq (s : State) (vs : List Int) : State :=
  { s with mem := s.mem.store XQ_BASE (paddedWords vs) }

/-- Writes XR, all NE_MAX words (R56). -/
def State.setXr (s : State) (vs : List Int) : State :=
  { s with mem := s.mem.store XR_BASE (paddedWords vs) }

/-- The byte of eight RESBUF bits: RESBUF[8·k + b] in bit b (R95). -/
def resbufByte (bits : List Bool) (k : Nat) : Byte :=
  BitVec.ofNat 8
    (((List.range 8).map fun b => bit (bits.getD (8 * k + b) false) * 2 ^ b).sum)

/-- Writes RESBUF, all NE_MAX bits: the bits given, then zeros (R292). -/
def State.setResbuf (s : State) (bits : List Bool) : State :=
  { s with mem := s.mem.store RESBUF_BASE ((List.range RESBUF_BYTES).map (resbufByte bits)) }

/-! ## Errors and completion -/

/-- The command errors (60_exceptions.md R352). -/
inductive CmdError where
  | illegalCmd
  | reservedBits
  | configErr
  | seqErr
  | passLimit
  | pvqCfg
  | badArg
deriving DecidableEq, Repr

/-- STATUS.ERRCODE of a command error (R352). -/
def CmdError.code : CmdError → BitVec 8
  | .illegalCmd => 1
  | .reservedBits => 2
  | .configErr => 3
  | .seqErr => 4
  | .passLimit => 5
  | .pvqCfg => 6
  | .badArg => 7

/-- The bit-error causes (60_exceptions.md R360). RES_BUDGET is reserved and never raised. -/
inductive BitError where
  | rcRange
  | rcEsc
  | rcOverrun
  | siOverrun
  | siLastnz
  | pvqIndex
  | resBudget
  | rcTerm
deriving DecidableEq, Repr

/-- FSTAT.BITERR_CAUSE of a bit error (R360). -/
def BitError.code : BitError → BitVec 4
  | .rcRange => 1
  | .rcEsc => 2
  | .rcOverrun => 3
  | .siOverrun => 4
  | .siLastnz => 5
  | .pvqIndex => 6
  | .resBudget => 7
  | .rcTerm => 8

/-- `raise BitError(cause)`: the flag, and the cause if it is the frame's first (R361). -/
def FrameStatus.raise (f : FrameStatus) (e : BitError) : FrameStatus :=
  { f with
    biterr := true
    biterrCause := if f.biterrCause = 0 then e.code else f.biterrCause }

/-- `raise BitError(cause)` on the state (R361): no STATUS bit moves. -/
def State.raise (s : State) (e : BitError) : State := { s with fstat := s.fstat.raise e }

/-- Completion without a command error (R367): BUSY ← 0, DONE ← 1. The free values move on, a command
having run (R96). -/
def State.complete (s : State) : State :=
  { s with
    status := { s.status with done := true }
    pending := none
    epoch := s.epoch + 1 }

/-- TAKING THE BLOCK'S EXCEPTION. The block has no trap (R371): a command error completes the command
with BUSY ← 0, DONE ← 1, ERR ← 1 and ERRCODE ← its code (R367), and changes nothing else (R355). -/
def State.completeError (s : State) (e : CmdError) : State :=
  { s with
    status := { s.status with done := true, err := true, errcode := e.code }
    pending := none
    epoch := s.epoch + 1 }

/-- The command error reported is the first in the order of the list whose condition holds (R354). -/
def firstError : List (Bool × CmdError) → Option CmdError
  | [] => none
  | (true, e) :: _ => some e
  | (false, _) :: rest => firstError rest

/-- One command, from its checks to its completion (R381): the first failing check ends it with no
change; else its body runs and it completes; a read of an element that holds no value stops the model
(R57). -/
def runCommand (checks : List (Bool × CmdError)) (body : State → Except Fault State) (s : State) :
    Host.Outcome State Fault Refusal :=
  match firstError checks with
  | some e => .next (s.completeError e)
  | none =>
    match body s with
    | .ok t => .next t.complete
    | .error f => .fault f

/-- Acceptance of a word written to CMD while BUSY = 0 (R366): DONE, ERR and ERRCODE are cleared,
ACCESS_ERR is unchanged, and the word is pending. -/
def State.accept (s : State) (w : Word) : State :=
  { s with
    status := { s.status with done := false, err := false, errcode := 0 }
    pending := some w }

/-! ## The interrupt line -/

/-- `irq`, a level, at every state (R370). -/
def State.irq (s : State) : Bool :=
  (s.status.done && s.irqEn.doneIe) || (s.status.err && s.irqEn.errIe)

/-- What reaches the host processor: the platform's connection while `irq` is asserted (R370). -/
def State.irqRequest (s : State) : Option Config.IrqConnection :=
  if s.irq then some Config.IRQ_LINE else none

end Sys2Proof.Machine
end

