-- ==== Sys2Proof/Machine/Flags.lean ====
section
/-! DEFINITION. The status registers as words (10_state.md R35 to R37, R40) and the sequencing conditions
over FSTAT and RC_FSM (60_exceptions.md R353). -/

namespace Sys2Proof.Machine

/-- A flag at a bit position of a word. -/
def flagAt (b : Bool) (pos : Nat) : Nat := bit b * 2 ^ pos

/-- STATUS as the host reads it (R35). -/
def State.statusWord (s : State) : Word :=
  BitVec.ofNat 32
    (flagAt s.busy 0 + flagAt s.status.done 1 + flagAt s.status.err 2 + flagAt s.status.accessErr 3 +
      s.status.errcode.toNat * 2 ^ 8)

/-- FSTAT as the host reads it (R36). -/
def FrameStatus.word (f : FrameStatus) : Word :=
  BitVec.ofNat 32
    (flagAt f.biterr 0 + flagAt f.pvqErr 1 + flagAt f.budgetFlag 2 + flagAt f.zeroFrame 3 +
      flagAt f.requant 4 + flagAt f.bfiSeen 5 + flagAt f.siValid 8 + flagAt f.rcValid 9 +
      flagAt f.resValid 10 + flagAt f.shapeValid 11 + flagAt f.gestValid 12 + flagAt f.qValid 13 +
      flagAt f.resencValid 14 + f.qCount.toNat * 2 ^ 16 + f.adjCount.toNat * 2 ^ 18 +
      f.biterrCause.toNat * 2 ^ 20)

/-- IRQ_EN as the host reads it (R37). -/
def IrqEnable.word (e : IrqEnable) : Word := BitVec.ofNat 32 (flagAt e.doneIe 0 + flagAt e.errIe 1)

/-- IRQ_EN from a written word (R37). -/
def IrqEnable.ofWord (w : Word) : IrqEnable := { doneIe := w.getLsbD 0, errIe := w.getLsbD 1 }

/-- CFG_MODE as the host reads it (R40). -/
def Mode.word (m : Mode) : Word :=
  BitVec.ofNat 32
    (m.bwBits.toNat + m.nfTns.toNat * 2 ^ 2 + flagAt m.ratef 4 + flagAt m.lsbEn 5 +
      flagAt m.tnsLpcw 6 + flagAt m.bfi 7)

/-- CFG_MODE from a written word (R40). -/
def Mode.ofWord (w : Word) : Mode :=
  { bwBits := w.extractLsb' 0 2
    nfTns := w.extractLsb' 2 2
    ratef := w.getLsbD 4
    lsbEn := w.getLsbD 5
    tnsLpcw := w.getLsbD 6
    bfi := w.getLsbD 7 }

/-- A write of 1 to W1C bits of STATUS: DONE, ERR (with ERRCODE) and ACCESS_ERR (R35). -/
def Status.clear (st : Status) (w : Word) : Status :=
  { done := st.done && !w.getLsbD 1
    err := st.err && !w.getLsbD 2
    accessErr := st.accessErr && !w.getLsbD 3
    errcode := if w.getLsbD 2 then 0 else st.errcode }

/-- RC_FSM's three-bit code (R52). -/
def RcFsm.code : RcFsm → BitVec 3
  | .idle => 0
  | .ready => 1
  | .tnsOrder => 2
  | .tnsCoeffs => 3
  | .tuple => 4
  | .terminal => 5
  | .error => 6
  | .init => 7

/-! ## Sequencing (R353) -/

/-- RC_INIT is legal. -/
def rcInitLegal (s : State) : Bool := s.fstat.siValid && decide (s.dec.fsm = .idle)

/-- RC_DECSYM and RC_DECBIT are legal. -/
def decsymLegal (s : State) : Bool := decide (s.dec.fsm = .ready)

/-- RC_DECODE is legal. -/
def rcDecodeLegal (s : State) : Bool :=
  (decide (s.dec.fsm = .ready) || decide (s.dec.fsm = .error)) && !s.fstat.rcValid

/-- RES_DECODE is legal. -/
def resDecodeLegal (s : State) : Bool := s.fstat.rcValid && !s.fstat.resValid

/-- PVQ_SHAPE is legal. -/
def pvqShapeLegal (s : State) : Bool := s.fstat.siValid && !s.fstat.shapeValid

/-- QUANTIZE is legal. -/
def quantizeLegal (s : State) : Bool :=
  decide (s.fstat.qCount = 0) ||
  (decide (s.fstat.qCount = 1) && decide (s.fstat.adjCount = 1) && s.fstat.requant)

/-- QUANTIZE ends with PASS_LIMIT, not SEQ_ERR: a third one of the frame (R272). -/
def quantizePastLimit (s : State) : Bool := decide (s.fstat.qCount = 2)

/-- GAIN_ADJ is legal. -/
def gainAdjLegal (s : State) : Bool :=
  (decide (s.fstat.adjCount = 0) && decide (s.fstat.qCount = 1)) ||
  (decide (s.fstat.adjCount = 1) && s.fstat.requant && decide (s.fstat.qCount = 2))

/-- GAIN_ADJ ends with PASS_LIMIT, not SEQ_ERR: a third one of the frame (R272). -/
def gainAdjPastLimit (s : State) : Bool := decide (s.fstat.adjCount = 2)

/-- RES_ENCODE is legal: a quantization exists and none is pending. -/
def resEncodeLegal (s : State) : Bool :=
  s.fstat.qValid && !(s.fstat.requant && decide (s.fstat.qCount = 1))

end Sys2Proof.Machine
end

