-- ==== Sys2Proof/Machine/Operands.lean ====
section
/-! DEFINITION. The operands of the commands: the configuration fields as the numbers the rules compute
with (10_state.md R39, R40), the payload region (30_encoding.md R130), and the configuration and argument
checks (10_state.md R41, 60_exceptions.md R357, 30_encoding.md R117). -/

namespace Sys2Proof.Machine

/-! ## Configuration fields -/

/-- NE, the coded line count. -/
def State.NE (s : State) : Nat := s.cfg.ne.toNat
/-- NBYTES, the frame byte count. -/
def State.NBYTES (s : State) : Nat := s.cfg.nbytes.toNat
/-- NF_TNS, the number of TNS filters. -/
def State.NF_TNS (s : State) : Nat := s.cfg.mode.nfTns.toNat
/-- BW_BITS, the width of the bandwidth field. -/
def State.BW_BITS (s : State) : Nat := s.cfg.mode.bwBits.toNat
/-- X_EXP, the shared exponent, signed. -/
def State.X_EXP (s : State) : Int := s.cfg.xexp.toInt
/-- GG_FLOOR, the gain index floor. -/
def State.GG_FLOOR (s : State) : Nat := s.cfg.ggFloor.toNat
/-- GG_OFF, the gain index offset, signed. -/
def State.GG_OFF (s : State) : Int := s.cfg.ggOff.toInt
/-- TARGET, the spectral bit target. -/
def State.TARGET (s : State) : Nat := s.cfg.target.toNat
/-- GG_IND, the gain index. -/
def State.GG_IND (s : State) : Nat := s.cfg.ggInd.toNat
/-- The gain value g = GG_IND + GG_OFF (43_quantizer_gain.md R241). -/
def State.gainValue (s : State) : Int := (s.GG_IND : Int) + s.GG_OFF

/-! ## The payload region (R130) -/

/-- PB = NBYTES - SI_BYTES. Where the host has made it negative the spec's comparisons with it come out
as with 0, which this is (42_range_decoder.md R191, R193); RES_DECODE takes the signed form. -/
def State.PB (s : State) : Nat := s.NBYTES - s.si.bytes.toNat

/-- PB as the signed number that RES_DECODE computes with (44_residual.md R300). -/
def State.signedPB (s : State) : Int := (s.NBYTES : Int) - (s.si.bytes.toNat : Int)

/-- P(j) = PAY[NBYTES - 1 - j], as the engine reads it (R130, R190). -/
def payloadByte (s : State) (j : Nat) : Except Fault Nat := payByte s (s.NBYTES - 1 - j)

/-! ## Checks -/

/-- NE and NBYTES lie in their legal ranges (10_state.md R39). -/
def geometryOk (s : State) : Bool :=
  decide (4 ≤ s.NE ∧ s.NE ≤ Config.NE_MAX ∧ s.NE % 4 = 0) &&
  decide (Config.NBYTES_MIN ≤ s.NBYTES ∧ s.NBYTES ≤ Config.BYTES_MAX)

/-- The configuration check of the decode commands (R41, R357). -/
def decodeConfigOk (s : State) : Bool :=
  geometryOk s && decide (1 ≤ s.NF_TNS ∧ s.NF_TNS ≤ Config.NF_TNS_MAX)

/-- The configuration check of the encoder commands (R41, R357). -/
def encodeConfigOk (s : State) : Bool :=
  geometryOk s && decide (s.TARGET ≤ 8 * s.NBYTES)

/-- ID is legal for CLASS (30_encoding.md R117). -/
def argLegal (cls : TableClass) (id : Nat) : Bool :=
  match cls with
  | .spec => decide (id < Config.NT_CF)
  | .tnsOrder => decide (id < 2)
  | .tnsCoef => decide (id < Config.TNS_ORDER_MAX)
  | .uni2 => decide (id = 0)

end Sys2Proof.Machine
end

