-- ==== Sys2Proof/Machine/Bus.lean ====
section
/-! DEFINITION. The host window (20_memory.md): the registers by name and offset (10_state.md R32 to R54),
and what a host access reads, writes and answers. -/

namespace Sys2Proof.Machine

/-! ## The registers -/

/-- The registers of the window, each under its own name (R30). -/
inductive Reg where
  | id | param0 | param1 | cmd | status | fstat | irqEn
  | cfgNe | cfgNbytes | cfgMode | cfgXexp | cfgGg | cfgTarget | cfgNbitsReal | cfgDelta
  | cfgConsumed | cfgResSlack | cfgPrevOff | cfgPrevTarget | cfgPrevActual | ggInd
  | pvqDim | pvqK | pvqIdx | pvqLs | pvqSize | pvqVec (i : Fin 16)
  | scaleM | scaleE | nbOff | tEff | lastnz | lastnzFull | nnz | qEst | qEstFull | qEstLsbFull
  | qRawbits | qLsbMode | resNbits | gestRaw
  | siBw | siLastnz | siLsb | siGg | siTns | siPitch | siSnsLf | siSnsHf | siSnsShape | siSnsGain
  | siSnsLsa | siSnsIdxA | siSnsLsb | siSnsIdxB | siPitchIdx | siLtpf | siNf | siBits | siBytes
  | rcLow | rcRange | rcCursor | rcCtx | rcFsm | rcSym | rcBytes | rcTuples
  | tnsOrder (f : Fin 2) | tnsCoef (fk : Fin 16) | snsY (i : Fin 16)
deriving DecidableEq, Repr

/-- The offset of a register (10_state.md R32 to R54). -/
def Reg.offset : Reg → Nat
  | .id => 0x000 | .param0 => 0x004 | .param1 => 0x008 | .cmd => 0x010 | .status => 0x014
  | .fstat => 0x018 | .irqEn => 0x01C | .cfgNe => 0x020 | .cfgNbytes => 0x024 | .cfgMode => 0x028
  | .cfgXexp => 0x02C | .cfgGg => 0x030 | .cfgTarget => 0x034 | .cfgNbitsReal => 0x038
  | .cfgDelta => 0x03C | .cfgConsumed => 0x040 | .cfgResSlack => 0x044 | .cfgPrevOff => 0x048
  | .cfgPrevTarget => 0x04C | .cfgPrevActual => 0x050 | .ggInd => 0x054
  | .pvqDim => 0x060 | .pvqK => 0x064 | .pvqIdx => 0x068 | .pvqLs => 0x06C | .pvqSize => 0x070
  | .pvqVec i => 0x080 + 4 * i.val
  | .scaleM => 0x0C0 | .scaleE => 0x0C4 | .nbOff => 0x0C8 | .tEff => 0x0CC | .lastnz => 0x0D0
  | .lastnzFull => 0x0D4 | .nnz => 0x0D8 | .qEst => 0x0DC | .qEstFull => 0x0E0
  | .qEstLsbFull => 0x0E4 | .qRawbits => 0x0E8 | .qLsbMode => 0x0EC | .resNbits => 0x0F0
  | .gestRaw => 0x0F4
  | .siBw => 0x100 | .siLastnz => 0x104 | .siLsb => 0x108 | .siGg => 0x10C | .siTns => 0x110
  | .siPitch => 0x114 | .siSnsLf => 0x118 | .siSnsHf => 0x11C | .siSnsShape => 0x120
  | .siSnsGain => 0x124 | .siSnsLsa => 0x128 | .siSnsIdxA => 0x12C | .siSnsLsb => 0x130
  | .siSnsIdxB => 0x134 | .siPitchIdx => 0x138 | .siLtpf => 0x13C | .siNf => 0x140
  | .siBits => 0x144 | .siBytes => 0x148
  | .rcLow => 0x160 | .rcRange => 0x164 | .rcCursor => 0x168 | .rcCtx => 0x16C | .rcFsm => 0x170
  | .rcSym => 0x174 | .rcBytes => 0x178 | .rcTuples => 0x17C
  | .tnsOrder f => 0x180 + 4 * f.val
  | .tnsCoef fk => 0x1A0 + 4 * fk.val
  | .snsY i => 0x1E0 + 4 * i.val

/-- The control, configuration and PVQ operand registers, and PVQ_SIZE. -/
def regsLow : List Reg :=
  [.id, .param0, .param1, .cmd, .status, .fstat, .irqEn, .cfgNe, .cfgNbytes, .cfgMode, .cfgXexp,
    .cfgGg, .cfgTarget, .cfgNbitsReal, .cfgDelta, .cfgConsumed, .cfgResSlack, .cfgPrevOff,
    .cfgPrevTarget, .cfgPrevActual, .ggInd, .pvqDim, .pvqK, .pvqIdx, .pvqLs, .pvqSize]

/-- The scalar result registers. -/
def regsHigh : List Reg :=
  [.scaleM, .scaleE, .nbOff, .tEff, .lastnz, .lastnzFull, .nnz, .qEst, .qEstFull, .qEstLsbFull,
    .qRawbits, .qLsbMode, .resNbits, .gestRaw, .siBw, .siLastnz, .siLsb, .siGg, .siTns, .siPitch,
    .siSnsLf, .siSnsHf, .siSnsShape, .siSnsGain, .siSnsLsa, .siSnsIdxA, .siSnsLsb, .siSnsIdxB,
    .siPitchIdx, .siLtpf, .siNf, .siBits, .siBytes, .rcLow, .rcRange, .rcCursor, .rcCtx, .rcFsm,
    .rcSym, .rcBytes, .rcTuples]

/-- The register arrays. -/
def regArrays : List Reg :=
  (List.finRange 16).map Reg.pvqVec ++ (List.finRange 2).map Reg.tnsOrder ++
    (List.finRange 16).map Reg.tnsCoef ++ (List.finRange 16).map Reg.snsY

/-- Every register. -/
def allRegs : List Reg := regsLow ++ regsHigh ++ regArrays

/-- The register at an offset; none where the offset is reserved (R91, R97). -/
def Reg.ofOffset (off : Nat) : Option Reg := allRegs.find? fun r => decide (r.offset = off)

/-- An unsigned field as a word. -/
def zext {n : Nat} (v : BitVec n) : Word := v.setWidth 32

/-- A signed field as a word, read back sign-extended (10_state.md, head of the file). -/
def sext {n : Nat} (v : BitVec n) : Word := v.signExtend 32

/-- A one-bit field as a word. -/
def flagWord (b : Bool) : Word := BitVec.ofNat 32 (bit b)

/-- PARAM0 (R33). -/
def param0Word : Word :=
  BitVec.ofNat 32
    (Config.NE_MAX + Config.BYTES_MAX * 2 ^ 10 + Config.DIM_MAX * 2 ^ 20 + Config.K_MAX * 2 ^ 25)

/-- PARAM1 (R34). -/
def param1Word : Word :=
  BitVec.ofNat 32
    (Config.LEV_LIMIT + Config.LEV_TABLES * 2 ^ 5 + Config.FREQ_BITS * 2 ^ 8 + Config.NT_CF * 2 ^ 12 +
      Config.VERSION * 2 ^ 24)

/-- A register as the host reads it: reserved fields 0, signed fields sign-extended, CMD 0 (R96). In
CFG_GG the signed field GG_OFF is the upper one, and its sign goes on above it. -/
def Reg.read (s : State) : Reg → Word
  | .id => BitVec.ofNat 32 Config.ID_VALUE
  | .param0 => param0Word
  | .param1 => param1Word
  | .cmd => 0
  | .status => s.statusWord
  | .fstat => s.fstat.word
  | .irqEn => s.irqEn.word
  | .cfgNe => zext s.cfg.ne
  | .cfgNbytes => zext s.cfg.nbytes
  | .cfgMode => s.cfg.mode.word
  | .cfgXexp => sext s.cfg.xexp
  | .cfgGg => sext (s.cfg.ggOff ++ s.cfg.ggFloor)
  | .cfgTarget => zext s.cfg.target
  | .cfgNbitsReal => zext s.cfg.nbitsReal
  | .cfgDelta => zext s.cfg.delta
  | .cfgConsumed => zext s.cfg.consumed
  | .cfgResSlack => sext s.cfg.resSlack
  | .cfgPrevOff => sext s.cfg.prevOff
  | .cfgPrevTarget => zext s.cfg.prevTarget
  | .cfgPrevActual => zext s.cfg.prevActual
  | .ggInd => zext s.cfg.ggInd
  | .pvqDim => zext s.pvqIn.dim
  | .pvqK => zext s.pvqIn.k
  | .pvqIdx => s.pvqIn.idx
  | .pvqLs => flagWord s.pvqIn.ls
  | .pvqSize => s.pvq.size
  | .pvqVec i => s.pvq.vec[i]
  | .scaleM => zext s.gain.scaleM
  | .scaleE => sext s.gain.scaleE
  | .nbOff => sext s.gain.nbOff
  | .tEff => s.gain.tEff
  | .lastnz => zext s.quant.lastnz
  | .lastnzFull => zext s.quant.lastnzFull
  | .nnz => zext s.quant.nnz
  | .qEst => s.quant.est
  | .qEstFull => s.quant.estFull
  | .qEstLsbFull => s.quant.estLsbFull
  | .qRawbits => s.quant.rawbits
  | .qLsbMode => flagWord s.quant.lsbMode
  | .resNbits => zext s.resNbits
  | .gestRaw => zext s.gain.gestRaw
  | .siBw => zext s.si.bw
  | .siLastnz => zext s.si.lastnz
  | .siLsb => flagWord s.si.lsb
  | .siGg => zext s.si.gg
  | .siTns => zext s.si.tns
  | .siPitch => flagWord s.si.pitch
  | .siSnsLf => zext s.si.snsLf
  | .siSnsHf => zext s.si.snsHf
  | .siSnsShape => zext s.si.snsShape
  | .siSnsGain => zext s.si.snsGain
  | .siSnsLsa => flagWord s.si.snsLsa
  | .siSnsIdxA => zext s.si.snsIdxA
  | .siSnsLsb => flagWord s.si.snsLsb
  | .siSnsIdxB => zext s.si.snsIdxB
  | .siPitchIdx => zext s.si.pitchIdx
  | .siLtpf => flagWord s.si.ltpf
  | .siNf => zext s.si.nf
  | .siBits => zext s.si.bits
  | .siBytes => zext s.si.bytes
  | .rcLow => zext s.coder.low
  | .rcRange => zext s.coder.range
  | .rcCursor => zext s.coder.cursor
  | .rcCtx => zext s.dec.ctx
  | .rcFsm => zext s.dec.fsm.code
  | .rcSym => zext s.dec.sym
  | .rcBytes => zext s.dec.bytes
  | .rcTuples => zext s.dec.tuples
  | .tnsOrder f => zext s.dec.tnsOrder[f]
  | .tnsCoef fk => zext s.dec.tnsCoef[fk]
  | .snsY i => s.snsY[i]

/-- A host write to a register with no command running: a configuration or operand register stores the
bits of its fields (R39, R40, R42, R43), IRQ_EN its enables, STATUS clears its W1C bits (R35), CMD
accepts the word (R366); every other register is read-only and ignores it (R96). -/
def Reg.write (s : State) (w : Word) : Reg → State
  | .cmd => s.accept w
  | .status => { s with status := s.status.clear w }
  | .irqEn => { s with irqEn := IrqEnable.ofWord w }
  | .cfgNe => { s with cfg := { s.cfg with ne := w.setWidth 10 } }
  | .cfgNbytes => { s with cfg := { s.cfg with nbytes := w.setWidth 10 } }
  | .cfgMode => { s with cfg := { s.cfg with mode := Mode.ofWord w } }
  | .cfgXexp => { s with cfg := { s.cfg with xexp := w.setWidth 8 } }
  | .cfgGg =>
    { s with cfg := { s.cfg with ggFloor := w.extractLsb' 0 8, ggOff := w.extractLsb' 8 8 } }
  | .cfgTarget => { s with cfg := { s.cfg with target := w.setWidth 16 } }
  | .cfgNbitsReal => { s with cfg := { s.cfg with nbitsReal := w.setWidth 16 } }
  | .cfgDelta => { s with cfg := { s.cfg with delta := w.setWidth 16 } }
  | .cfgConsumed => { s with cfg := { s.cfg with consumed := w.setWidth 16 } }
  | .cfgResSlack => { s with cfg := { s.cfg with resSlack := w.setWidth 16 } }
  | .cfgPrevOff => { s with cfg := { s.cfg with prevOff := w.setWidth 16 } }
  | .cfgPrevTarget => { s with cfg := { s.cfg with prevTarget := w.setWidth 16 } }
  | .cfgPrevActual => { s with cfg := { s.cfg with prevActual := w.setWidth 16 } }
  | .ggInd => { s with cfg := { s.cfg with ggInd := w.setWidth 8 } }
  | .pvqDim => { s with pvqIn := { s.pvqIn with dim := w.setWidth 5 } }
  | .pvqK => { s with pvqIn := { s.pvqIn with k := w.setWidth 4 } }
  | .pvqIdx => { s with pvqIn := { s.pvqIn with idx := w } }
  | .pvqLs => { s with pvqIn := { s.pvqIn with ls := w.getLsbD 0 } }
  | .id => s | .param0 => s | .param1 => s | .fstat => s
  | .pvqSize => s | .pvqVec _ => s
  | .scaleM => s | .scaleE => s | .nbOff => s | .tEff => s | .lastnz => s | .lastnzFull => s
  | .nnz => s | .qEst => s | .qEstFull => s | .qEstLsbFull => s | .qRawbits => s | .qLsbMode => s
  | .resNbits => s | .gestRaw => s
  | .siBw => s | .siLastnz => s | .siLsb => s | .siGg => s | .siTns => s | .siPitch => s
  | .siSnsLf => s | .siSnsHf => s | .siSnsShape => s | .siSnsGain => s | .siSnsLsa => s
  | .siSnsIdxA => s | .siSnsLsb => s | .siSnsIdxB => s | .siPitchIdx => s | .siLtpf => s
  | .siNf => s | .siBits => s | .siBytes => s
  | .rcLow => s | .rcRange => s | .rcCursor => s | .rcCtx => s | .rcFsm => s | .rcSym => s
  | .rcBytes => s | .rcTuples => s | .tnsOrder _ => s | .tnsCoef _ => s | .snsY _ => s

/-- The registers the host may read while a command runs (R99). -/
def Reg.readableWhileBusy : Reg → Bool
  | .id => true | .param0 => true | .param1 => true | .status => true | .fstat => true
  | .irqEn => true
  | _ => false

/-- The registers the host may write while a command runs (R99). -/
def Reg.writableWhileBusy : Reg → Bool
  | .status => true | .irqEn => true
  | _ => false

/-! ## Places of the window -/

/-- What an offset names (R91). -/
inductive Place where
  | reg (r : Reg)
  | ram
  | reserved
deriving DecidableEq, Repr

/-- The window map (R91). -/
def placeOf (off : Nat) : Place :=
  match Reg.ofOffset off with
  | some r => .reg r
  | none => if inRam off then .ram else .reserved

/-- Whether the host may write a RAM offset: PAYLOAD and X (R55). -/
def ramWritable (off : Nat) : Bool := decide (off < XQ_BASE)

/-- A rejected access, or one at a reserved offset: ACCESS_ERR ← 1 (R97, R99). -/
def State.accessError (s : State) : State := { s with status := { s.status with accessErr := true } }

/-! ## Host accesses -/

/-- A 32-bit aligned read (R96, R97, R99): the state it leaves and the word it answers. -/
def hostRead (off : Nat) (s : State) : State × Word :=
  match placeOf off with
  | .reg r =>
    if s.busy = true ∧ r.readableWhileBusy = false then (s.accessError, 0) else (s, r.read s)
  | .ram => if s.busy then (s.accessError, 0) else (s, ramWord s off)
  | .reserved => (s.accessError, 0)

/-- A 32-bit aligned write (R93, R94, R96, R97, R99). -/
def hostWrite (off : Nat) (w : Word) (s : State) : State :=
  match placeOf off with
  | .reg r => if s.busy = true ∧ r.writableWhileBusy = false then s.accessError else r.write s w
  | .ram =>
    if s.busy then s.accessError
    else if ramWritable off then { s with mem := s.mem.store off (wordBytes w) }
    else s
  | .reserved => s.accessError

/-- An access of 32 bits at a multiple of 4 (R92). -/
def aligned (w : Width) (off : Nat) : Bool := decide (w = .word) && decide (off % 4 = 0)

/-- One host access (R92): outside the window there is no address; of another width or unaligned it is
answered with SLVERR and changes no state of the block; else it is done, and a write moves the free
values on (R96). -/
def hostStep (a : Access) (s : State) : Host.Outcome State Fault Refusal :=
  match a with
  | .read width off =>
    if WINDOW_BYTES ≤ off then .fault (.outsideWindow off)
    else if aligned width off then
      .next { (hostRead off s).1 with response := .data (hostRead off s).2 }
    else .next { s with response := .slverr }
  | .write width off w =>
    if WINDOW_BYTES ≤ off then .fault (.outsideWindow off)
    else if aligned width off then
      .next { hostWrite off w s with response := .written, epoch := s.epoch + 1 }
    else .next { s with response := .slverr }

/-! ## Host programs (30_encoding.md R121) -/

/-- WR off, val. -/
def wr (off : Nat) (w : Word) : Move := .host (.write .word off w)

/-- RD off. -/
def rd (off : Nat) : Move := .host (.read .word off)

/-- CMD: a write of a command word to CMD. -/
def cmdWord (w : Word) : Move := wr Reg.cmd.offset w

/-- WAIT, as a loop of reads of STATUS that the engine step comes before: one read then sees BUSY = 0. -/
def waitDone : List Move := [.engine, rd Reg.status.offset]

/-- RUN: CMD, then WAIT. -/
def run (w : Word) : List Move := cmdWord w :: waitDone

/-- CLR: clear DONE, ERR and ACCESS_ERR. -/
def clr : Move := wr Reg.status.offset 0x0000000E#32

/-- PAY j: word writes of the PAYLOAD window from byte j, a multiple of 4, on, the last word padded with
0. -/
def pay (j : Nat) : List Byte → List Move
  | [] => []
  | b0 :: b1 :: b2 :: b3 :: rest =>
    wr (PAYLOAD_BASE + j) (wordOfBytes b0 b1 b2 b3) :: pay (j + 4) rest
  | [b0, b1, b2] => [wr (PAYLOAD_BASE + j) (wordOfBytes b0 b1 b2 0)]
  | [b0, b1] => [wr (PAYLOAD_BASE + j) (wordOfBytes b0 b1 0 0)]
  | [b0] => [wr (PAYLOAD_BASE + j) (wordOfBytes b0 0 0 0)]

end Sys2Proof.Machine
end

