-- ==== Sys2Proof/WellFormed.lean ====
section
/-! DEFINITION. Which terms of `Instr` a command word can hold (30_encoding.md R115, R117). -/

namespace Sys2Proof

/-- Each operand fits its field: ID of RC_DECSYM has six bits (R117). Whether the ID is legal for its
CLASS is no matter of the encoding: an ID outside the legal range decodes, and the command then ends
with BAD_ARG (R117, R352). -/
def Instr.wellFormed : Instr → Bool
  | .rcDecsym _ id => decide (id < 64)
  | .nop => true
  | .frameStart => true
  | .pvqDeenum => true
  | .pvqShape => true
  | .rcInit => true
  | .rcDecbit => true
  | .rcDecode => true
  | .gainEst => true
  | .quantize => true
  | .gainAdj => true
  | .resEncode => true
  | .resDecode => true
  | .siUnpack => true
  | .decodeFrame => true

end Sys2Proof
end

