-- ==== Sys2Proof/Decode.lean ====
section
/-! DEFINITION. Reading and writing command words (30_encoding.md R115 to R120). -/

namespace Sys2Proof

/-- Why a word is no command: its opcode is not in the map (R119), or it is a defined command with a
reserved bit set (R118). The engine turns each into the command error of its name (60_exceptions.md
R352, R356); neither stops the machine. -/
inductive DecodeError where
  | illegalCmd
  | reservedBits
deriving DecidableEq, Repr

/-- OPC, bits [7:0] (R115). -/
def opcField (w : Word) : Nat := w.toNat % 256

/-- ARG, bits [15:8] (R115). -/
def argField (w : Word) : Nat := w.toNat / 256 % 256

/-- The reserved bits [31:16] (R115). -/
def reservedField (w : Word) : Nat := w.toNat / 65536

/-- CLASS by its two-bit code (R117). -/
def TableClass.ofCode (n : Nat) : TableClass :=
  match n % 4 with
  | 0 => .spec
  | 1 => .tnsOrder
  | 2 => .tnsCoef
  | _ => .uni2

/-- The two-bit code of CLASS (R117). -/
def TableClass.code : TableClass → Nat
  | .spec => 0
  | .tnsOrder => 1
  | .tnsCoef => 2
  | .uni2 => 3

/-- The opcode map (R116): the command of an opcode, RC_DECSYM taking CLASS and ID from ARG (R117). -/
def ofOpcode (opc arg : Nat) : Option Instr :=
  match opc with
  | 0x00 => some .nop
  | 0x01 => some .frameStart
  | 0x10 => some .pvqDeenum
  | 0x11 => some .pvqShape
  | 0x20 => some .rcInit
  | 0x21 => some (.rcDecsym (TableClass.ofCode (arg / 64)) (arg % 64))
  | 0x22 => some .rcDecbit
  | 0x23 => some .rcDecode
  | 0x30 => some .gainEst
  | 0x31 => some .quantize
  | 0x32 => some .gainAdj
  | 0x40 => some .resEncode
  | 0x41 => some .resDecode
  | 0x50 => some .siUnpack
  | 0x60 => some .decodeFrame
  | _ => none

/-- The opcode of a command (R116). -/
def Instr.opcode : Instr → Nat
  | .nop => 0x00
  | .frameStart => 0x01
  | .pvqDeenum => 0x10
  | .pvqShape => 0x11
  | .rcInit => 0x20
  | .rcDecsym _ _ => 0x21
  | .rcDecbit => 0x22
  | .rcDecode => 0x23
  | .gainEst => 0x30
  | .quantize => 0x31
  | .gainAdj => 0x32
  | .resEncode => 0x40
  | .resDecode => 0x41
  | .siUnpack => 0x50
  | .decodeFrame => 0x60

/-- The argument byte of a command: CLASS and ID of RC_DECSYM, else 0 (R117, R118). -/
def Instr.arg : Instr → Nat
  | .rcDecsym cls id => cls.code * 64 + id
  | .nop => 0
  | .frameStart => 0
  | .pvqDeenum => 0
  | .pvqShape => 0
  | .rcInit => 0
  | .rcDecbit => 0
  | .rcDecode => 0
  | .gainEst => 0
  | .quantize => 0
  | .gainAdj => 0
  | .resEncode => 0
  | .resDecode => 0
  | .siUnpack => 0
  | .decodeFrame => 0

/-- Whether a command reads its argument byte; every other command must have it 0 (R118). -/
def Instr.takesArg : Instr → Bool
  | .rcDecsym _ _ => true
  | .nop => false
  | .frameStart => false
  | .pvqDeenum => false
  | .pvqShape => false
  | .rcInit => false
  | .rcDecbit => false
  | .rcDecode => false
  | .gainEst => false
  | .quantize => false
  | .gainAdj => false
  | .resEncode => false
  | .resDecode => false
  | .siUnpack => false
  | .decodeFrame => false

/-- Reads a command word, total on every word: an unknown opcode is told first, then a reserved bit
(R118, R119; the order is 60_exceptions.md R354). -/
def decode (w : Word) : Except DecodeError Instr :=
  match ofOpcode (opcField w) (argField w) with
  | none => .error .illegalCmd
  | some i =>
    if reservedField w ≠ 0 ∨ (i.takesArg = false ∧ argField w ≠ 0) then .error .reservedBits
    else .ok i

/-- The command word of a well-formed command (R115, R120). -/
def encode (i : Instr) : Word := BitVec.ofNat 32 (i.opcode + 256 * i.arg)

/-- The command that `decode` reads from a row's bits, `w` numbered as spec/opcode_table.json numbers
them. A command word is one 32-bit word (R115), so bits above `nbits` are 0 and no byte order enters. -/
def decodeTableWord (nbits w : Nat) : Option Instr :=
  match decode (BitVec.ofNat 32 (w % 2 ^ nbits)) with
  | .ok i => some i
  | .error _ => none

end Sys2Proof
end

