-- ==== Sys2Proof/Machine/Control.lean ====
section
/-! DEFINITION. The control commands NOP and FRAME_START (40_control.md). -/

namespace Sys2Proof.Machine

/-- NOP: only the completion (R150). -/
def execNop (s : State) : Host.Outcome State Fault Refusal :=
  runCommand [] (fun s => .ok s) s

/-- The body of FRAME_START (R151): the frame status, the decoder, every result register and the RAMs XQ,
XR and RESBUF are cleared; configuration, operands, IRQ_EN, PAYLOAD and X stay. -/
def frameStartBody (s : State) : State :=
  let cleared : State :=
    { s with
      fstat := FrameStatus.zero
      pvq := PvqResult.zero
      gain := GainResult.zero
      quant := QuantResult.zero
      resNbits := 0
      si := SideInfo.zero
      coder := RangeCoder.zero
      dec := Decoder.zero
      snsY := snsYZero }
  ((cleared.setXq []).setXr []).setResbuf []

/-- FRAME_START, legal in every state (R151). -/
def execFrameStart (s : State) : Host.Outcome State Fault Refusal :=
  runCommand [] (fun s => .ok (frameStartBody s)) s

end Sys2Proof.Machine
end

