-- ==== Sys2Proof/Machine/Pvq.lean ====
section
/-! DEFINITION. PVQ de-enumeration (41_pvq.md): shell sizes, the walk, PVQ_DEENUM and PVQ_SHAPE. -/

namespace Sys2Proof.Machine

/-! ## Shell sizes -/

/-- Row d from row d - 1 (R160): the entries from the left, each the sum of the one above it, the one to
its left and the one above that; `left` and `corner` are the last two. -/
def shellScan (left corner : Nat) : List Nat → List Nat
  | [] => []
  | above :: rest => (above + left + corner) :: shellScan (above + left + corner) above rest

/-- The row N(d, 0), …, N(d, k) (R160). -/
def shellRow (k : Nat) : Nat → List Nat
  | 0 => 1 :: List.replicate k 0
  | d + 1 =>
    match shellRow k d with
    | [] => []
    | corner :: rest => 1 :: shellScan 1 corner rest

/-- The shell size N(d, k): the integer vectors of dimension d with absolute values summing to k
(R160). -/
def shellSize (d k : Nat) : Nat := (shellRow k d).getD k 0

/-- The MPVQ size M(d, k), the bound of the index (R161). -/
def mpvqSize (d k : Nat) : Nat := if k = 0 then 1 else shellSize d k / 2

/-! ## The walk (R166) -/

/-- The candidates before the leading coordinate is placed: magnitudes a, a - 1, …, 1, each with its
block of N(rem, kr - a) indices. Answers the magnitude taken, 0 for none, and the residual index. -/
def pickLead (rem kr : Nat) : Nat → Nat → Nat × Nat
  | 0, r => (0, r)
  | a + 1, r =>
    if r < shellSize rem (kr - (a + 1)) then (a + 1, r)
    else pickLead rem kr a (r - shellSize rem (kr - (a + 1)))

/-- The candidates after it: +a, -a, +(a - 1), …, -1. -/
def pickSigned (rem kr : Nat) : Nat → Nat → Int × Nat
  | 0, r => (0, r)
  | a + 1, r =>
    let cnt := shellSize rem (kr - (a + 1))
    if r < cnt then ((a + 1 : Nat), r)
    else if r - cnt < cnt then (-((a + 1 : Nat) : Int), r - cnt)
    else pickSigned rem kr a (r - cnt - cnt)

/-- The walk over n remaining coordinates with residual index r and kr pulses left; `lead` says whether
the leading coordinate is placed. -/
def deenumWalk (ls : Bool) : Nat → Nat → Nat → Bool → List Int
  | 0, _, _, _ => []
  | n + 1, r, kr, false =>
    let (a, r') := pickLead n kr kr r
    (if ls then -(a : Int) else (a : Int)) :: deenumWalk ls n r' (kr - a) (decide (a ≠ 0))
  | n + 1, r, kr, true =>
    let (v, r') := pickSigned n kr kr r
    v :: deenumWalk ls n r' (kr - v.natAbs) true

/-- deenum(I, LS, d, k): the vector and the error flag (R166). An index out of range gives the vector of
index 0 with leading sign 0 (R168). -/
def deenum (I : Nat) (ls : Bool) (d k : Nat) : List Int × Bool :=
  if mpvqSize d k ≤ I then (deenumWalk false d 0 k false, true)
  else (deenumWalk ls d I k false, false)

/-! ## PVQ_DEENUM -/

/-- The body of PVQ_DEENUM (R165). -/
def pvqDeenumBody (s : State) : State :=
  let d := s.pvqIn.dim.toNat
  let k := s.pvqIn.k.toNat
  let (v, err) := deenum s.pvqIn.idx.toNat s.pvqIn.ls d k
  let t : State :=
    { s with
      pvq :=
        { size := BitVec.ofNat 32 (mpvqSize d k)
          vec := vecOfFn 16 fun i => BitVec.ofInt 32 (v.getD i 0) } }
  if err then State.raise { t with fstat := { t.fstat with pvqErr := true } } .pvqIndex else t

/-- PVQ_DIM and PVQ_K lie in their legal ranges (R165). -/
def pvqConfigOk (s : State) : Bool :=
  decide (1 ≤ s.pvqIn.dim.toNat ∧ s.pvqIn.dim.toNat ≤ Config.DIM_MAX ∧
    s.pvqIn.k.toNat ≤ Config.K_MAX)

/-- PVQ_DEENUM, legal at every point of a frame (R165). -/
def execPvqDeenum (s : State) : Host.Outcome State Fault Refusal :=
  runCommand [(!pvqConfigOk s, .pvqCfg)] (fun s => .ok (pvqDeenumBody s)) s

/-! ## PVQ_SHAPE -/

/-- Section A of submode j: its dimension and pulse count (R175). -/
def shapeSectionA (j : Nat) : Nat × Nat :=
  match j with
  | 0 => (10, 10)
  | 1 => (10, 10)
  | 2 => (16, 8)
  | _ => (16, 6)

/-- The shape vector of the side information, with whether a section's index is out of range (R176):
section A from coordinate 0, and for submode 0 section B, of dimension 6 with 1 pulse, from coordinate
10. -/
def shapeVector (si : SideInfo) : List Int × Bool :=
  let (dA, kA) := shapeSectionA si.snsShape.toNat
  let (vA, eA) := deenum si.snsIdxA.toNat si.snsLsa dA kA
  if si.snsShape = 0 then
    let (vB, eB) := deenum si.snsIdxB.toNat si.snsLsb 6 1
    (vA ++ vB, eA || eB)
  else (vA, eA)

/-- The body of PVQ_SHAPE (R176). -/
def pvqShapeBody (s : State) : State :=
  if s.cfg.mode.bfi then
    { s with
      snsY := snsYZero
      fstat := { s.fstat with bfiSeen := true, shapeValid := true } }
  else
    let (y, err) := shapeVector s.si
    let fstat :=
      if err then ({ s.fstat with pvqErr := true } : FrameStatus).raise .pvqIndex else s.fstat
    { s with
      snsY := vecOfFn 16 fun i => BitVec.ofInt 32 (y.getD i 0)
      fstat := { fstat with shapeValid := true } }

/-- PVQ_SHAPE (R176). -/
def execPvqShape (s : State) : Host.Outcome State Fault Refusal :=
  runCommand [(!decodeConfigOk s, .configErr), (!pvqShapeLegal s, .seqErr)]
    (fun s => .ok (pvqShapeBody s)) s

end Sys2Proof.Machine
end

