-- ==== Sys2Proof/Machine/Tables.lean ====
section
/-! DEFINITION. The read-only tables: their well-formedness conditions (10_state.md R70 to R76), the
refusal of a configuration that fails one (R77), the default contents (R74 to R76), and the block's own
tables. -/

namespace Sys2Proof.Machine

open Config (Roms)

/-! ## Well-formedness -/

/-- A cumulative-frequency table of n symbols: 0 first, 2^FREQ_BITS last, nondecreasing (R71). -/
def cumWf (cum : Nat → Nat) (n : Nat) : Bool :=
  decide (cum 0 = 0) && decide (cum n = 2 ^ Config.FREQ_BITS) &&
    (List.range n).all fun s => decide (cum s ≤ cum (s + 1))

/-- Whether S(g) ≤ S(h) for two SCALE_ROM entries, S = SM · 2^(SE - 15) (R76), compared exactly. -/
def scaleLe (a b : Nat × Int) : Bool :=
  decide (a.1 * 2 ^ (a.2 - min a.2 b.2).toNat ≤ b.1 * 2 ^ (b.2 - min a.2 b.2).toNat)

/-- SCALE_ROM's index of position n: g = n - 128, for g = -128 .. 382 (R76). -/
def scaleIndex (n : Nat) : Int := (n : Int) - 128

/-- The conditions of R70 to R76 on all seven tables. -/
def romsWf (r : Roms) : Bool :=
  ((List.range Config.LEV_TABLES).all fun l =>
    (List.range 1024).all fun t => decide (r.lut l t < Config.NT_CF)) &&
  ((List.range Config.NT_CF).all fun id => cumWf (r.cf id) Config.NSYM_SPEC) &&
  ((List.range 2).all fun w => cumWf (r.tnsOrder w) Config.TNS_ORDER_MAX) &&
  ((List.range Config.TNS_ORDER_MAX).all fun k => cumWf (r.tnsCoef k) Config.TNS_COEF_SYMS) &&
  ((List.range Config.NT_CF).all fun id =>
    (List.range Config.NSYM_SPEC).all fun s => decide (r.bitcost id s < 2 ^ 16)) &&
  ((List.range 256).all fun i => decide (r.log2 i < 2 ^ 16)) &&
  ((List.range 511).all fun n =>
    decide (0x8000 ≤ (r.scale (scaleIndex n)).1 ∧ (r.scale (scaleIndex n)).1 ≤ 0xFFFF) &&
    decide (-128 ≤ (r.scale (scaleIndex n)).2 ∧ (r.scale (scaleIndex n)).2 ≤ 127)) &&
  (List.range 510).all fun n => scaleLe (r.scale (scaleIndex n)) (r.scale (scaleIndex (n + 1)))

/-- The check of a table configuration before the block runs: one that fails a condition is refused
(R77). -/
def configure (r : Roms) : Host.Outcome Roms Fault Refusal :=
  if romsWf r then .next r else .refused .illFormedTables

/-! ## Default contents -/

/-- The largest m < 2^n with p m, for a p that holds up to some point and no further: bit by bit from
the top. -/
def searchBits (p : Nat → Bool) : Nat → Nat → Nat
  | 0, m => m
  | n + 1, m => if p (m + 2 ^ n) then searchBits p n (m + 2 ^ n) else searchBits p n m

/-- The position of the leading 1 of N, for 0 < N < 2^(2^21), by comparison with powers of 2. -/
def floorLog2 (N : Nat) : Nat := searchBits (fun m => decide (2 ^ m ≤ N)) 21 0

/-- round(2048 · log2(2^FREQ_BITS / F)), exactly: with y = 4096 · log2(2^FREQ_BITS / F), round(y / 2) is
floor((floor(y) + 1) / 2), and floor(y) is 4096 · FREQ_BITS less the least m with F^4096 ≤ 2^m. 0xFFFF for
F = 0 (R74). -/
def bitcostOf (F : Nat) : Nat :=
  if F = 0 then 0xFFFF
  else
    let least := if F ^ 4096 ≤ 1 then 0 else floorLog2 (F ^ 4096 - 1) + 1
    (4096 * Config.FREQ_BITS - least + 1) / 2

/-- The default BITCOST_ROM of a CF_ROM (R74). -/
def defaultBitcost (cf : Nat → Nat → Nat) (id s : Nat) : Nat := bitcostOf (cf id (s + 1) - cf id s)

/-- The default LOG2_ROM: round(65536 · log2(1 + i/256)), exactly, by the leading 1 of
(256 + i)^131072 (R75). -/
def defaultLog2 (i : Nat) : Nat := (floorLog2 ((256 + i) ^ 131072) - 8 * 131072 + 1) / 2

/-- floor(log2 S(g)) of the default scale S(g) = 10^(g / GI_PER_DECADE) (R76). -/
def defaultScaleExp (g : Int) : Int :=
  if 0 ≤ g then (floorLog2 (10 ^ g.toNat) / Config.GI_PER_DECADE : Nat)
  else -((floorLog2 (10 ^ (-g).toNat) / Config.GI_PER_DECADE + 1 : Nat) : Int)

/-- round(S(g) · 2^(15 - e)) of the default scale: the largest n with
(2n - 1)^28 ≤ 2^28 · 10^g · 2^(28 · (15 - e)), compared as integers (R76). -/
def defaultScaleMant (g e : Int) : Nat :=
  let root := Config.GI_PER_DECADE
  let num := 2 ^ root * 10 ^ g.toNat * 2 ^ (root * (15 - e).toNat)
  let den := 10 ^ (-g).toNat * 2 ^ (root * (e - 15).toNat)
  searchBits (fun n => decide ((2 * n - 1) ^ root * den ≤ num)) 17 0

/-- The default SCALE_ROM (R76). -/
def defaultScale (g : Int) : Nat × Int :=
  let e := defaultScaleExp g
  let m := defaultScaleMant g e
  if m = 0x10000 then (0x8000, e + 1) else (m, e)

/-! ## The block's tables -/

/-- The nondecreasing table under an arbitrary one: 0 first, 2^FREQ_BITS from n on, and between them the
largest of the entries so far, at most 2^FREQ_BITS. Well-formed tables are left as they are, so that a
constant read through this ranges over exactly the tables R71 allows. -/
def settledCum (raw : Nat → Nat) (n : Nat) : Nat → Nat
  | 0 => 0
  | s + 1 =>
    if n ≤ s + 1 then 2 ^ Config.FREQ_BITS
    else min (2 ^ Config.FREQ_BITS) (max (settledCum raw n s) (raw (s + 1)))

/-- UNI2, the fixed uniform two-symbol table (R78). -/
def uni2 (s : Nat) : Nat :=
  match s with
  | 0 => 0
  | 1 => 2 ^ (Config.FREQ_BITS - 1)
  | _ => 2 ^ Config.FREQ_BITS

/-- The tables with the default BITCOST_ROM, LOG2_ROM and SCALE_ROM for given contents of the four open
ones. -/
def withDefaults (lut cf tnsOrder tnsCoef : Nat → Nat → Nat) : Roms :=
  { lut := lut
    cf := cf
    tnsOrder := tnsOrder
    tnsCoef := tnsCoef
    bitcost := defaultBitcost cf
    log2 := defaultLog2
    scale := defaultScale }

/-- The tables of the block: the four open ones any well-formed contents (R70 to R73, D43), the other
three their defaults. -/
@[irreducible] def blockRoms : Roms :=
  withDefaults (fun l t => Config.rawLut l t % Config.NT_CF)
    (fun id => settledCum (Config.rawCf id) Config.NSYM_SPEC)
    (fun w => settledCum (Config.rawTnsOrder w) Config.TNS_ORDER_MAX)
    (fun k => settledCum (Config.rawTnsCoef k) Config.TNS_COEF_SYMS)

/-- The table that RC_DECSYM's CLASS and ID select, with its number of symbols (30_encoding.md R117). -/
def selectTable (r : Roms) (cls : TableClass) (id : Nat) : (Nat → Nat) × Nat :=
  match cls with
  | .spec => (r.cf id, Config.NSYM_SPEC)
  | .tnsOrder => (r.tnsOrder id, Config.TNS_ORDER_MAX)
  | .tnsCoef => (r.tnsCoef id, Config.TNS_COEF_SYMS)
  | .uni2 => (uni2, 2)

end Sys2Proof.Machine
end

