-- ==== Sys2Proof/Machine/RangeDecoder.lean ====
section
/-! DEFINITION. The range decoder (42_range_decoder.md): symbol decode, the tuple code, and the commands
RC_INIT, RC_DECSYM, RC_DECBIT and RC_DECODE. -/

namespace Sys2Proof.Machine

open Config (Roms)

/-! ## Decoding a symbol -/

/-- What a decode gives: a value, a bit error (the FAIL of R193), each with the decoder registers it
leaves, or a fault of the model. -/
inductive Decoded (α : Type) where
  | ok (value : α) (c : RangeCoder)
  | fail (e : BitError) (c : RangeCoder)
  | fault (f : Fault)
deriving Repr

/-- One decode after another; a FAIL or a fault of the first ends both (R211, R217). -/
def Decoded.andThen {α β : Type} (x : Decoded α) (f : α → RangeCoder → Decoded β) : Decoded β :=
  match x with
  | .ok v c => f v c
  | .fail e c => .fail e c
  | .fault g => .fault g

/-- The decoder registers from the numbers the rules compute. -/
def coderOf (low range cursor : Nat) : RangeCoder :=
  { low := BitVec.ofNat 24 low, range := BitVec.ofNat 24 range, cursor := BitVec.ofNat 10 cursor }

/-- The largest s in 0 .. n with r · cum[s] ≤ low (R193, R194), or 0. -/
def largestSymbol (cum : Nat → Nat) (r low : Nat) : Nat → Nat
  | 0 => 0
  | n + 1 => if r * cum (n + 1) ≤ low then n + 1 else largestSymbol cum r low n

/-- Renormalization (R196): while range < 2^16, one payload byte goes into low. `avail` is the number of
payload bytes not yet consumed, PB - RC_CURSOR; with none left the shift is an overrun, and the registers
keep the last completed shift. -/
def renorm (s : State) (sym : Nat) : Nat → Nat → Nat → Nat → Decoded Nat
  | avail, low, range, cursor =>
    if 2 ^ 16 ≤ range then .ok sym (coderOf low range cursor)
    else
      match avail with
      | 0 => .fail .rcOverrun (coderOf low range cursor)
      | avail + 1 =>
        match payloadByte s cursor with
        | .error f => .fault f
        | .ok b => renorm s sym avail (low * 256 + b) (range * 256) (cursor + 1)

/-- dec_sym(cum, n) (R193): a low in the gap above the truncated range is a bit error that leaves the
registers unchanged (R195); else the symbol is taken off and the interval renormalized. -/
def decSym (s : State) (cum : Nat → Nat) (n : Nat) (c : RangeCoder) : Decoded Nat :=
  let low := c.low.toNat
  let r := c.range.toNat / 2 ^ Config.FREQ_BITS
  if r * 2 ^ Config.FREQ_BITS ≤ low then .fail .rcRange c
  else
    let sym := largestSymbol cum r low (n - 1)
    renorm s sym (s.PB - c.cursor.toNat) (low - r * cum sym) (r * (cum (sym + 1) - cum sym))
      c.cursor.toNat

/-- dec_bit(): a raw equal-probability bit (R197). -/
def decBit (s : State) (c : RangeCoder) : Decoded Nat := decSym s uni2 2 c

/-! ## The tuple code -/

/-- The context index t of tuple j (R205); 2j ≥ NE / 2 is NE ≤ 4j. -/
def contextIndex (s : State) (c j : Nat) : Nat :=
  c + 512 * bit s.cfg.mode.ratef + 256 * bit (decide (s.NE ≤ 4 * j))

/-- The spectral table of escape level lev and context index t (R206). -/
def tableOf (r : Roms) (lev t : Nat) : Nat := r.lut (min lev (Config.LEV_TABLES - 1)) t

/-- The context value after a tuple of magnitudes a and b (R207). -/
def nextContext (c a b : Nat) : Nat := (c % 16) * 16 + min (a + b) 15

/-- A raw magnitude bit pair of an escape at level lev, bit lev of a then of b (R211, R212); absent at
level 0 in LSB mode (R216). -/
def rawPair (s : State) (lev a b : Nat) (c : RangeCoder) : Decoded (Nat × Nat) :=
  if s.si.lsb = true ∧ lev = 0 then .ok (a, b) c
  else
    (decBit s c).andThen fun x c =>
      (decBit s c).andThen fun y c => .ok (a ||| x * 2 ^ lev, b ||| y * 2 ^ lev) c

/-- The escape chain of a tuple (R211): symbols in the table of the level until one is no escape.
`left` is the number of escapes the tuple may still carry; one more is a bit error (R214). Answers the
level, the low bits of the magnitudes and the value symbol. -/
def escapeChain (r : Roms) (s : State) (t : Nat) :
    Nat → Nat → Nat → Nat → RangeCoder → Decoded (Nat × Nat × Nat × Nat)
  | 0, lev, a, b, c =>
    (decSym s (r.cf (tableOf r lev t)) Config.NSYM_SPEC c).andThen fun sym c =>
      if sym ≠ Config.ESC then .ok (lev, a, b, sym) c else .fail .rcEsc c
  | left + 1, lev, a, b, c =>
    (decSym s (r.cf (tableOf r lev t)) Config.NSYM_SPEC c).andThen fun sym c =>
      if sym ≠ Config.ESC then .ok (lev, a, b, sym) c
      else
        (rawPair s lev a b c).andThen fun ab c =>
          escapeChain r s t left (lev + 1) ab.1 ab.2 c

/-- A sign bit, read for a nonzero magnitude only; 1 means negative (R215). -/
def signedMagnitude (s : State) (a : Nat) (c : RangeCoder) : Decoded Int :=
  if a = 0 then .ok 0 c
  else (decBit s c).andThen fun x c => .ok (if x = 1 then -(a : Int) else (a : Int)) c

/-- decode_tuple(j) (R211) with context value ctx. The value symbol gives bits lev and lev + 1 of both
magnitudes (R213). A sign belongs to its magnitude, so a's sign is read, then b's. -/
def decodeTuple (r : Roms) (s : State) (ctx j : Nat) (c : RangeCoder) : Decoded (Int × Int) :=
  (escapeChain r s (contextIndex s ctx j) Config.LEV_LIMIT 0 0 0 c).andThen fun x c =>
    (signedMagnitude s (x.2.1 ||| (x.2.2.2 % 4) * 2 ^ x.1) c).andThen fun A c =>
      (signedMagnitude s (x.2.2.1 ||| (x.2.2.2 / 4) * 2 ^ x.1) c).andThen fun B c => .ok (A, B) c

/-! ## RC_INIT -/

/-- prime() (R191). -/
def prime (s : State) : Except Fault State :=
  if s.PB < 3 then
    .ok (State.raise { s with dec := { s.dec with fsm := .error } } .rcOverrun)
  else
    match payloadByte s 0, payloadByte s 1, payloadByte s 2 with
    | .ok b0, .ok b1, .ok b2 =>
      let low := b0 * 2 ^ 16 + b1 * 2 ^ 8 + b2
      let t : State := { s with coder := coderOf low 0xFFFFFF 3 }
      if 0xFFFFFF ≤ low then
        .ok (State.raise { t with dec := { t.dec with fsm := .error } } .rcRange)
      else .ok { t with dec := { t.dec with fsm := .ready } }
    | .error f, _, _ => .error f
    | .ok _, .error f, _ => .error f
    | .ok _, .ok _, .error f => .error f

/-- The body of RC_INIT (R220). -/
def rcInitBody (s : State) : Except Fault State :=
  let t : State := { s with dec := { s.dec with ctx := 0 } }
  if t.cfg.mode.bfi then
    .ok
      { t with
        coder := coderOf 0 0xFFFFFF 0
        dec := { t.dec with fsm := .ready }
        fstat := { t.fstat with bfiSeen := true } }
  else prime t

/-- RC_INIT (R220). -/
def execRcInit (s : State) : Host.Outcome State Fault Refusal :=
  runCommand [(!decodeConfigOk s, .configErr), (!rcInitLegal s, .seqErr)] rcInitBody s

/-! ## RC_DECSYM and RC_DECBIT -/

/-- The shared body of RC_DECSYM and RC_DECBIT (R221, R222): a symbol goes to RC_SYM; a bit error enters
ERROR and leaves RC_SYM. -/
def decsymBody (cum : Nat → Nat) (n : Nat) (s : State) : Except Fault State :=
  match decSym s cum n s.coder with
  | .ok sym c => .ok { s with coder := c, dec := { s.dec with sym := BitVec.ofNat 5 sym } }
  | .fail e c => .ok (State.raise { s with coder := c, dec := { s.dec with fsm := .error } } e)
  | .fault f => .error f

/-- RC_DECSYM with given tables (R221). -/
def rcDecsymWith (r : Roms) (cls : TableClass) (id : Nat) (s : State) :
    Host.Outcome State Fault Refusal :=
  runCommand [(!argLegal cls id, .badArg), (!decsymLegal s, .seqErr)]
    (decsymBody (selectTable r cls id).1 (selectTable r cls id).2) s

/-- RC_DECSYM (R221). -/
def execRcDecsym (cls : TableClass) (id : Nat) (s : State) : Host.Outcome State Fault Refusal :=
  rcDecsymWith blockRoms cls id s

/-- RC_DECBIT (R222). -/
def execRcDecbit (s : State) : Host.Outcome State Fault Refusal :=
  runCommand [(!decsymLegal s, .seqErr)] (decsymBody uni2 2) s

/-! ## RC_DECODE -/

/-- What RC_DECODE has decoded so far: XQ from coefficient 0, the TNS registers, the context and the
tuple count. -/
structure Progress where
  coder : RangeCoder
  orders : List Nat
  coefs : List Nat
  xq : List Int
  ctx : Nat
  tuples : Nat
deriving Repr

/-- A stage of RC_DECODE: the progress it leaves, with the bit error that stopped it if one did; or a
fault of the model. -/
abbrev Stage := Except Fault (Progress × Option BitError)

/-- A stage after another, unless the first was stopped (R217). -/
def Stage.next (x : Stage) (f : Progress → Stage) : Stage :=
  match x with
  | .ok (p, none) => f p
  | .ok (p, some e) => .ok (p, some e)
  | .error g => .error g

/-- A stage for each index of a list in turn, stopped at the first bit error. -/
def forEach (act : Nat → Progress → Stage) : List Nat → Progress → Stage
  | [], p => .ok (p, none)
  | i :: rest, p => (act i p).next (forEach act rest)

/-- One decode within a stage: on success `update` records the value, on a bit error the progress stays
but for the decoder registers (R217). -/
def Decoded.stage {α : Type} (x : Decoded α) (p : Progress) (update : α → Progress → Progress) :
    Stage :=
  match x with
  | .ok v c => .ok (update v { p with coder := c }, none)
  | .fail e c => .ok ({ p with coder := c }, some e)
  | .fault f => .error f

/-- The TNS order of filter f, if its order-present flag is 1 (R208). -/
def orderStage (r : Roms) (s : State) (f : Nat) (p : Progress) : Stage :=
  if s.si.tns.getLsbD f then
    (decSym s (r.tnsOrder (bit s.cfg.mode.tnsLpcw)) Config.TNS_ORDER_MAX p.coder).stage p fun o p =>
      { p with orders := p.orders.set f (o + 1) }
  else .ok (p, none)

/-- The TNS coefficient symbols of filter f, as many as its order (R210). -/
def coefStage (r : Roms) (s : State) (f : Nat) (p : Progress) : Stage :=
  forEach
    (fun k p =>
      (decSym s (r.tnsCoef k) Config.TNS_COEF_SYMS p.coder).stage p fun v p =>
        { p with coefs := p.coefs.set (Config.TNS_ORDER_MAX * f + k) v })
    (List.range (p.orders.getD f 0)) p

/-- Tuple j (R211, R207, R218). -/
def tupleStage (r : Roms) (s : State) (j : Nat) (p : Progress) : Stage :=
  (decodeTuple r s p.ctx j p.coder).stage p fun ab p =>
    { p with
      xq := p.xq ++ [ab.1, ab.2]
      ctx := nextContext p.ctx ab.1.natAbs ab.2.natAbs
      tuples := p.tuples + 1 }

/-- The termination check (R200). -/
def terminalStage (p : Progress) : Stage :=
  .ok (p, if p.coder.low ≠ 0 then some .rcTerm else none)

/-- RC_DECODE's start: XQ, the TNS registers, the tuple count and the context cleared (R223). -/
def Progress.start (c : RangeCoder) : Progress :=
  { coder := c, orders := List.replicate 2 0, coefs := List.replicate 16 0, xq := [], ctx := 0,
    tuples := 0 }

/-- The four sections of the range-coded data in their order (R223, 30_encoding.md R132). -/
def decodeSections (r : Roms) (s : State) : Stage :=
  (forEach (orderStage r s) (List.range s.NF_TNS) (Progress.start s.coder)).next fun p =>
    (forEach (coefStage r s) (List.range s.NF_TNS) p).next fun p =>
      (forEach (tupleStage r s) (List.range (s.si.lastnz.toNat / 2)) p).next terminalStage

/-- The registers RC_DECODE writes from its progress; RC_BYTES only in TERMINAL (R229). -/
def State.applyProgress (s : State) (p : Progress) (fsm : RcFsm) (bytes : BitVec 10) : State :=
  { s with
    coder := p.coder
    mem := s.mem.store XQ_BASE (paddedWords p.xq)
    dec :=
      { s.dec with
        ctx := BitVec.ofNat 8 p.ctx
        fsm := fsm
        bytes := bytes
        tuples := BitVec.ofNat 9 p.tuples
        tnsOrder := vecOfFn 2 fun f => BitVec.ofNat 4 (p.orders.getD f 0)
        tnsCoef := vecOfFn 16 fun i => BitVec.ofNat 5 (p.coefs.getD i 0) }
    fstat := { s.fstat with rcValid := true } }

/-- The body of RC_DECODE with given tables (R223), which is what its engine step performs (60_exceptions.md
R381), and which says what it does in ERROR (46_frame.md R330) and with BFI set after a bit error (R333). The
bad-frame branch is the first, from READY and from ERROR alike, and writes none of RC_LOW, RC_RANGE and
RC_CURSOR; log entry 22 says which general claims about TERMINAL and ERROR this goes before. -/
def rcDecodeBody (r : Roms) (s : State) : Except Fault State :=
  if s.cfg.mode.bfi then
    .ok
      (State.applyProgress { s with fstat := { s.fstat with bfiSeen := true } }
        (Progress.start s.coder) .terminal 0)
  else if s.dec.fsm = .error ∨ s.NE < s.si.lastnz.toNat then
    .ok (s.applyProgress (Progress.start s.coder) .error 0)
  else
    match decodeSections r s with
    | .error f => .error f
    | .ok (p, some e) => .ok ((s.applyProgress p .error 0).raise e)
    | .ok (p, none) => .ok (s.applyProgress p .terminal p.coder.cursor)

/-- RC_DECODE with given tables (R223). -/
def rcDecodeWith (r : Roms) (s : State) : Host.Outcome State Fault Refusal :=
  runCommand [(!decodeConfigOk s, .configErr), (!rcDecodeLegal s, .seqErr)] (rcDecodeBody r) s

/-- RC_DECODE (R223). -/
def execRcDecode (s : State) : Host.Outcome State Fault Refusal := rcDecodeWith blockRoms s

end Sys2Proof.Machine
end

