-- ==== Sys2Proof/Machine/Quantizer.lean ====
section
/-! DEFINITION. The scalar quantizer and gain core (43_quantizer_gain.md): GAIN_EST, QUANTIZE and
GAIN_ADJ. -/

namespace Sys2Proof.Machine

open Config (Roms)

/-! ## Numbers -/

/-- clamp(v, lo, hi) (00_scope.md R11). -/
def clamp (v lo hi : Int) : Int := min (max v lo) hi

/-- sign(v) (00_scope.md R11) times a magnitude. -/
def withSign (v : Int) (m : Nat) : Int := v.sign * (m : Int)

/-! ## Temporal smoothing (R244) -/

/-- The clamp bound 8 · OFF_CLAMP, Q3 bits. -/
def smoothBound : Int := 8 * Config.OFF_CLAMP

/-- NB_OFF (R244). -/
def newOffset (s : State) : Int :=
  let prev := s.cfg.prevOff.toInt
  let spent := (s.cfg.prevTarget.toNat : Int) - (s.cfg.prevActual.toNat : Int)
  let raw := clamp (prev + 8 * spent) (-smoothBound) smoothBound
  clamp ((prev + raw) / 2) (-smoothBound) smoothBound

/-- T_EFF (R244). -/
def effectiveTarget (s : State) : Int := (s.TARGET : Int) + newOffset s / 8

/-! ## Log-energy and the bit estimate -/

/-- The position of the leading 1 of a number: floor(log2 P) for P ≥ 1, by halving. -/
def leadingOne : Nat → Nat → Nat
  | 0, _ => 0
  | n + 1, P => if P < 2 then 0 else leadingOne n (P / 2) + 1

/-- LE_n of a quadruple with energy P = Σ X[i]² (R245). P is below 2^65. -/
def logEnergy (r : Roms) (xexp : Int) (P : Nat) : Int :=
  if P = 0 then Config.LE_ZERO
  else
    let e := leadingOne 65 P
    let idx := P * 2 ^ 8 / 2 ^ e - 256
    let l2t := (e : Int) * 65536 + (r.log2 idx : Int) + 2 * (xexp - 31) * 65536
    l2t * Config.C_G / 65536

/-- The energies of consecutive quadruples (R245). -/
def quadEnergies : List Int → List Nat
  | a :: b :: c :: d :: rest =>
    (a.natAbs ^ 2 + b.natAbs ^ 2 + c.natAbs ^ 2 + d.natAbs ^ 2) :: quadEnergies rest
  | _ => []

/-- est(g) over log-energies listed from the top of the spectrum down; `iszero` says that no quadruple so
far was coded (R246). -/
def estimateFrom (g : Int) : Bool → List Int → Int
  | _, [] => 0
  | iszero, le :: rest =>
    let dn := le + g * 65536 + Config.HEADROOM
    if dn < Config.T_ZERO then (if iszero then 0 else Config.C_ZERO) + estimateFrom g iszero rest
    else if dn < Config.T_LIN then (2 * dn - Config.C_A) + estimateFrom g false rest
    else (dn + Config.C_B) + estimateFrom g false rest

/-- est(g) over LE_0, LE_1, … (R246). -/
def estimate (les : List Int) (g : Int) : Int := estimateFrom g true les.reverse

/-- The search steps 2^(n-1), …, 2, 1 (R248). -/
def searchSteps : Nat → List Nat
  | 0 => []
  | n + 1 => 2 ^ n :: searchSteps n

/-- The binary search (R248): lo from 0, each step taken when its candidate is accepted. -/
def gainSearch (accept : Nat → Bool) : List Nat → Nat → Nat
  | [], lo => lo
  | fac :: rest, lo =>
    if accept (lo + fac) then gainSearch accept rest (lo + fac) else gainSearch accept rest lo

/-- A candidate index is accepted when its estimate fits T_EFF (R246). -/
def acceptable (les : List Int) (ggOff tEff : Int) (cand : Nat) : Bool :=
  decide (estimate les ((cand : Int) + ggOff) ≤ tEff * Config.C_T)

/-- GEST_RAW (R248). -/
def searchGain (les : List Int) (ggOff tEff : Int) : Nat :=
  gainSearch (acceptable les ggOff tEff) (searchSteps Config.SEARCH_ITERS) 0

/-! ## GAIN_EST -/

/-- SCALE_M and SCALE_E from SCALE_ROM at the gain value of the state (R241). -/
def State.loadScale (r : Roms) (s : State) : State :=
  { s with
    gain :=
      { s.gain with
        scaleM := BitVec.ofNat 16 (r.scale s.gainValue).1
        scaleE := BitVec.ofInt 8 (r.scale s.gainValue).2 } }

/-- The raw gain index of a spectrum: the search, which an all-zero spectrum short-circuits (R250). -/
@[irreducible] def rawGain (r : Roms) (s : State) (xs : List Int) : Nat :=
  if xs.all fun x => decide (x = 0) then 0
  else searchGain ((quadEnergies xs).map (logEnergy r s.X_EXP)) s.GG_OFF (effectiveTarget s)

/-- The registers that GAIN_EST writes before the scale (R250). -/
def State.applyEstimate (s : State) (raw : Nat) (zero : Bool) : State :=
  { s with
    gain :=
      { s.gain with
        nbOff := BitVec.ofInt 16 (newOffset s)
        tEff := BitVec.ofInt 32 (effectiveTarget s)
        gestRaw := BitVec.ofNat 8 raw }
    cfg := { s.cfg with ggInd := BitVec.ofNat 8 (max raw s.GG_FLOOR) }
    fstat := { s.fstat with zeroFrame := zero, gestValid := true } }

/-- The body of GAIN_EST with given tables (R250). -/
def gainEstBody (r : Roms) (s : State) : Except Fault State :=
  match xElems s 0 s.NE with
  | .error f => .error f
  | .ok xs =>
    .ok ((s.applyEstimate (rawGain r s xs) (xs.all fun x => decide (x = 0))).loadScale r)

/-- GAIN_EST with given tables (R250). -/
def gainEstWith (r : Roms) (s : State) : Host.Outcome State Fault Refusal :=
  runCommand [(!encodeConfigOk s, .configErr), (!decide (s.fstat.qCount = 0), .seqErr)]
    (gainEstBody r) s

/-- GAIN_EST (R250). -/
def execGainEst (s : State) : Host.Outcome State Fault Refusal := gainEstWith blockRoms s

/-! ## Quantizing a coefficient -/

/-- The exponent sh = SE + X_EXP - 46 of the scaled magnitude (R242). -/
def scaleShift (r : Roms) (s : State) : Int := (r.scale s.gainValue).2 + s.X_EXP - 46

/-- floor(m · 2^sh + Q_RND / 2^16), exactly, for m = |X| · SM (R242, R243). -/
def roundScaled (m : Nat) (sh : Int) : Nat :=
  (m * 2 ^ sh.toNat * 2 ^ 16 + Config.Q_RND * 2 ^ (-sh).toNat) / (2 ^ (-sh).toNat * 2 ^ 16)

/-- q(i) (R243). -/
def quantMagnitude (r : Roms) (s : State) (x : Int) : Nat :=
  min (roundScaled (x.natAbs * (r.scale s.gainValue).1) (scaleShift r s)) Config.QMAX

/-- xq[i] (R243). -/
def quantCoef (r : Roms) (s : State) (x : Int) : Int := withSign x (quantMagnitude r s x)

/-! ## Cost tracks -/

/-- The two cost tracks (R255): F, full coding, and L, LSB-mode coding. -/
inductive Track where
  | full
  | lsb
deriving DecidableEq, Repr

/-- The least lev with m >> lev < 4, by halving (R256). -/
def escapeLevel : Nat → Nat → Nat
  | 0, _ => 0
  | n + 1, m => if m < 4 then 0 else escapeLevel n (m / 2) + 1

/-- The escape level of a tuple's magnitudes (R256). -/
def tupleLevel (a b : Nat) : Nat := escapeLevel (max a b) (max a b)

/-- A magnitude as a track codes it: on track L bit 0 is cleared in a tuple with lev ≥ 1 (R257). -/
def trackMagnitude (tr : Track) (lev m : Nat) : Nat :=
  match tr with
  | .full => m
  | .lsb => if lev = 0 then m else m / 2 * 2

/-- The raw bits after an escape at level l: two, none on track L at level 0 (R258). -/
def rawPairBits (tr : Track) (l : Nat) : Nat :=
  match tr with
  | .full => 2
  | .lsb => if l = 0 then 0 else 2

/-- What a tuple costs on a track: its coded magnitudes, cost in Q11 bits, raw bits, and the cumulative
cost. -/
structure TupleCost where
  a : Nat
  b : Nat
  cost : Nat
  raw : Nat
  cum : Nat
deriving DecidableEq, Repr

/-- cost(j) (R258) for coded magnitudes a' and b' at escape level lev and context index t. -/
def tupleBits (r : Roms) (tr : Track) (t lev a b : Nat) : Nat :=
  ((List.range lev).map fun l =>
      r.bitcost (tableOf r l t) Config.ESC + 2048 * rawPairBits tr l).sum +
    r.bitcost (tableOf r lev t) (a / 2 ^ lev + 4 * (b / 2 ^ lev)) +
    2048 * (bit (decide (a ≠ 0)) + bit (decide (b ≠ 0)))

/-- raw(j) (R258). -/
def tupleRawBits (tr : Track) (lev a b : Nat) : Nat :=
  ((List.range lev).map (rawPairBits tr)).sum + bit (decide (a ≠ 0)) + bit (decide (b ≠ 0))

/-- One tuple on a track, with the track's context value and the cost so far (R255, R258). -/
def costTuple (r : Roms) (s : State) (tr : Track) (j ctx cum : Nat) (ab : Nat × Nat) : TupleCost :=
  let lev := tupleLevel ab.1 ab.2
  let a := trackMagnitude tr lev ab.1
  let b := trackMagnitude tr lev ab.2
  let cost := tupleBits r tr (contextIndex s ctx j) lev a b
  { a := a, b := b, cost := cost, raw := tupleRawBits tr lev a b, cum := cum + cost }

/-- The forward pass of a track over tuples j, j + 1, … (R255). -/
def runTrack (r : Roms) (s : State) (tr : Track) : Nat → Nat → Nat → List (Nat × Nat) → List TupleCost
  | _, _, _, [] => []
  | j, ctx, cum, ab :: rest =>
    let tc := costTuple r s tr j ctx cum ab
    tc :: runTrack r s tr (j + 1) (nextContext ctx tc.a tc.b) tc.cum rest

/-- The magnitudes of consecutive tuples. -/
def tuplesOf : List Int → List (Nat × Nat)
  | a :: b :: rest => (a.natAbs, b.natAbs) :: tuplesOf rest
  | _ => []

/-! ## Truncation -/

/-- The largest index below n with a property, if there is one. -/
def lastBelow (p : Nat → Bool) : Nat → Option Nat
  | 0 => none
  | n + 1 => if p n then some n else lastBelow p n

/-- The number of nonzero values. -/
def countNonzero (vs : List Int) : Nat := vs.countP fun v => decide (v ≠ 0)

/-- The sum of a field over the first n tuples. -/
def sumFirst (n : Nat) (f : TupleCost → Nat) (tcs : List TupleCost) : Nat := ((tcs.take n).map f).sum

/-- A record of zeros, for a position past the end. -/
def TupleCost.none : TupleCost := { a := 0, b := 0, cost := 0, raw := 0, cum := 0 }

/-- The cumulative cost of tuple j. -/
def cumAt (tcs : List TupleCost) (j : Nat) : Nat := (tcs.getD j TupleCost.none).cum

/-- What QUANTIZE chooses (R259): the track, the last tuple kept, and the last nonzero tuple J. -/
structure Choice where
  track : Track
  last : Option Nat
  J : Option Nat
deriving DecidableEq, Repr

/-- The choice of R259 and R262 from the tuples and the two tracks' costs, with B = TARGET · 2048. -/
def chooseCoding (s : State) (tuples : List (Nat × Nat)) (full lsb : List TupleCost) : Choice :=
  let nonzero := fun j => decide (tuples.getD j (0, 0) ≠ (0, 0))
  let budget := s.TARGET * 2048
  match lastBelow nonzero tuples.length with
  | none => { track := .full, last := none, J := none }
  | some J =>
    let track := if s.cfg.mode.lsbEn = true ∧ budget < cumAt full J then Track.lsb else Track.full
    let costs := match track with | .full => full | .lsb => lsb
    { track := track
      last := lastBelow (fun j => nonzero j && decide (cumAt costs j ≤ budget)) (J + 1)
      J := some J }

/-- The values kept in XQ: the chosen track's magnitudes with the signs of xq, for the tuples kept. -/
def keptValues : List Int → List TupleCost → List Int
  | x :: y :: rest, tc :: more => withSign x tc.a :: withSign y tc.b :: keptValues rest more
  | _, _ => []

/-- What QUANTIZE finds (R260): the values of XQ from coefficient 0, the tuples below LASTNZ and below
LASTNZ_FULL, the mode, and the costs. -/
structure Coding where
  kept : List Int
  tuples : Nat
  tuplesFull : Nat
  lsb : Bool
  est : Nat
  estFull : Nat
  estLsbFull : Nat
  rawbits : Nat
deriving DecidableEq, Repr

/-- The coding of a spectrum (R255 to R260). -/
@[irreducible] def codeSpectrum (r : Roms) (s : State) (xs : List Int) : Coding :=
  let xq := xs.map (quantCoef r s)
  let tuples := tuplesOf xq
  let full := runTrack r s .full 0 0 0 tuples
  let lsb := runTrack r s .lsb 0 0 0 tuples
  let ch := chooseCoding s tuples full lsb
  let costs := match ch.track with | .full => full | .lsb => lsb
  let kept :=
    match ch.last with
    | none => []
    | some last => keptValues xq (costs.take (last + 1))
  let lastTuples := match ch.last with | none => 1 | some last => last + 1
  let coded :=
    runTrack r s ch.track 0 0 0
      (tuplesOf ((List.range (2 * lastTuples)).map fun i => kept.getD i 0))
  { kept := kept
    tuples := lastTuples
    tuplesFull := ch.J.getD 0 + 1
    lsb := decide (ch.track = .lsb)
    est := sumFirst lastTuples TupleCost.cost coded
    estFull := cumAt full (ch.J.getD 0)
    estLsbFull := cumAt lsb (ch.J.getD 0)
    rawbits := sumFirst lastTuples TupleCost.raw coded }

/-- The registers and the RAM that QUANTIZE writes from its coding (R260). -/
def State.applyCoding (r : Roms) (s : State) (c : Coding) : State :=
  { (s.loadScale r).setXq c.kept with
    quant :=
      { lastnz := BitVec.ofNat 10 (2 * c.tuples)
        lastnzFull := BitVec.ofNat 10 (2 * c.tuplesFull)
        nnz := BitVec.ofNat 10 (countNonzero c.kept)
        est := BitVec.ofNat 32 c.est
        estFull := BitVec.ofNat 32 c.estFull
        estLsbFull := BitVec.ofNat 32 c.estLsbFull
        rawbits := BitVec.ofNat 32 c.rawbits
        lsbMode := c.lsb }
    fstat :=
      { s.fstat with
        zeroFrame := decide (countNonzero c.kept = 0)
        qValid := true
        qCount := s.fstat.qCount + 1 } }

/-- The body of QUANTIZE with given tables (R260). -/
def quantizeBody (r : Roms) (s : State) : Except Fault State :=
  match xElems s 0 s.NE with
  | .error f => .error f
  | .ok xs => .ok (s.applyCoding r (codeSpectrum r s xs))

/-- QUANTIZE with given tables (R260). -/
def quantizeWith (r : Roms) (s : State) : Host.Outcome State Fault Refusal :=
  runCommand
    [(!encodeConfigOk s, .configErr), (!quantizeLegal s && !quantizePastLimit s, .seqErr),
      (quantizePastLimit s, .passLimit)]
    (quantizeBody r) s

/-- QUANTIZE (R260). -/
def execQuantize (s : State) : Host.Outcome State Fault Refusal := quantizeWith blockRoms s

/-! ## GAIN_ADJ -/

/-- What the first adjustment does (R270): the index to move to with a requantization, or the budget
flag, or neither. -/
inductive Adjustment where
  | moveTo (ggInd : Nat)
  | flag
  | keep
deriving DecidableEq, Repr

/-- The first adjustment (R270), with nb the real bit count. T - Δ and T - 2Δ may be negative. -/
def firstAdjustment (nb T Δ floor gg : Nat) : Adjustment :=
  if T < nb then
    if floor < gg then .moveTo (gg - 1) else .flag
  else if (nb : Int) < (T : Int) - Δ ∧ gg < 255 then
    if (nb : Int) < (T : Int) - 2 * Δ ∧ gg ≤ 253 then .moveTo (gg + 2) else .moveTo (gg + 1)
  else .keep

/-- The body of GAIN_ADJ (R270). -/
def gainAdjBody (s : State) : State :=
  let counted : FrameStatus := { s.fstat with adjCount := s.fstat.adjCount + 1 }
  if s.fstat.adjCount = 0 then
    match firstAdjustment s.cfg.nbitsReal.toNat s.TARGET s.cfg.delta.toNat s.GG_FLOOR s.GG_IND with
    | .moveTo gg =>
      { s with
        cfg := { s.cfg with ggInd := BitVec.ofNat 8 gg }
        fstat := { counted with requant := true } }
    | .flag => { s with fstat := { counted with budgetFlag := true } }
    | .keep => { s with fstat := counted }
  else
    { s with
      fstat := { counted with budgetFlag := decide (s.TARGET < s.cfg.nbitsReal.toNat) } }

/-- GAIN_ADJ (R270). -/
def execGainAdj (s : State) : Host.Outcome State Fault Refusal :=
  runCommand
    [(!encodeConfigOk s, .configErr), (!gainAdjLegal s && !gainAdjPastLimit s, .seqErr),
      (gainAdjPastLimit s, .passLimit)]
    (fun s => .ok (gainAdjBody s)) s

end Sys2Proof.Machine
end

