-- ==== Sys2Proof/Machine/Residual.lean ====
section
/-! DEFINITION. Residual refinement (44_residual.md): RES_ENCODE and RES_DECODE. -/

namespace Sys2Proof.Machine

open Config (Roms)

/-! ## RES_ENCODE -/

/-- The encoder's number of refinement bits (R293). -/
def encoderCount (s : State) (nnz : Nat) : Nat :=
  (clamp ((s.TARGET : Int) - (s.cfg.consumed.toNat : Int) + s.cfg.resSlack.toInt) 0 (nnz : Int)).toNat

/-- The bit of a refined coefficient: whether |X| · SM · 2^sh ≥ |XQ|, exactly (R294). -/
def refinementBit (m : Nat) (sh : Int) (q : Nat) : Bool :=
  decide (q * 2 ^ (-sh).toNat ≤ m * 2 ^ sh.toNat)

/-- The bits of the coefficients i, i + 1, … in order (R290, R292), at most `left` of them; X[i] is read
for a refined coefficient only. -/
def encodeBits (r : Roms) (s : State) : Nat → Nat → List Int → Except Fault (List Bool)
  | _, _, [] => .ok []
  | _, 0, _ :: _ => .ok []
  | i, left + 1, q :: rest =>
    if q = 0 then encodeBits r s (i + 1) (left + 1) rest
    else
      match xElem s i with
      | .error f => .error f
      | .ok x =>
        match encodeBits r s (i + 1) left rest with
        | .error f => .error f
        | .ok bs =>
          .ok
            (refinementBit (x.natAbs * (r.scale s.gainValue).1) (scaleShift r s) q.natAbs :: bs)

/-- The body of RES_ENCODE with given tables (R292). -/
def resEncodeBody (r : Roms) (s : State) : Except Fault State :=
  let qs := xqElems s s.NE
  let nres := encoderCount s (countNonzero qs)
  match encodeBits r s 0 nres qs with
  | .error f => .error f
  | .ok bits =>
    .ok
      { s.setResbuf bits with
        resNbits := BitVec.ofNat 10 nres
        fstat := { s.fstat with resencValid := true } }

/-- RES_ENCODE with given tables (R292). -/
def resEncodeWith (r : Roms) (s : State) : Host.Outcome State Fault Refusal :=
  runCommand [(!encodeConfigOk s, .configErr), (!resEncodeLegal s, .seqErr)] (resEncodeBody r) s

/-- RES_ENCODE (R292). -/
def execResEncode (s : State) : Host.Outcome State Fault Refusal := resEncodeWith blockRoms s

/-! ## RES_DECODE -/

/-- The decoder's count min(nnz, 8 · (PB - RC_BYTES)), as the signed number of the rule (R299). It is
negative only where the host has changed NBYTES within the frame (70_reset_and_hazards.md R402). -/
def decoderCount (s : State) (nnz : Nat) : Int :=
  min (nnz : Int) (8 * (s.signedPB - (s.dec.bytes.toNat : Int)))

/-- Refinement bit n (30_encoding.md R131). -/
def refinementBitAt (s : State) (n : Nat) : Except Fault Bool :=
  match payloadByte s (s.dec.bytes.toNat + n / 8) with
  | .error f => .error f
  | .ok b => .ok (b.testBit (7 - n % 8))

/-- A refined coefficient (R300, R302): away from zero for bit 1, toward it for bit 0. -/
def refined (q : Int) (b : Bool) : Int :=
  q * 4096 + q.sign * (if b then (Config.RES_STEP1 : Int) else -(Config.RES_STEP0 : Int))

/-- XR from the coefficients in order, with refinement bits n, n + 1, … for the nonzero ones while `left`
remain (R290, R300). -/
def refineFrom (s : State) : Nat → Nat → List Int → Except Fault (List Int)
  | _, _, [] => .ok []
  | n, left, q :: rest =>
    if q = 0 ∨ left = 0 then
      match refineFrom s n left rest with
      | .error f => .error f
      | .ok vs => .ok (q * 4096 :: vs)
    else
      match refinementBitAt s n with
      | .error f => .error f
      | .ok b =>
        match refineFrom s (n + 1) (left - 1) rest with
        | .error f => .error f
        | .ok vs => .ok (refined q b :: vs)

/-- The body of RES_DECODE (R300). -/
def resDecodeBody (s : State) : Except Fault State :=
  let finish := fun (t : State) (vs : List Int) (nres : Int) =>
    ({ t.setXr vs with
        resNbits := BitVec.ofInt 10 nres
        fstat := { t.fstat with resValid := true } } : State)
  if s.cfg.mode.bfi then .ok (finish { s with fstat := { s.fstat with bfiSeen := true } } [] 0)
  else
    let qs := xqElems s s.NE
    let nres := if s.fstat.biterr then 0 else decoderCount s (countNonzero qs)
    match refineFrom s 0 nres.toNat qs with
    | .error f => .error f
    | .ok vs => .ok (finish s vs nres)

/-- RES_DECODE (R300). -/
def execResDecode (s : State) : Host.Outcome State Fault Refusal :=
  runCommand [(!decodeConfigOk s, .configErr), (!resDecodeLegal s, .seqErr)] resDecodeBody s

end Sys2Proof.Machine
end

