-- ==== Sys2Proof/Machine/SideInfo.lean ====
section
/-! DEFINITION. The side-information unpacker (45_sideinfo.md, 30_encoding.md R125 to R129):
SI_UNPACK. -/

namespace Sys2Proof.Machine

/-- The bit position and the overrun flag of the field reader (R310). -/
structure BitReader where
  pos : Nat
  overrun : Bool
deriving DecidableEq, Repr

/-- The side-information bit at position p: bit 7 - (p mod 8) of PAY[p div 8] (30_encoding.md R126). -/
def sideBit (s : State) (p : Nat) : Except Fault Nat :=
  match payByte s (p / 8) with
  | .error f => .error f
  | .ok b => .ok (bit (b.testBit (7 - p % 8)))

/-- The w bits from position p on, most significant first, below the bits already read (R310). -/
def sideBits (s : State) : Nat → Nat → Nat → Except Fault Nat
  | 0, _, acc => .ok acc
  | w + 1, p, acc =>
    match sideBit s p with
    | .error f => .error f
    | .ok b => sideBits s w (p + 1) (acc * 2 + b)

/-- rd(w) (R310). -/
def readField (s : State) (w : Nat) (rd : BitReader) : Except Fault (Nat × BitReader) :=
  if rd.overrun then .ok (0, rd)
  else if 8 * s.NBYTES < rd.pos + w then .ok (0, { rd with overrun := true })
  else
    match sideBits s w rd.pos 0 with
    | .error f => .error f
    | .ok v => .ok (v, { rd with pos := rd.pos + w })

/-- rd(w) where the field is present, else 0 and nothing read (30_encoding.md R125). -/
def readFieldIf (s : State) (present : Bool) (w : Nat) (rd : BitReader) :
    Except Fault (Nat × BitReader) :=
  if present then readField s w rd else .ok (0, rd)

/-- The TNS order-present flags of filters f, f + 1, … into bits f, f + 1, … (R311). -/
def readTnsFlags (s : State) : Nat → Nat → BitReader → Except Fault (Nat × BitReader)
  | 0, _, rd => .ok (0, rd)
  | n + 1, f, rd =>
    match readField s 1 rd with
    | .error e => .error e
    | .ok (b, rd) =>
      match readTnsFlags s n (f + 1) rd with
      | .error e => .error e
      | .ok (t, rd) => .ok (b * 2 ^ f + t, rd)

/-- The least w with n ≤ 2^w (00_scope.md R11): the number of w below n with 2^w < n. -/
def ceilLog2 (n : Nat) : Nat := (List.range n).countP fun w => decide (2 ^ w < n)

/-- GW[j], the width of the stage-2 gain (30_encoding.md R125). -/
def gainWidth (j : Nat) : Nat :=
  match j with
  | 0 => 1
  | 1 => 2
  | 2 => 2
  | _ => 3

/-- WA[j], the width of the PVQ index of section A (30_encoding.md R125, R129). -/
def indexWidthA (j : Nat) : Nat :=
  match j with
  | 0 => 22
  | 1 => 22
  | 2 => 24
  | _ => 20

/-- The fields of the side information in their order (30_encoding.md R125, R311), with the reader after
them; SI_BITS and SI_BYTES are left 0. -/
def readSideInfo (s : State) : Except Fault (SideInfo × BitReader) := do
  let rd : BitReader := { pos := 0, overrun := false }
  let (bw, rd) ← readField s s.BW_BITS rd
  let (L, rd) ← readField s (ceilLog2 (s.NE / 2)) rd
  let (lsb, rd) ← readField s 1 rd
  let (gg, rd) ← readField s Config.GG_BITS rd
  let (tns, rd) ← readTnsFlags s s.NF_TNS 0 rd
  let (pitch, rd) ← readField s 1 rd
  let (lf, rd) ← readField s 5 rd
  let (hf, rd) ← readField s 5 rd
  let (j, rd) ← readField s 2 rd
  let (gain, rd) ← readField s (gainWidth j) rd
  let (lsa, rd) ← readField s 1 rd
  let (idxA, rd) ← readField s (indexWidthA j) rd
  let (lsB, rd) ← readFieldIf s (decide (j = 0)) 1 rd
  let (idxB, rd) ← readFieldIf s (decide (j = 0)) 3 rd
  let (pitchIdx, rd) ← readFieldIf s (decide (pitch = 1)) Config.PITCH_BITS rd
  let (ltpf, rd) ← readFieldIf s (decide (pitch = 1)) 1 rd
  let (nf, rd) ← readField s Config.NF_BITS rd
  pure
    ({ bw := BitVec.ofNat 3 bw
       lastnz := BitVec.ofNat 10 (2 * (L + 1))
       lsb := decide (lsb = 1)
       gg := BitVec.ofNat 8 gg
       tns := BitVec.ofNat 2 tns
       pitch := decide (pitch = 1)
       snsLf := BitVec.ofNat 5 lf
       snsHf := BitVec.ofNat 5 hf
       snsShape := BitVec.ofNat 2 j
       snsGain := BitVec.ofNat 3 gain
       snsLsa := decide (lsa = 1)
       snsIdxA := BitVec.ofNat 24 idxA
       snsLsb := decide (lsB = 1)
       snsIdxB := BitVec.ofNat 3 idxB
       pitchIdx := BitVec.ofNat 9 pitchIdx
       ltpf := decide (ltpf = 1)
       nf := BitVec.ofNat 3 nf
       bits := 0
       bytes := 0 }, rd)

/-- SI_BITS: the bits read, or all of the frame after an overrun (R311, R313). -/
def sideInfoBits (s : State) (rd : BitReader) : Nat := if rd.overrun then 8 * s.NBYTES else rd.pos

/-- The bit errors of SI_UNPACK in their order (R311): an overrun (R313), then a lastnz above NE
(R314). -/
def sideInfoErrors (s : State) (si : SideInfo) (rd : BitReader) (f : FrameStatus) : FrameStatus :=
  let f := if rd.overrun then f.raise .siOverrun else f
  if s.NE < si.lastnz.toNat then f.raise .siLastnz else f

/-- The body of SI_UNPACK (R311). -/
def siUnpackBody (s : State) : Except Fault State :=
  if s.cfg.mode.bfi then
    .ok
      { s with
        si := SideInfo.zero
        fstat := { s.fstat with bfiSeen := true, siValid := true } }
  else
    match readSideInfo s with
    | .error f => .error f
    | .ok (si, rd) =>
      .ok
        { s with
          si :=
            { si with
              bits := BitVec.ofNat 12 (sideInfoBits s rd)
              bytes := BitVec.ofNat 10 ((sideInfoBits s rd + 7) / 8) }
          fstat := { sideInfoErrors s si rd s.fstat with siValid := true } }

/-- SI_UNPACK (R311). -/
def execSiUnpack (s : State) : Host.Outcome State Fault Refusal :=
  runCommand [(!decodeConfigOk s, .configErr), (s.fstat.siValid, .seqErr)] siUnpackBody s

end Sys2Proof.Machine
end

