-- ==== Sys2Proof/Machine/Frame.lean ====
section
/-! DEFINITION. DECODE_FRAME (46_frame.md). -/

namespace Sys2Proof.Machine

open Config (Roms)

/-- One body after another within one command; a fault of the first stops the command. -/
def thenBody (f g : State → Except Fault State) (s : State) : Except Fault State :=
  match f s with
  | .error e => .error e
  | .ok t => g t

/-- The five bodies in their order, without their preconditions (R331). -/
def decodeFrameBody (r : Roms) : State → Except Fault State :=
  thenBody siUnpackBody <|
    thenBody rcInitBody <|
      thenBody (rcDecodeBody r) <| thenBody resDecodeBody fun s => .ok (pvqShapeBody s)

/-- DECODE_FRAME with given tables (R331). -/
def decodeFrameWith (r : Roms) (s : State) : Host.Outcome State Fault Refusal :=
  runCommand [(!decodeConfigOk s, .configErr), (s.fstat.siValid, .seqErr)] (decodeFrameBody r) s

/-- DECODE_FRAME (R331). -/
def execDecodeFrame (s : State) : Host.Outcome State Fault Refusal := decodeFrameWith blockRoms s

end Sys2Proof.Machine
end

