-- ==== Sys2Proof/Machine/Dispatch.lean ====
section
/-! DEFINITION. The meaning of every command, one arm per constructor. -/

namespace Sys2Proof.Machine

def exec (i : Instr) (s : State) : Host.Outcome State Fault Refusal :=
  match i with
  | .nop => Sys2Proof.Machine.execNop s
  | .frameStart => Sys2Proof.Machine.execFrameStart s
  | .pvqDeenum => Sys2Proof.Machine.execPvqDeenum s
  | .pvqShape => Sys2Proof.Machine.execPvqShape s
  | .rcInit => Sys2Proof.Machine.execRcInit s
  | .rcDecsym cls id => Sys2Proof.Machine.execRcDecsym cls id s
  | .rcDecbit => Sys2Proof.Machine.execRcDecbit s
  | .rcDecode => Sys2Proof.Machine.execRcDecode s
  | .gainEst => Sys2Proof.Machine.execGainEst s
  | .quantize => Sys2Proof.Machine.execQuantize s
  | .gainAdj => Sys2Proof.Machine.execGainAdj s
  | .resEncode => Sys2Proof.Machine.execResEncode s
  | .resDecode => Sys2Proof.Machine.execResDecode s
  | .siUnpack => Sys2Proof.Machine.execSiUnpack s
  | .decodeFrame => Sys2Proof.Machine.execDecodeFrame s

end Sys2Proof.Machine
end

