-- ==== Sys2Proof/Machine/Engine.lean ====
section
/-! DEFINITION. The engine step (60_exceptions.md R381). -/

namespace Sys2Proof.Machine

/-- The command error of a word that is no command (30_encoding.md R118, R119). -/
def decodeErrorOf : DecodeError → CmdError
  | .illegalCmd => .illegalCmd
  | .reservedBits => .reservedBits

/-- What the engine does with a pending word: it decodes it and runs the command, or completes it with
the command error of the word (R381). -/
def runWord (w : Word) (s : State) : Host.Outcome State Fault Refusal :=
  match decode w with
  | .ok i => exec i s
  | .error e => .next (s.completeError (decodeErrorOf e))

/-- The engine step, enabled exactly when a command is pending; with none the block is idle and keeps its
state (R381, R388). -/
def engineStep (s : State) : Host.Outcome State Fault Refusal :=
  match s.pending with
  | none => .next s
  | some w => runWord w s

/-- `rst` asserted and released (70_reset_and_hazards.md R390): every register at its reset value, a
pending command discarded, no RAM element holding a value. The moves to come are the platform's, not the
block's; the free values move on. -/
def State.afterReset (s : State) : State :=
  { State.reset with agenda := s.agenda, epoch := s.epoch + 1 }

end Sys2Proof.Machine
end

