-- ==== Sys2Proof/Machine/Step.lean ====
section
/-! DEFINITION. One step of the machine: the next move of the agenda, or with none left the engine's
(60_exceptions.md R380 to R382). -/

namespace Sys2Proof.Machine

/-- One step. The agenda lists the moves to come in the order the platform interleaves them (R382); when
it is empty the engine moves, as weak fairness asks (70_reset_and_hazards.md R410). -/
def step (s : State) : Host.Outcome State Fault Refusal :=
  match s.agenda with
  | [] => engineStep s
  | .engine :: rest => engineStep { s with agenda := rest }
  | .host a :: rest => hostStep a { s with agenda := rest }
  | .reset :: rest => .next (State.afterReset { s with agenda := rest })

/-- `s` with the command whose bits are `w` pending and the engine to move next, so that `step` fetches
and runs exactly it: what an accepted write to CMD leaves for the engine (R366). Bits above `nbits`
are 0. -/
def State.withFetchWord (s : State) (nbits w : Nat) : State :=
  { s with pending := some (BitVec.ofNat 32 (w % 2 ^ nbits)), agenda := [] }

end Sys2Proof.Machine
end

