-- ==== Sys2Proof/Safety.lean ====
section
/-! DEFINITION. The terms that statements about the block are written in: which inputs are written, the
numbers that payload and side information hold, the enumeration that PVQ de-enumeration inverts
(41_pvq.md R170), the range encoder that the decoder inverts (42_range_decoder.md R199), what a tuple and a
frame decode to and what a tuple costs, and what holds between commands. The block itself uses none of
them. -/

namespace Sys2Proof.Machine

/-! ## Written inputs (10_state.md R57) -/

/-- The host has written PAY[0 .. NBYTES - 1]. -/
def payloadWritten (s : State) : Prop :=
  ∀ j < s.NBYTES, (s.mem.read (PAYLOAD_BASE + j)).isSome = true

/-- The host has written X[0 .. NE - 1]. -/
def spectrumWritten (s : State) : Prop :=
  ∀ j < 4 * s.NE, (s.mem.read (X_BASE + j)).isSome = true

/-- Every input that some command reads is written, and every payload byte exists (R57, 20_memory.md
R101). No command reads the spectrum with NE above NE_MAX. -/
def inputsWritten (s : State) : Prop :=
  s.NBYTES ≤ Config.BYTES_MAX ∧ payloadWritten s ∧ (s.NE ≤ Config.NE_MAX → spectrumWritten s)

/-- The addresses that a command may read: PAY[0 .. NBYTES - 1], X[0 .. NE - 1] (R101) and
XQ[0 .. NE - 1]. -/
def engineReads (s : State) (a : Nat) : Prop :=
  (PAYLOAD_BASE ≤ a ∧ a < PAYLOAD_BASE + s.NBYTES) ∨ (X_BASE ≤ a ∧ a < X_BASE + 4 * s.NE) ∨
    (XQ_BASE ≤ a ∧ a < XQ_BASE + 4 * s.NE)

/-- A safe run: no step of it stops the machine. -/
def safeFor : Nat → State → Prop
  | 0, _ => True
  | n + 1, s => ∃ t, step s = .next t ∧ safeFor n t

/-! ## What a command leaves -/

/-- `t` is `s` with its command completed (60_exceptions.md R367): BUSY is 0 and DONE is 1, and nothing
else of the block has moved. The count behind the free values, which the spec does not have, is left
open. -/
def Completed (s t : State) : Prop :=
  t = { s with status := { s.status with done := true }, pending := none, epoch := t.epoch }

/-- `t` is `s` with its command completed by a command error (R355, R367): BUSY is 0, DONE and ERR are 1,
ERRCODE is the error's, and nothing else of the block has moved. -/
def CompletedWithError (s : State) (e : CmdError) (t : State) : Prop :=
  t =
    { s with
      status := { s.status with done := true, err := true, errcode := e.code }
      pending := none
      epoch := t.epoch }

/-- The frame status after a bit error of the cause with this code (R361): the flag is set, and the cause
is recorded if it is the frame's first. -/
def FrameStatus.flagged (f : FrameStatus) (cause : BitVec 4) : FrameStatus :=
  { f with biterr := true, biterrCause := if f.biterrCause = 0 then cause else f.biterrCause }

/-- The configuration that decode commands accept (R357). -/
def decodeConfigured (s : State) : Prop :=
  4 ≤ s.NE ∧ s.NE ≤ 400 ∧ s.NE % 4 = 0 ∧ 20 ≤ s.NBYTES ∧ s.NBYTES ≤ 400 ∧
    (s.NF_TNS = 1 ∨ s.NF_TNS = 2)

/-- The configuration that encoder commands accept (R357). -/
def encodeConfigured (s : State) : Prop :=
  4 ≤ s.NE ∧ s.NE ≤ 400 ∧ s.NE % 4 = 0 ∧ 20 ≤ s.NBYTES ∧ s.NBYTES ≤ 400 ∧ s.TARGET ≤ 8 * s.NBYTES

/-! ## What the RAMs hold -/

/-- PAY[j] as a number, 0 where it holds no value. -/
def payValue (s : State) (j : Nat) : Nat := ((s.mem.read (PAYLOAD_BASE + j)).getD 0).toNat

/-- The side-information bit at position p (30_encoding.md R126). -/
def sideBitAt (s : State) (p : Nat) : Bool := (payValue s (p / 8)).testBit (7 - p % 8)

/-- The unsigned value of the w side-information bits from position p on, the first the most significant
(R126). -/
def sideNumber (s : State) (p : Nat) : Nat → Nat
  | 0 => 0
  | w + 1 => 2 * sideNumber s p w + bit (sideBitAt s (p + w))

/-- The side information of a frame, every field at its place: the fields of 30_encoding.md R125 follow
each other without gaps from position 0 on, so that each starts where the widths before it add up to. -/
def sideInfoOf (s : State) : SideInfo :=
  let p := s.BW_BITS + ceilLog2 (s.NE / 2)
  let q := p + 9 + s.NF_TNS
  let pitch := sideBitAt s q
  let j := sideNumber s (q + 11) 2
  let a := q + 13 + gainWidth j
  let b := a + 1 + indexWidthA j
  let c := b + if j = 0 then 4 else 0
  let n := c + if pitch then 10 else 0
  { bw := BitVec.ofNat 3 (sideNumber s 0 s.BW_BITS)
    lastnz := BitVec.ofNat 10 (2 * (sideNumber s s.BW_BITS (ceilLog2 (s.NE / 2)) + 1))
    lsb := sideBitAt s p
    gg := BitVec.ofNat 8 (sideNumber s (p + 1) 8)
    tns :=
      BitVec.ofNat 2 (((List.range s.NF_TNS).map fun f => bit (sideBitAt s (p + 9 + f)) * 2 ^ f).sum)
    pitch := pitch
    snsLf := BitVec.ofNat 5 (sideNumber s (q + 1) 5)
    snsHf := BitVec.ofNat 5 (sideNumber s (q + 6) 5)
    snsShape := BitVec.ofNat 2 j
    snsGain := BitVec.ofNat 3 (sideNumber s (q + 13) (gainWidth j))
    snsLsa := sideBitAt s a
    snsIdxA := BitVec.ofNat 24 (sideNumber s (a + 1) (indexWidthA j))
    snsLsb := decide (j = 0) && sideBitAt s b
    snsIdxB := if j = 0 then BitVec.ofNat 3 (sideNumber s (b + 1) 3) else 0
    pitchIdx := if pitch then BitVec.ofNat 9 (sideNumber s c 9) else 0
    ltpf := pitch && sideBitAt s (c + 9)
    nf := BitVec.ofNat 3 (sideNumber s n 3)
    bits := BitVec.ofNat 12 (n + 3)
    bytes := BitVec.ofNat 10 ((n + 3 + 7) / 8) }

/-- Payload byte j, P(j) = PAY[NBYTES - 1 - j] (30_encoding.md R130). -/
def payloadValue (s : State) (j : Nat) : Nat := payValue s (s.NBYTES - 1 - j)

/-- The k payload bytes from P(c) on as one number, the first the most significant. -/
def payloadNumber (s : State) (c : Nat) : Nat → Nat
  | 0 => 0
  | k + 1 => 256 * payloadNumber s c k + payloadValue s (c + k)

/-- Refinement bit n of the payload (30_encoding.md R131). -/
def payloadBit (s : State) (n : Nat) : Bool :=
  (payloadValue s (s.dec.bytes.toNat + n / 8)).testBit (7 - n % 8)

/-- RESBUF[n] (20_memory.md R95). -/
def resbufBit (s : State) (n : Nat) : Bool := (ramByte s (RESBUF_BASE + n / 8)).getLsbD (n % 8)

/-- X[i] as the host's writes left it, 0 where it holds no value. -/
def xValue (s : State) (i : Nat) : Int :=
  (wordOfBytes ((s.mem.read (X_BASE + 4 * i)).getD 0) ((s.mem.read (X_BASE + 4 * i + 1)).getD 0)
    ((s.mem.read (X_BASE + 4 * i + 2)).getD 0) ((s.mem.read (X_BASE + 4 * i + 3)).getD 0)).toInt

/-- X[0 .. NE - 1]. -/
def spectrum (s : State) : List Int := (List.range s.NE).map (xValue s)

/-- XR[i]. -/
def xrElem (s : State) (i : Nat) : Int := (ramWord s (XR_BASE + 4 * i)).toInt

/-- The scaled magnitude v(i) = |x| · SM · 2^(SE + X_EXP - 46) of a mantissa at gain value g, an exact
rational (43_quantizer_gain.md R242). -/
def scaledMagnitude (r : Config.Roms) (s : State) (x : Int) : ℚ :=
  (x.natAbs : ℚ) * ((r.scale s.gainValue).1 : ℚ) * (2 : ℚ) ^ ((r.scale s.gainValue).2 + s.X_EXP - 46)

/-- The refinement index of coefficient i: the number of nonzero coefficients of XQ before it
(44_residual.md R290). -/
def refinementIndex (s : State) (i : Nat) : Nat := countNonzero (xqElems s i)

/-- Whether an address lies in the n bytes from `lo` on. -/
def inRange (lo n a : Nat) : Prop := lo ≤ a ∧ a < lo + n

/-- Two states whose memories read alike outside the n bytes from `lo` on. -/
def sameBytesOutside (lo n : Nat) (s t : State) : Prop :=
  ∀ a, ¬ inRange lo n a → t.mem.read a = s.mem.read a

/-! ## The bit estimate (43_quantizer_gain.md R246) -/

/-- dn of quadruple n at gain value g (43_quantizer_gain.md R246, HEADROOM being 0). -/
def quadLevel (les : List Int) (g : Int) (n : Nat) : Int := les.getD n 0 + g * 65536

/-- What quadruple n adds to est(g) (R246), in Q16: below T_ZERO, 45.0, nothing where no quadruple above it
in the spectrum reaches T_ZERO, else C_ZERO, 3.78; below T_LIN, 60.2, 2 · dn - C_A, 50.4; and from there on
dn + C_B, 9.8. -/
def quadContribution (les : List Int) (g : Int) (n : Nat) : Int :=
  if quadLevel les g n < 2949120 then
    if ∀ m < les.length, n < m → quadLevel les g m < 2949120 then 0 else 247726
  else if quadLevel les g n < 3945267 then 2 * quadLevel les g n - 3303014
  else quadLevel les g n + 642253

/-! ## Tuples and their cost (42_range_decoder.md R205, 43_quantizer_gain.md R255 to R258) -/

/-- The context index of tuple j with context value c (R205); 2j ≥ NE / 2 is NE ≤ 4j. -/
def tupleContext (s : State) (c j : Nat) : Nat :=
  c + (if s.cfg.mode.ratef then 512 else 0) + (if s.NE ≤ 4 * j then 256 else 0)

/-- The context value after a tuple of magnitudes a and b (R207). -/
def contextValue (c a b : Nat) : Nat := (c % 16) * 16 + min (a + b) 15

/-- The magnitude of value i as a track codes it: in LSB mode bit 0 is cleared where a magnitude of the
tuple is 4 or more, which is where its escape level is not 0 (R257). -/
def codedMagnitude (lsb : Bool) (vs : List Int) (i : Nat) : Nat :=
  if lsb = true ∧ 4 ≤ max (vs.getD (i / 2 * 2) 0).natAbs (vs.getD (i / 2 * 2 + 1) 0).natAbs then
    (vs.getD i 0).natAbs / 2 * 2
  else (vs.getD i 0).natAbs

/-- A track's context value before tuple j (R255). -/
def trackContext (lsb : Bool) (vs : List Int) : Nat → Nat
  | 0 => 0
  | j + 1 =>
    contextValue (trackContext lsb vs j) (codedMagnitude lsb vs (2 * j))
      (codedMagnitude lsb vs (2 * j + 1))

/-- The cost of tuple j of some values on a track, in Q11 bits (R258): each escape with its two raw bits,
which are absent at level 0 in LSB mode, the value symbol, and a sign bit for each nonzero value. -/
def tupleCost (r : Config.Roms) (s : State) (lsb : Bool) (vs : List Int) (j : Nat) : Nat :=
  let a := codedMagnitude lsb vs (2 * j)
  let b := codedMagnitude lsb vs (2 * j + 1)
  let lev := tupleLevel a b
  let id := fun l => r.lut (min l 3) (tupleContext s (trackContext lsb vs j) j)
  ((List.range lev).map fun l =>
      r.bitcost (id l) 16 + if lsb = true ∧ l = 0 then 0 else 2 * 2048).sum +
    r.bitcost (id lev) (a / 2 ^ lev + 4 * (b / 2 ^ lev)) +
    2048 * ((if a = 0 then 0 else 1) + if b = 0 then 0 else 1)

/-- The raw bits of tuple j of some values on a track (R258). -/
def tupleRaw (lsb : Bool) (vs : List Int) (j : Nat) : Nat :=
  let a := codedMagnitude lsb vs (2 * j)
  let b := codedMagnitude lsb vs (2 * j + 1)
  ((List.range (tupleLevel a b)).map fun l => if lsb = true ∧ l = 0 then 0 else 2).sum +
    (if a = 0 then 0 else 1) + if b = 0 then 0 else 1

/-- The cost of the first n tuples of some values on a track. -/
def tuplesCost (r : Config.Roms) (s : State) (lsb : Bool) (vs : List Int) (n : Nat) : Nat :=
  ((List.range n).map (tupleCost r s lsb vs)).sum

/-- Tuple j of some values is not (0, 0). -/
def nonzeroTuple (vs : List Int) (j : Nat) : Prop := vs.getD (2 * j) 0 ≠ 0 ∨ vs.getD (2 * j + 1) 0 ≠ 0

/-! ## PVQ (41_pvq.md) -/

/-- Σ |v[p]|. -/
def norm1 (v : List Int) : Nat := (v.map Int.natAbs).sum

/-- The index that the enumeration of R170 gives a vector with kr pulses left; `lead` says whether the
leading coordinate is behind. -/
def enumWalk : List Int → Nat → Bool → Nat
  | [], _, _ => 0
  | v :: rest, kr, lead =>
    ((List.range (kr - v.natAbs)).map (shellSize rest.length)).sum * (if lead then 2 else 1) +
      (if lead = true ∧ v < 0 then shellSize rest.length (kr - v.natAbs) else 0) +
      enumWalk rest (kr - v.natAbs) (lead || decide (v ≠ 0))

/-- The leading sign of a vector (R163): whether its first nonzero coordinate is negative. -/
def leadingSign : List Int → Bool
  | [] => false
  | v :: rest => if v = 0 then leadingSign rest else decide (v < 0)

/-- enum(v) = (I, LS) (R170). -/
def enumerate (v : List Int) : Nat × Bool := (enumWalk v (norm1 v) false, leadingSign v)

/-! ## The range encoder (42_range_decoder.md R199) -/

/-- The encoder's registers: low of unbounded width, range, and the number of shifts so far. -/
structure RangeEncoder where
  low : Nat
  range : Nat
  shifts : Nat
deriving DecidableEq, Repr

/-- The encoder at its start. -/
def RangeEncoder.start : RangeEncoder := { low := 0, range := 0xFFFFFF, shifts := 0 }

/-- The number of shifts that bring a range back to 2^16 or above. -/
def shiftsFor (range : Nat) : Nat :=
  if 2 ^ 16 ≤ range then 0 else if 2 ^ 8 ≤ range then 1 else 2

/-- A symbol of a table coded. -/
def RangeEncoder.code (e : RangeEncoder) (cum : Nat → Nat) (sym : Nat) : RangeEncoder :=
  let r := e.range / 2 ^ Config.FREQ_BITS
  let range := r * (cum (sym + 1) - cum sym)
  let n := shiftsFor range
  { low := (e.low + r * cum sym) * 256 ^ n, range := range * 256 ^ n, shifts := e.shifts + n }

/-- One symbol to code: its table, the table's number of symbols, and the symbol. -/
structure Coded where
  cum : Nat → Nat
  n : Nat
  sym : Nat

/-- The symbol is one the table can carry. -/
def Coded.ok (x : Coded) : Prop := cumWf x.cum x.n = true ∧ x.sym < x.n ∧ x.cum x.sym < x.cum (x.sym + 1)

/-- Symbols coded one after another. -/
def RangeEncoder.codeAll (e : RangeEncoder) (xs : List Coded) : RangeEncoder :=
  xs.foldl (fun e x => e.code x.cum x.sym) e

/-- Byte j of what the encoder emits: low in 3 + shifts bytes, most significant first. -/
def RangeEncoder.emitted (e : RangeEncoder) (j : Nat) : Nat :=
  e.low / 256 ^ (2 + e.shifts - j) % 256

/-- The payload of a state starts with the bytes that the encoder emits. -/
def carries (s : State) (e : RangeEncoder) : Prop :=
  s.NBYTES ≤ Config.BYTES_MAX ∧ 3 + e.shifts ≤ s.PB ∧
    ∀ j < 3 + e.shifts, (s.mem.read (PAYLOAD_BASE + (s.NBYTES - 1 - j))).isSome = true ∧
      payloadValue s j = e.emitted j

/-- Symbols decoded one after another by dec_sym from tables of known sizes. -/
def decodeSymbols (s : State) : List ((Nat → Nat) × Nat) → RangeCoder → Decoded (List Nat)
  | [], c => .ok [] c
  | (cum, n) :: rest, c =>
    (decSym s cum n c).andThen fun sym c =>
      (decodeSymbols s rest c).andThen fun syms c => .ok (sym :: syms) c

/-! ## The tuple code (30_encoding.md R132 to R134) -/

/-- A raw bit as a coded symbol (R197). -/
def codedBit (b : Bool) : Coded := { cum := uni2, n := 2, sym := bit b }

/-- The codes of the escapes of a tuple, levels l, l + 1, …, l + left - 1, each with its raw bit pair
(R133), which is absent at level 0 in LSB mode (R134). -/
def codedEscapes (r : Config.Roms) (lsb : Bool) (t a b : Nat) : Nat → Nat → List Coded
  | _, 0 => []
  | l, left + 1 =>
    { cum := r.cf (tableOf r l t), n := Config.NSYM_SPEC, sym := Config.ESC } ::
      ((if lsb = true ∧ l = 0 then [] else [codedBit (a.testBit l), codedBit (b.testBit l)]) ++
        codedEscapes r lsb t a b (l + 1) left)

/-- A sign bit, present for a nonzero value only (R133). -/
def codedSign (v : Int) : List Coded := if v = 0 then [] else [codedBit (decide (v < 0))]

/-- The tuple code of (A, B) with context index t (R133). -/
def codedTuple (r : Config.Roms) (lsb : Bool) (t : Nat) (ab : Int × Int) : List Coded :=
  let a := ab.1.natAbs
  let b := ab.2.natAbs
  let lev := tupleLevel a b
  codedEscapes r lsb t a b 0 lev ++
    ({ cum := r.cf (tableOf r lev t), n := Config.NSYM_SPEC
       sym := a / 2 ^ lev + 4 * (b / 2 ^ lev) } :: (codedSign ab.1 ++ codedSign ab.2))

/-- The codes of tuples j, j + 1, … with context value ctx before the first (R207). -/
def codedTuples (r : Config.Roms) (s : State) : Nat → Nat → List (Int × Int) → List Coded
  | _, _, [] => []
  | j, ctx, ab :: rest =>
    codedTuple r s.si.lsb (contextIndex s ctx j) ab ++
      codedTuples r s (j + 1) (nextContext ctx ab.1.natAbs ab.2.natAbs) rest

/-- The TNS filters whose order-present flag is 1 (42_range_decoder.md R208). -/
def activeFilters (s : State) : List Nat :=
  (List.range s.NF_TNS).filter fun f => s.si.tns.getLsbD f

/-- The codes of the TNS orders, then of the TNS coefficients, of the active filters (R132, R208, R210). -/
def codedTns (r : Config.Roms) (s : State) (orders : Nat → Nat) (coefs : Nat → Nat → Nat) :
    List Coded :=
  ((activeFilters s).map fun f =>
      { cum := r.tnsOrder (bit s.cfg.mode.tnsLpcw), n := Config.TNS_ORDER_MAX, sym := orders f - 1 }) ++
    (activeFilters s).flatMap fun f =>
      (List.range (orders f)).map fun k =>
        { cum := r.tnsCoef k, n := Config.TNS_COEF_SYMS, sym := coefs f k }

/-- A tuple that LSB mode can carry: with an escape, bit 0 of both magnitudes is 0 (R134). -/
def lsbFits (lsb : Bool) (ab : Int × Int) : Prop :=
  lsb = true → tupleLevel ab.1.natAbs ab.2.natAbs ≠ 0 → ab.1 % 2 = 0 ∧ ab.2 % 2 = 0

/-! ## The decode of a frame (42_range_decoder.md R208 to R217) -/

/-- The tables of the TNS order symbols (R208). -/
def orderTables (r : Config.Roms) (s : State) : List ((Nat → Nat) × Nat) :=
  (activeFilters s).map fun _ => (r.tnsOrder (bit s.cfg.mode.tnsLpcw), 8)

/-- The places (f, k) of the TNS coefficients in their order, for the order symbols of the active filters
(R208, R210). -/
def coefPlaces (s : State) (orders : List Nat) : List (Nat × Nat) :=
  ((activeFilters s).zip orders).flatMap fun fo => (List.range (fo.2 + 1)).map fun k => (fo.1, k)

/-- The tables of the TNS coefficient symbols (R210). -/
def coefTables (r : Config.Roms) (s : State) (orders : List Nat) : List ((Nat → Nat) × Nat) :=
  (coefPlaces s orders).map fun fk => (r.tnsCoef fk.2, 17)

/-- n escapes of a tuple with context index t, with their raw bits, lead from the registers `c` to `c'`
and give the magnitudes the bits of `a` and `b` (R211, R212, R216). -/
def escapesLead (r : Config.Roms) (s : State) (t : Nat) (c : RangeCoder) :
    Nat → Nat → Nat → RangeCoder → Prop
  | 0, a, b, c' => a = 0 ∧ b = 0 ∧ c' = c
  | n + 1, a, b, c' =>
    ∃ a₀ b₀ c₁ c₂, escapesLead r s t c n a₀ b₀ c₁ ∧
      decSym s (r.cf (r.lut (min n 3) t)) 17 c₁ = .ok 16 c₂ ∧
      if s.si.lsb = true ∧ n = 0 then a = a₀ ∧ b = b₀ ∧ c' = c₂
      else ∃ x y c₃, decSym s uni2 2 c₂ = .ok x c₃ ∧ decSym s uni2 2 c₃ = .ok y c' ∧
        a = a₀ + x * 2 ^ n ∧ b = b₀ + y * 2 ^ n

/-- The sign bit of magnitude m, read for a nonzero one only, gives it the value v (R215). -/
def signLeads (s : State) (m : Nat) (c : RangeCoder) (v : Int) (c' : RangeCoder) : Prop :=
  (m = 0 ∧ v = 0 ∧ c' = c) ∨
    (m ≠ 0 ∧ ∃ x, decSym s uni2 2 c = .ok x c' ∧ v = if x = 1 then -(m : Int) else m)

/-- Tuple j with context value `ctx` is the value (A, B) (R205, R206, R211 to R216): at most 14 escapes,
a value symbol v whose two bit pairs stand above their bits, and the signs. -/
def tupleIs (r : Config.Roms) (s : State) (ctx j : Nat) (c : RangeCoder) (AB : Int × Int)
    (c' : RangeCoder) : Prop :=
  let t := tupleContext s ctx j
  ∃ lev a b v c₁ c₂ c₃, lev ≤ 14 ∧ escapesLead r s t c lev a b c₁ ∧
    decSym s (r.cf (r.lut (min lev 3) t)) 17 c₁ = .ok v c₂ ∧ v < 16 ∧
    signLeads s (a + v % 4 * 2 ^ lev) c₂ AB.1 c₃ ∧ signLeads s (b + v / 4 * 2 ^ lev) c₃ AB.2 c'

/-- Tuple j ends in the escape error, a fifteenth escape (R214). -/
def tupleEscapes (r : Config.Roms) (s : State) (ctx j : Nat) (c c' : RangeCoder) : Prop :=
  let t := tupleContext s ctx j
  ∃ a b c₁, escapesLead r s t c 14 a b c₁ ∧ decSym s (r.cf (r.lut 3 t)) 17 c₁ = .ok 16 c'

/-- A symbol from some table does not decode: RC_LOW lies in the gap above the truncated range, which
leaves the registers, cause 1 (R195); or a shift finds no payload byte left, cause 3 (R196). -/
def symbolFails (s : State) (cum : Nat → Nat) (n : Nat) (c : RangeCoder) (cause : BitVec 4)
    (c' : RangeCoder) : Prop :=
  let gap := c.range.toNat / 2 ^ 10 * 2 ^ 10
  (∃ e, decSym s cum n c = .fail e c') ∧
    ((cause = 1 ∧ gap ≤ c.low.toNat ∧ c' = c) ∨
      (cause = 3 ∧ c.low.toNat < gap ∧ s.NBYTES ≤ s.si.bytes.toNat + c'.cursor.toNat ∧
        c'.range.toNat < 2 ^ 16))

/-- A symbol of tuple j does not decode: the symbol after some escapes, a raw bit of an escape, or a sign
(R211). -/
def tupleFails (r : Config.Roms) (s : State) (ctx j : Nat) (c : RangeCoder) (cause : BitVec 4)
    (c' : RangeCoder) : Prop :=
  ∃ lev a b c₁, lev ≤ 14 ∧ escapesLead r s (tupleContext s ctx j) c lev a b c₁ ∧
    let cum := r.cf (r.lut (min lev 3) (tupleContext s ctx j))
    symbolFails s cum 17 c₁ cause c' ∨
      ∃ v c₂, decSym s cum 17 c₁ = .ok v c₂ ∧
        ((v = 16 ∧ lev < 14 ∧ ¬ (s.si.lsb = true ∧ lev = 0) ∧
            (symbolFails s uni2 2 c₂ cause c' ∨
              ∃ x c₃, decSym s uni2 2 c₂ = .ok x c₃ ∧ symbolFails s uni2 2 c₃ cause c')) ∨
          (v < 16 ∧
            ((a + v % 4 * 2 ^ lev ≠ 0 ∧ symbolFails s uni2 2 c₂ cause c') ∨
              ∃ A c₃, signLeads s (a + v % 4 * 2 ^ lev) c₂ A c₃ ∧ b + v / 4 * 2 ^ lev ≠ 0 ∧
                symbolFails s uni2 2 c₃ cause c')))

/-- The context value after some tuples of a frame (R207). -/
def contextAfter (tuples : List (Int × Int)) : Nat :=
  tuples.foldl (fun c ab => contextValue c ab.1.natAbs ab.2.natAbs) 0

/-- The tuples decoded one after another from the first on. -/
def tuplesLead (r : Config.Roms) (s : State) (c : RangeCoder) (tuples : List (Int × Int))
    (c' : RangeCoder) : Prop :=
  ∃ at_ : Nat → RangeCoder, at_ 0 = c ∧ at_ tuples.length = c' ∧
    ∀ j < tuples.length,
      tupleIs r s (contextAfter (tuples.take j)) j (at_ j) (tuples.getD j (0, 0)) (at_ (j + 1))

/-- What a decode of a frame has got to: the TNS order and coefficient symbols and the tuples decoded so
far, and the decoder registers after each of the three. -/
structure Decoding where
  orders : List Nat
  coefs : List Nat
  tuples : List (Int × Int)
  afterOrders : RangeCoder
  afterCoefs : RangeCoder
  coder : RangeCoder

/-- Every TNS symbol is decoded. -/
def Decoding.tnsDone (d : Decoding) (s : State) : Prop :=
  d.orders.length = (activeFilters s).length ∧ d.coefs.length = (coefPlaces s d.orders).length

/-- The symbols and tuples are what the payload decodes to, in the order of the sections: orders, then
coefficients, then tuples (R208, R210, R211). -/
structure Decoding.sound (d : Decoding) (r : Config.Roms) (s : State) : Prop where
  orders : decodeSymbols s ((orderTables r s).take d.orders.length) s.coder =
    .ok d.orders d.afterOrders
  coefs : decodeSymbols s ((coefTables r s d.orders).take d.coefs.length) d.afterOrders =
    .ok d.coefs d.afterCoefs
  tuples : tuplesLead r s d.afterCoefs d.tuples d.coder
  inOrder : (d.coefs ≠ [] → d.orders.length = (activeFilters s).length) ∧
    (d.tuples ≠ [] → d.tnsDone s)
  within : d.tuples.length ≤ s.si.lastnz.toNat / 2

/-- The decode has run through: every tuple is decoded and RC_LOW is 0 (R200). -/
def Decoding.complete (d : Decoding) (s : State) : Prop :=
  d.tnsDone s ∧ d.tuples.length = s.si.lastnz.toNat / 2 ∧ d.coder.low = 0

/-- What the decode stops at: the next order, the next coefficient or a symbol of the next tuple that does
not decode, cause 1 or 3; a fifteenth escape of the next tuple, cause 2 (R214); or, after the last tuple,
an RC_LOW that is not 0, cause 8 (R200). It leaves the registers `c'`. -/
def Decoding.stops (d : Decoding) (r : Config.Roms) (s : State) (cause : BitVec 4) (c' : RangeCoder) :
    Prop :=
  (d.orders.length < (activeFilters s).length ∧
    symbolFails s (r.tnsOrder (bit s.cfg.mode.tnsLpcw)) 8 d.coder cause c') ∨
  (d.orders.length = (activeFilters s).length ∧
    ∃ fk, (coefPlaces s d.orders)[d.coefs.length]? = some fk ∧
      symbolFails s (r.tnsCoef fk.2) 17 d.coder cause c') ∨
  (d.tnsDone s ∧ d.tuples.length < s.si.lastnz.toNat / 2 ∧
    ((cause = 2 ∧ tupleEscapes r s (contextAfter d.tuples) d.tuples.length d.coder c') ∨
      tupleFails r s (contextAfter d.tuples) d.tuples.length d.coder cause c')) ∨
  (d.tnsDone s ∧ d.tuples.length = s.si.lastnz.toNat / 2 ∧ d.coder.low ≠ 0 ∧ cause = 8 ∧
    c' = d.coder)

/-! ## Well-formed tables (10_state.md R70 to R76) -/

/-- A cumulative-frequency table of n symbols (R71). -/
def cumLegal (cum : Nat → Nat) (n : Nat) : Prop :=
  cum 0 = 0 ∧ cum n = 1024 ∧ ∀ s < n, cum s ≤ cum (s + 1)

/-- The reciprocal gain S(g) = SM · 2^(SE - 15) (R76), an exact rational. -/
def scaleValue (r : Config.Roms) (g : Int) : ℚ := ((r.scale g).1 : ℚ) * (2 : ℚ) ^ ((r.scale g).2 - 15)

/-- The well-formedness conditions on all seven tables: the widths and bounds of their entries, the shape
of the cumulative tables, and S(g) nondecreasing. -/
structure TablesLegal (r : Config.Roms) : Prop where
  lut : ∀ l < 4, ∀ t < 1024, r.lut l t < 64
  cf : ∀ id < 64, cumLegal (r.cf id) 17
  tnsOrder : ∀ w < 2, cumLegal (r.tnsOrder w) 8
  tnsCoef : ∀ k < 8, cumLegal (r.tnsCoef k) 17
  bitcost : ∀ id < 64, ∀ s < 17, r.bitcost id s < 65536
  log2 : ∀ i < 256, r.log2 i < 65536
  mantissa : ∀ g : Int, -128 ≤ g → g ≤ 382 → 0x8000 ≤ (r.scale g).1 ∧ (r.scale g).1 ≤ 0xFFFF
  exponent : ∀ g : Int, -128 ≤ g → g ≤ 382 → -128 ≤ (r.scale g).2 ∧ (r.scale g).2 ≤ 127
  rising : ∀ g : Int, -128 ≤ g → g < 382 → scaleValue r g ≤ scaleValue r (g + 1)

/-! ## Registers that the host writes and reads back -/

/-- The configuration and operand registers and IRQ_EN at their offsets (10_state.md R37, R39, R40, R42,
R43), each with what a host reads back of a word it wrote. CFG_GG's sign above its signed upper field
GG_OFF is read as the head of 10_state.md says of signed fields (log entry 9). -/
def readBack : List (Nat × Reg × (Word → Word)) :=
  [(0x01C, .irqEn, fun w => w &&& 0x3#32), (0x020, .cfgNe, fun w => w &&& 0x3FF#32),
    (0x024, .cfgNbytes, fun w => w &&& 0x3FF#32), (0x028, .cfgMode, fun w => w &&& 0xFF#32),
    (0x02C, .cfgXexp, fun w => (w.setWidth 8).signExtend 32),
    (0x030, .cfgGg, fun w => (w.setWidth 16).signExtend 32),
    (0x034, .cfgTarget, fun w => w &&& 0xFFFF#32), (0x038, .cfgNbitsReal, fun w => w &&& 0xFFFF#32),
    (0x03C, .cfgDelta, fun w => w &&& 0xFFFF#32), (0x040, .cfgConsumed, fun w => w &&& 0xFFFF#32),
    (0x044, .cfgResSlack, fun w => (w.setWidth 16).signExtend 32),
    (0x048, .cfgPrevOff, fun w => (w.setWidth 16).signExtend 32),
    (0x04C, .cfgPrevTarget, fun w => w &&& 0xFFFF#32),
    (0x050, .cfgPrevActual, fun w => w &&& 0xFFFF#32), (0x054, .ggInd, fun w => w &&& 0xFF#32),
    (0x060, .pvqDim, fun w => w &&& 0x1F#32), (0x064, .pvqK, fun w => w &&& 0xF#32),
    (0x068, .pvqIdx, fun w => w), (0x06C, .pvqLs, fun w => w &&& 0x1#32)]

/-- The unsigned result registers at their offsets (10_state.md R44 to R48, R50 to R52), each with the
number it holds. -/
def unsignedResults (s : State) : List (Nat × Nat) :=
  [(0x070, s.pvq.size.toNat), (0x0C0, s.gain.scaleM.toNat), (0x0F4, s.gain.gestRaw.toNat),
    (0x0D0, s.quant.lastnz.toNat), (0x0D4, s.quant.lastnzFull.toNat), (0x0D8, s.quant.nnz.toNat),
    (0x0DC, s.quant.est.toNat), (0x0E0, s.quant.estFull.toNat), (0x0E4, s.quant.estLsbFull.toNat),
    (0x0E8, s.quant.rawbits.toNat), (0x0EC, s.quant.lsbMode.toNat), (0x0F0, s.resNbits.toNat),
    (0x100, s.si.bw.toNat), (0x104, s.si.lastnz.toNat), (0x108, s.si.lsb.toNat),
    (0x10C, s.si.gg.toNat), (0x110, s.si.tns.toNat), (0x114, s.si.pitch.toNat),
    (0x118, s.si.snsLf.toNat), (0x11C, s.si.snsHf.toNat), (0x120, s.si.snsShape.toNat),
    (0x124, s.si.snsGain.toNat), (0x128, s.si.snsLsa.toNat), (0x12C, s.si.snsIdxA.toNat),
    (0x130, s.si.snsLsb.toNat), (0x134, s.si.snsIdxB.toNat), (0x138, s.si.pitchIdx.toNat),
    (0x13C, s.si.ltpf.toNat), (0x140, s.si.nf.toNat), (0x144, s.si.bits.toNat),
    (0x148, s.si.bytes.toNat), (0x160, s.coder.low.toNat), (0x164, s.coder.range.toNat),
    (0x168, s.coder.cursor.toNat), (0x16C, s.dec.ctx.toNat), (0x170, s.dec.fsm.code.toNat),
    (0x174, s.dec.sym.toNat), (0x178, s.dec.bytes.toNat), (0x17C, s.dec.tuples.toNat)]

/-- The signed result registers at their offsets (10_state.md R45), each with the number it holds. -/
def signedResults (s : State) : List (Nat × Int) :=
  [(0x0C4, s.gain.scaleE.toInt), (0x0C8, s.gain.nbOff.toInt), (0x0CC, s.gain.tEff.toInt)]

/-- The reserved word offsets of the window: those that 20_memory.md R91 calls reserved, and between the
registers of 10_state.md those that name none. -/
def reservedOffset (off : Nat) : Bool :=
  decide (off = 0x00C) || decide (0x058 ≤ off ∧ off < 0x060) || decide (0x074 ≤ off ∧ off < 0x080) ||
    decide (0x0F8 ≤ off ∧ off < 0x100) || decide (0x14C ≤ off ∧ off < 0x160) ||
    decide (0x188 ≤ off ∧ off < 0x1A0) || decide (0x220 ≤ off ∧ off < 0x1000) ||
    decide (0x1190 ≤ off ∧ off < 0x2000) || decide (0x2640 ≤ off ∧ off < 0x3000) ||
    decide (0x3640 ≤ off ∧ off < 0x4000) || decide (0x4640 ≤ off ∧ off < 0x5000) ||
    decide (0x5034 ≤ off ∧ off < 0x6000)

/-- The read-only word offsets of the window: the registers marked RO in 10_state.md and the RAMs XQ, XR
and RESBUF (20_memory.md R91). -/
def readOnlyOffset (off : Nat) : Bool :=
  !reservedOffset off &&
    (decide (off < 0x00C) || decide (off = 0x018) || decide (0x070 ≤ off ∧ off < 0x220) ||
      decide (0x3000 ≤ off ∧ off < 0x6000))

/-! ## When a command word ends in a command error (60_exceptions.md R352 to R354) -/

/-- The opcodes of the map (30_encoding.md R116). -/
def definedOpcodes : List Nat :=
  [0x00, 0x01, 0x10, 0x11, 0x20, 0x21, 0x22, 0x23, 0x30, 0x31, 0x32, 0x40, 0x41, 0x50, 0x60]

/-- The decode commands (10_state.md R41). -/
def decodeCommands : List Instr := [.siUnpack, .rcInit, .rcDecode, .resDecode, .pvqShape, .decodeFrame]

/-- The encoder commands (10_state.md R41). -/
def encoderCommands : List Instr := [.gainEst, .quantize, .gainAdj, .resEncode]

/-- ID is legal for CLASS (30_encoding.md R117); the other commands have no argument. -/
def argumentLegal : Instr → Prop
  | .rcDecsym .spec id => id < 64
  | .rcDecsym .tnsOrder id => id < 2
  | .rcDecsym .tnsCoef id => id < 8
  | .rcDecsym .uni2 id => id = 0
  | .nop | .frameStart | .pvqDeenum | .pvqShape | .rcInit | .rcDecbit | .rcDecode | .gainEst
  | .quantize | .gainAdj | .resEncode | .resDecode | .siUnpack | .decodeFrame => True

/-- The configuration and operand checks of a command (10_state.md R41, 60_exceptions.md R357, 41_pvq.md
R165). -/
def configured (s : State) : Instr → Prop
  | .siUnpack | .rcInit | .rcDecode | .resDecode | .pvqShape | .decodeFrame => decodeConfigured s
  | .gainEst | .quantize | .gainAdj | .resEncode => encodeConfigured s
  | .pvqDeenum => 1 ≤ s.pvqIn.dim.toNat ∧ s.pvqIn.dim.toNat ≤ 16 ∧ s.pvqIn.k.toNat ≤ 10
  | .nop | .frameStart | .rcDecsym _ _ | .rcDecbit => True

/-- The column "legal when" of R353. -/
def sequenced (s : State) : Instr → Prop
  | .nop | .frameStart | .pvqDeenum => True
  | .siUnpack | .decodeFrame => s.fstat.siValid = false
  | .rcInit => s.fstat.siValid = true ∧ s.dec.fsm = .idle
  | .rcDecsym _ _ | .rcDecbit => s.dec.fsm = .ready
  | .rcDecode => (s.dec.fsm = .ready ∨ s.dec.fsm = .error) ∧ s.fstat.rcValid = false
  | .resDecode => s.fstat.rcValid = true ∧ s.fstat.resValid = false
  | .pvqShape => s.fstat.siValid = true ∧ s.fstat.shapeValid = false
  | .gainEst => s.fstat.qCount = 0
  | .quantize =>
    s.fstat.qCount = 0 ∨ s.fstat.qCount = 1 ∧ s.fstat.adjCount = 1 ∧ s.fstat.requant = true
  | .gainAdj =>
    s.fstat.adjCount = 0 ∧ s.fstat.qCount = 1 ∨
      s.fstat.adjCount = 1 ∧ s.fstat.requant = true ∧ s.fstat.qCount = 2
  | .resEncode => s.fstat.qValid = true ∧ ¬ (s.fstat.requant = true ∧ s.fstat.qCount = 1)

/-- The column "PASS_LIMIT when" of R353. -/
def pastPassLimit (s : State) : Instr → Prop
  | .quantize => s.fstat.qCount = 2
  | .gainAdj => s.fstat.adjCount = 2
  | .nop | .frameStart | .pvqDeenum | .pvqShape | .rcInit | .rcDecsym _ _ | .rcDecbit | .rcDecode
  | .gainEst | .resEncode | .resDecode | .siUnpack | .decodeFrame => False

/-! ## Between commands -/

/-- RC_FSM in a state the host can observe (10_state.md R52). -/
def RcFsm.observable (f : RcFsm) : Prop := f = .idle ∨ f = .ready ∨ f = .terminal ∨ f = .error

/-- Where a memory may list a byte: the RAMs, less the bytes of RESBUF that hold no bit (20_memory.md R91,
R95). -/
def storable (a : Nat) : Prop := inRam a = true ∧ a < RESBUF_BASE + RESBUF_BYTES

/-- The memory is canonical and lists bytes of the RAMs only. -/
structure MemoryCoherent (s : State) : Prop where
  canonical : s.mem.wf = true
  inRams : ∀ c ∈ s.mem.cells, storable c.1

/-- STATUS: an error has a code of 60_exceptions.md R352 and no error has none, and while a command runs
neither DONE nor ERR is set (R366). -/
structure StatusCoherent (s : State) : Prop where
  errCode : s.status.err = true ↔ s.status.errcode ≠ 0
  codeRange : s.status.errcode.toNat ≤ 7
  busyClear : s.busy = true → s.status.done = false ∧ s.status.err = false

/-- FSTAT: the flag and the cause go together, the cause is one of 60_exceptions.md R360 that is raised,
and a PVQ error is a bit error (R361). -/
structure BitErrorCoherent (s : State) : Prop where
  flagCause : s.fstat.biterr = true ↔ s.fstat.biterrCause ≠ 0
  causeRange : s.fstat.biterrCause.toNat ≤ 8 ∧ s.fstat.biterrCause ≠ BitError.resBudget.code
  pvqIsBitError : s.fstat.pvqErr = true → s.fstat.biterr = true

/-- The decoder's frame state (46_frame.md R331, 10_state.md R52): which validity bits and states of
RC_FSM go together. -/
structure DecoderCoherent (s : State) : Prop where
  observable : s.dec.fsm.observable
  beforeUnpack : s.fstat.siValid = false →
    s.dec.fsm = .idle ∧ s.fstat.rcValid = false ∧ s.fstat.resValid = false ∧
      s.fstat.shapeValid = false
  decoded : s.fstat.rcValid = true → s.dec.fsm = .terminal ∨ s.dec.fsm = .error
  terminal : s.dec.fsm = .terminal → s.fstat.rcValid = true
  refined : s.fstat.resValid = true → s.fstat.rcValid = true

/-- The range decoder's interval (10_state.md R51), the bound of the side information (45_sideinfo.md
R312), and RC_BYTES (42_range_decoder.md R229). RC_DECODE of a bad frame enters TERMINAL with RC_LOW,
RC_RANGE and RC_CURSOR as they stand and RC_BYTES 0 (R223), also from ERROR. So R51 is stated of every
READY, TERMINAL and ERROR state but for a TERMINAL state of a frame with a bad-frame command and a bit
error, where it is stated without the lower bound on RC_RANGE and with the exception that R51 makes for
ERROR; and R229 is stated of TERMINAL where no bad-frame command ran. That reading is the model's (log
entry 22), from 60_exceptions.md R381, by which the step performs R223's pseudocode. `IntervalInWindow` is
R51 in full. -/
structure IntervalCoherent (s : State) : Prop where
  sideBytes : s.si.bytes.toNat ≤ 10
  ready : s.dec.fsm = .ready →
    2 ^ 16 ≤ s.coder.range.toNat ∧ s.coder.low.toNat < s.coder.range.toNat
  terminal : s.dec.fsm = .terminal → s.fstat.bfiSeen = false ∨ s.fstat.biterr = false →
    2 ^ 16 ≤ s.coder.range.toNat ∧ s.coder.low.toNat < s.coder.range.toNat
  inside : s.dec.fsm = .terminal ∨ s.dec.fsm = .error →
    s.coder.low.toNat < s.coder.range.toNat ∨
      (s.coder.low.toNat = 0xFFFFFF ∧ s.coder.range.toNat = 0xFFFFFF)
  failedFlag : s.dec.fsm = .error → s.fstat.rcValid = false → s.fstat.biterr = true
  handOff : s.dec.fsm = .terminal → s.fstat.bfiSeen = false →
    s.coder.low = 0 ∧ s.dec.bytes = s.coder.cursor
  noBytes : s.dec.fsm ≠ .terminal → s.dec.bytes = 0

/-- 10_state.md R51 in full: in READY and TERMINAL the range is in its window, and in READY, TERMINAL and
ERROR low is below it, but for the ERROR state of a priming on FF FF FF. -/
structure IntervalInWindow (s : State) : Prop where
  window : s.dec.fsm = .ready ∨ s.dec.fsm = .terminal →
    2 ^ 16 ≤ s.coder.range.toNat ∧ s.coder.range.toNat < 2 ^ 24
  below : s.dec.fsm = .ready ∨ s.dec.fsm = .terminal ∨ s.dec.fsm = .error →
    s.coder.low.toNat < s.coder.range.toNat ∨
      (s.dec.fsm = .error ∧ s.coder.low.toNat = 0xFFFFFF ∧ s.coder.range.toNat = 0xFFFFFF)

/-- A step that runs RC_DECODE with BFI 1 from ERROR: by R223's pseudocode it enters TERMINAL and leaves
the interval as the bit error left it (46_frame.md R330, R333; log entry 22). -/
structure BadFrameAfterError (s t : State) : Prop where
  command : ∃ w, s.pending = some w ∧ decode w = .ok .rcDecode
  badFrame : s.cfg.mode.bfi = true
  failed : s.dec.fsm = .error
  entered : t.dec.fsm = .terminal
  kept : t.coder = s.coder

/-- The encoder's pass counters (43_quantizer_gain.md R272, 10_state.md R36). -/
structure PassesCoherent (s : State) : Prop where
  bound : s.fstat.qCount.toNat ≤ 2 ∧ s.fstat.adjCount.toNat ≤ 2
  order : s.fstat.adjCount.toNat ≤ s.fstat.qCount.toNat
  valid : s.fstat.qValid = true ↔ s.fstat.qCount ≠ 0
  adjusted : s.fstat.requant = true → s.fstat.adjCount ≠ 0
  secondPass : s.fstat.qCount = 2 → s.fstat.requant = true

/-- XQ holds a value in each of its words once a command of the frame has written it
(70_reset_and_hazards.md R391). -/
def QuantizedCoherent (s : State) : Prop :=
  s.fstat.rcValid = true ∨ s.fstat.qValid = true →
    ∀ j < 4 * Config.NE_MAX, (s.mem.read (XQ_BASE + j)).isSome = true

/-- What holds between commands, in every state a run from reset reaches. -/
structure Coherent (s : State) : Prop where
  memory : MemoryCoherent s
  status : StatusCoherent s
  bitError : BitErrorCoherent s
  decoder : DecoderCoherent s
  interval : IntervalCoherent s
  passes : PassesCoherent s
  quantized : QuantizedCoherent s

end Sys2Proof.Machine
end

