-- ==== Sys2Proof/Certificates/Slice0/Obligations.lean ====
section
/-! DEFINITION. The statements for the provers. Each says in its docstring which rule of spec/ it
formalises; OBLIGATIONS.json lists them. -/

section Statements

open Sys2Proof Sys2Proof.Machine

/-! ## Command words (30_encoding.md) -/

/-- The words that the encoding rules give for each command, among them the example of R120, decode to
it (R115, R116, R117). -/
def Obligations.DecodeWordsOfSpec : Prop :=
  decode 0x00000000#32 = .ok .nop ∧ decode 0x00000001#32 = .ok .frameStart ∧
    decode 0x00000010#32 = .ok .pvqDeenum ∧ decode 0x00000011#32 = .ok .pvqShape ∧
    decode 0x00000020#32 = .ok .rcInit ∧ decode 0x00008321#32 = .ok (.rcDecsym .tnsCoef 3) ∧
    decode 0x00003F21#32 = .ok (.rcDecsym .spec 63) ∧
    decode 0x0000C021#32 = .ok (.rcDecsym .uni2 0) ∧
    decode 0x00000022#32 = .ok .rcDecbit ∧ decode 0x00000023#32 = .ok .rcDecode ∧
    decode 0x00000030#32 = .ok .gainEst ∧ decode 0x00000031#32 = .ok .quantize ∧
    decode 0x00000032#32 = .ok .gainAdj ∧ decode 0x00000040#32 = .ok .resEncode ∧
    decode 0x00000041#32 = .ok .resDecode ∧ decode 0x00000050#32 = .ok .siUnpack ∧
    decode 0x00000060#32 = .ok .decodeFrame

/-- R120: every command but RC_DECSYM is exactly one word, and RC_DECSYM is matched under the mask
0xFFFF00FF with CLASS and ID read from bits [15:8]. -/
def Obligations.DecodeMatchAndMask : Prop :=
  ∀ w : Word,
    (decode w = .ok .nop ↔ w = 0x00#32) ∧ (decode w = .ok .frameStart ↔ w = 0x01#32) ∧
    (decode w = .ok .pvqDeenum ↔ w = 0x10#32) ∧ (decode w = .ok .pvqShape ↔ w = 0x11#32) ∧
    (decode w = .ok .rcInit ↔ w = 0x20#32) ∧ (decode w = .ok .rcDecbit ↔ w = 0x22#32) ∧
    (decode w = .ok .rcDecode ↔ w = 0x23#32) ∧ (decode w = .ok .gainEst ↔ w = 0x30#32) ∧
    (decode w = .ok .quantize ↔ w = 0x31#32) ∧ (decode w = .ok .gainAdj ↔ w = 0x32#32) ∧
    (decode w = .ok .resEncode ↔ w = 0x40#32) ∧ (decode w = .ok .resDecode ↔ w = 0x41#32) ∧
    (decode w = .ok .siUnpack ↔ w = 0x50#32) ∧ (decode w = .ok .decodeFrame ↔ w = 0x60#32) ∧
    (∀ cls id, decode w = .ok (.rcDecsym cls id) ↔
      w &&& 0xFFFF00FF#32 = 0x21#32 ∧ (w.extractLsb' 14 2).toNat = cls.code ∧
        (w.extractLsb' 8 6).toNat = id) ∧
    decode 0x00008321#32 = .ok (.rcDecsym .tnsCoef 3)

/-- R118: a pending word with a defined opcode and a nonzero reserved bit, bits [31:16] of any command or
ARG of a command other than RC_DECSYM, completes with RESERVED_BITS, ERRCODE 2, and changes nothing
else. -/
def Obligations.ReservedBitsRejected : Prop :=
  ∀ (s : State) (w : Word), s.agenda = [] → s.pending = some w →
    (w.extractLsb' 0 8).toNat ∈ definedOpcodes →
    (w.extractLsb' 16 16 ≠ 0 ∨ ((w.extractLsb' 0 8).toNat ≠ 0x21 ∧ w.extractLsb' 8 8 ≠ 0)) →
    ∃ t, step s = .next t ∧ CompletedWithError s .reservedBits t ∧ t.status.errcode = 2

/-- R119: a pending word whose opcode is not in the map completes with ILLEGAL_CMD, ERRCODE 1, and changes
nothing else, whatever its other bits are; and no word but 0 decodes to NOP. -/
def Obligations.IllegalOpcodeRejected : Prop :=
  (∀ (s : State) (w : Word), s.agenda = [] → s.pending = some w →
    (w.extractLsb' 0 8).toNat ∉ definedOpcodes →
    ∃ t, step s = .next t ∧ CompletedWithError s .illegalCmd t ∧ t.status.errcode = 1) ∧
  ∀ w : Word, decode w = .ok .nop → w = 0

/-- Decode and encode agree: every well-formed command, with every CLASS and every ID that the encoding
admits, is read back from its word (R115, R116, R117). -/
def Obligations.DecodeEncode : Prop := ∀ i : Instr, i.wellFormed = true → decode (encode i) = .ok i

/-- No word but its own decodes to a command, and only well-formed commands are decoded (R115, R118,
R120). -/
def Obligations.EncodeDecode : Prop :=
  ∀ (w : Word) (i : Instr), decode w = .ok i → i.wellFormed = true ∧ encode i = w

/-- A step runs the pending command: where the pending word decodes to a command i and the engine moves
next, the step is exec of i, whole (60_exceptions.md R381); where a host access is next, the step is that
access. Which of them moves next is the model's choice (log entry 1, DESIGN CHOICE), R382 leaving the order
open: the head of `agenda` moves, and the engine where `agenda` is empty. -/
def Obligations.StepRunsDecodedCommand : Prop :=
  ∀ (s : State) (rest : List Move),
    (∀ w i, s.pending = some w → decode w = .ok i → i.wellFormed = true →
      (s.agenda = [] → step s = exec i s) ∧
      (s.agenda = .engine :: rest → step s = exec i { s with agenda := rest })) ∧
    ∀ a, s.agenda = .host a :: rest → step s = hostStep a { s with agenda := rest }

/-! ## Control (40_control.md) -/

/-- R150: NOP completes in every state and changes nothing else. -/
def Obligations.NopOnlyCompletes : Prop := ∀ s : State, ∃ t, exec .nop s = .next t ∧ Completed s t

/-- R151: FRAME_START completes in every state; FSTAT, the decoder and every result register are 0, XQ, XR
and RESBUF read 0, and every other register and every other byte of memory is unchanged. -/
def Obligations.FrameStartClears : Prop :=
  ∀ s : State, ∃ t, exec .frameStart s = .next t ∧
    Completed
      { s with
        fstat := FrameStatus.zero, pvq := PvqResult.zero, gain := GainResult.zero
        quant := QuantResult.zero, resNbits := 0, si := SideInfo.zero, coder := RangeCoder.zero
        dec := Decoder.zero, snsY := snsYZero, mem := t.mem } t ∧
    (∀ i < 400, xqElem t i = 0 ∧ xrElem t i = 0 ∧ resbufBit t i = false) ∧
    ∀ a, ¬ inRange XQ_BASE 1600 a → ¬ inRange XR_BASE 1600 a → ¬ inRange RESBUF_BASE 50 a →
      t.mem.read a = s.mem.read a

/-! ## PVQ (41_pvq.md) -/

/-- R160: the shell size N(d, k) is the number of integer vectors of dimension d whose absolute values sum
to k, follows the recursion with its base cases, and over the block's dimensions stays below 2^32, the
largest being N(16, 10) = 387328512. R161: it is even for k ≥ 1 and M(d, k) is its half, with the values
the block uses. -/
def Obligations.ShellSizeCountsVectors : Prop :=
  (∀ d k, {v : List Int | v.length = d ∧ norm1 v = k}.Finite ∧
    {v : List Int | v.length = d ∧ norm1 v = k}.ncard = shellSize d k) ∧
  (∀ d k, 1 ≤ d → 1 ≤ k →
    shellSize d k = shellSize (d - 1) k + shellSize d (k - 1) + shellSize (d - 1) (k - 1)) ∧
  (∀ k, 0 < k → shellSize 1 k = 2) ∧ (∀ d, shellSize d 0 = 1) ∧
  (∀ k, 0 < k → shellSize 0 k = 0) ∧
  (∀ d k, 1 ≤ d → d ≤ 16 → k ≤ 10 →
    shellSize d k < 2 ^ 32 ∧ shellSize d k ≤ shellSize 16 10) ∧
  shellSize 16 10 = 387328512 ∧
  (∀ d k, 1 ≤ k → 2 * mpvqSize d k = shellSize d k) ∧ (∀ d, mpvqSize d 0 = 1) ∧
  mpvqSize 10 10 = 2390004 ∧ mpvqSize 6 1 = 6 ∧ mpvqSize 16 8 = 15158272 ∧
  mpvqSize 16 6 = 774912 ∧ mpvqSize 16 10 = 193664256

/-- R164: for k ≥ 1 the pairs of a leading sign and an index below M(d, k) name the vectors of the shell
(d, k) one to one, and the combined codes LS · M(d, k) + I are the numbers below N(d, k), each of one
pair; for k = 0 the only index is 0 and names the zero vector. -/
def Obligations.IndexSpaceIsBijective : Prop :=
  ∀ d k : Nat,
    (1 ≤ k →
      (∀ ls I, I < mpvqSize d k →
        (deenum I ls d k).2 = false ∧ (deenum I ls d k).1.length = d ∧
          norm1 (deenum I ls d k).1 = k) ∧
      ∀ v : List Int, v.length = d → norm1 v = k →
        ∃! p : Bool × Nat, p.2 < mpvqSize d k ∧ deenum p.2 p.1 d k = (v, false)) ∧
    (1 ≤ k → ∀ c, c < shellSize d k ↔
      ∃! p : Bool × Nat, p.2 < mpvqSize d k ∧ p.1.toNat * mpvqSize d k + p.2 = c) ∧
    mpvqSize d 0 = 1 ∧ ∀ ls, deenum 0 ls d 0 = (List.replicate d 0, false)

/-- R170: the closed form of the enumeration is the inverse of de-enumeration: its index is in range, and
de-enumerating the pair gives the vector back without an error; the zero vector has the pair (0, 0). -/
def Obligations.DeenumInvertsEnumerate : Prop :=
  (∀ v : List Int, 1 ≤ norm1 v →
    (enumerate v).1 < mpvqSize v.length (norm1 v) ∧
      deenum (enumerate v).1 (enumerate v).2 v.length (norm1 v) = (v, false)) ∧
  ∀ d, enumerate (List.replicate d 0) = (0, false)

/-- R165 with an index in range: PVQ_DEENUM writes M(d, k) to PVQ_SIZE and the vector of R166, with zeros
from coordinate d on, to PVQ_VEC, and changes no other register and no memory. -/
def Obligations.PvqDeenumResult : Prop :=
  ∀ s : State,
    let d := s.pvqIn.dim.toNat
    let k := s.pvqIn.k.toNat
    1 ≤ d → d ≤ 16 → k ≤ 10 → s.pvqIn.idx.toNat < mpvqSize d k →
    ∃ t, exec .pvqDeenum s = .next t ∧ Completed { s with pvq := t.pvq } t ∧
      t.pvq.size.toNat = mpvqSize d k ∧
      ∀ i : Fin 16, t.pvq.vec[i].toInt =
        if i.val < d then (deenum s.pvqIn.idx.toNat s.pvqIn.ls d k).1.getD i.val 0 else 0

/-- R168: an index of M(d, k) or above does not stop PVQ_DEENUM: it writes the fallback vector
(k, 0, …, 0), sets PVQ_ERR and raises PVQ_INDEX, whose cause code is 6. -/
def Obligations.PvqOutOfRangeFallback : Prop :=
  ∀ s : State,
    let d := s.pvqIn.dim.toNat
    let k := s.pvqIn.k.toNat
    1 ≤ d → d ≤ 16 → k ≤ 10 → mpvqSize d k ≤ s.pvqIn.idx.toNat →
    deenum s.pvqIn.idx.toNat s.pvqIn.ls d k = ((deenum 0 false d k).1, true) ∧
    ∃ t, exec .pvqDeenum s = .next t ∧
      Completed
        { s with
          pvq := t.pvq
          fstat := ({ s.fstat with pvqErr := true } : FrameStatus).flagged 6 } t ∧
      t.pvq.size.toNat = mpvqSize d k ∧
      ∀ i : Fin 16, t.pvq.vec[i].toInt = if i.val = 0 then (k : Int) else 0

/-- R175, R176 with BFI 0: PVQ_SHAPE writes section A, and for submode 0 section B from coordinate 10 on,
to SNS_Y; a section with an index out of range takes its fallback, and one of either section flags the
frame once. No other register and no memory changes. -/
def Obligations.PvqShapeResult : Prop :=
  ∀ s : State, decodeConfigured s → s.fstat.siValid = true → s.fstat.shapeValid = false →
    s.cfg.mode.bfi = false →
    let j := s.si.snsShape.toNat
    let dk := ([(10, 10), (10, 10), (16, 8), (16, 6)] : List (Nat × Nat)).getD j (0, 0)
    let A := deenum s.si.snsIdxA.toNat s.si.snsLsa dk.1 dk.2
    let B := deenum s.si.snsIdxB.toNat s.si.snsLsb 6 1
    let bad := mpvqSize dk.1 dk.2 ≤ s.si.snsIdxA.toNat ∨ j = 0 ∧ 6 ≤ s.si.snsIdxB.toNat
    ∃ t, exec .pvqShape s = .next t ∧
      Completed { s with snsY := t.snsY, fstat := t.fstat } t ∧
      (bad → t.fstat =
        { ({ s.fstat with pvqErr := true } : FrameStatus).flagged 6 with shapeValid := true }) ∧
      (¬ bad → t.fstat = { s.fstat with shapeValid := true }) ∧
      ∀ i : Fin 16, t.snsY[i].toInt =
        if i.val < dk.1 then A.1.getD i.val 0 else if j = 0 then B.1.getD (i.val - 10) 0 else 0

/-! ## Range decoder (42_range_decoder.md) -/

/-- R191, R220 with BFI 0: RC_INIT primes the decoder from the first three payload bytes; with fewer than
three it loads nothing and ends in ERROR with RC_OVERRUN, cause 3; on FF FF FF it ends in ERROR with
RC_RANGE, cause 1. -/
def Obligations.RcInitResult : Prop :=
  ∀ s : State, decodeConfigured s → payloadWritten s → s.fstat.siValid = true → s.dec.fsm = .idle →
    s.cfg.mode.bfi = false →
    let low := payloadValue s 0 * 2 ^ 16 + payloadValue s 1 * 2 ^ 8 + payloadValue s 2
    let primed : RangeCoder := { low := BitVec.ofNat 24 low, range := 0xFFFFFF, cursor := 3 }
    ∃ t, exec .rcInit s = .next t ∧
      (s.NBYTES < s.si.bytes.toNat + 3 →
        Completed
          { s with
            dec := { s.dec with ctx := 0, fsm := .error }
            fstat := s.fstat.flagged 3 } t) ∧
      (s.si.bytes.toNat + 3 ≤ s.NBYTES → low = 0xFFFFFF →
        Completed
          { s with
            coder := primed
            dec := { s.dec with ctx := 0, fsm := .error }
            fstat := s.fstat.flagged 1 } t) ∧
      (s.si.bytes.toNat + 3 ≤ s.NBYTES → low ≠ 0xFFFFFF →
        Completed { s with coder := primed, dec := { s.dec with ctx := 0, fsm := .ready } } t)

/-- R193 to R196, R221: RC_DECSYM in READY. A low in the gap above the truncated range ends in ERROR with
RC_RANGE and leaves the decoder registers; else the symbol whose part of the interval holds low is taken
off and k payload bytes are shifted in, k the number that brings the range back to 2^16; where the payload
has fewer, those it has are shifted in and the command ends in ERROR with RC_OVERRUN. RC_SYM is written
on success only. No other register and no memory changes. -/
def Obligations.RcDecsymResult : Prop :=
  ∀ (cls : TableClass) (id : Nat) (s : State),
    argumentLegal (.rcDecsym cls id) → s.dec.fsm = .ready → s.NBYTES ≤ 400 → payloadWritten s →
    let cum := (selectTable blockRoms cls id).1
    let n := (selectTable blockRoms cls id).2
    let r := s.coder.range.toNat / 2 ^ 10
    let c := s.coder.cursor.toNat
    let avail := s.NBYTES - s.si.bytes.toNat - c
    ∃ t, exec (.rcDecsym cls id) s = .next t ∧
      (r * 2 ^ 10 ≤ s.coder.low.toNat →
        Completed
          { s with dec := { s.dec with fsm := .error }, fstat := s.fstat.flagged 1 } t) ∧
      (s.coder.low.toNat < r * 2 ^ 10 →
        ∃ sym < n, r * cum sym ≤ s.coder.low.toNat ∧ s.coder.low.toNat < r * cum (sym + 1) ∧
          let low := s.coder.low.toNat - r * cum sym
          let range := r * (cum (sym + 1) - cum sym)
          let k := shiftsFor range
          (k ≤ avail →
            Completed
              { s with
                coder := coderOf (low * 256 ^ k + payloadNumber s c k) (range * 256 ^ k) (c + k)
                dec := { s.dec with sym := BitVec.ofNat 5 sym } } t) ∧
          (avail < k →
            Completed
              { s with
                coder :=
                  coderOf (low * 256 ^ avail + payloadNumber s c avail) (range * 256 ^ avail)
                    (c + avail)
                dec := { s.dec with fsm := .error }
                fstat := s.fstat.flagged 3 } t))

/-- R197, R222: RC_DECBIT is RC_DECSYM with CLASS 3 and ID 0, word for word and in every state; and with
enough payload it halves the truncated range and takes the half that holds low, whose number is the bit. -/
def Obligations.RcDecbitResult : Prop :=
  (∀ s : State,
    step { s with agenda := [], pending := some 0x00000022#32 } =
      step { s with agenda := [], pending := some 0x0000C021#32 }) ∧
  ∀ s : State, s.dec.fsm = .ready → s.NBYTES ≤ 400 → payloadWritten s →
    let r := s.coder.range.toNat / 2 ^ 10
    let c := s.coder.cursor.toNat
    let b := if r * 2 ^ 9 ≤ s.coder.low.toNat then 1 else 0
    let low := s.coder.low.toNat - b * (r * 2 ^ 9)
    let k := shiftsFor (r * 2 ^ 9)
    s.coder.low.toNat < r * 2 ^ 10 → k ≤ s.NBYTES - s.si.bytes.toNat - c →
    ∃ t, exec .rcDecbit s = .next t ∧
      Completed
        { s with
          coder := coderOf (low * 256 ^ k + payloadNumber s c k) (r * 2 ^ 9 * 256 ^ k) (c + k)
          dec := { s.dec with sym := BitVec.ofNat 5 b } } t

/-- R199: the decoder is the inverse of the range encoder. Symbols of any tables that the encoder codes
into the payload are decoded again from the primed registers, RC_LOW is then 0 and RC_CURSOR the number of
bytes emitted, and the emitted value fits that number of bytes. -/
def Obligations.SymbolRoundTrip : Prop :=
  ∀ (s : State) (xs : List Coded), (∀ x ∈ xs, x.ok) → carries s (RangeEncoder.start.codeAll xs) →
    (RangeEncoder.start.codeAll xs).low <
        2 ^ (24 + 8 * (RangeEncoder.start.codeAll xs).shifts) ∧
      ∃ c, decodeSymbols s (xs.map fun x => (x.cum, x.n)) (coderOf (payloadNumber s 0 3) 0xFFFFFF 3) =
          .ok (xs.map fun x => x.sym) c ∧
        c.low = 0 ∧ c.cursor.toNat = 3 + (RangeEncoder.start.codeAll xs).shifts

/-- R230: for every tuple sequence, TNS data and side information that an encoder of R199 codes into a
payload with PB at least its byte count, RC_DECODE after priming reproduces XQ, TNS_ORDER and TNS_COEF
exactly, raises no bit error, and ends with RC_BYTES the encoder's byte count. Over any tables r; the
block's RC_DECODE is the case of its own tables. -/
def Obligations.FrameRoundTrip : Prop :=
  (∀ s : State, exec .rcDecode s = rcDecodeWith blockRoms s) ∧
  ∀ (r : Config.Roms) (s : State) (tuples : List (Int × Int)) (orders : Nat → Nat)
    (coefs : Nat → Nat → Nat),
    let codes := codedTns r s orders coefs ++ codedTuples r s 0 0 tuples
    let enc := RangeEncoder.start.codeAll codes
    decodeConfigured s → s.cfg.mode.bfi = false → s.dec.fsm = .ready → s.fstat.rcValid = false →
    s.coder = coderOf (payloadNumber s 0 3) 0xFFFFFF 3 →
    s.si.lastnz.toNat = 2 * tuples.length → s.si.lastnz.toNat ≤ s.NE →
    (∀ ab ∈ tuples, ab.1.natAbs ≤ 65535 ∧ ab.2.natAbs ≤ 65535 ∧ lsbFits s.si.lsb ab) →
    (∀ f ∈ activeFilters s, 1 ≤ orders f ∧ orders f ≤ 8) →
    (∀ x ∈ codes, x.ok) → carries s enc →
    ∃ t, rcDecodeWith r s = .next t ∧
      t.dec.fsm = .terminal ∧ t.fstat = { s.fstat with rcValid := true } ∧
      t.dec.bytes.toNat = 3 + enc.shifts ∧ t.dec.tuples.toNat = tuples.length ∧
      (∀ j < tuples.length, xqElem t (2 * j) = (tuples.getD j (0, 0)).1 ∧
        xqElem t (2 * j + 1) = (tuples.getD j (0, 0)).2) ∧
      (∀ i, 2 * tuples.length ≤ i → i < 400 → xqElem t i = 0) ∧
      (∀ f : Fin 2, (t.dec.tnsOrder[f]).toNat = if f.val ∈ activeFilters s then orders f else 0) ∧
      ∀ f < 2, ∀ k < 8, ∀ fk : Fin 16, fk.val = 8 * f + k →
        (t.dec.tnsCoef[fk]).toNat = if f ∈ activeFilters s ∧ k < orders f then coefs f k else 0

/-- R223, R217, R229: what RC_DECODE leaves where it is legal and the payload is written, with BFI 0. After
an earlier bit error, or with SI_LASTNZ above NE, nothing is decoded: RC_FSM is ERROR, XQ and the TNS
registers are 0. From READY it decodes the TNS orders, the TNS coefficients and the tuples in their order
(R208, R210, R211), up to the first that fails: the tuples completed keep their values in XQ and RC_TUPLES
counts them, the TNS registers decoded hold their symbols, RC_CTX is the context after the tuples completed
(R207, R218), and all else of these is 0. It ends in TERMINAL with every tuple decoded, RC_LOW 0 and
RC_BYTES the cursor; or in ERROR with RC_BYTES 0 and the cause of what failed: 1 and 3 for a symbol
(R193), 2 for a fifteenth escape of a tuple (R214), 8 for an RC_LOW that is not 0 at the end (R200). No
other register and no other memory changes. -/
def Obligations.RcDecodeResult : Prop :=
  ∀ s : State, decodeConfigured s → payloadWritten s → s.cfg.mode.bfi = false →
    (s.dec.fsm = .ready ∨ s.dec.fsm = .error) → s.fstat.rcValid = false →
    ∃ t, exec .rcDecode s = .next t ∧
      Completed
        { s with
          coder := t.coder
          dec := { t.dec with sym := s.dec.sym }
          fstat :=
            { s.fstat with
              rcValid := true, biterr := t.fstat.biterr, biterrCause := t.fstat.biterrCause }
          mem := t.mem } t ∧
      sameBytesOutside XQ_BASE 1600 s t ∧
      (∀ i, 2 * t.dec.tuples.toNat ≤ i → i < 400 → xqElem t i = 0) ∧
      (s.dec.fsm = .error ∨ s.NE < s.si.lastnz.toNat →
        t.fstat = { s.fstat with rcValid := true } ∧ t.coder = s.coder ∧
          t.dec = { Decoder.zero with sym := s.dec.sym, fsm := .error }) ∧
      (s.dec.fsm = .ready → s.si.lastnz.toNat ≤ s.NE →
        ∃ d : Decoding, d.sound blockRoms s ∧
          t.dec.tuples.toNat = d.tuples.length ∧ t.dec.ctx.toNat = contextAfter d.tuples ∧
          (∀ j < d.tuples.length, xqElem t (2 * j) = (d.tuples.getD j (0, 0)).1 ∧
            xqElem t (2 * j + 1) = (d.tuples.getD j (0, 0)).2) ∧
          (∀ f : Fin 2, t.dec.tnsOrder[f].toNat =
            ((((activeFilters s).zip d.orders).lookup f.val).map (· + 1)).getD 0) ∧
          (∀ f < 2, ∀ k < 8, ∀ fk : Fin 16, fk.val = 8 * f + k → t.dec.tnsCoef[fk].toNat =
            (((coefPlaces s d.orders).zip d.coefs).lookup (f, k)).getD 0) ∧
          ((d.complete s ∧ t.dec.fsm = .terminal ∧ t.fstat = { s.fstat with rcValid := true } ∧
              t.coder = d.coder ∧ t.coder.low = 0 ∧ t.dec.bytes = t.coder.cursor ∧
              t.dec.tuples.toNat = s.si.lastnz.toNat / 2) ∨
            (t.dec.fsm = .error ∧ t.dec.bytes = 0 ∧
              t.dec.tuples.toNat ≤ s.si.lastnz.toNat / 2 ∧
              ∃ cause ∈ ([1, 2, 3, 8] : List (BitVec 4)),
                d.stops blockRoms s cause t.coder ∧
                t.fstat = { s.fstat.flagged cause with rcValid := true })))

/-! ## Quantizer and gain (43_quantizer_gain.md) -/

/-- R245: for an energy P of 1 to 2^64, e is the position of its leading 1, the table index lies in the
table, and the log-energy is the rule's formula; an all-zero quadruple has LE_ZERO. That P = 2^64 follows
the formula too is the model's reading: R245 bounds P below it (log entry 13). -/
def Obligations.LogEnergyInTable : Prop :=
  (∀ (r : Config.Roms) (xexp : Int) (P : Nat), 1 ≤ P → P ≤ 2 ^ 64 →
    ∃ e idx : Nat, 2 ^ e ≤ P ∧ P < 2 ^ (e + 1) ∧ idx < 256 ∧ idx + 256 = P * 2 ^ 8 / 2 ^ e ∧
      logEnergy r xexp P =
        (((e : Int) * 65536 + (r.log2 idx : Int) + 2 * (xexp - 31) * 65536) * 276196) / 65536) ∧
  ∀ (r : Config.Roms) (xexp : Int), logEnergy r xexp 0 = -(2 ^ 30)

/-- R246: est(g) is the sum over the quadruples of what each adds to it, the two upper branches meeting at
T_LIN, and each quadruple's energy P_n, of which R245 takes the log-energy LE_n, is the sum of its four
squares. R247: est(g) is nondecreasing in g, so the accepted candidates are a prefix of the candidates, and
the binary search of R248 finds its largest member, or 0 where none is accepted. -/
def Obligations.GainSearchFindsLargest : Prop :=
  (∀ (les : List Int) (g : Int),
    estimate les g = ((List.range les.length).map (quadContribution les g)).sum) ∧
  (2 * 3945267 - 3303014 : Int) = 3945267 + 642253 ∧
  (∀ xs : List Int, (quadEnergies xs).length = xs.length / 4 ∧
    ∀ n < xs.length / 4, ((quadEnergies xs).getD n 0 : Int) =
      xs.getD (4 * n) 0 ^ 2 + xs.getD (4 * n + 1) 0 ^ 2 + xs.getD (4 * n + 2) 0 ^ 2 +
        xs.getD (4 * n + 3) 0 ^ 2) ∧
  (∀ (les : List Int) (g h : Int), g ≤ h → estimate les g ≤ estimate les h) ∧
  ∀ (les : List Int) (ggOff tEff : Int),
    searchGain les ggOff tEff ≤ 255 ∧
    ∀ cand : Nat, 1 ≤ cand → cand ≤ 255 →
      (estimate les ((cand : Int) + ggOff) ≤ tEff * 128451 ↔ cand ≤ searchGain les ggOff tEff)

/-- R249: for a fixed spectrum, configuration and history, a larger TARGET gives a T_EFF, a GEST_RAW and a
GG_IND at least as large. -/
def Obligations.GainMonotoneInTarget : Prop :=
  ∀ (s : State) (target : BitVec 16),
    let s' := { s with cfg := { s.cfg with target := target } }
    s.cfg.target.toNat ≤ target.toNat → encodeConfigured s' → s.fstat.qCount = 0 →
    spectrumWritten s →
    ∃ t t', exec .gainEst s = .next t ∧ exec .gainEst s' = .next t' ∧
      t.gain.tEff.toInt ≤ t'.gain.tEff.toInt ∧ t.gain.gestRaw.toNat ≤ t'.gain.gestRaw.toNat ∧
      t.cfg.ggInd.toNat ≤ t'.cfg.ggInd.toNat

/-- R244, R248, R250: GAIN_EST writes the smoothed offset and target, the search result and the index, the
scale at that index, ZERO_FRAME and GEST_VALID, and changes no other register and no memory. -/
def Obligations.GainEstResult : Prop :=
  ∀ s : State, encodeConfigured s → s.fstat.qCount = 0 → spectrumWritten s →
    let prev := s.cfg.prevOff.toInt
    let spent := (s.cfg.prevTarget.toNat : Int) - (s.cfg.prevActual.toNat : Int)
    let raw := min (max (prev + 8 * spent) (-320)) 320
    let nbOff := min (max ((prev + raw) / 2) (-320)) 320
    let tEff := (s.TARGET : Int) + nbOff / 8
    let found :=
      if ∀ x ∈ spectrum s, x = 0 then 0
      else searchGain ((quadEnergies (spectrum s)).map (logEnergy blockRoms s.X_EXP)) s.GG_OFF tEff
    let gg := max found s.GG_FLOOR
    ∃ t, exec .gainEst s = .next t ∧
      Completed
        { s with
          gain := t.gain
          cfg := { s.cfg with ggInd := t.cfg.ggInd }
          fstat :=
            { s.fstat with
              zeroFrame := decide (∀ x ∈ spectrum s, x = 0), gestValid := true } } t ∧
      t.gain.nbOff.toInt = nbOff ∧ t.gain.tEff.toInt = tEff ∧ t.gain.gestRaw.toNat = found ∧
      t.cfg.ggInd.toNat = gg ∧
      t.gain.scaleM = BitVec.ofNat 16 (blockRoms.scale ((gg : Int) + s.GG_OFF)).1 ∧
      t.gain.scaleE = BitVec.ofInt 8 (blockRoms.scale ((gg : Int) + s.GG_OFF)).2

/-- R242, R243: a coefficient is quantized to its sign times the least of QMAX and the scaled magnitude,
an exact rational equal to |x[i]| · S(g), rounded half up. -/
def Obligations.CoefficientRoundsHalfUp : Prop :=
  ∀ (r : Config.Roms) (s : State) (x : Int),
    scaledMagnitude r s x =
        |(x : ℚ) * (2 : ℚ) ^ (s.X_EXP - 31)| *
          (((r.scale s.gainValue).1 : ℚ) * (2 : ℚ) ^ ((r.scale s.gainValue).2 - 15)) ∧
      quantCoef r s x = x.sign * min ⌊scaledMagnitude r s x + 1 / 2⌋ 65535

/-- What QUANTIZE makes of a spectrum of whole tuples. A tuple's escape level is the least that brings its
magnitudes below 4 (R256). LSB mode is chosen exactly where it is permitted and the full coding, up to the
last nonzero tuple, costs more than the budget TARGET · 2048 (R259, R262). What is kept ends with the last
nonzero tuple up to which the chosen track's cost is within the budget, or is nothing where there is none;
where the full coding fits, nothing is cut off. The values kept are the quantized ones, in LSB mode with bit
0 of the magnitudes cleared in a tuple with an escape (R257), and 0 from LASTNZ on. The costs and the raw
bits are the sums over tuples of R258, each track with its own contexts (R255), of the last nonzero tuple's
full and LSB-mode coding, and of what is kept (R260). -/
def Obligations.TruncationWithinBudget : Prop :=
  (∀ a b : Nat, max a b / 2 ^ tupleLevel a b < 4 ∧ ∀ l < tupleLevel a b, 4 ≤ max a b / 2 ^ l) ∧
  ∀ (r : Config.Roms) (s : State) (xs : List Int), xs.length % 2 = 0 →
    let xq := xs.map (quantCoef r s)
    let c := codeSpectrum r s xs
    let budget := s.TARGET * 2048
    let fits := fun j => nonzeroTuple xq j ∧ tuplesCost r s c.lsb xq (j + 1) ≤ budget
    1 ≤ c.tuples ∧ c.tuples ≤ c.tuplesFull ∧
    (∀ j, nonzeroTuple xq j → j < c.tuplesFull) ∧
    ((∃ j, nonzeroTuple xq j) → nonzeroTuple xq (c.tuplesFull - 1)) ∧
    ((∀ q ∈ xq, q = 0) → c.lsb = false ∧ c.kept = [] ∧ c.tuplesFull = 1) ∧
    (xs ≠ [] → c.estFull = tuplesCost r s false xq c.tuplesFull ∧
      c.estLsbFull = tuplesCost r s true xq c.tuplesFull) ∧
    ((∃ q ∈ xq, q ≠ 0) →
      (c.lsb = true ↔ s.cfg.mode.lsbEn = true ∧ budget < c.estFull)) ∧
    (∀ j, fits j → c.kept ≠ [] ∧ j < c.tuples) ∧
    (c.kept ≠ [] → fits (c.tuples - 1)) ∧
    (c.kept = [] → c.tuples = 1) ∧
    (c.kept ≠ [] → ∀ i < 2 * c.tuples,
      c.kept.getD i 0 = (xq.getD i 0).sign * codedMagnitude c.lsb xq i) ∧
    (c.lsb = false → c.kept ≠ [] → ∀ i < 2 * c.tuples, c.kept.getD i 0 = xq.getD i 0) ∧
    (∀ i, 2 * c.tuples ≤ i → c.kept.getD i 0 = 0) ∧
    c.est = tuplesCost r s c.lsb c.kept c.tuples ∧
    c.rawbits = ((List.range c.tuples).map (tupleRaw c.lsb c.kept)).sum ∧
    (c.kept ≠ [] → c.est ≤ budget) ∧
    (c.estFull ≤ budget → c.lsb = false ∧ ∀ i, c.kept.getD i 0 = xq.getD i 0)

/-- R260: QUANTIZE writes the coding of the spectrum to XQ and the quantizer registers, the scale at the
current index, ZERO_FRAME, Q_VALID and one more to Q_COUNT, and changes no other register and no other
memory. -/
def Obligations.QuantizeResult : Prop :=
  ∀ s : State, encodeConfigured s → spectrumWritten s →
    (s.fstat.qCount = 0 ∨ s.fstat.qCount = 1 ∧ s.fstat.adjCount = 1 ∧ s.fstat.requant = true) →
    let c := codeSpectrum blockRoms s (spectrum s)
    let nnz := (c.kept.filter fun q => decide (q ≠ 0)).length
    ∃ t, exec .quantize s = .next t ∧
      Completed
        { s with
          gain :=
            { s.gain with
              scaleM := BitVec.ofNat 16 (blockRoms.scale (s.GG_IND + s.GG_OFF)).1
              scaleE := BitVec.ofInt 8 (blockRoms.scale (s.GG_IND + s.GG_OFF)).2 }
          quant :=
            { lastnz := BitVec.ofNat 10 (2 * c.tuples)
              lastnzFull := BitVec.ofNat 10 (2 * c.tuplesFull)
              nnz := BitVec.ofNat 10 nnz
              est := BitVec.ofNat 32 c.est
              estFull := BitVec.ofNat 32 c.estFull
              estLsbFull := BitVec.ofNat 32 c.estLsbFull
              rawbits := BitVec.ofNat 32 c.rawbits
              lsbMode := c.lsb }
          fstat :=
            { s.fstat with
              zeroFrame := decide (nnz = 0), qValid := true, qCount := s.fstat.qCount + 1 }
          mem := t.mem } t ∧
      (∀ i < 400, xqElem t i = c.kept.getD i 0) ∧ sameBytesOutside XQ_BASE 1600 s t

/-- R270: GAIN_ADJ. The first adjustment lowers the index by one, or flags the budget at the floor, when
the real count exceeds the target; raises it by one or two when the count is below the guard band; else
changes nothing. The second sets the budget flag to whether the count exceeds the target. Each counts, and
no other register and no memory changes. -/
def Obligations.GainAdjResult : Prop :=
  ∀ s : State, encodeConfigured s →
    let nb := (s.cfg.nbitsReal.toNat : Int)
    let T := (s.TARGET : Int)
    let Δ := (s.cfg.delta.toNat : Int)
    let gg := s.GG_IND
    let moved := fun (gg' : Nat) (t : State) =>
      Completed
        { s with
          cfg := { s.cfg with ggInd := BitVec.ofNat 8 gg' }
          fstat := { s.fstat with adjCount := 1, requant := true } } t
    (s.fstat.adjCount = 0 → s.fstat.qCount = 1 →
      ∃ t, exec .gainAdj s = .next t ∧
        (T < nb → s.GG_FLOOR < gg → moved (gg - 1) t) ∧
        (T < nb → gg ≤ s.GG_FLOOR →
          Completed { s with fstat := { s.fstat with adjCount := 1, budgetFlag := true } } t) ∧
        (nb ≤ T → nb < T - Δ → gg < 255 →
          moved (if nb < T - 2 * Δ ∧ gg ≤ 253 then gg + 2 else gg + 1) t) ∧
        (nb ≤ T → (T - Δ ≤ nb ∨ gg = 255) →
          Completed { s with fstat := { s.fstat with adjCount := 1 } } t)) ∧
    (s.fstat.adjCount = 1 → s.fstat.requant = true → s.fstat.qCount = 2 →
      ∃ t, exec .gainAdj s = .next t ∧
        Completed
          { s with fstat := { s.fstat with adjCount := 2, budgetFlag := decide (T < nb) } } t)

/-- R271: the budget is never overrun in silence. When GAIN_ADJ leaves no requantization due, either the
real count it was given is within the target or BUDGET_FLAG is set; and when it leaves one due, the index
has moved. -/
def Obligations.BudgetNeverSilent : Prop :=
  ∀ s : State, encodeConfigured s → Coherent s →
    (s.fstat.adjCount = 0 ∧ s.fstat.qCount = 1 ∨
      s.fstat.adjCount = 1 ∧ s.fstat.requant = true ∧ s.fstat.qCount = 2) →
    ∃ t, exec .gainAdj s = .next t ∧
      (t.fstat.requant = false ∨ t.fstat.adjCount = 2 →
        s.cfg.nbitsReal.toNat ≤ s.TARGET ∨ t.fstat.budgetFlag = true) ∧
      (t.fstat.requant = true → t.fstat.adjCount = 1 → t.cfg.ggInd ≠ s.cfg.ggInd)

/-- R272: at most two QUANTIZE and two GAIN_ADJ of a frame take effect. A third of either ends with
PASS_LIMIT, and no command takes either counter beyond two. -/
def Obligations.PassBound : Prop :=
  (∀ s : State, encodeConfigured s →
    (s.fstat.qCount = 2 → ∃ t, exec .quantize s = .next t ∧ CompletedWithError s .passLimit t) ∧
    (s.fstat.adjCount = 2 → ∃ t, exec .gainAdj s = .next t ∧ CompletedWithError s .passLimit t)) ∧
  ∀ (i : Instr) (s t : State), exec i s = .next t →
    s.fstat.qCount.toNat ≤ 2 → s.fstat.adjCount.toNat ≤ 2 →
    t.fstat.qCount.toNat ≤ 2 ∧ t.fstat.adjCount.toNat ≤ 2

/-! ## Residual refinement (44_residual.md) -/

/-- R290, R292, R293, R294: RES_ENCODE writes min(max(TARGET - CONSUMED + RES_SLACK, 0), nnz) bits; the bit
of the n-th nonzero coefficient says whether the exact scaled magnitude is at or above |XQ[i]|, and every
other bit of RESBUF is 0. No other register and no other memory changes. -/
def Obligations.ResEncodeResult : Prop :=
  ∀ s : State, encodeConfigured s → spectrumWritten s → s.fstat.qValid = true →
    ¬ (s.fstat.requant = true ∧ s.fstat.qCount = 1) →
    let nres :=
      min (max ((s.TARGET : Int) - s.cfg.consumed.toNat + s.cfg.resSlack.toInt) 0)
        (refinementIndex s s.NE)
    ∃ t, exec .resEncode s = .next t ∧
      Completed
        { s with
          resNbits := t.resNbits, mem := t.mem, fstat := { s.fstat with resencValid := true } } t ∧
      (t.resNbits.toNat : Int) = nres ∧ sameBytesOutside RESBUF_BASE 50 s t ∧
      (∀ i < s.NE, xqElem s i ≠ 0 → (refinementIndex s i : Int) < nres →
        (resbufBit t (refinementIndex s i) = true ↔
          ((xqElem s i).natAbs : ℚ) ≤ scaledMagnitude blockRoms s (xValue s i))) ∧
      ∀ n : Nat, n < 400 → nres ≤ (n : Int) → resbufBit t n = false

/-- R299, R300, R131 with BFI 0: RES_DECODE refines min(nnz, 8 · (PB - RC_BYTES)) coefficients, none after
a bit error: the n-th nonzero coefficient moves away from zero by 0x500 for refinement bit 1 and toward it
by 0x300 for bit 0, every other one is XQ[i] · 4096, and XR is 0 from NE on. No other register and no
other memory changes. That a negative count, which a host that lowers NBYTES within a frame can make, is
stored as its low bits is the model's reading (log entry 11). -/
def Obligations.ResDecodeResult : Prop :=
  ∀ s : State, decodeConfigured s → payloadWritten s → s.cfg.mode.bfi = false →
    s.fstat.rcValid = true → s.fstat.resValid = false →
    let left := (s.NBYTES : Int) - s.si.bytes.toNat - s.dec.bytes.toNat
    let nres := if s.fstat.biterr then 0 else min (refinementIndex s s.NE : Int) (8 * left)
    ∃ t, exec .resDecode s = .next t ∧
      Completed
        { s with
          resNbits := BitVec.ofInt 10 nres
          mem := t.mem
          fstat := { s.fstat with resValid := true } } t ∧
      sameBytesOutside XR_BASE 1600 s t ∧
      (∀ i < s.NE, ramWord t (XR_BASE + 4 * i) = BitVec.ofInt 32
        (xqElem s i * 4096 +
          if xqElem s i ≠ 0 ∧ (refinementIndex s i : Int) < nres then
            (xqElem s i).sign *
              (if payloadBit s (refinementIndex s i) then 0x500 else -0x300)
          else 0)) ∧
      ∀ i, s.NE ≤ i → i < 400 → xrElem t i = 0

/-- R302: a refinement bit 1 moves a nonzero coefficient away from zero by 0x500 and a bit 0 toward it by
0x300, in units of 1/4096, and a step never changes its sign. -/
def Obligations.RefinementKeepsSign : Prop :=
  ∀ (q : Int) (b : Bool), q ≠ 0 →
    (refined q b).sign = q.sign ∧
      ((refined q b).natAbs : Int) = 4096 * q.natAbs + if b then 0x500 else -0x300

/-! ## Side information (45_sideinfo.md) -/

/-- R311, R314 with BFI 0: SI_UNPACK stores every field of the frame's side information, each read from its
place in the layout of 30_encoding.md R125, raises SI_LASTNZ, cause 5, exactly where the decoded lastnz
exceeds NE, and changes no other register and no memory. -/
def Obligations.SiUnpackResult : Prop :=
  ∀ s : State, decodeConfigured s → payloadWritten s → s.cfg.mode.bfi = false →
    s.fstat.siValid = false →
    ∃ t, exec .siUnpack s = .next t ∧
      Completed { s with si := sideInfoOf s, fstat := t.fstat } t ∧
      (s.NE < t.si.lastnz.toNat → t.fstat = { s.fstat.flagged 5 with siValid := true }) ∧
      (t.si.lastnz.toNat ≤ s.NE → t.fstat = { s.fstat with siValid := true })

/-- R312: the number of side-information bits that SI_UNPACK reports, 51 to 76, and of bytes, 7 to 10; the
stage-2 bits after the submode number 28, 25, 27 and 24. -/
def Obligations.SideInfoSize : Prop :=
  ∀ s : State, decodeConfigured s → payloadWritten s → s.cfg.mode.bfi = false →
    s.fstat.siValid = false →
    ∃ t, exec .siUnpack s = .next t ∧
      (∃ w, 2 ^ w ≥ s.NE / 2 ∧ (∀ v < w, 2 ^ v < s.NE / 2) ∧
        t.si.bits.toNat =
          s.BW_BITS + w + 1 + 8 + s.NF_TNS + 1 + 5 + 5 + 2 +
            ([28, 25, 27, 24] : List Nat).getD t.si.snsShape.toNat 0 +
            (if t.si.pitch then 10 else 0) + 3) ∧
      51 ≤ t.si.bits.toNat ∧ t.si.bits.toNat ≤ 76 ∧
      t.si.bytes.toNat = (t.si.bits.toNat + 7) / 8 ∧ 7 ≤ t.si.bytes.toNat ∧
      t.si.bytes.toNat ≤ 10

/-! ## The whole frame (46_frame.md) -/

/-- R331, R332: DECODE_FRAME completes where the payload is written, and ends in the same state, every
register, every RAM and FSTAT, as SI_UNPACK, RC_INIT, RC_DECODE, RES_DECODE and PVQ_SHAPE issued one after
the other from the same state, except for STATUS. -/
def Obligations.DecodeFrameIsFiveCommands : Prop :=
  ∀ s : State, DecoderCoherent s → decodeConfigured s → payloadWritten s → s.fstat.siValid = false →
    ∃ a b c d e t,
      exec .siUnpack s = .next a ∧ exec .rcInit a = .next b ∧ exec .rcDecode b = .next c ∧
      exec .resDecode c = .next d ∧ exec .pvqShape d = .next e ∧
      exec .decodeFrame s = .next t ∧ t = { e with status := t.status, epoch := t.epoch } ∧
      t.status = { s.status with done := true } ∧ t.fstat.siValid = true ∧
      t.fstat.rcValid = true ∧ t.fstat.resValid = true ∧ t.fstat.shapeValid = true

/-- R333: with BFI 1 each decode command gives its outputs the fixed value of its row, sets BFI_SEEN and
its validity bit, raises no bit error and reads no payload byte, written or not. That RC_DECODE leaves
RC_LOW, RC_RANGE and RC_CURSOR as they stand and enters TERMINAL with RC_BYTES 0, from ERROR too, is R223's
pseudocode, which the engine step performs (60_exceptions.md R381) and to which R330 leaves what the command
does in ERROR; that this goes before 10_state.md R51 and R229, which say otherwise of every TERMINAL state,
and R198, by which only FRAME_START leaves ERROR, is the model's reading (log entry 22). -/
def Obligations.BadFrameDecode : Prop :=
  ∀ s : State, decodeConfigured s → s.cfg.mode.bfi = true →
    (s.fstat.siValid = false → ∃ t, exec .siUnpack s = .next t ∧
      Completed
        { s with si := SideInfo.zero, fstat := { s.fstat with bfiSeen := true, siValid := true } }
        t) ∧
    (s.fstat.siValid = true → s.dec.fsm = .idle → ∃ t, exec .rcInit s = .next t ∧
      Completed
        { s with
          coder := { low := 0, range := 0xFFFFFF, cursor := 0 }
          dec := { s.dec with ctx := 0, fsm := .ready }
          fstat := { s.fstat with bfiSeen := true } } t) ∧
    ((s.dec.fsm = .ready ∨ s.dec.fsm = .error) → s.fstat.rcValid = false →
      ∃ t, exec .rcDecode s = .next t ∧
        Completed
          { s with
            dec := { Decoder.zero with sym := s.dec.sym, fsm := .terminal }
            fstat := { s.fstat with bfiSeen := true, rcValid := true }
            mem := t.mem } t ∧
        (∀ i < 400, xqElem t i = 0) ∧ sameBytesOutside XQ_BASE 1600 s t) ∧
    (s.fstat.rcValid = true → s.fstat.resValid = false → ∃ t, exec .resDecode s = .next t ∧
      Completed
        { s with
          resNbits := 0
          fstat := { s.fstat with bfiSeen := true, resValid := true }
          mem := t.mem } t ∧
      (∀ i < 400, xrElem t i = 0) ∧ sameBytesOutside XR_BASE 1600 s t) ∧
    (s.fstat.siValid = true → s.fstat.shapeValid = false → ∃ t, exec .pvqShape s = .next t ∧
      Completed
        { s with
          snsY := snsYZero
          fstat := { s.fstat with bfiSeen := true, shapeValid := true } } t) ∧
    (s.fstat.siValid = false → ∃ t, exec .decodeFrame s = .next t ∧
      Completed
        { s with
          si := SideInfo.zero
          coder := { low := 0, range := 0xFFFFFF, cursor := 0 }
          dec := { Decoder.zero with sym := s.dec.sym, fsm := .terminal }
          resNbits := 0
          snsY := snsYZero
          fstat :=
            { s.fstat with
              bfiSeen := true, siValid := true, rcValid := true, resValid := true
              shapeValid := true }
          mem := t.mem } t ∧
      (∀ i < 400, xqElem t i = 0 ∧ xrElem t i = 0) ∧
      ∀ a, ¬ inRange XQ_BASE 1600 a → ¬ inRange XR_BASE 1600 a →
        t.mem.read a = s.mem.read a)

/-! ## Errors and completion (60_exceptions.md) -/

/-- R355: a command that ends in a command error, which is how an engine step raises ERR, changes no
register, no RAM and no FSTAT field but by the completion of R367. -/
def Obligations.CommandErrorChangesNothing : Prop :=
  ∀ s t : State, s.agenda = [] → s.busy = true → s.status.err = false → step s = .next t →
    t.status.err = true → ∃ e, CompletedWithError s e t

/-- R357: CONFIG_ERR is how a decode or an encoder command ends exactly where NE, NBYTES, or its NF_TNS or
TARGET, is outside the legal range; ERRCODE is 0 while a command runs (R366). -/
def Obligations.ConfigurationErrors : Prop :=
  ∀ s : State, s.status.errcode = 0 →
    (∀ i ∈ decodeCommands,
      (∃ t, exec i s = .next t ∧ CompletedWithError s .configErr t ∧ t.status.errcode = 3) ↔
        ¬ decodeConfigured s) ∧
    ∀ i ∈ encoderCommands,
      (∃ t, exec i s = .next t ∧ CompletedWithError s .configErr t ∧ t.status.errcode = 3) ↔
        ¬ encodeConfigured s

/-- R352, R353, R354: the command error reported for a pending word is the first that applies in the order
ILLEGAL_CMD, RESERVED_BITS, BAD_ARG, CONFIG_ERR or PVQ_CFG, SEQ_ERR, PASS_LIMIT, each where its table says;
and where none applies the command ends in no command error. -/
def Obligations.CommandErrorOrder : Prop :=
  (∀ (s : State) (w : Word), s.agenda = [] → s.pending = some w →
    ((w.extractLsb' 0 8).toNat ∉ definedOpcodes →
      ∃ t, step s = .next t ∧ CompletedWithError s .illegalCmd t) ∧
    ((w.extractLsb' 0 8).toNat ∈ definedOpcodes → decode w = .error .reservedBits →
      ∃ t, step s = .next t ∧ CompletedWithError s .reservedBits t) ∧
    ∀ i, decode w = .ok i →
      (¬ argumentLegal i → ∃ t, step s = .next t ∧ CompletedWithError s .badArg t) ∧
      (argumentLegal i → ¬ configured s i → ∃ t, step s = .next t ∧
        CompletedWithError s (if i = .pvqDeenum then .pvqCfg else .configErr) t) ∧
      (argumentLegal i → configured s i → ¬ sequenced s i → ¬ pastPassLimit s i →
        ∃ t, step s = .next t ∧ CompletedWithError s .seqErr t) ∧
      (argumentLegal i → configured s i → pastPassLimit s i →
        ∃ t, step s = .next t ∧ CompletedWithError s .passLimit t) ∧
      (argumentLegal i → configured s i → sequenced s i → ¬ pastPassLimit s i →
        ∀ t, step s = .next t → t.status = { s.status with done := true })) ∧
  decode 0x00010031#32 = .error .reservedBits

/-- R362, R364, R367: the engine step of any pending word completes, whatever the word, the registers and
the payload are, once the inputs are written: BUSY is 0 and DONE is 1 after it, and a bit error does not
stop it. -/
def Obligations.EveryCommandCompletes : Prop :=
  ∀ s : State, s.agenda = [] → s.busy = true → inputsWritten s →
    ∃ t, step s = .next t ∧ t.busy = false ∧ t.status.done = true ∧
      t.status.accessErr = s.status.accessErr ∧ t.agenda = [] ∧
      (t.status.err = s.status.err ∨ t.status.err = true)

/-- R57, R101: a command stops the machine only on an engine read of an element that holds no value, and
the fault names it: a payload byte below NBYTES, or a word of X below NE. A payload byte at BYTES_MAX or
above, below an NBYTES that no configuration check bounds, can be asked for by RC_DECSYM and RC_DECBIT
alone; no rule says what it gives, and that the machine stops on it is the model's choice (log entry
5). -/
def Obligations.FaultsNameTheElementRead : Prop :=
  ∀ (i : Instr) (s : State),
    (∀ r, exec i s ≠ .refused r) ∧
    ∀ f, exec i s = .fault f →
      (∃ j, f = .unwrittenPayload j ∧ j < s.NBYTES ∧ s.mem.read (PAYLOAD_BASE + j) = none) ∨
      (∃ j, f = .unwrittenX j ∧ j < s.NE ∧ ∃ b < 4, s.mem.read (X_BASE + 4 * j + b) = none) ∨
      (∃ j, f = .payloadBeyondRam j ∧ 400 ≤ j ∧ j < s.NBYTES ∧
        (i = .rcDecbit ∨ ∃ cls id, i = .rcDecsym cls id))

/-- R101: a command reads PAY[j] only for j < NBYTES, X[i] only for i < NE, and besides them XQ[i] only for
i < NE. Two memories that agree on those addresses give the same stop, or next states with the same
registers that write the same bytes and keep every other byte as it was. -/
def Obligations.ReadsOnlyItsInputs : Prop :=
  ∀ (i : Instr) (s : State) (m : Memory), (∀ a, engineReads s a → m.read a = s.mem.read a) →
    (∀ f, exec i s = .fault f → exec i { s with mem := m } = .fault f) ∧
    ∀ t, exec i s = .next t → ∃ t', exec i { s with mem := m } = .next t' ∧
      t' = { t with mem := t'.mem } ∧
      ∀ a, t'.mem.read a = t.mem.read a ∨
        (t.mem.read a = s.mem.read a ∧ t'.mem.read a = m.read a)

/-- R366: a word written to CMD while BUSY is 0 is accepted, whatever the word: BUSY is set, DONE, ERR and
ERRCODE are cleared, ACCESS_ERR stays, and the word is pending. While BUSY is 1 it is not queued and
ACCESS_ERR is set. -/
def Obligations.CommandAcceptance : Prop :=
  ∀ (s : State) (w : Word),
    (s.busy = false → ∃ t, hostStep (.write .word 0x010 w) s = .next t ∧ t.busy = true ∧
      t =
        { s with
          status := { s.status with done := false, err := false, errcode := 0 }
          pending := some w
          response := t.response
          epoch := t.epoch }) ∧
    (s.busy = true → ∃ t, hostStep (.write .word 0x010 w) s = .next t ∧
      t =
        { s with
          status := { s.status with accessErr := true }
          response := t.response
          epoch := t.epoch })

/-- R370: the interrupt line is (DONE ∧ DONE_IE) ∨ (ERR ∧ ERR_IE) as a host reads these bits in STATUS and
IRQ_EN; the acceptance of a command clears it; a completion without a command error raises it where DONE_IE
is 1, and one with a command error where DONE_IE or ERR_IE is 1, and otherwise they leave it low; and a
host write of 1 to DONE and ERR clears it. ERR is 0 while a command runs (R366). -/
def Obligations.InterruptLine : Prop :=
  (∀ s : State, s.irq =
    ((s.statusWord.getLsbD 1 && s.irqEn.word.getLsbD 0) ||
      (s.statusWord.getLsbD 2 && s.irqEn.word.getLsbD 1))) ∧
  (∀ (s : State) (w : Word), (s.accept w).irq = false) ∧
  (∀ s t : State, Completed s t → s.irqEn.doneIe = true → t.irq = true) ∧
  (∀ s t : State, Completed s t → s.status.err = false → t.irq = s.irqEn.doneIe) ∧
  (∀ (s : State) (e : CmdError) (t : State), CompletedWithError s e t →
    t.irq = (s.irqEn.doneIe || s.irqEn.errIe)) ∧
  ∀ (s : State) (w : Word), w.getLsbD 1 = true → w.getLsbD 2 = true →
    (hostWrite 0x014 w s).irq = false

/-! ## The host window (20_memory.md, 10_state.md) -/

/-- While a command runs, the host reads ID, PARAM0, PARAM1, STATUS, FSTAT and IRQ_EN and writes STATUS and
IRQ_EN; every other read answers 0, every other write is ignored, and both set ACCESS_ERR (R99). That this
goes before R96 for a write to a read-only register, which R96 read alone would ignore without ACCESS_ERR,
is the model's reading (log entry 12). -/
def Obligations.BusyRejections : Prop :=
  ∀ (s : State) (off : Nat) (w : Word), s.busy = true → off < 0x6000 → off % 4 = 0 →
    let rejected := { s with status := { s.status with accessErr := true } }
    hostRead 0x000 s = (s, 0x50564431#32) ∧ hostRead 0x004 s = (s, 0x15064190#32) ∧
    hostRead 0x008 s = (s, 0x10040A8E#32) ∧ hostRead 0x014 s = (s, s.statusWord) ∧
    hostRead 0x018 s = (s, s.fstat.word) ∧ hostRead 0x01C s = (s, s.irqEn.word) ∧
    (off ∉ [0x000, 0x004, 0x008, 0x014, 0x018, 0x01C] → hostRead off s = (rejected, 0)) ∧
    hostWrite 0x014 w s = { s with status := s.status.clear w } ∧
    hostWrite 0x01C w s =
      { s with irqEn := { doneIe := w.getLsbD 0, errIe := w.getLsbD 1 } } ∧
    (off ∉ [0x014, 0x01C] → hostWrite off w s = rejected)

/-- R92: an access of 8 or 16 bits, or at an offset not a multiple of 4, is answered with SLVERR, changes
no state of the block and does not set ACCESS_ERR; an aligned 32-bit access is done and answered. -/
def Obligations.MisalignedAccessAnswersSlverr : Prop :=
  ∀ (s : State) (width : Width) (off : Nat) (w : Word), off < 0x6000 →
    ((width ≠ .word ∨ off % 4 ≠ 0) →
      hostStep (.read width off) s = .next { s with response := .slverr } ∧
      hostStep (.write width off w) s = .next { s with response := .slverr }) ∧
    (width = .word → off % 4 = 0 →
      hostStep (.read width off) s =
        .next { (hostRead off s).1 with response := .data (hostRead off s).2 } ∧
      ∃ t, hostStep (.write width off w) s = .next t ∧
        t = { hostWrite off w s with response := .written, epoch := t.epoch })

/-- R91, R97: an access to a reserved offset of the window reads 0, ignores a write, and sets ACCESS_ERR,
whether or not a command runs. -/
def Obligations.ReservedOffsetAccess : Prop :=
  ∀ (s : State) (off : Nat) (w : Word), off % 4 = 0 → reservedOffset off = true →
    let marked := { s with status := { s.status with accessErr := true } }
    hostRead off s = (marked, 0) ∧ hostWrite off w s = marked

/-- R96: with no command running, a read of any offset that is not reserved changes nothing, a write to a
read-only register or RAM is ignored, and CMD reads 0. R95: RESBUF[n] is bit n mod 32 of RESBUF word n / 32
as the host reads it, and the bits from NE_MAX on read 0. -/
def Obligations.ReadsAndReadOnlyWritesChangeNothing : Prop :=
  ∀ (s : State) (off : Nat) (w : Word), s.busy = false → off < 0x6000 → off % 4 = 0 →
    (reservedOffset off = false → (hostRead off s).1 = s) ∧
    (readOnlyOffset off = true → hostWrite off w s = s) ∧
    (hostRead 0x010 s).2 = 0 ∧
    (∀ n < 400, (hostRead (0x5000 + 4 * (n / 32)) s).2.getLsbD (n % 32) = resbufBit s n) ∧
    ∀ b, 16 ≤ b → b < 32 → (hostRead 0x5030 s).2.getLsbD b = false

/-- R93: PAYLOAD word k holds PAY[4k] to PAY[4k + 3] in little-endian order: a host write stores all four,
the engine and the host read them back, and no other byte and no register changes. -/
def Obligations.PayloadWordBytes : Prop :=
  ∀ (s : State) (k : Nat) (w : Word), s.busy = false → k < 100 →
    let t := hostWrite (0x1000 + 4 * k) w s
    t = { s with mem := t.mem } ∧ sameBytesOutside (0x1000 + 4 * k) 4 s t ∧
      (∀ i < 4, payByte t (4 * k + i) = .ok (w.extractLsb' (8 * i) 8).toNat) ∧
      hostRead (0x1000 + 4 * k) t = (t, w)

/-- R94: X word i is the 32-bit two's-complement integer X[i]: a host write stores it, the engine and the
host read it back, and no other byte and no register changes; and the host reads XQ and XR words as the
integers XQ[i] and XR[i]. -/
def Obligations.SpectrumWords : Prop :=
  ∀ (s : State) (i : Nat) (w : Word), s.busy = false → i < 400 →
    let t := hostWrite (0x2000 + 4 * i) w s
    t = { s with mem := t.mem } ∧ sameBytesOutside (0x2000 + 4 * i) 4 s t ∧
      xElem t i = .ok w.toInt ∧ hostRead (0x2000 + 4 * i) t = (t, w) ∧
      (hostRead (0x3000 + 4 * i) s).2.toInt = xqElem s i ∧
      (hostRead (0x4000 + 4 * i) s).2.toInt = xrElem s i

/-- R37, R39, R40, R42, R43: a configuration or operand register, or IRQ_EN, stores the bits of its fields
as written, in range or not, and reads them back with reserved bits 0 and signed fields extended; every
other register and all memory stay as they were. That CFG_GG reads the sign of GG_OFF above bit 15 is the
model's reading of the head of 10_state.md (log entry 9). -/
def Obligations.ConfigurationReadsBack : Prop :=
  ∀ p ∈ readBack, ∀ (s : State) (w : Word), s.busy = false →
    let t := hostWrite p.1 w s
    hostRead p.1 t = (t, p.2.2 w) ∧ t.mem = s.mem ∧ t.pending = none ∧
      ∀ r ∈ allRegs, r ≠ p.2.1 → r.read t = r.read s

/-- R32, R33, R34: ID, PARAM0 and PARAM1 read their constants in every state and after any write to
them. -/
def Obligations.ConstantRegisters : Prop :=
  ∀ (s : State) (w : Word),
    (hostRead 0x000 s).2 = 0x50564431#32 ∧ (hostRead 0x004 s).2 = 0x15064190#32 ∧
    (hostRead 0x008 s).2 = 0x10040A8E#32 ∧ (hostRead 0x000 (hostWrite 0x000 w s)).2 = 0x50564431#32 ∧
    (hostRead 0x004 (hostWrite 0x004 w s)).2 = 0x15064190#32 ∧
    (hostRead 0x008 (hostWrite 0x008 w s)).2 = 0x10040A8E#32

/-! ## Reset (70_reset_and_hazards.md) -/

/-- R390, R391: after reset ID, PARAM0 and PARAM1 read their constants and every other register 0, no
command is pending, the interrupt line is low and no RAM byte holds a value; and `rst` brings every state
there, discarding a pending command. -/
def Obligations.ResetValues : Prop :=
  (∀ r ∈ allRegs, r.read State.reset =
    if r = .id then 0x50564431#32 else if r = .param0 then 0x15064190#32
    else if r = .param1 then 0x10040A8E#32 else 0) ∧
  State.reset.pending = none ∧ State.reset.irq = false ∧
  (∀ a, State.reset.mem.read a = none) ∧
  ∀ (s : State) (rest : List Move), s.agenda = .reset :: rest →
    ∃ t, step s = .next t ∧ t = { State.reset with agenda := rest, epoch := t.epoch }

/-- Between commands the block is coherent at reset: the canonical memory, and the relations of STATUS,
FSTAT, RC_FSM, the interval and the pass counters of 10_state.md R35, R36, R51 and R52, those of TERMINAL
in the model's reading (log entry 22). R51 holds there in full. -/
def Obligations.ResetIsCoherent : Prop := Coherent State.reset ∧ IntervalInWindow State.reset

/-- Every step keeps the block coherent, from every coherent state, reached or not (10_state.md R35, R36,
R51, R52, 42_range_decoder.md R192, R198, R229, 43_quantizer_gain.md R272, 60_exceptions.md R361). What it
says of TERMINAL is the model's reading (log entry 22): R51 holds there but for a frame with both a
bad-frame command and a bit error, where RC_LOW is below RC_RANGE or both are 0xFFFFFF, and R229 where no
bad-frame command ran. R51 in full, word for word, is kept by every step but one: RC_DECODE with BFI 1 from
ERROR, which enters TERMINAL with the interval unchanged, as R223 writes it. -/
def Obligations.StepKeepsCoherent : Prop :=
  ∀ s t : State, Coherent s → step s = .next t →
    Coherent t ∧ (IntervalInWindow s → IntervalInWindow t ∨ BadFrameAfterError s t)

/-! ## Tables (10_state.md) -/

/-- R70 to R77: a table configuration is taken exactly where it meets every well-formedness condition, one
that fails a condition is refused, and the block's own tables meet them all. -/
def Obligations.TablesWellFormed : Prop :=
  (∀ r : Config.Roms, (TablesLegal r → configure r = .next r) ∧
    (¬ TablesLegal r → configure r = .refused .illFormedTables)) ∧
  TablesLegal blockRoms

/-- R74, R75, R76: the block's BITCOST_ROM, LOG2_ROM and SCALE_ROM are the defaults, each entry within half
a unit of the real number that it rounds: 2048 · log2(1024 / F) for a symbol of frequency F and 0xFFFF for
frequency 0, 65536 · log2(1 + i / 256), and the mantissa of 10^(g / 28) at the entry's exponent; with the
examples that the rules give. That the block has the defaults is the model's choice (log entry 8). -/
def Obligations.DefaultTablesRound : Prop :=
  (∀ id s, blockRoms.bitcost id s = bitcostOf (blockRoms.cf id (s + 1) - blockRoms.cf id s)) ∧
  bitcostOf 0 = 0xFFFF ∧
  (∀ F : Nat, 1 ≤ F → F ≤ 1024 → |2048 * Real.logb 2 (1024 / (F : ℝ)) - (bitcostOf F : ℝ)| ≤ 1 / 2) ∧
  (∀ i : Nat, i < 256 → |65536 * Real.logb 2 (1 + (i : ℝ) / 256) - (blockRoms.log2 i : ℝ)| ≤ 1 / 2) ∧
  (∀ g : Int, -128 ≤ g → g ≤ 382 →
    |(10 : ℝ) ^ ((g : ℝ) / 28) * (2 : ℝ) ^ (15 - (blockRoms.scale g).2) -
      ((blockRoms.scale g).1 : ℝ)| ≤ 1 / 2) ∧
  blockRoms.log2 0 = 0 ∧ blockRoms.log2 255 = 65351 ∧
  blockRoms.scale 0 = (0x8000, 0) ∧ blockRoms.scale 28 = (0xA000, 3) ∧
  blockRoms.scale 100 = (0xE8F9, 11) ∧ blockRoms.scale (-128) = (0xE10A, -16) ∧
  blockRoms.scale 382 = (0x9FDA, 45)

/-! ## Registers as the host reads them (10_state.md) -/

/-- The host reads STATUS and FSTAT, idle or busy, with every field at its bits and the reserved ones 0
(R35, R36); a write to STATUS, idle or busy, clears exactly those of DONE, ERR with ERRCODE, and ACCESS_ERR
whose bits 1, 2 and 3 are written 1, and nothing else (R35, 20_memory.md R106). While no command runs it
reads each result register as the number it holds, the signed ones sign-extended (R44 to R48, R50, R53,
R54), and RC_FSM as its code (R52). -/
def Obligations.StatusAndResultsAsRead : Prop :=
  (∀ s : State,
    hostRead 0x014 s = (s, 0#16 ++ s.status.errcode ++ 0#4 ++ BitVec.ofBool s.status.accessErr ++
      BitVec.ofBool s.status.err ++ BitVec.ofBool s.status.done ++ BitVec.ofBool s.busy) ∧
    hostRead 0x018 s = (s, 0#8 ++ s.fstat.biterrCause ++ s.fstat.adjCount ++ s.fstat.qCount ++ 0#1 ++
      BitVec.ofBool s.fstat.resencValid ++ BitVec.ofBool s.fstat.qValid ++
      BitVec.ofBool s.fstat.gestValid ++ BitVec.ofBool s.fstat.shapeValid ++
      BitVec.ofBool s.fstat.resValid ++ BitVec.ofBool s.fstat.rcValid ++
      BitVec.ofBool s.fstat.siValid ++ 0#2 ++ BitVec.ofBool s.fstat.bfiSeen ++
      BitVec.ofBool s.fstat.requant ++ BitVec.ofBool s.fstat.zeroFrame ++
      BitVec.ofBool s.fstat.budgetFlag ++ BitVec.ofBool s.fstat.pvqErr ++
      BitVec.ofBool s.fstat.biterr)) ∧
  (∀ (s : State) (w : Word), hostWrite 0x014 w s =
    { s with
      status :=
        { done := if w.getLsbD 1 then false else s.status.done
          err := if w.getLsbD 2 then false else s.status.err
          accessErr := if w.getLsbD 3 then false else s.status.accessErr
          errcode := if w.getLsbD 2 then 0 else s.status.errcode } }) ∧
  (∀ s : State, s.busy = false →
    (∀ p ∈ unsignedResults s, hostRead p.1 s = (s, BitVec.ofNat 32 p.2)) ∧
    (∀ p ∈ signedResults s, hostRead p.1 s = (s, BitVec.ofInt 32 p.2)) ∧
    (∀ i : Fin 16, hostRead (0x080 + 4 * i.val) s = (s, BitVec.ofInt 32 s.pvq.vec[i].toInt)) ∧
    (∀ f : Fin 2, hostRead (0x180 + 4 * f.val) s = (s, BitVec.ofNat 32 s.dec.tnsOrder[f].toNat)) ∧
    (∀ fk : Fin 16, hostRead (0x1A0 + 4 * fk.val) s =
      (s, BitVec.ofNat 32 s.dec.tnsCoef[fk].toNat)) ∧
    ∀ i : Fin 16, hostRead (0x1E0 + 4 * i.val) s = (s, BitVec.ofInt 32 s.snsY[i].toInt)) ∧
  RcFsm.idle.code = 0 ∧ RcFsm.ready.code = 1 ∧ RcFsm.tnsOrder.code = 2 ∧
  RcFsm.tnsCoeffs.code = 3 ∧ RcFsm.tuple.code = 4 ∧ RcFsm.terminal.code = 5 ∧
  RcFsm.error.code = 6 ∧ RcFsm.init.code = 7

end Statements
end

