-- ==== Sys2Proof/Laws/State.lean ====
section
/-! SUPPORT. What each update of the state does to each field. -/

namespace Sys2Proof.Machine

variable (s : State)

/-! Completion -/

@[simp] theorem State.complete_status : s.complete.status = { s.status with done := true } := rfl
@[simp] theorem State.complete_fstat : s.complete.fstat = s.fstat := rfl
@[simp] theorem State.complete_irqEn : s.complete.irqEn = s.irqEn := rfl
@[simp] theorem State.complete_cfg : s.complete.cfg = s.cfg := rfl
@[simp] theorem State.complete_pvqIn : s.complete.pvqIn = s.pvqIn := rfl
@[simp] theorem State.complete_pvq : s.complete.pvq = s.pvq := rfl
@[simp] theorem State.complete_gain : s.complete.gain = s.gain := rfl
@[simp] theorem State.complete_quant : s.complete.quant = s.quant := rfl
@[simp] theorem State.complete_resNbits : s.complete.resNbits = s.resNbits := rfl
@[simp] theorem State.complete_si : s.complete.si = s.si := rfl
@[simp] theorem State.complete_coder : s.complete.coder = s.coder := rfl
@[simp] theorem State.complete_dec : s.complete.dec = s.dec := rfl
@[simp] theorem State.complete_snsY : s.complete.snsY = s.snsY := rfl
@[simp] theorem State.complete_mem : s.complete.mem = s.mem := rfl
@[simp] theorem State.complete_pending : s.complete.pending = none := rfl
@[simp] theorem State.complete_agenda : s.complete.agenda = s.agenda := rfl
@[simp] theorem State.complete_response : s.complete.response = s.response := rfl
@[simp] theorem State.complete_epoch : s.complete.epoch = s.epoch + 1 := rfl

/-! Completion with a command error -/

@[simp] theorem State.completeError_status (e : CmdError) :
    (s.completeError e).status =
      { s.status with done := true, err := true, errcode := e.code } := rfl
@[simp] theorem State.completeError_fstat (e : CmdError) :
    (s.completeError e).fstat =
      s.fstat := rfl
@[simp] theorem State.completeError_irqEn (e : CmdError) :
    (s.completeError e).irqEn =
      s.irqEn := rfl
@[simp] theorem State.completeError_cfg (e : CmdError) : (s.completeError e).cfg = s.cfg := rfl
@[simp] theorem State.completeError_pvqIn (e : CmdError) :
    (s.completeError e).pvqIn =
      s.pvqIn := rfl
@[simp] theorem State.completeError_pvq (e : CmdError) : (s.completeError e).pvq = s.pvq := rfl
@[simp] theorem State.completeError_gain (e : CmdError) : (s.completeError e).gain = s.gain := rfl
@[simp] theorem State.completeError_quant (e : CmdError) :
    (s.completeError e).quant =
      s.quant := rfl
@[simp] theorem State.completeError_resNbits (e : CmdError) :
    (s.completeError e).resNbits =
      s.resNbits := rfl
@[simp] theorem State.completeError_si (e : CmdError) : (s.completeError e).si = s.si := rfl
@[simp] theorem State.completeError_coder (e : CmdError) :
    (s.completeError e).coder =
      s.coder := rfl
@[simp] theorem State.completeError_dec (e : CmdError) : (s.completeError e).dec = s.dec := rfl
@[simp] theorem State.completeError_snsY (e : CmdError) : (s.completeError e).snsY = s.snsY := rfl
@[simp] theorem State.completeError_mem (e : CmdError) : (s.completeError e).mem = s.mem := rfl
@[simp] theorem State.completeError_pending (e : CmdError) :
    (s.completeError e).pending =
      none := rfl
@[simp] theorem State.completeError_agenda (e : CmdError) :
    (s.completeError e).agenda =
      s.agenda := rfl
@[simp] theorem State.completeError_response (e : CmdError) :
    (s.completeError e).response =
      s.response := rfl
@[simp] theorem State.completeError_epoch (e : CmdError) :
    (s.completeError e).epoch =
      s.epoch + 1 := rfl

/-! Acceptance -/

@[simp] theorem State.accept_status (w : Word) :
    (s.accept w).status =
      { s.status with done := false, err := false, errcode := 0 } := rfl
@[simp] theorem State.accept_fstat (w : Word) : (s.accept w).fstat = s.fstat := rfl
@[simp] theorem State.accept_irqEn (w : Word) : (s.accept w).irqEn = s.irqEn := rfl
@[simp] theorem State.accept_cfg (w : Word) : (s.accept w).cfg = s.cfg := rfl
@[simp] theorem State.accept_pvqIn (w : Word) : (s.accept w).pvqIn = s.pvqIn := rfl
@[simp] theorem State.accept_pvq (w : Word) : (s.accept w).pvq = s.pvq := rfl
@[simp] theorem State.accept_gain (w : Word) : (s.accept w).gain = s.gain := rfl
@[simp] theorem State.accept_quant (w : Word) : (s.accept w).quant = s.quant := rfl
@[simp] theorem State.accept_resNbits (w : Word) : (s.accept w).resNbits = s.resNbits := rfl
@[simp] theorem State.accept_si (w : Word) : (s.accept w).si = s.si := rfl
@[simp] theorem State.accept_coder (w : Word) : (s.accept w).coder = s.coder := rfl
@[simp] theorem State.accept_dec (w : Word) : (s.accept w).dec = s.dec := rfl
@[simp] theorem State.accept_snsY (w : Word) : (s.accept w).snsY = s.snsY := rfl
@[simp] theorem State.accept_mem (w : Word) : (s.accept w).mem = s.mem := rfl
@[simp] theorem State.accept_pending (w : Word) : (s.accept w).pending = some w := rfl
@[simp] theorem State.accept_agenda (w : Word) : (s.accept w).agenda = s.agenda := rfl
@[simp] theorem State.accept_response (w : Word) : (s.accept w).response = s.response := rfl
@[simp] theorem State.accept_epoch (w : Word) : (s.accept w).epoch = s.epoch := rfl

/-! A bit error -/

@[simp] theorem State.raise_status (e : BitError) : (State.raise s e).status = s.status := rfl
@[simp] theorem State.raise_fstat (e : BitError) : (State.raise s e).fstat = s.fstat.raise e := rfl
@[simp] theorem State.raise_irqEn (e : BitError) : (State.raise s e).irqEn = s.irqEn := rfl
@[simp] theorem State.raise_cfg (e : BitError) : (State.raise s e).cfg = s.cfg := rfl
@[simp] theorem State.raise_pvqIn (e : BitError) : (State.raise s e).pvqIn = s.pvqIn := rfl
@[simp] theorem State.raise_pvq (e : BitError) : (State.raise s e).pvq = s.pvq := rfl
@[simp] theorem State.raise_gain (e : BitError) : (State.raise s e).gain = s.gain := rfl
@[simp] theorem State.raise_quant (e : BitError) : (State.raise s e).quant = s.quant := rfl
@[simp] theorem State.raise_resNbits (e : BitError) : (State.raise s e).resNbits = s.resNbits := rfl
@[simp] theorem State.raise_si (e : BitError) : (State.raise s e).si = s.si := rfl
@[simp] theorem State.raise_coder (e : BitError) : (State.raise s e).coder = s.coder := rfl
@[simp] theorem State.raise_dec (e : BitError) : (State.raise s e).dec = s.dec := rfl
@[simp] theorem State.raise_snsY (e : BitError) : (State.raise s e).snsY = s.snsY := rfl
@[simp] theorem State.raise_mem (e : BitError) : (State.raise s e).mem = s.mem := rfl
@[simp] theorem State.raise_pending (e : BitError) : (State.raise s e).pending = s.pending := rfl
@[simp] theorem State.raise_agenda (e : BitError) : (State.raise s e).agenda = s.agenda := rfl
@[simp] theorem State.raise_response (e : BitError) : (State.raise s e).response = s.response := rfl
@[simp] theorem State.raise_epoch (e : BitError) : (State.raise s e).epoch = s.epoch := rfl

/-! A rejected access -/

@[simp] theorem State.accessError_status :
    s.accessError.status =
      { s.status with accessErr := true } := rfl
@[simp] theorem State.accessError_fstat : s.accessError.fstat = s.fstat := rfl
@[simp] theorem State.accessError_irqEn : s.accessError.irqEn = s.irqEn := rfl
@[simp] theorem State.accessError_cfg : s.accessError.cfg = s.cfg := rfl
@[simp] theorem State.accessError_pvqIn : s.accessError.pvqIn = s.pvqIn := rfl
@[simp] theorem State.accessError_pvq : s.accessError.pvq = s.pvq := rfl
@[simp] theorem State.accessError_gain : s.accessError.gain = s.gain := rfl
@[simp] theorem State.accessError_quant : s.accessError.quant = s.quant := rfl
@[simp] theorem State.accessError_resNbits : s.accessError.resNbits = s.resNbits := rfl
@[simp] theorem State.accessError_si : s.accessError.si = s.si := rfl
@[simp] theorem State.accessError_coder : s.accessError.coder = s.coder := rfl
@[simp] theorem State.accessError_dec : s.accessError.dec = s.dec := rfl
@[simp] theorem State.accessError_snsY : s.accessError.snsY = s.snsY := rfl
@[simp] theorem State.accessError_mem : s.accessError.mem = s.mem := rfl
@[simp] theorem State.accessError_pending : s.accessError.pending = s.pending := rfl
@[simp] theorem State.accessError_agenda : s.accessError.agenda = s.agenda := rfl
@[simp] theorem State.accessError_response : s.accessError.response = s.response := rfl
@[simp] theorem State.accessError_epoch : s.accessError.epoch = s.epoch := rfl

/-! Writing XQ -/

@[simp] theorem State.setXq_status (vs : List Int) : (s.setXq vs).status = s.status := rfl
@[simp] theorem State.setXq_fstat (vs : List Int) : (s.setXq vs).fstat = s.fstat := rfl
@[simp] theorem State.setXq_irqEn (vs : List Int) : (s.setXq vs).irqEn = s.irqEn := rfl
@[simp] theorem State.setXq_cfg (vs : List Int) : (s.setXq vs).cfg = s.cfg := rfl
@[simp] theorem State.setXq_pvqIn (vs : List Int) : (s.setXq vs).pvqIn = s.pvqIn := rfl
@[simp] theorem State.setXq_pvq (vs : List Int) : (s.setXq vs).pvq = s.pvq := rfl
@[simp] theorem State.setXq_gain (vs : List Int) : (s.setXq vs).gain = s.gain := rfl
@[simp] theorem State.setXq_quant (vs : List Int) : (s.setXq vs).quant = s.quant := rfl
@[simp] theorem State.setXq_resNbits (vs : List Int) : (s.setXq vs).resNbits = s.resNbits := rfl
@[simp] theorem State.setXq_si (vs : List Int) : (s.setXq vs).si = s.si := rfl
@[simp] theorem State.setXq_coder (vs : List Int) : (s.setXq vs).coder = s.coder := rfl
@[simp] theorem State.setXq_dec (vs : List Int) : (s.setXq vs).dec = s.dec := rfl
@[simp] theorem State.setXq_snsY (vs : List Int) : (s.setXq vs).snsY = s.snsY := rfl
@[simp] theorem State.setXq_mem (vs : List Int) :
    (s.setXq vs).mem =
      s.mem.store XQ_BASE (paddedWords vs) := rfl
@[simp] theorem State.setXq_pending (vs : List Int) : (s.setXq vs).pending = s.pending := rfl
@[simp] theorem State.setXq_agenda (vs : List Int) : (s.setXq vs).agenda = s.agenda := rfl
@[simp] theorem State.setXq_response (vs : List Int) : (s.setXq vs).response = s.response := rfl
@[simp] theorem State.setXq_epoch (vs : List Int) : (s.setXq vs).epoch = s.epoch := rfl

/-! Writing XR -/

@[simp] theorem State.setXr_status (vs : List Int) : (s.setXr vs).status = s.status := rfl
@[simp] theorem State.setXr_fstat (vs : List Int) : (s.setXr vs).fstat = s.fstat := rfl
@[simp] theorem State.setXr_irqEn (vs : List Int) : (s.setXr vs).irqEn = s.irqEn := rfl
@[simp] theorem State.setXr_cfg (vs : List Int) : (s.setXr vs).cfg = s.cfg := rfl
@[simp] theorem State.setXr_pvqIn (vs : List Int) : (s.setXr vs).pvqIn = s.pvqIn := rfl
@[simp] theorem State.setXr_pvq (vs : List Int) : (s.setXr vs).pvq = s.pvq := rfl
@[simp] theorem State.setXr_gain (vs : List Int) : (s.setXr vs).gain = s.gain := rfl
@[simp] theorem State.setXr_quant (vs : List Int) : (s.setXr vs).quant = s.quant := rfl
@[simp] theorem State.setXr_resNbits (vs : List Int) : (s.setXr vs).resNbits = s.resNbits := rfl
@[simp] theorem State.setXr_si (vs : List Int) : (s.setXr vs).si = s.si := rfl
@[simp] theorem State.setXr_coder (vs : List Int) : (s.setXr vs).coder = s.coder := rfl
@[simp] theorem State.setXr_dec (vs : List Int) : (s.setXr vs).dec = s.dec := rfl
@[simp] theorem State.setXr_snsY (vs : List Int) : (s.setXr vs).snsY = s.snsY := rfl
@[simp] theorem State.setXr_mem (vs : List Int) :
    (s.setXr vs).mem =
      s.mem.store XR_BASE (paddedWords vs) := rfl
@[simp] theorem State.setXr_pending (vs : List Int) : (s.setXr vs).pending = s.pending := rfl
@[simp] theorem State.setXr_agenda (vs : List Int) : (s.setXr vs).agenda = s.agenda := rfl
@[simp] theorem State.setXr_response (vs : List Int) : (s.setXr vs).response = s.response := rfl
@[simp] theorem State.setXr_epoch (vs : List Int) : (s.setXr vs).epoch = s.epoch := rfl

/-! Writing RESBUF -/

@[simp] theorem State.setResbuf_status (bs : List Bool) : (s.setResbuf bs).status = s.status := rfl
@[simp] theorem State.setResbuf_fstat (bs : List Bool) : (s.setResbuf bs).fstat = s.fstat := rfl
@[simp] theorem State.setResbuf_irqEn (bs : List Bool) : (s.setResbuf bs).irqEn = s.irqEn := rfl
@[simp] theorem State.setResbuf_cfg (bs : List Bool) : (s.setResbuf bs).cfg = s.cfg := rfl
@[simp] theorem State.setResbuf_pvqIn (bs : List Bool) : (s.setResbuf bs).pvqIn = s.pvqIn := rfl
@[simp] theorem State.setResbuf_pvq (bs : List Bool) : (s.setResbuf bs).pvq = s.pvq := rfl
@[simp] theorem State.setResbuf_gain (bs : List Bool) : (s.setResbuf bs).gain = s.gain := rfl
@[simp] theorem State.setResbuf_quant (bs : List Bool) : (s.setResbuf bs).quant = s.quant := rfl
@[simp] theorem State.setResbuf_resNbits (bs : List Bool) :
    (s.setResbuf bs).resNbits =
      s.resNbits := rfl
@[simp] theorem State.setResbuf_si (bs : List Bool) : (s.setResbuf bs).si = s.si := rfl
@[simp] theorem State.setResbuf_coder (bs : List Bool) : (s.setResbuf bs).coder = s.coder := rfl
@[simp] theorem State.setResbuf_dec (bs : List Bool) : (s.setResbuf bs).dec = s.dec := rfl
@[simp] theorem State.setResbuf_snsY (bs : List Bool) : (s.setResbuf bs).snsY = s.snsY := rfl
@[simp] theorem State.setResbuf_mem (bs : List Bool) :
    (s.setResbuf bs).mem =
      s.mem.store RESBUF_BASE ((List.range RESBUF_BYTES).map (resbufByte bs)) := rfl
@[simp] theorem State.setResbuf_pending (bs : List Bool) :
    (s.setResbuf bs).pending =
      s.pending := rfl
@[simp] theorem State.setResbuf_agenda (bs : List Bool) : (s.setResbuf bs).agenda = s.agenda := rfl
@[simp] theorem State.setResbuf_response (bs : List Bool) :
    (s.setResbuf bs).response =
      s.response := rfl
@[simp] theorem State.setResbuf_epoch (bs : List Bool) : (s.setResbuf bs).epoch = s.epoch := rfl

/-! Loading the scale -/

@[simp] theorem State.loadScale_status (r : Config.Roms) : (s.loadScale r).status = s.status := rfl
@[simp] theorem State.loadScale_fstat (r : Config.Roms) : (s.loadScale r).fstat = s.fstat := rfl
@[simp] theorem State.loadScale_irqEn (r : Config.Roms) : (s.loadScale r).irqEn = s.irqEn := rfl
@[simp] theorem State.loadScale_cfg (r : Config.Roms) : (s.loadScale r).cfg = s.cfg := rfl
@[simp] theorem State.loadScale_pvqIn (r : Config.Roms) : (s.loadScale r).pvqIn = s.pvqIn := rfl
@[simp] theorem State.loadScale_pvq (r : Config.Roms) : (s.loadScale r).pvq = s.pvq := rfl
@[simp] theorem State.loadScale_gain (r : Config.Roms) :
    (s.loadScale r).gain =
      { s.gain with
          scaleM := BitVec.ofNat 16 (r.scale s.gainValue).1
          scaleE := BitVec.ofInt 8 (r.scale s.gainValue).2 } := rfl
@[simp] theorem State.loadScale_quant (r : Config.Roms) : (s.loadScale r).quant = s.quant := rfl
@[simp] theorem State.loadScale_resNbits (r : Config.Roms) :
    (s.loadScale r).resNbits =
      s.resNbits := rfl
@[simp] theorem State.loadScale_si (r : Config.Roms) : (s.loadScale r).si = s.si := rfl
@[simp] theorem State.loadScale_coder (r : Config.Roms) : (s.loadScale r).coder = s.coder := rfl
@[simp] theorem State.loadScale_dec (r : Config.Roms) : (s.loadScale r).dec = s.dec := rfl
@[simp] theorem State.loadScale_snsY (r : Config.Roms) : (s.loadScale r).snsY = s.snsY := rfl
@[simp] theorem State.loadScale_mem (r : Config.Roms) : (s.loadScale r).mem = s.mem := rfl
@[simp] theorem State.loadScale_pending (r : Config.Roms) :
    (s.loadScale r).pending =
      s.pending := rfl
@[simp] theorem State.loadScale_agenda (r : Config.Roms) : (s.loadScale r).agenda = s.agenda := rfl
@[simp] theorem State.loadScale_response (r : Config.Roms) :
    (s.loadScale r).response =
      s.response := rfl
@[simp] theorem State.loadScale_epoch (r : Config.Roms) : (s.loadScale r).epoch = s.epoch := rfl

/-! What GAIN_EST leaves -/

@[simp] theorem State.applyEstimate_status (n : Nat) (b : Bool) :
    (s.applyEstimate n b).status =
      s.status := rfl
@[simp] theorem State.applyEstimate_fstat (n : Nat) (b : Bool) :
    (s.applyEstimate n b).fstat =
      { s.fstat with zeroFrame := b, gestValid := true } := rfl
@[simp] theorem State.applyEstimate_irqEn (n : Nat) (b : Bool) :
    (s.applyEstimate n b).irqEn =
      s.irqEn := rfl
@[simp] theorem State.applyEstimate_cfg (n : Nat) (b : Bool) :
    (s.applyEstimate n b).cfg =
      { s.cfg with ggInd := BitVec.ofNat 8 (max n s.GG_FLOOR) } := rfl
@[simp] theorem State.applyEstimate_pvqIn (n : Nat) (b : Bool) :
    (s.applyEstimate n b).pvqIn =
      s.pvqIn := rfl
@[simp] theorem State.applyEstimate_pvq (n : Nat) (b : Bool) :
    (s.applyEstimate n b).pvq =
      s.pvq := rfl
@[simp] theorem State.applyEstimate_quant (n : Nat) (b : Bool) :
    (s.applyEstimate n b).quant =
      s.quant := rfl
@[simp] theorem State.applyEstimate_resNbits (n : Nat) (b : Bool) :
    (s.applyEstimate n b).resNbits =
      s.resNbits := rfl
@[simp] theorem State.applyEstimate_si (n : Nat) (b : Bool) : (s.applyEstimate n b).si = s.si := rfl
@[simp] theorem State.applyEstimate_coder (n : Nat) (b : Bool) :
    (s.applyEstimate n b).coder =
      s.coder := rfl
@[simp] theorem State.applyEstimate_dec (n : Nat) (b : Bool) :
    (s.applyEstimate n b).dec =
      s.dec := rfl
@[simp] theorem State.applyEstimate_snsY (n : Nat) (b : Bool) :
    (s.applyEstimate n b).snsY =
      s.snsY := rfl
@[simp] theorem State.applyEstimate_mem (n : Nat) (b : Bool) :
    (s.applyEstimate n b).mem =
      s.mem := rfl
@[simp] theorem State.applyEstimate_pending (n : Nat) (b : Bool) :
    (s.applyEstimate n b).pending =
      s.pending := rfl
@[simp] theorem State.applyEstimate_agenda (n : Nat) (b : Bool) :
    (s.applyEstimate n b).agenda =
      s.agenda := rfl
@[simp] theorem State.applyEstimate_response (n : Nat) (b : Bool) :
    (s.applyEstimate n b).response =
      s.response := rfl
@[simp] theorem State.applyEstimate_epoch (n : Nat) (b : Bool) :
    (s.applyEstimate n b).epoch =
      s.epoch := rfl

/-! What QUANTIZE leaves -/

@[simp] theorem State.applyCoding_status (r : Config.Roms) (c : Coding) :
    (s.applyCoding r c).status =
      s.status := rfl
@[simp] theorem State.applyCoding_fstat (r : Config.Roms) (c : Coding) :
    (s.applyCoding r c).fstat =
      { s.fstat with
          zeroFrame := decide (countNonzero c.kept = 0)
          qValid := true
          qCount := s.fstat.qCount + 1 } := rfl
@[simp] theorem State.applyCoding_irqEn (r : Config.Roms) (c : Coding) :
    (s.applyCoding r c).irqEn =
      s.irqEn := rfl
@[simp] theorem State.applyCoding_cfg (r : Config.Roms) (c : Coding) :
    (s.applyCoding r c).cfg =
      s.cfg := rfl
@[simp] theorem State.applyCoding_pvqIn (r : Config.Roms) (c : Coding) :
    (s.applyCoding r c).pvqIn =
      s.pvqIn := rfl
@[simp] theorem State.applyCoding_pvq (r : Config.Roms) (c : Coding) :
    (s.applyCoding r c).pvq =
      s.pvq := rfl
@[simp] theorem State.applyCoding_gain (r : Config.Roms) (c : Coding) :
    (s.applyCoding r c).gain =
      (s.loadScale r).gain := rfl
@[simp] theorem State.applyCoding_resNbits (r : Config.Roms) (c : Coding) :
    (s.applyCoding r c).resNbits =
      s.resNbits := rfl
@[simp] theorem State.applyCoding_si (r : Config.Roms) (c : Coding) :
    (s.applyCoding r c).si =
      s.si := rfl
@[simp] theorem State.applyCoding_coder (r : Config.Roms) (c : Coding) :
    (s.applyCoding r c).coder =
      s.coder := rfl
@[simp] theorem State.applyCoding_dec (r : Config.Roms) (c : Coding) :
    (s.applyCoding r c).dec =
      s.dec := rfl
@[simp] theorem State.applyCoding_snsY (r : Config.Roms) (c : Coding) :
    (s.applyCoding r c).snsY =
      s.snsY := rfl
@[simp] theorem State.applyCoding_mem (r : Config.Roms) (c : Coding) :
    (s.applyCoding r c).mem =
      s.mem.store XQ_BASE (paddedWords c.kept) := rfl
@[simp] theorem State.applyCoding_pending (r : Config.Roms) (c : Coding) :
    (s.applyCoding r c).pending =
      s.pending := rfl
@[simp] theorem State.applyCoding_agenda (r : Config.Roms) (c : Coding) :
    (s.applyCoding r c).agenda =
      s.agenda := rfl
@[simp] theorem State.applyCoding_response (r : Config.Roms) (c : Coding) :
    (s.applyCoding r c).response =
      s.response := rfl
@[simp] theorem State.applyCoding_epoch (r : Config.Roms) (c : Coding) :
    (s.applyCoding r c).epoch =
      s.epoch := rfl

/-! What RC_DECODE leaves -/

@[simp] theorem State.applyProgress_status (p : Progress) (f : RcFsm) (b : BitVec 10) :
    (s.applyProgress p f b).status =
      s.status := rfl
@[simp] theorem State.applyProgress_fstat (p : Progress) (f : RcFsm) (b : BitVec 10) :
    (s.applyProgress p f b).fstat =
      { s.fstat with rcValid := true } := rfl
@[simp] theorem State.applyProgress_irqEn (p : Progress) (f : RcFsm) (b : BitVec 10) :
    (s.applyProgress p f b).irqEn =
      s.irqEn := rfl
@[simp] theorem State.applyProgress_cfg (p : Progress) (f : RcFsm) (b : BitVec 10) :
    (s.applyProgress p f b).cfg =
      s.cfg := rfl
@[simp] theorem State.applyProgress_pvqIn (p : Progress) (f : RcFsm) (b : BitVec 10) :
    (s.applyProgress p f b).pvqIn =
      s.pvqIn := rfl
@[simp] theorem State.applyProgress_pvq (p : Progress) (f : RcFsm) (b : BitVec 10) :
    (s.applyProgress p f b).pvq =
      s.pvq := rfl
@[simp] theorem State.applyProgress_gain (p : Progress) (f : RcFsm) (b : BitVec 10) :
    (s.applyProgress p f b).gain =
      s.gain := rfl
@[simp] theorem State.applyProgress_quant (p : Progress) (f : RcFsm) (b : BitVec 10) :
    (s.applyProgress p f b).quant =
      s.quant := rfl
@[simp] theorem State.applyProgress_resNbits (p : Progress) (f : RcFsm) (b : BitVec 10) :
    (s.applyProgress p f b).resNbits =
      s.resNbits := rfl
@[simp] theorem State.applyProgress_si (p : Progress) (f : RcFsm) (b : BitVec 10) :
    (s.applyProgress p f b).si =
      s.si := rfl
@[simp] theorem State.applyProgress_coder (p : Progress) (f : RcFsm) (b : BitVec 10) :
    (s.applyProgress p f b).coder =
      p.coder := rfl
@[simp] theorem State.applyProgress_snsY (p : Progress) (f : RcFsm) (b : BitVec 10) :
    (s.applyProgress p f b).snsY =
      s.snsY := rfl
@[simp] theorem State.applyProgress_mem (p : Progress) (f : RcFsm) (b : BitVec 10) :
    (s.applyProgress p f b).mem =
      s.mem.store XQ_BASE (paddedWords p.xq) := rfl
@[simp] theorem State.applyProgress_pending (p : Progress) (f : RcFsm) (b : BitVec 10) :
    (s.applyProgress p f b).pending =
      s.pending := rfl
@[simp] theorem State.applyProgress_agenda (p : Progress) (f : RcFsm) (b : BitVec 10) :
    (s.applyProgress p f b).agenda =
      s.agenda := rfl
@[simp] theorem State.applyProgress_response (p : Progress) (f : RcFsm) (b : BitVec 10) :
    (s.applyProgress p f b).response =
      s.response := rfl
@[simp] theorem State.applyProgress_epoch (p : Progress) (f : RcFsm) (b : BitVec 10) :
    (s.applyProgress p f b).epoch =
      s.epoch := rfl

/-! The parts that RC_DECODE's result keeps of the decoder -/

@[simp] theorem State.applyProgress_sym (p : Progress) (f : RcFsm) (b : BitVec 10) :
    (s.applyProgress p f b).dec.sym = s.dec.sym := rfl
@[simp] theorem State.applyProgress_fsm (p : Progress) (f : RcFsm) (b : BitVec 10) :
    (s.applyProgress p f b).dec.fsm = f := rfl
@[simp] theorem State.applyProgress_bytes (p : Progress) (f : RcFsm) (b : BitVec 10) :
    (s.applyProgress p f b).dec.bytes = b := rfl
@[simp] theorem State.applyProgress_ctx (p : Progress) (f : RcFsm) (b : BitVec 10) :
    (s.applyProgress p f b).dec.ctx = BitVec.ofNat 8 p.ctx := rfl
@[simp] theorem State.applyProgress_tuples (p : Progress) (f : RcFsm) (b : BitVec 10) :
    (s.applyProgress p f b).dec.tuples = BitVec.ofNat 9 p.tuples := rfl

/-! BUSY -/

@[simp] theorem State.complete_busy : s.complete.busy = false := rfl
@[simp] theorem State.completeError_busy (e : CmdError) : (s.completeError e).busy = false := rfl
@[simp] theorem State.accept_busy (w : Word) : (s.accept w).busy = true := rfl
@[simp] theorem State.accessError_busy : s.accessError.busy = s.busy := rfl

/-! Raising a bit error changes the flag and the cause only -/

variable (f : FrameStatus) (e : BitError)

@[simp] theorem FrameStatus.raise_pvqErr : (f.raise e).pvqErr = f.pvqErr := rfl
@[simp] theorem FrameStatus.raise_budgetFlag : (f.raise e).budgetFlag = f.budgetFlag := rfl
@[simp] theorem FrameStatus.raise_zeroFrame : (f.raise e).zeroFrame = f.zeroFrame := rfl
@[simp] theorem FrameStatus.raise_requant : (f.raise e).requant = f.requant := rfl
@[simp] theorem FrameStatus.raise_bfiSeen : (f.raise e).bfiSeen = f.bfiSeen := rfl
@[simp] theorem FrameStatus.raise_siValid : (f.raise e).siValid = f.siValid := rfl
@[simp] theorem FrameStatus.raise_rcValid : (f.raise e).rcValid = f.rcValid := rfl
@[simp] theorem FrameStatus.raise_resValid : (f.raise e).resValid = f.resValid := rfl
@[simp] theorem FrameStatus.raise_shapeValid : (f.raise e).shapeValid = f.shapeValid := rfl
@[simp] theorem FrameStatus.raise_gestValid : (f.raise e).gestValid = f.gestValid := rfl
@[simp] theorem FrameStatus.raise_qValid : (f.raise e).qValid = f.qValid := rfl
@[simp] theorem FrameStatus.raise_resencValid : (f.raise e).resencValid = f.resencValid := rfl
@[simp] theorem FrameStatus.raise_qCount : (f.raise e).qCount = f.qCount := rfl
@[simp] theorem FrameStatus.raise_adjCount : (f.raise e).adjCount = f.adjCount := rfl
@[simp] theorem FrameStatus.raise_biterr : (f.raise e).biterr = true := rfl
@[simp] theorem FrameStatus.raise_biterrCause :
    (f.raise e).biterrCause = if f.biterrCause = 0 then e.code else f.biterrCause := rfl

end Sys2Proof.Machine
end

