-- ==== Sys2Proof/Laws/Commands.lean ====
section
/-! SUPPORT. What one command can do, said once: the inversion of `runCommand`, and the outcomes of every
command. -/

namespace Sys2Proof.Machine

/-! ## The shared form of a command -/

theorem firstError_eq_none {checks : List (Bool × CmdError)} :
    firstError checks = none ↔ ∀ c ∈ checks, c.1 = false := by
  induction checks with
  | nil => simp [firstError]
  | cons c rest ih => obtain ⟨_ | _, e⟩ := c <;> simp [firstError, ih]

variable {checks : List (Bool × CmdError)} {body : State → Except Fault State} {s t : State}

/-- Everything a command that answers a next state can have done: completed with the first error, or run
its body and completed. -/
theorem runCommand_next (h : runCommand checks body s = .next t) :
    (∃ e, firstError checks = some e ∧ t = s.completeError e) ∨
      (firstError checks = none ∧ ∃ u, body s = .ok u ∧ t = u.complete) := by
  unfold runCommand at h
  split at h
  · next e he => exact .inl ⟨e, he, by injection h with h; exact h.symm⟩
  · next hn =>
    split at h
    · next u hu => exact .inr ⟨hn, u, hu, by injection h with h; exact h.symm⟩
    · cases h

/-- Everything a command that stops can have done: passed its checks and read an element that holds no
value. -/
theorem runCommand_fault {f : Fault} (h : runCommand checks body s = .fault f) :
    firstError checks = none ∧ body s = .error f := by
  unfold runCommand at h
  split at h
  · cases h
  · next hn =>
    split at h
    · cases h
    · next g hg => injection h with h; exact ⟨hn, by rw [hg, h]⟩

/-- No command is refused. -/
theorem runCommand_not_refused {r : Refusal} : runCommand checks body s ≠ .refused r := by
  unfold runCommand
  split
  · simp
  · split <;> simp

/-- A command whose checks pass and whose body runs completes. -/
theorem runCommand_ok {u : State} (hc : firstError checks = none) (hb : body s = .ok u) :
    runCommand checks body s = .next u.complete := by simp [runCommand, hc, hb]

/-- A command with a failing check completes with its error. -/
theorem runCommand_error {e : CmdError} (hc : firstError checks = some e) :
    runCommand checks body s = .next (s.completeError e) := by simp [runCommand, hc]

/-! ## The checks and the body of every command -/

/-- The checks of a command in their order (60_exceptions.md R354). -/
def checksOf (s : State) : Instr → List (Bool × CmdError)
  | .nop => []
  | .frameStart => []
  | .pvqDeenum => [(!pvqConfigOk s, .pvqCfg)]
  | .pvqShape => [(!decodeConfigOk s, .configErr), (!pvqShapeLegal s, .seqErr)]
  | .rcInit => [(!decodeConfigOk s, .configErr), (!rcInitLegal s, .seqErr)]
  | .rcDecsym cls id => [(!argLegal cls id, .badArg), (!decsymLegal s, .seqErr)]
  | .rcDecbit => [(!decsymLegal s, .seqErr)]
  | .rcDecode => [(!decodeConfigOk s, .configErr), (!rcDecodeLegal s, .seqErr)]
  | .gainEst => [(!encodeConfigOk s, .configErr), (!decide (s.fstat.qCount = 0), .seqErr)]
  | .quantize =>
    [(!encodeConfigOk s, .configErr), (!quantizeLegal s && !quantizePastLimit s, .seqErr),
      (quantizePastLimit s, .passLimit)]
  | .gainAdj =>
    [(!encodeConfigOk s, .configErr), (!gainAdjLegal s && !gainAdjPastLimit s, .seqErr),
      (gainAdjPastLimit s, .passLimit)]
  | .resEncode => [(!encodeConfigOk s, .configErr), (!resEncodeLegal s, .seqErr)]
  | .resDecode => [(!decodeConfigOk s, .configErr), (!resDecodeLegal s, .seqErr)]
  | .siUnpack => [(!decodeConfigOk s, .configErr), (s.fstat.siValid, .seqErr)]
  | .decodeFrame => [(!decodeConfigOk s, .configErr), (s.fstat.siValid, .seqErr)]

/-- The body of a command. -/
def bodyOf : Instr → State → Except Fault State
  | .nop => fun s => .ok s
  | .frameStart => fun s => .ok (frameStartBody s)
  | .pvqDeenum => fun s => .ok (pvqDeenumBody s)
  | .pvqShape => fun s => .ok (pvqShapeBody s)
  | .rcInit => rcInitBody
  | .rcDecsym cls id => decsymBody (selectTable blockRoms cls id).1 (selectTable blockRoms cls id).2
  | .rcDecbit => decsymBody uni2 2
  | .rcDecode => rcDecodeBody blockRoms
  | .gainEst => gainEstBody blockRoms
  | .quantize => quantizeBody blockRoms
  | .gainAdj => fun s => .ok (gainAdjBody s)
  | .resEncode => resEncodeBody blockRoms
  | .resDecode => resDecodeBody
  | .siUnpack => siUnpackBody
  | .decodeFrame => decodeFrameBody blockRoms

/-- Every command has the shared form. -/
theorem exec_eq_runCommand (i : Instr) (s : State) :
    exec i s = runCommand (checksOf s i) (bodyOf i) s := by cases i <;> rfl

/-- Everything that `exec` can answer: completion with a command error that changes nothing else, the
completion of the body, or the fault of the body. -/
theorem exec_cases (i : Instr) (s : State) :
    (∃ e, firstError (checksOf s i) = some e ∧ exec i s = .next (s.completeError e)) ∨
      (firstError (checksOf s i) = none ∧
        ((∃ u, bodyOf i s = .ok u ∧ exec i s = .next u.complete) ∨
          ∃ f, bodyOf i s = .error f ∧ exec i s = .fault f)) := by
  rw [exec_eq_runCommand]
  cases hc : firstError (checksOf s i) with
  | some e => exact .inl ⟨e, rfl, runCommand_error hc⟩
  | none =>
    refine .inr ⟨rfl, ?_⟩
    cases hb : bodyOf i s with
    | ok u => exact .inl ⟨u, rfl, runCommand_ok hc hb⟩
    | error f => exact .inr ⟨f, rfl, by simp [runCommand, hc, hb]⟩

end Sys2Proof.Machine
end

