-- ==== Sys2Proof/Laws/RangeDecoder.lean ====
section
/-! SUPPORT. The range decoder's shared operations: reading the payload, selecting a symbol,
renormalizing, decoding a symbol; and what each can do. -/

namespace Sys2Proof.Machine

/-! ## Reading the payload -/

theorem payByte_ok {s : State} {j v : Nat} (h : payByte s j = .ok v) : v = payValue s j := by
  unfold payByte at h
  split at h
  · split at h
    · next b hb => injection h with h; simp [payValue, hb, h]
    · cases h
  · cases h

theorem payByte_written {s : State} {j : Nat} (hj : j < Config.BYTES_MAX)
    (h : (s.mem.read (PAYLOAD_BASE + j)).isSome = true) : payByte s j = .ok (payValue s j) := by
  obtain ⟨b, hb⟩ := Option.isSome_iff_exists.mp h
  simp [payByte, payValue, hj, hb]

/-- The only faults of a payload read name the byte read. -/
theorem payByte_fault {s : State} {j : Nat} {f : Fault} (h : payByte s j = .error f) :
    (f = .unwrittenPayload j ∧ j < Config.BYTES_MAX) ∨
      (f = .payloadBeyondRam j ∧ Config.BYTES_MAX ≤ j) := by
  unfold payByte at h
  split at h
  · split at h
    · cases h
    · injection h with h; exact .inl ⟨h.symm, ‹_›⟩
  · injection h with h; exact .inr ⟨h.symm, by omega⟩

theorem payValue_lt (s : State) (j : Nat) : payValue s j < 256 := by
  unfold payValue; exact ((s.mem.read (PAYLOAD_BASE + j)).getD 0).isLt

theorem payloadByte_written {s : State} (hb : s.NBYTES ≤ Config.BYTES_MAX) (h : payloadWritten s)
    {j : Nat} (hj : j < s.NBYTES) : payloadByte s j = .ok (payloadValue s j) :=
  payByte_written (by omega) (h _ (by omega))

theorem payloadNumber_lt (s : State) (c k : Nat) : payloadNumber s c k < 256 ^ k := by
  induction k with
  | zero => simp [payloadNumber]
  | succ k ih =>
    have : payloadValue s (c + k) < 256 := payValue_lt s _
    rw [payloadNumber, pow_succ]; omega

theorem payloadNumber_succ (s : State) (c k : Nat) :
    payloadNumber s c (k + 1) = payloadValue s c * 256 ^ k + payloadNumber s (c + 1) k := by
  induction k generalizing c with
  | zero => simp [payloadNumber]
  | succ k ih =>
    rw [payloadNumber, ih, payloadNumber, show c + 1 + k = c + (k + 1) by omega]; ring

/-! ## Decoded values -/

@[simp] theorem Decoded.andThen_ok {α β : Type} (v : α) (c : RangeCoder)
    (f : α → RangeCoder → Decoded β) : (Decoded.ok v c).andThen f = f v c := rfl
@[simp] theorem Decoded.andThen_fail {α β : Type} (e : BitError) (c : RangeCoder)
    (f : α → RangeCoder → Decoded β) : (Decoded.fail e c).andThen f = .fail e c := rfl
@[simp] theorem Decoded.andThen_fault {α β : Type} (g : Fault)
    (f : α → RangeCoder → Decoded β) : (Decoded.fault g : Decoded α).andThen f = .fault g := rfl

theorem coderOf_low {low range cursor : Nat} (h : low < 2 ^ 24) :
    (coderOf low range cursor).low.toNat = low := by simp [coderOf]; omega
theorem coderOf_range {low range cursor : Nat} (h : range < 2 ^ 24) :
    (coderOf low range cursor).range.toNat = range := by simp [coderOf]; omega
theorem coderOf_cursor {low range cursor : Nat} (h : cursor < 2 ^ 10) :
    (coderOf low range cursor).cursor.toNat = cursor := by simp [coderOf]; omega

/-! ## Renormalization (42_range_decoder.md R196) -/

/-- Everything renormalization can do: k shifts, each with the next payload byte, until the range is back
at 2^16 or above; the overrun at the side-information boundary; or the fault of a payload read. -/
theorem renorm_cases (s : State) (sym avail low range cursor : Nat) :
    (∃ k ≤ avail, renorm s sym avail low range cursor =
        .ok sym (coderOf (low * 256 ^ k + payloadNumber s cursor k) (range * 256 ^ k) (cursor + k)) ∧
        2 ^ 16 ≤ range * 256 ^ k ∧ ∀ m < k, range * 256 ^ m < 2 ^ 16) ∨
      (renorm s sym avail low range cursor =
        .fail .rcOverrun (coderOf (low * 256 ^ avail + payloadNumber s cursor avail)
          (range * 256 ^ avail) (cursor + avail)) ∧
        ∀ m ≤ avail, range * 256 ^ m < 2 ^ 16) ∨
      (∃ m < avail, ∃ f, payloadByte s (cursor + m) = .error f ∧
        renorm s sym avail low range cursor = .fault f) := by
  induction avail generalizing low range cursor with
  | zero =>
    unfold renorm
    by_cases h : 2 ^ 16 ≤ range
    · exact .inl ⟨0, le_rfl, by rw [if_pos h]; simp [payloadNumber], by simpa using h, by simp⟩
    · refine .inr (.inl ⟨by rw [if_neg h]; simp [payloadNumber], fun m hm => ?_⟩)
      obtain rfl : m = 0 := by omega
      simpa using h
  | succ avail ih =>
    unfold renorm
    by_cases h : 2 ^ 16 ≤ range
    · exact .inl ⟨0, by omega, by rw [if_pos h]; simp [payloadNumber], by simpa using h, by simp⟩
    · rw [if_neg h]
      cases hb : payloadByte s cursor with
      | error f =>
        exact .inr (.inr ⟨0, by omega, f, by simpa using hb, by simp⟩)
      | ok b =>
        have hv : b = payloadValue s cursor := payByte_ok hb
        have hnum : ∀ k, (low * 256 + b) * 256 ^ k + payloadNumber s (cursor + 1) k =
            low * 256 ^ (k + 1) + payloadNumber s cursor (k + 1) := by
          intro k; rw [payloadNumber_succ, hv]; ring
        have hr : ∀ k, range * 256 * 256 ^ k = range * 256 ^ (k + 1) := by intro k; ring
        have hsmall : ∀ k, (∀ m < k, range * 256 * 256 ^ m < 2 ^ 16) →
            ∀ m < k + 1, range * 256 ^ m < 2 ^ 16 := by
          intro k hk m hm
          cases m with
          | zero => simpa using h
          | succ m => rw [← hr]; exact hk m (by omega)
        rcases ih (low * 256 + b) (range * 256) (cursor + 1) with
          ⟨k, hk, he, hge, hlt⟩ | ⟨he, hlt⟩ | ⟨m, hm, f, hf, he⟩
        · refine .inl ⟨k + 1, by omega, ?_, by rw [← hr]; exact hge, hsmall k hlt⟩
          simp only [he, hnum, hr]
          rw [show cursor + 1 + k = cursor + (k + 1) by omega]
        · refine .inr (.inl ⟨?_, fun m hm => hsmall (avail + 1) (fun m hm => hlt m (by omega)) m
            (by omega)⟩)
          simp only [he, hnum, hr]
          rw [show cursor + 1 + avail = cursor + (avail + 1) by omega]
        · exact .inr (.inr ⟨m + 1, by omega, f,
            by rw [show cursor + (m + 1) = cursor + 1 + m by omega]; exact hf, by simpa using he⟩)

/-! ## Symbol selection (42_range_decoder.md R193, R194) -/

theorem largestSymbol_le (cum : Nat → Nat) (r low n : Nat) : largestSymbol cum r low n ≤ n := by
  induction n with
  | zero => simp [largestSymbol]
  | succ n ih => unfold largestSymbol; split <;> omega

theorem largestSymbol_fits {cum : Nat → Nat} {r low : Nat} (h0 : r * cum 0 ≤ low) (n : Nat) :
    r * cum (largestSymbol cum r low n) ≤ low := by
  induction n with
  | zero => simpa [largestSymbol] using h0
  | succ n ih => unfold largestSymbol; split <;> assumption

theorem largestSymbol_next {cum : Nat → Nat} {r low n : Nat}
    (h : largestSymbol cum r low n < n) : low < r * cum (largestSymbol cum r low n + 1) := by
  induction n with
  | zero => omega
  | succ n ih =>
    unfold largestSymbol at h ⊢
    split at h
    · omega
    · next hn =>
      simp only [if_neg hn]
      rcases Nat.lt_or_ge (largestSymbol cum r low n) n with hlt | hge
      · exact ih hlt
      · have := largestSymbol_le cum r low n
        rw [show largestSymbol cum r low n = n by omega]; omega

theorem cumWf_iff {cum : Nat → Nat} {n : Nat} :
    cumWf cum n = true ↔
      cum 0 = 0 ∧ cum n = 2 ^ Config.FREQ_BITS ∧ ∀ s < n, cum s ≤ cum (s + 1) := by
  simp [cumWf, and_assoc]

theorem cumWf_le {cum : Nat → Nat} {n : Nat} (h : cumWf cum n = true) {s : Nat} (hs : s ≤ n) :
    cum s ≤ 2 ^ Config.FREQ_BITS := by
  obtain ⟨-, hn, hm⟩ := cumWf_iff.mp h
  have key : ∀ k, ∀ s, s + k = n → cum s ≤ cum n := by
    intro k
    induction k with
    | zero => intro s hs; rw [show s = n by omega]
    | succ k ih => intro s hs; exact (hm s (by omega)).trans (ih (s + 1) (by omega))
  rw [← hn]; exact key (n - s) s (by omega)

/-- The symbol chosen from a well-formed table, of nonzero frequency (R194). -/
theorem largestSymbol_spec {cum : Nat → Nat} {n r low : Nat} (h : cumWf cum n = true)
    (hlow : low < r * 2 ^ Config.FREQ_BITS) :
    largestSymbol cum r low (n - 1) < n ∧
      r * cum (largestSymbol cum r low (n - 1)) ≤ low ∧
      low < r * cum (largestSymbol cum r low (n - 1) + 1) := by
  obtain ⟨h0, hn, -⟩ := cumWf_iff.mp h
  have hpos : 0 < n := by
    rcases Nat.eq_zero_or_pos n with rfl | hp
    · rw [h0] at hn; simp [Config.FREQ_BITS] at hn
    · exact hp
  have hle := largestSymbol_le cum r low (n - 1)
  refine ⟨by omega, largestSymbol_fits (by simp [h0]) _, ?_⟩
  rcases Nat.lt_or_ge (largestSymbol cum r low (n - 1)) (n - 1) with hlt | hge
  · exact largestSymbol_next hlt
  · rw [show largestSymbol cum r low (n - 1) + 1 = n by omega, hn]; exact hlow

/-- The symbol chosen is the only one whose part of the interval holds low. -/
theorem largestSymbol_eq {cum : Nat → Nat} {n r low sym : Nat} (h : cumWf cum n = true)
    (hs : sym < n) (hlo : r * cum sym ≤ low) (hhi : low < r * cum (sym + 1)) :
    largestSymbol cum r low (n - 1) = sym := by
  obtain ⟨-, -, hm⟩ := cumWf_iff.mp h
  have mono : ∀ k a, a + k ≤ n → cum a ≤ cum (a + k) := by
    intro k
    induction k with
    | zero => intro a _; exact le_rfl
    | succ k ih => intro a ha; exact (ih a (by omega)).trans (hm (a + k) (by omega))
  have key : ∀ m, sym ≤ m → m < n → largestSymbol cum r low m = sym := by
    intro m
    induction m with
    | zero => intro h0 _; simp [largestSymbol]; omega
    | succ m ih =>
      intro h1 h2
      unfold largestSymbol
      rcases Nat.eq_or_lt_of_le h1 with he | hlt
      · rw [if_pos (by rw [← he]; exact hlo)]; omega
      · have := mono (m - sym) (sym + 1) (by omega)
        rw [show sym + 1 + (m - sym) = m + 1 by omega] at this
        rw [if_neg (by have := Nat.mul_le_mul_left r this; omega)]
        exact ih (by omega) (by omega)
  exact key (n - 1) (by omega) (by omega)

/-! ## Decoding a symbol (42_range_decoder.md R193 to R196) -/

/-- Everything dec_sym can do on a well-formed table: the symbol whose part of the interval holds low, with
the interval renormalized by k shifts; a range error that changes nothing; an overrun at the boundary; or
the fault of a payload read. -/
theorem decSym_cases {s : State} {cum : Nat → Nat} {n : Nat} {c : RangeCoder}
    (h : cumWf cum n = true) :
    let r := c.range.toNat / 2 ^ Config.FREQ_BITS
    let avail := s.PB - c.cursor.toNat
    (r * 2 ^ Config.FREQ_BITS ≤ c.low.toNat ∧ decSym s cum n c = .fail .rcRange c) ∨
      ∃ sym < n, r * cum sym ≤ c.low.toNat ∧ c.low.toNat < r * cum (sym + 1) ∧
        let low := c.low.toNat - r * cum sym
        let range := r * (cum (sym + 1) - cum sym)
        (∃ k ≤ avail, decSym s cum n c =
            .ok sym (coderOf (low * 256 ^ k + payloadNumber s c.cursor.toNat k) (range * 256 ^ k)
              (c.cursor.toNat + k)) ∧
            2 ^ 16 ≤ range * 256 ^ k ∧ ∀ m < k, range * 256 ^ m < 2 ^ 16) ∨
          (decSym s cum n c =
            .fail .rcOverrun (coderOf (low * 256 ^ avail + payloadNumber s c.cursor.toNat avail)
              (range * 256 ^ avail) (c.cursor.toNat + avail)) ∧
            ∀ m ≤ avail, range * 256 ^ m < 2 ^ 16) ∨
          (∃ m < avail, ∃ f, payloadByte s (c.cursor.toNat + m) = .error f ∧
            decSym s cum n c = .fault f) := by
  intro r avail
  rcases Nat.lt_or_ge c.low.toNat (r * 2 ^ Config.FREQ_BITS) with hlow | hge
  · obtain ⟨h1, h2, h3⟩ := largestSymbol_spec h hlow
    refine .inr ⟨_, h1, h2, h3, ?_⟩
    have he : decSym s cum n c = renorm s (largestSymbol cum r c.low.toNat (n - 1)) avail
        (c.low.toNat - r * cum (largestSymbol cum r c.low.toNat (n - 1)))
        (r * (cum (largestSymbol cum r c.low.toNat (n - 1) + 1) -
          cum (largestSymbol cum r c.low.toNat (n - 1)))) c.cursor.toNat := by
      unfold decSym; rw [if_neg (by simpa [r] using hlow)]
    rw [he]
    exact renorm_cases _ _ _ _ _ _
  · exact .inl ⟨hge, by unfold decSym; rw [if_pos hge]⟩

/-- The interval between decodes (10_state.md R51, 42_range_decoder.md R192). -/
def RangeCoder.running (c : RangeCoder) : Prop :=
  2 ^ 16 ≤ c.range.toNat ∧ c.low.toNat < c.range.toNat

/-- The interval after some shifts is below 2^24, and low stays below it. -/
theorem shifted_bounds {low range k num : Nat} (hlow : low < range) (hnum : num < 256 ^ k)
    (hr : range < 2 ^ 24) (hs : ∀ m < k, range * 256 ^ m < 2 ^ 16) :
    range * 256 ^ k < 2 ^ 24 ∧ low * 256 ^ k + num < range * 256 ^ k := by
  constructor
  · cases k with
    | zero => simpa using hr
    | succ k =>
      have := hs k (by omega)
      rw [pow_succ, ← mul_assoc]; omega
  · calc low * 256 ^ k + num < low * 256 ^ k + 256 ^ k := by omega
      _ = (low + 1) * 256 ^ k := by ring
      _ ≤ range * 256 ^ k := Nat.mul_le_mul_right _ hlow

/-- A decode of a symbol keeps low below the range, and one that ends without a bit error brings the range
to 2^16 or above (R192). -/
theorem decSym_interval {s : State} {cum : Nat → Nat} {n : Nat} {c : RangeCoder}
    (h : cumWf cum n = true) :
    (∀ v c', decSym s cum n c = .ok v c' → v < n ∧ c'.running) ∧
      (∀ e c', decSym s cum n c = .fail e c' → c.low.toNat < c.range.toNat →
        (e = .rcRange ∨ e = .rcOverrun) ∧ c'.low.toNat < c'.range.toNat) := by
  have hr : c.range.toNat / 2 ^ Config.FREQ_BITS * 2 ^ Config.FREQ_BITS ≤ c.range.toNat :=
    Nat.div_mul_le_self _ _
  have hb : c.range.toNat < 2 ^ 24 := c.range.isLt
  have bounds : ∀ sym < n, ∀ k,
      c.range.toNat / 2 ^ Config.FREQ_BITS * cum sym ≤ c.low.toNat →
      c.low.toNat < c.range.toNat / 2 ^ Config.FREQ_BITS * cum (sym + 1) →
      (∀ m < k, c.range.toNat / 2 ^ Config.FREQ_BITS * (cum (sym + 1) - cum sym) * 256 ^ m < 2 ^ 16) →
      c.range.toNat / 2 ^ Config.FREQ_BITS * (cum (sym + 1) - cum sym) * 256 ^ k < 2 ^ 24 ∧
      (c.low.toNat - c.range.toNat / 2 ^ Config.FREQ_BITS * cum sym) * 256 ^ k +
          payloadNumber s c.cursor.toNat k <
        c.range.toNat / 2 ^ Config.FREQ_BITS * (cum (sym + 1) - cum sym) * 256 ^ k := by
    intro sym hsym k h1 h2 h3
    have hle := Nat.mul_le_mul_left (c.range.toNat / 2 ^ Config.FREQ_BITS) (cumWf_le h (s := sym + 1) hsym)
    refine shifted_bounds ?_ (payloadNumber_lt s _ k) ?_ h3
    · rw [Nat.mul_sub]; omega
    · rw [Nat.mul_sub]; omega
  rcases decSym_cases (s := s) (c := c) h with ⟨h1, he⟩ | ⟨sym, hsym, h1, h2, hc⟩
  · refine ⟨fun v c' hv => (by rw [he] at hv; cases hv), fun e c' hf hl => ?_⟩
    rw [he] at hf; cases hf
    exact ⟨.inl rfl, hl⟩
  · rcases hc with ⟨k, hk, he, hge, hlt⟩ | ⟨he, hlt⟩ | ⟨m, hm, f, hf, he⟩
    · have hbd := bounds sym hsym k h1 h2 hlt
      refine ⟨fun v c' hv => ?_, fun e c' hf hl => (by rw [he] at hf; cases hf)⟩
      rw [he] at hv; cases hv
      refine ⟨hsym, ?_⟩
      rw [RangeCoder.running, coderOf_range hbd.1, coderOf_low (by omega)]
      exact ⟨hge, hbd.2⟩
    · have hbd := bounds sym hsym (s.PB - c.cursor.toNat) h1 h2 fun m hm => hlt m (by omega)
      refine ⟨fun v c' hv => (by rw [he] at hv; cases hv), fun e c' hf hl => ?_⟩
      rw [he] at hf; cases hf
      refine ⟨.inr rfl, ?_⟩
      rw [coderOf_range hbd.1, coderOf_low (by omega)]
      exact hbd.2
    · exact ⟨fun v c' hv => (by rw [he] at hv; cases hv), fun e c' hf => (by rw [he] at hf; cases hf)⟩

/-- With the payload written, a decode of a symbol does not stop the machine. -/
theorem decSym_no_fault {s : State} {cum : Nat → Nat} {n : Nat} {c : RangeCoder} {f : Fault}
    (h : cumWf cum n = true) (hb : s.NBYTES ≤ Config.BYTES_MAX) (hw : payloadWritten s) :
    decSym s cum n c ≠ .fault f := by
  intro hf
  rcases decSym_cases (s := s) (c := c) h with ⟨h1, he⟩ | ⟨sym, hsym, h1, h2, hc⟩
  · rw [he] at hf; cases hf
  · rcases hc with ⟨k, hk, he, -⟩ | ⟨he, -⟩ | ⟨m, hm, g, hg, he⟩
    · rw [he] at hf; cases hf
    · rw [he] at hf; cases hf
    · rw [payloadByte_written hb hw (by have : s.PB ≤ s.NBYTES := Nat.sub_le _ _; omega)] at hg
      cases hg

/-- The table of raw bits is well-formed (10_state.md R78). -/
theorem uni2_wf : cumWf uni2 2 = true := by decide

end Sys2Proof.Machine
end

