-- ==== Sys2Proof/Laws/Tables.lean ====
section
/-! SUPPORT. The block's tables are well-formed: the four open ones whatever the platform puts into them,
the spectral costs by their bound. -/

namespace Sys2Proof.Machine

/-! ## The open tables (10_state.md R70 to R73) -/

theorem settledCum_le (raw : Nat → Nat) (n s : Nat) :
    settledCum raw n s ≤ 2 ^ Config.FREQ_BITS := by
  cases s with
  | zero => simp [settledCum]
  | succ s => rw [settledCum]; split <;> simp

theorem settledCum_succ (raw : Nat → Nat) (n s : Nat) :
    settledCum raw n (s + 1) =
      if n ≤ s + 1 then 2 ^ Config.FREQ_BITS
      else min (2 ^ Config.FREQ_BITS) (max (settledCum raw n s) (raw (s + 1))) := rfl

theorem settledCum_step (raw : Nat → Nat) (n s : Nat) :
    settledCum raw n s ≤ settledCum raw n (s + 1) := by
  have hle := settledCum_le raw n s
  rw [settledCum_succ]
  split
  · exact hle
  · exact le_min hle (le_max_left _ _)

/-- Whatever the platform puts into a cumulative-frequency table, the block reads a well-formed one. -/
theorem settledCum_wf (raw : Nat → Nat) {n : Nat} (hn : 0 < n) :
    cumWf (settledCum raw n) n = true := by
  refine cumWf_iff.mpr ⟨by simp [settledCum], ?_, fun s _ => settledCum_step raw n s⟩
  obtain ⟨m, rfl⟩ : ∃ m, n = m + 1 := ⟨n - 1, by omega⟩
  simp [settledCum]

/-- A well-formed table is read as it is: the constants range over exactly the tables R71 allows. -/
theorem settledCum_of_wf {raw : Nat → Nat} {n s : Nat} (h : cumWf raw n = true) (hs : s ≤ n) :
    settledCum raw n s = raw s := by
  obtain ⟨h0, hn, hm⟩ := cumWf_iff.mp h
  induction s with
  | zero => simp [settledCum, h0]
  | succ s ih =>
    rw [settledCum_succ]
    split
    · rw [show s + 1 = n by omega, hn]
    · rw [ih (by omega), max_eq_right (hm s (by omega)), min_eq_right (cumWf_le h hs)]

theorem blockRoms_cf_wf (id : Nat) : cumWf (blockRoms.cf id) Config.NSYM_SPEC = true := by
  unfold blockRoms; exact settledCum_wf _ (by decide)

theorem blockRoms_tnsOrder_wf (w : Nat) :
    cumWf (blockRoms.tnsOrder w) Config.TNS_ORDER_MAX = true := by
  unfold blockRoms; exact settledCum_wf _ (by decide)

theorem blockRoms_tnsCoef_wf (k : Nat) :
    cumWf (blockRoms.tnsCoef k) Config.TNS_COEF_SYMS = true := by
  unfold blockRoms; exact settledCum_wf _ (by decide)

theorem blockRoms_lut_lt (l t : Nat) : blockRoms.lut l t < Config.NT_CF := by
  unfold blockRoms; exact Nat.mod_lt _ (by decide)

/-- Every table RC_DECSYM selects is well-formed. -/
theorem selectTable_wf (cls : TableClass) (id : Nat) :
    cumWf (selectTable blockRoms cls id).1 (selectTable blockRoms cls id).2 = true := by
  cases cls
  · exact blockRoms_cf_wf id
  · exact blockRoms_tnsOrder_wf id
  · exact blockRoms_tnsCoef_wf id
  · exact uni2_wf

/-! ## The spectral costs (R74) -/

theorem bitcostOf_le (F : Nat) : bitcostOf F ≤ 0xFFFF := by
  have h : 4096 * Config.FREQ_BITS = 40960 := by decide
  unfold bitcostOf
  split
  · exact le_rfl
  · simp only [h]; omega

theorem blockRoms_bitcost_le (id s : Nat) : blockRoms.bitcost id s ≤ 0xFFFF := by
  unfold blockRoms; exact bitcostOf_le _

end Sys2Proof.Machine
end

