-- ==== Sys2Proof/Laws/FrameDecode.lean ====
section
/-! SUPPORT. What the decodes of RC_DECODE can do: they keep the decoder's interval, and with the payload
written none of them stops the machine. -/

namespace Sys2Proof.Machine

open Config (Roms)

/-- The cumulative-frequency tables are well-formed. -/
structure CumTablesWf (r : Roms) : Prop where
  cf : ∀ id, cumWf (r.cf id) Config.NSYM_SPEC = true
  tnsOrder : ∀ w, cumWf (r.tnsOrder w) Config.TNS_ORDER_MAX = true
  tnsCoef : ∀ k, cumWf (r.tnsCoef k) Config.TNS_COEF_SYMS = true

theorem blockRoms_cumTablesWf : CumTablesWf blockRoms :=
  ⟨blockRoms_cf_wf, blockRoms_tnsOrder_wf, blockRoms_tnsCoef_wf⟩

/-! ## Decodes -/

/-- The bit errors that a decode can raise (60_exceptions.md R360). -/
def BitError.ofDecoder (e : BitError) : Prop :=
  e = .rcRange ∨ e = .rcEsc ∨ e = .rcOverrun ∨ e = .rcTerm

/-- The interval a decode leaves: running after a value, low below the range after a bit error. -/
def Decoded.sound {α : Type} : Decoded α → Prop
  | .ok _ c => c.running
  | .fail e c => e.ofDecoder ∧ c.low.toNat < c.range.toNat
  | .fault _ => True

/-- A decode that does not stop the machine. -/
def Decoded.readable {α : Type} : Decoded α → Prop
  | .ok _ _ => True
  | .fail _ _ => True
  | .fault _ => False

theorem Decoded.andThen_sound {α β : Type} {x : Decoded α} {f : α → RangeCoder → Decoded β}
    (hx : x.sound) (hf : ∀ v c, c.running → (f v c).sound) : (x.andThen f).sound := by
  cases x with
  | ok v c => exact hf v c hx
  | fail e c => exact hx
  | fault g => trivial

theorem Decoded.andThen_readable {α β : Type} {x : Decoded α} {f : α → RangeCoder → Decoded β}
    (hx : x.readable) (hf : ∀ v c, (f v c).readable) : (x.andThen f).readable := by
  cases x with
  | ok v c => exact hf v c
  | fail e c => trivial
  | fault g => exact hx

variable {r : Roms} {s : State}

theorem decSym_sound {cum : Nat → Nat} {n : Nat} {c : RangeCoder} (h : cumWf cum n = true)
    (hc : c.running) : (decSym s cum n c).sound := by
  have hi := decSym_interval (s := s) (c := c) h
  cases hd : decSym s cum n c with
  | ok v c' => exact (hi.1 v c' hd).2
  | fail e c' =>
    obtain ⟨he, hl⟩ := hi.2 e c' hd hc.2
    exact ⟨he.elim .inl fun he => .inr (.inr (.inl he)), hl⟩
  | fault f => trivial

theorem decSym_readable {cum : Nat → Nat} {n : Nat} {c : RangeCoder} (h : cumWf cum n = true)
    (hb : s.NBYTES ≤ Config.BYTES_MAX) (hw : payloadWritten s) : (decSym s cum n c).readable := by
  cases hd : decSym s cum n c with
  | ok v c' => trivial
  | fail e c' => trivial
  | fault f => exact decSym_no_fault h hb hw hd

theorem rawPair_sound {lev a b : Nat} {c : RangeCoder} (hc : c.running) :
    (rawPair s lev a b c).sound := by
  unfold rawPair
  split
  · exact hc
  · exact Decoded.andThen_sound (decSym_sound uni2_wf hc) fun x c hc =>
      Decoded.andThen_sound (decSym_sound uni2_wf hc) fun y c hc => hc

theorem escapeChain_sound (hr : CumTablesWf r) {t left lev a b : Nat} {c : RangeCoder}
    (hc : c.running) : (escapeChain r s t left lev a b c).sound := by
  induction left generalizing lev a b c with
  | zero =>
    refine Decoded.andThen_sound (decSym_sound (hr.cf _) hc) fun v c hc => ?_
    split
    · exact hc
    · exact ⟨.inr (.inl rfl), hc.2⟩
  | succ left ih =>
    refine Decoded.andThen_sound (decSym_sound (hr.cf _) hc) fun v c hc => ?_
    split
    · exact hc
    · exact Decoded.andThen_sound (rawPair_sound hc) fun ab c hc => ih hc

theorem signedMagnitude_sound {a : Nat} {c : RangeCoder} (hc : c.running) :
    (signedMagnitude s a c).sound := by
  unfold signedMagnitude
  split
  · exact hc
  · exact Decoded.andThen_sound (decSym_sound uni2_wf hc) fun x c hc => hc

theorem decodeTuple_sound (hr : CumTablesWf r) {ctx j : Nat} {c : RangeCoder} (hc : c.running) :
    (decodeTuple r s ctx j c).sound :=
  Decoded.andThen_sound (escapeChain_sound hr hc) fun _ _ hc =>
    Decoded.andThen_sound (signedMagnitude_sound hc) fun _ _ hc =>
      Decoded.andThen_sound (signedMagnitude_sound hc) fun _ _ hc => hc

section Readable

variable (hb : s.NBYTES ≤ Config.BYTES_MAX) (hw : payloadWritten s)
include hb hw

theorem rawPair_readable {lev a b : Nat} {c : RangeCoder} : (rawPair s lev a b c).readable := by
  unfold rawPair
  split
  · trivial
  · exact Decoded.andThen_readable (decSym_readable uni2_wf hb hw) fun x c =>
      Decoded.andThen_readable (decSym_readable uni2_wf hb hw) fun y c => trivial

theorem escapeChain_readable (hr : CumTablesWf r) {t left lev a b : Nat} {c : RangeCoder} :
    (escapeChain r s t left lev a b c).readable := by
  induction left generalizing lev a b c with
  | zero =>
    refine Decoded.andThen_readable (decSym_readable (hr.cf _) hb hw) fun v c => ?_
    split <;> trivial
  | succ left ih =>
    refine Decoded.andThen_readable (decSym_readable (hr.cf _) hb hw) fun v c => ?_
    split
    · trivial
    · exact Decoded.andThen_readable (rawPair_readable hb hw) fun ab c => ih

theorem signedMagnitude_readable {a : Nat} {c : RangeCoder} : (signedMagnitude s a c).readable := by
  unfold signedMagnitude
  split
  · trivial
  · exact Decoded.andThen_readable (decSym_readable uni2_wf hb hw) fun x c => trivial

theorem decodeTuple_readable (hr : CumTablesWf r) {ctx j : Nat} {c : RangeCoder} :
    (decodeTuple r s ctx j c).readable :=
  Decoded.andThen_readable (escapeChain_readable hb hw hr) fun _ _ =>
    Decoded.andThen_readable (signedMagnitude_readable hb hw) fun _ _ =>
      Decoded.andThen_readable (signedMagnitude_readable hb hw) fun _ _ => trivial

end Readable

/-! ## Stages -/

/-- What a stage guarantees: `P` of the progress when it runs through, `Q` of the bit error and the
progress when one stops it, and `R` says whether it may stop the machine. -/
def Stage.meets (P : Progress → Prop) (Q : BitError → Progress → Prop) (R : Prop) : Stage → Prop
  | .ok (p, none) => P p
  | .ok (p, some e) => Q e p
  | .error _ => R

theorem Stage.next_meets {P P' : Progress → Prop} {Q : BitError → Progress → Prop} {R : Prop} {x : Stage} {f : Progress → Stage}
    (hx : Stage.meets P Q R x) (hf : ∀ p, P p → Stage.meets P' Q R (f p)) :
    Stage.meets P' Q R (x.next f) := by
  match x, hx with
  | .ok (p, none), hx => exact hf p hx
  | .ok (p, some e), hx => exact hx
  | .error g, hx => exact hx

/-- A stage for each index of a list, with a property indexed by the number of indices done. -/
theorem forEach_meets {P : Nat → Progress → Prop} {Q : BitError → Progress → Prop} {R : Prop}
    {act : Nat → Progress → Stage} (l : List Nat) (k : Nat)
    (h : ∀ m i p, l[m]? = some i → P (k + m) p → Stage.meets (P (k + m + 1)) Q R (act i p))
    {p : Progress} (hp : P k p) : Stage.meets (P (k + l.length)) Q R (forEach act l p) := by
  induction l generalizing k p with
  | nil => exact hp
  | cons i rest ih =>
    refine Stage.next_meets (h 0 i p rfl hp) fun p' hp' => ?_
    have := ih (k + 1) (fun m j q hm hq => ?_) hp'
    · rw [List.length_cons, show k + (rest.length + 1) = k + 1 + rest.length by omega]; exact this
    · have := h (m + 1) j q (by simpa using hm) (by rwa [show k + (m + 1) = k + 1 + m by omega])
      rwa [show k + (m + 1) + 1 = k + 1 + m + 1 by omega] at this

theorem Decoded.stage_meets {α : Type} {x : Decoded α} {p : Progress}
    {update : α → Progress → Progress} {P : Progress → Prop} {Q : BitError → Progress → Prop}
    {R : Prop}
    (hok : ∀ v c, x = .ok v c → P (update v { p with coder := c }))
    (hfail : ∀ e c, x = .fail e c → Q e { p with coder := c })
    (hfault : ∀ f, x = .fault f → R) : Stage.meets P Q R (x.stage p update) := by
  cases x with
  | ok v c => exact hok v c rfl
  | fail e c => exact hfail e c rfl
  | fault f => exact hfault f rfl

/-! ## RC_DECODE's sections -/

/-- The progress of a decode whose interval is running. -/
def Progress.running (p : Progress) : Prop := p.coder.running

/-- The progress a bit error leaves: low is below the range. -/
def Progress.stopped (e : BitError) (p : Progress) : Prop :=
  e.ofDecoder ∧ p.coder.low.toNat < p.coder.range.toNat

/-- A decode recorded by a stage keeps the interval, and with the payload written does not stop the
machine. -/
theorem Decoded.stage_sound {α : Type} {x : Decoded α} {p : Progress}
    {update : α → Progress → Progress} {R : Prop} (hu : ∀ v q, (update v q).coder = q.coder)
    (hs : x.sound) (hR : R ∨ x.readable) :
    Stage.meets Progress.running Progress.stopped R (x.stage p update) := by
  refine Decoded.stage_meets (fun v c h => ?_) (fun e c h => ?_) (fun f h => ?_)
  · rw [Progress.running, hu]; subst h; exact hs
  · subst h; exact hs
  · subst h; rcases hR with hR | hR
    · exact hR
    · exact hR.elim

/-- RC_DECODE's sections keep the interval, and with the payload written do not stop the machine. -/
theorem decodeSections_meets (hr : CumTablesWf r) (hc : s.coder.running) {R : Prop}
    (hR : R ∨ (s.NBYTES ≤ Config.BYTES_MAX ∧ payloadWritten s)) :
    Stage.meets Progress.running Progress.stopped R (decodeSections r s) := by
  have sym : ∀ {cum : Nat → Nat} {n : Nat} {c : RangeCoder}, cumWf cum n = true →
      R ∨ (decSym s cum n c).readable := fun h =>
    hR.imp id fun hR => decSym_readable h hR.1 hR.2
  have tup : ∀ {ctx j : Nat} {c : RangeCoder}, R ∨ (decodeTuple r s ctx j c).readable :=
    hR.imp id fun hR => decodeTuple_readable hR.1 hR.2 hr
  have each : ∀ {act : Nat → Progress → Stage} (l : List Nat) {p : Progress},
      (∀ i p, p.running → Stage.meets Progress.running Progress.stopped R (act i p)) → p.running →
      Stage.meets Progress.running Progress.stopped R (forEach act l p) := @fun act l p h hp =>
    forEach_meets (P := fun _ => Progress.running) l 0 (fun _ i p _ hp => h i p hp) hp
  unfold decodeSections
  refine Stage.next_meets (each _ (fun f p hp => ?_) hc) fun p hp =>
    Stage.next_meets (each _ (fun f p hp => ?_) hp) fun p hp =>
      Stage.next_meets (each _ (fun j p hp => ?_) hp) fun p hp => ?_
  · unfold orderStage
    split
    · exact Decoded.stage_sound (fun _ _ => rfl) (decSym_sound (hr.tnsOrder _) hp)
        (sym (hr.tnsOrder _))
    · exact hp
  · exact each _ (fun k p hp => Decoded.stage_sound (fun _ _ => rfl)
      (decSym_sound (hr.tnsCoef _) hp) (sym (hr.tnsCoef _))) hp
  · exact Decoded.stage_sound (fun _ _ => rfl) (decodeTuple_sound hr hp) tup
  · unfold terminalStage
    split
    · exact ⟨.inr (.inr (.inr rfl)), hp.2⟩
    · exact hp

/-- What the termination check leaves of a decode that runs through (R200). -/
theorem terminalStage_ok {p q : Progress} (h : terminalStage p = .ok (q, none)) :
    q = p ∧ p.coder.low = 0 := by
  unfold terminalStage at h
  split at h
  · cases h
  · next hl => cases h; exact ⟨rfl, not_not.mp hl⟩

theorem Stage.next_ok {x : Stage} {f : Progress → Stage} {q : Progress}
    (h : x.next f = .ok (q, none)) : ∃ p, x = .ok (p, none) ∧ f p = .ok (q, none) := by
  match x with
  | .ok (p, none) => exact ⟨p, rfl, h⟩
  | .ok (p, some e) => cases h
  | .error g => cases h

/-- A decode of the frame that runs through ends with low = 0 (R200). -/
theorem decodeSections_low {p : Progress} (h : decodeSections r s = .ok (p, none)) :
    p.coder.low = 0 := by
  obtain ⟨p1, -, h⟩ := Stage.next_ok h
  obtain ⟨p2, -, h⟩ := Stage.next_ok h
  obtain ⟨p3, -, h⟩ := Stage.next_ok h
  obtain ⟨rfl, h⟩ := terminalStage_ok h
  exact h

end Sys2Proof.Machine
end

