-- ==== Sys2Proof/Laws/Memory.lean ====
section
/-! SUPPORT. Memory: reading after storing, the canonical form, and what the writes of whole RAMs leave
to read. -/

namespace Sys2Proof.Machine

/-! ## Lists of cells -/

theorem lookupCells_append (xs ys : List Host.Cell) (a : Nat) :
    lookupCells (xs ++ ys) a = (lookupCells xs a).or (lookupCells ys a) := by
  induction xs with
  | nil => simp [lookupCells]
  | cons c xs ih =>
    obtain ⟨b, v⟩ := c
    by_cases h : b = a <;> simp [lookupCells, h, ih]

theorem lookupCells_filter (p : Nat → Bool) (xs : List Host.Cell) (a : Nat) :
    lookupCells (xs.filter fun c => p c.1) a = if p a then lookupCells xs a else none := by
  induction xs with
  | nil => simp [lookupCells]
  | cons c xs ih =>
    obtain ⟨b, v⟩ := c
    by_cases hb : b = a
    · subst hb
      by_cases hp : p b <;> simp [lookupCells, hp, ih]
    · by_cases hp : p b <;> simp [lookupCells, hp, hb, ih]

theorem lookupCells_cellsFrom (bs : List Byte) (lo a : Nat) :
    lookupCells (cellsFrom lo bs) a = if lo ≤ a then bs[a - lo]? else none := by
  induction bs generalizing lo with
  | nil => simp [cellsFrom, lookupCells]
  | cons b bs ih =>
    rw [cellsFrom, lookupCells]
    by_cases h : lo = a
    · subst h; simp
    · rw [if_neg h, ih]
      by_cases hle : lo ≤ a
      · obtain ⟨k, rfl⟩ : ∃ k, a = lo + 1 + k := ⟨a - lo - 1, by omega⟩
        have h1 : lo + 1 + k - (lo + 1) = k := by omega
        have h2 : lo + 1 + k - lo = k + 1 := by omega
        simp [h1, h2, show lo ≤ lo + 1 + k by omega]
      · rw [if_neg (by omega), if_neg hle]

/-! ## Reading after storing -/

/-- A store is read back inside the stored bytes, and every other address reads as before. -/
theorem Memory.read_store (m : Memory) (lo : Nat) (bs : List Byte) (a : Nat) :
    (m.store lo bs).read a =
      if lo ≤ a ∧ a < lo + bs.length then bs[a - lo]? else m.read a := by
  have h1 := lookupCells_filter (fun x => decide (x < lo)) m.cells a
  have h2 := lookupCells_filter (fun x => decide (lo + bs.length ≤ x)) m.cells a
  simp only [Memory.read, Memory.store, lookupCells_append, lookupCells_cellsFrom, h1, h2]
  by_cases ha : a < lo
  · simp [ha, show ¬ lo ≤ a by omega, show ¬ lo + bs.length ≤ a by omega]
  · by_cases hb : a < lo + bs.length
    · have : a - lo < bs.length := by omega
      simp [ha, hb, show lo ≤ a by omega, this]
    · have : bs[a - lo]? = none := by simp; omega
      simp [ha, hb, show lo ≤ a by omega, this, show lo + bs.length ≤ a by omega]

theorem Memory.read_store_outside (m : Memory) {lo : Nat} {bs : List Byte} {a : Nat}
    (h : ¬ (lo ≤ a ∧ a < lo + bs.length)) : (m.store lo bs).read a = m.read a := by
  rw [m.read_store, if_neg h]

theorem Memory.read_store_inside (m : Memory) {lo : Nat} {bs : List Byte} {k : Nat}
    (h : k < bs.length) : (m.store lo bs).read (lo + k) = bs[k]? := by
  rw [m.read_store, if_pos (by omega)]
  simp

/-! ## The canonical form -/

theorem risingCells_iff (xs : List Host.Cell) :
    risingCells xs = true ↔ xs.Pairwise fun a b => a.1 < b.1 := by
  induction xs with
  | nil => simp [risingCells]
  | cons a xs ih =>
    cases xs with
    | nil => simp [risingCells]
    | cons b rest =>
      rw [risingCells, Bool.and_eq_true, decide_eq_true_eq, ih, List.pairwise_cons (a := a)]
      constructor
      · rintro ⟨hab, h⟩
        refine ⟨fun c hc => ?_, h⟩
        rcases List.mem_cons.mp hc with rfl | hc
        · exact hab
        · exact hab.trans ((List.pairwise_cons.mp h).1 c hc)
      · exact fun ⟨h, hp⟩ => ⟨h b (by simp), hp⟩

theorem cellsFrom_bounds (bs : List Byte) (lo : Nat) :
    ∀ c ∈ cellsFrom lo bs, lo ≤ c.1 ∧ c.1 < lo + bs.length := by
  induction bs generalizing lo with
  | nil => simp [cellsFrom]
  | cons b bs ih =>
    intro c hc
    rcases List.mem_cons.mp hc with rfl | hc
    · simp
    · have := ih (lo + 1) c hc
      simp only [List.length_cons]; omega

theorem cellsFrom_pairwise (bs : List Byte) (lo : Nat) :
    (cellsFrom lo bs).Pairwise fun a b => a.1 < b.1 := by
  induction bs generalizing lo with
  | nil => simp [cellsFrom]
  | cons b bs ih =>
    refine List.pairwise_cons.mpr ⟨fun c hc => ?_, ih _⟩
    have := cellsFrom_bounds bs (lo + 1) c hc
    omega

/-- A store keeps the canonical form. -/
theorem Memory.store_wf (m : Memory) (lo : Nat) (bs : List Byte) (h : m.wf = true) :
    (m.store lo bs).wf = true := by
  rw [Memory.wf, risingCells_iff] at h ⊢
  simp only [Memory.store]
  refine List.pairwise_append.mpr
    ⟨List.pairwise_append.mpr ⟨h.filter _, cellsFrom_pairwise bs lo, ?_⟩, h.filter _, ?_⟩
  · intro a ha b hb
    have := (List.mem_filter.mp ha).2
    have := cellsFrom_bounds bs lo b hb
    simp at *; omega
  · intro a ha b hb
    have hb' := (List.mem_filter.mp hb).2
    rcases List.mem_append.mp ha with ha | ha
    · have := (List.mem_filter.mp ha).2
      simp at *; omega
    · have := cellsFrom_bounds bs lo a ha
      simp at *; omega

/-- A store lists only the cells that stood there and those stored. -/
theorem Memory.mem_store_cells (m : Memory) (lo : Nat) (bs : List Byte) (c : Host.Cell)
    (h : c ∈ (m.store lo bs).cells) :
    c ∈ m.cells ∨ (lo ≤ c.1 ∧ c.1 < lo + bs.length) := by
  simp only [Memory.store, List.mem_append] at h
  rcases h with (h | h) | h
  · exact .inl (List.mem_filter.mp h).1
  · exact .inr (cellsFrom_bounds bs lo c h)
  · exact .inl (List.mem_filter.mp h).1

/-- The memory after reset has the canonical form. -/
theorem reset_mem_wf : State.reset.mem.wf = true := rfl

/-! ## The RAMs (R91) -/

theorem inRam_iff {a : Nat} :
    inRam a = true ↔
      (0x1000 ≤ a ∧ a < 0x1000 + 400) ∨ (0x2000 ≤ a ∧ a < 0x2000 + 1600) ∨
        (0x3000 ≤ a ∧ a < 0x3000 + 1600) ∨ (0x4000 ≤ a ∧ a < 0x4000 + 1600) ∨
          (0x5000 ≤ a ∧ a < 0x5000 + 52) := by
  simp only [inRam, Bool.or_eq_true, decide_eq_true_eq, or_assoc]
  exact Iff.rfl

/-! ## Words -/

@[simp] theorem wordBytes_length (w : Word) : (wordBytes w).length = 4 := rfl

/-- The bytes of a word make up the word (R93). -/
theorem wordOfBytes_wordBytes (w : Word) :
    wordOfBytes (w.extractLsb' 0 8) (w.extractLsb' 8 8) (w.extractLsb' 16 8) (w.extractLsb' 24 8) =
      w := by
  apply BitVec.eq_of_getLsbD_eq
  intro i hi
  simp only [wordOfBytes, BitVec.getLsbD_append, BitVec.getLsbD_extractLsb']
  split
  · simp [*]
  · split
    · simp [show i - 8 < 8 by omega, show 8 + (i - 8) = i by omega]
    · split
      · simp [show i - 8 - 8 < 8 by omega, show 16 + (i - 8 - 8) = i by omega]
      · simp [show i - 8 - 8 - 8 < 8 by omega, show 24 + (i - 8 - 8 - 8) = i by omega]

theorem flatMap_four_length {α β : Type} (f : α → List β) (hf : ∀ a, (f a).length = 4)
    (xs : List α) : (xs.flatMap f).length = 4 * xs.length := by
  induction xs with
  | nil => rfl
  | cons a xs ih =>
    simp only [List.flatMap_cons, List.length_append, hf, ih, List.length_cons]; omega

theorem flatMap_four_getElem? {α β : Type} (f : α → List β) (hf : ∀ a, (f a).length = 4)
    (xs : List α) (i k : Nat) (hk : k < 4) :
    (xs.flatMap f)[4 * i + k]? = (xs[i]?).bind fun a => (f a)[k]? := by
  induction xs generalizing i with
  | nil => simp
  | cons a xs ih =>
    cases i with
    | zero => simp [List.getElem?_append, hf, hk]
    | succ i =>
      rw [List.flatMap_cons, List.getElem?_append_right (by rw [hf]; omega), hf,
        show 4 * (i + 1) + k - 4 = 4 * i + k by omega, ih]
      simp

@[simp] theorem paddedWords_length (vs : List Int) : (paddedWords vs).length = 1600 := by
  rw [paddedWords, flatMap_four_length _ (fun _ => rfl)]; simp [Config.NE_MAX]

theorem paddedWords_getElem? (vs : List Int) {i k : Nat} (hi : i < Config.NE_MAX) (hk : k < 4) :
    (paddedWords vs)[4 * i + k]? = (wordBytes (BitVec.ofInt 32 (vs.getD i 0)))[k]? := by
  rw [paddedWords, flatMap_four_getElem? _ (fun _ => rfl) _ _ _ hk, List.getElem?_range hi]
  rfl

/-- The four bytes of word i after a whole RAM is written. -/
theorem Memory.read_store_paddedWords (m : Memory) (base : Nat) (vs : List Int) {i k : Nat}
    (hi : i < Config.NE_MAX) (hk : k < 4) :
    (m.store base (paddedWords vs)).read (base + 4 * i + k) =
      (wordBytes (BitVec.ofInt 32 (vs.getD i 0)))[k]? := by
  have h : 4 * i + k < (paddedWords vs).length := by
    rw [paddedWords_length]; unfold Config.NE_MAX at hi; omega
  rw [Nat.add_assoc, m.read_store_inside h, paddedWords_getElem? vs hi hk]

/-- Word i of a RAM below RESBUF after the whole RAM is written. -/
theorem ramWord_store_paddedWords (s : State) (base : Nat) (vs : List Int) {i : Nat}
    (hbase : base + 1600 ≤ RESBUF_BASE) (hi : i < Config.NE_MAX) :
    ramWord { s with mem := s.mem.store base (paddedWords vs) } (base + 4 * i) =
      BitVec.ofInt 32 (vs.getD i 0) := by
  have hr := fun k hk => s.mem.read_store_paddedWords base vs (i := i) (k := k) hi hk
  have hb : ∀ k, k < 4 → ¬ RESBUF_BASE + RESBUF_BYTES ≤ base + 4 * i + k := by
    intro k hk; unfold Config.NE_MAX at hi; omega
  have h0 := hr 0 (by omega)
  have h1 := hr 1 (by omega)
  have h2 := hr 2 (by omega)
  have h3 := hr 3 (by omega)
  have b0 := hb 0 (by omega)
  simp only [Nat.add_zero] at h0 b0
  simp only [ramWord, ramByte, if_neg b0, if_neg (hb 1 (by omega)), if_neg (hb 2 (by omega)),
    if_neg (hb 3 (by omega)), h0, h1, h2, h3]
  exact wordOfBytes_wordBytes _

/-- XQ[i] after XQ is written (R56). -/
theorem xqElem_setXq (s : State) (vs : List Int) {i : Nat} (hi : i < Config.NE_MAX) :
    xqElem (s.setXq vs) i = (BitVec.ofInt 32 (vs.getD i 0)).toInt := by
  rw [xqElem, State.setXq, ramWord_store_paddedWords s XQ_BASE vs (by decide) hi]

end Sys2Proof.Machine
end

