-- ==== Sys2Proof/Laws/Operands.lean ====
section
/-! SUPPORT. The configuration checks as arithmetic (60_exceptions.md R357). -/

namespace Sys2Proof.Machine

theorem geometryOk_iff {s : State} :
    geometryOk s = true ↔
      (4 ≤ s.NE ∧ s.NE ≤ 400 ∧ s.NE % 4 = 0) ∧ 20 ≤ s.NBYTES ∧ s.NBYTES ≤ 400 := by
  simp only [geometryOk, Bool.and_eq_true, decide_eq_true_eq]
  exact Iff.rfl

theorem decodeConfigOk_iff {s : State} :
    decodeConfigOk s = true ↔
      (4 ≤ s.NE ∧ s.NE ≤ 400 ∧ s.NE % 4 = 0) ∧ (20 ≤ s.NBYTES ∧ s.NBYTES ≤ 400) ∧
        1 ≤ s.NF_TNS ∧ s.NF_TNS ≤ 2 := by
  simp only [decodeConfigOk, Bool.and_eq_true, decide_eq_true_eq, geometryOk_iff, and_assoc]
  exact Iff.rfl

theorem encodeConfigOk_iff {s : State} :
    encodeConfigOk s = true ↔
      (4 ≤ s.NE ∧ s.NE ≤ 400 ∧ s.NE % 4 = 0) ∧ (20 ≤ s.NBYTES ∧ s.NBYTES ≤ 400) ∧
        s.TARGET ≤ 8 * s.NBYTES := by
  simp only [encodeConfigOk, Bool.and_eq_true, decide_eq_true_eq, geometryOk_iff, and_assoc]

end Sys2Proof.Machine
end

