-- ==== Sys2Proof/Laws/PerInstr.lean ====
section
/-! SUPPORT. What holds of every command as syntax, one lemma for each constructor: the fields of its
word. -/

namespace Sys2Proof.Laws

/-- The word of a well-formed command has its opcode in OPC, its argument in ARG, 0 for a command that
takes none, and 0 in the reserved bits (30_encoding.md R115, R118). -/
def WordFields.Statement (i : Instr) : Prop :=
  i.wellFormed = true →
    opcField (encode i) = i.opcode ∧ argField (encode i) = i.arg ∧ reservedField (encode i) = 0 ∧
      (i.takesArg = false → i.arg = 0)

theorem WordFields.nop : Statement .nop := by unfold Statement; decide
theorem WordFields.frameStart : Statement .frameStart := by unfold Statement; decide
theorem WordFields.pvqDeenum : Statement .pvqDeenum := by unfold Statement; decide
theorem WordFields.pvqShape : Statement .pvqShape := by unfold Statement; decide
theorem WordFields.rcInit : Statement .rcInit := by unfold Statement; decide

theorem WordFields.rcDecsym (cls : TableClass) (id : Nat) : Statement (.rcDecsym cls id) := by
  intro h
  have hid : id < 64 := by simpa [Instr.wellFormed] using h
  have hc : cls.code < 4 := by cases cls <;> decide
  have ha : (Instr.rcDecsym cls id).arg = cls.code * 64 + id := rfl
  have hv : (encode (.rcDecsym cls id)).toNat = 0x21 + 256 * (cls.code * 64 + id) := by
    rw [encode, BitVec.toNat_ofNat, ha, Nat.mod_eq_of_lt]
    · rfl
    · show 0x21 + _ < _; omega
  refine ⟨?_, ?_, ?_, by simp [Instr.takesArg]⟩
  · rw [opcField, hv, Instr.opcode]; omega
  · rw [argField, hv, ha]; omega
  · rw [reservedField, hv]; omega

theorem WordFields.rcDecbit : Statement .rcDecbit := by unfold Statement; decide
theorem WordFields.rcDecode : Statement .rcDecode := by unfold Statement; decide
theorem WordFields.gainEst : Statement .gainEst := by unfold Statement; decide
theorem WordFields.quantize : Statement .quantize := by unfold Statement; decide
theorem WordFields.gainAdj : Statement .gainAdj := by unfold Statement; decide
theorem WordFields.resEncode : Statement .resEncode := by unfold Statement; decide
theorem WordFields.resDecode : Statement .resDecode := by unfold Statement; decide
theorem WordFields.siUnpack : Statement .siUnpack := by unfold Statement; decide
theorem WordFields.decodeFrame : Statement .decodeFrame := by unfold Statement; decide

end Sys2Proof.Laws
end

