-- ==== Sys2Proof/Laws/SideInfo.lean ====
section
/-! SUPPORT. Reading side-information fields (45_sideinfo.md R310): what a field read answers, and that no
legal configuration overruns (R313). -/

namespace Sys2Proof.Machine

/-! ## Numbers in the side information -/

theorem sideNumber_front (s : State) (p w : Nat) :
    sideNumber s p (w + 1) = bit (sideBitAt s p) * 2 ^ w + sideNumber s (p + 1) w := by
  induction w generalizing p with
  | zero => simp [sideNumber]
  | succ w ih =>
    rw [sideNumber, ih, sideNumber, show p + (w + 1) = p + 1 + w by omega]; ring

theorem bit_lt_two (b : Bool) : bit b < 2 := by cases b <;> simp [bit]

theorem sideNumber_lt (s : State) (p w : Nat) : sideNumber s p w < 2 ^ w := by
  induction w with
  | zero => simp [sideNumber]
  | succ w ih =>
    have := bit_lt_two (sideBitAt s (p + w))
    rw [sideNumber, pow_succ]; omega

theorem sideBit_ok {s : State} {p v : Nat} (h : sideBit s p = .ok v) : v = bit (sideBitAt s p) := by
  unfold sideBit at h
  split at h
  · cases h
  · next b hb => cases h; rw [payByte_ok hb, sideBitAt]

theorem sideBits_ok {s : State} {w p acc v : Nat} (h : sideBits s w p acc = .ok v) :
    v = acc * 2 ^ w + sideNumber s p w := by
  induction w generalizing p acc with
  | zero => simp [sideBits] at h; simp [sideNumber, h]
  | succ w ih =>
    unfold sideBits at h
    split at h
    · cases h
    · next b hb => rw [ih h, sideBit_ok hb, sideNumber_front]; ring

theorem sideBits_written {s : State} (hb : s.NBYTES ≤ Config.BYTES_MAX) (hw : payloadWritten s)
    {w p acc : Nat} (h : p + w ≤ 8 * s.NBYTES) : ∃ v, sideBits s w p acc = .ok v := by
  induction w generalizing p acc with
  | zero => exact ⟨acc, rfl⟩
  | succ w ih =>
    have hp : p / 8 < s.NBYTES := by omega
    have : payByte s (p / 8) = .ok (payValue s (p / 8)) :=
      payByte_written (by omega) (hw _ hp)
    unfold sideBits sideBit
    rw [this]
    exact ih (by omega)

/-! ## Field reads (R310) -/

/-- A field that fits is its number, and the position moves past it. -/
theorem readField_ok {s : State} {w v : Nat} {rd rd' : BitReader} (h : readField s w rd = .ok (v, rd'))
    (ho : rd.overrun = false) (hf : rd.pos + w ≤ 8 * s.NBYTES) :
    v = sideNumber s rd.pos w ∧ rd' = { rd with pos := rd.pos + w } := by
  unfold readField at h
  rw [if_neg (by simp [ho]), if_neg (by omega)] at h
  split at h
  · cases h
  · next b hb => cases h; exact ⟨by simpa using sideBits_ok hb, rfl⟩

theorem readField_written {s : State} (hb : s.NBYTES ≤ Config.BYTES_MAX) (hw : payloadWritten s)
    {w : Nat} {rd : BitReader} (ho : rd.overrun = false) (hf : rd.pos + w ≤ 8 * s.NBYTES) :
    readField s w rd = .ok (sideNumber s rd.pos w, { rd with pos := rd.pos + w }) := by
  obtain ⟨v, hv⟩ := sideBits_written hb hw (acc := 0) hf
  unfold readField
  rw [if_neg (by simp [ho]), if_neg (by omega), hv]
  simp [sideBits_ok hv]

/-- Whatever it reads, a field read moves the position by at most the width. -/
theorem readField_pos {s : State} {w v : Nat} {rd rd' : BitReader} (h : readField s w rd = .ok (v, rd'))
    (ho : rd.overrun = false) (hf : rd.pos + w ≤ 8 * s.NBYTES) :
    v < 2 ^ w ∧ rd'.overrun = false ∧ rd'.pos = rd.pos + w := by
  obtain ⟨rfl, rfl⟩ := readField_ok h ho hf
  exact ⟨sideNumber_lt _ _ _, ho, rfl⟩

theorem readFieldIf_pos {s : State} {b : Bool} {w v : Nat} {rd rd' : BitReader}
    (h : readFieldIf s b w rd = .ok (v, rd')) (ho : rd.overrun = false)
    (hf : rd.pos + w ≤ 8 * s.NBYTES) :
    v < 2 ^ w ∧ rd'.overrun = false ∧ rd'.pos = rd.pos + if b then w else 0 := by
  cases b with
  | false => cases h; exact ⟨Nat.two_pow_pos _, ho, rfl⟩
  | true => exact readField_pos h ho hf

theorem readTnsFlags_pos {s : State} {n f v : Nat} {rd rd' : BitReader}
    (h : readTnsFlags s n f rd = .ok (v, rd')) (ho : rd.overrun = false)
    (hf : rd.pos + n ≤ 8 * s.NBYTES) : rd'.overrun = false ∧ rd'.pos = rd.pos + n := by
  induction n generalizing f v rd with
  | zero => cases h; exact ⟨ho, rfl⟩
  | succ n ih =>
    unfold readTnsFlags at h
    split at h
    · cases h
    · next b rd1 h1 =>
      obtain ⟨-, ho1, hp1⟩ := readField_pos h1 ho (by omega)
      split at h
      · cases h
      · next t rd2 h2 =>
        cases h
        obtain ⟨ho2, hp2⟩ := ih h2 ho1 (by omega)
        exact ⟨ho2, by omega⟩

/-! ## The size of the side information (R312) -/

theorem ceilLog2_half_le {n : Nat} (h : n ≤ 400) : ceilLog2 (n / 2) ≤ 8 := by
  have : ∀ m ≤ 200, ceilLog2 m ≤ 8 := by decide +kernel
  exact this _ (by omega)

theorem stageTwoBits_le (j : Nat) :
    gainWidth j + indexWidthA j + (if j = 0 then 4 else 0) ≤ 27 := by
  by_cases h : j = 0
  · subst h; decide
  · rw [if_neg h]; unfold gainWidth indexWidthA; split <;> simp

theorem bind_ok {ε α β : Type} {x : Except ε α} {f : α → Except ε β} {v : β}
    (h : (x >>= f) = .ok v) : ∃ a, x = .ok a ∧ f a = .ok v := by
  cases x with
  | ok a => exact ⟨a, rfl, h⟩
  | error e => cases h

/-- A reader that has not overrun and stands at position n or before. -/
def BitReader.within (rd : BitReader) (n : Nat) : Prop := rd.overrun = false ∧ rd.pos ≤ n

theorem readField_within {s : State} {w v n : Nat} {rd rd' : BitReader}
    (h : readField s w rd = .ok (v, rd')) (hn : 20 ≤ s.NBYTES) (hr : rd.within n)
    (hle : n + w ≤ 160) : rd'.within (n + w) := by
  obtain ⟨-, ho, hp⟩ := readField_pos h hr.1 (by have := hr.2; omega)
  exact ⟨ho, by have := hr.2; omega⟩

theorem readFieldIf_within {s : State} {b : Bool} {w v n : Nat} {rd rd' : BitReader}
    (h : readFieldIf s b w rd = .ok (v, rd')) (hn : 20 ≤ s.NBYTES) (hr : rd.within n)
    (hle : n + w ≤ 160) : rd'.within (n + if b then w else 0) := by
  obtain ⟨-, ho, hp⟩ := readFieldIf_pos h hr.1 (by have := hr.2; omega)
  exact ⟨ho, by have := hr.2; omega⟩

theorem readTnsFlags_within {s : State} {k f v n : Nat} {rd rd' : BitReader}
    (h : readTnsFlags s k f rd = .ok (v, rd')) (hn : 20 ≤ s.NBYTES) (hr : rd.within n)
    (hle : n + k ≤ 160) : rd'.within (n + k) := by
  obtain ⟨ho, hp⟩ := readTnsFlags_pos h hr.1 (by have := hr.2; omega)
  exact ⟨ho, by have := hr.2; omega⟩

theorem BitReader.within_mono {rd : BitReader} {n m : Nat} (h : rd.within n) (hle : n ≤ m) :
    rd.within m := ⟨h.1, h.2.trans hle⟩

/-- In a legal configuration the side information never overruns (R313) and takes at most 76 bits
(R312). -/
theorem readSideInfo_within {s : State} {si : SideInfo} {rd : BitReader}
    (hc : decodeConfigOk s = true) (h : readSideInfo s = .ok (si, rd)) : rd.within 76 := by
  obtain ⟨⟨-, hne, -⟩, ⟨hn, -⟩, -, hf⟩ := decodeConfigOk_iff.mp hc
  have hbw : s.BW_BITS ≤ 3 := Nat.le_of_lt_succ s.cfg.mode.bwBits.isLt
  have hwl := ceilLog2_half_le hne
  unfold readSideInfo at h
  obtain ⟨⟨bw, r1⟩, h1, h⟩ := bind_ok h
  have w1 : r1.within 3 := BitReader.within_mono (readField_within h1 hn (n := 0) ⟨rfl, le_rfl⟩ (by omega)) (by omega)
  obtain ⟨⟨L, r2⟩, h2, h⟩ := bind_ok h
  have w2 : r2.within 11 := BitReader.within_mono (readField_within h2 hn (w1) (by omega)) (by omega)
  obtain ⟨⟨lsb, r3⟩, h3, h⟩ := bind_ok h
  have w3 : r3.within 12 := readField_within h3 hn w2 (by omega)
  obtain ⟨⟨gg, r4⟩, h4, h⟩ := bind_ok h
  have w4 : r4.within 20 := readField_within h4 hn w3 (by decide)
  obtain ⟨⟨tns, r5⟩, h5, h⟩ := bind_ok h
  have w5 : r5.within 22 := BitReader.within_mono (readTnsFlags_within h5 hn (w4) (by omega)) (by omega)
  obtain ⟨⟨pitch, r6⟩, h6, h⟩ := bind_ok h
  have w6 : r6.within 23 := readField_within h6 hn w5 (by omega)
  obtain ⟨⟨lf, r7⟩, h7, h⟩ := bind_ok h
  have w7 : r7.within 28 := readField_within h7 hn w6 (by omega)
  obtain ⟨⟨hf, r8⟩, h8, h⟩ := bind_ok h
  have w8 : r8.within 33 := readField_within h8 hn w7 (by omega)
  obtain ⟨⟨j, r9⟩, h9, h⟩ := bind_ok h
  have w9 : r9.within 35 := readField_within h9 hn w8 (by omega)
  have hst := stageTwoBits_le j
  obtain ⟨⟨gain, r10⟩, h10, h⟩ := bind_ok h
  have w10 := readField_within h10 hn w9 (by omega)
  obtain ⟨⟨lsa, r11⟩, h11, h⟩ := bind_ok h
  have w11 := readField_within h11 hn w10 (by omega)
  obtain ⟨⟨idxA, r12⟩, h12, h⟩ := bind_ok h
  have w12 := readField_within h12 hn w11 (by omega)
  obtain ⟨⟨lsB, r13⟩, h13, h⟩ := bind_ok h
  have w13 := readFieldIf_within h13 hn w12 (by omega)
  obtain ⟨⟨idxB, r14⟩, h14, h⟩ := bind_ok h
  have w14 : r14.within 63 := by
    have hle : (if decide (j = 0) = true then 1 else 0) + (if decide (j = 0) = true then 3 else 0) =
        if j = 0 then 4 else 0 := by by_cases hj : j = 0 <;> simp [hj]
    refine BitReader.within_mono (readFieldIf_within h14 hn w13 ?_) (by omega)
    split <;> omega
  obtain ⟨⟨pitchIdx, r15⟩, h15, h⟩ := bind_ok h
  have w15 : r15.within 72 := BitReader.within_mono (readFieldIf_within h15 hn (w14) (by decide)) (by split <;> decide)
  obtain ⟨⟨ltpf, r16⟩, h16, h⟩ := bind_ok h
  have w16 : r16.within 73 := BitReader.within_mono (readFieldIf_within h16 hn (w15) (by decide)) (by split <;> decide)
  obtain ⟨⟨nf, r17⟩, h17, h⟩ := bind_ok h
  have w17 : r17.within 76 := readField_within h17 hn w16 (by decide)
  cases h
  exact w17

end Sys2Proof.Machine
end

