-- ==== Sys2Proof/Laws/TupleCode.lean ====
section
/-! SUPPORT. What a decode of a symbol, of an escape chain, of a sign and of a tuple can do, in the terms of
Sys2Proof/Safety.lean (42_range_decoder.md R193 to R216): each answers the value that its relation names, or
ends in the bit error of what failed. -/

namespace Sys2Proof.Machine

open Config (Roms)

variable {r : Roms} {s : State}

/-! ## Symbols -/

theorem decSym_ok_lt {cum : Nat → Nat} {n v : Nat} {c c' : RangeCoder} (h : cumWf cum n = true)
    (hd : decSym s cum n c = .ok v c') : v < n :=
  ((decSym_interval (s := s) (c := c) h).1 v c' hd).1

/-- A bit error of dec_sym is the range error or the overrun, each with its cause (R195, R196). -/
theorem decSym_fail {cum : Nat → Nat} {n : Nat} {c c' : RangeCoder} {e : BitError}
    (h : cumWf cum n = true) (hb : s.NBYTES ≤ Config.BYTES_MAX) (hd : decSym s cum n c = .fail e c') :
    (e = .rcRange ∨ e = .rcOverrun) ∧ symbolFails s cum n c e.code c' := by
  simp only [Config.BYTES_MAX] at hb
  rcases decSym_cases (s := s) (c := c) h with ⟨h1, he⟩ | ⟨sym, hsym, -, h2, hc⟩
  · rw [he] at hd; cases hd
    exact ⟨.inl rfl, ⟨_, he⟩, .inl ⟨rfl, h1, rfl⟩⟩
  · rcases hc with ⟨k, -, he, -⟩ | ⟨he, hlt⟩ | ⟨m, -, f, -, he⟩
    · rw [he] at hd; cases hd
    · rw [he] at hd; cases hd
      refine ⟨.inr rfl, ⟨_, he⟩, .inr ⟨rfl, ?_, ?_, ?_⟩⟩
      · exact h2.trans_le (Nat.mul_le_mul_left _ (cumWf_le h hsym))
      · have := c.cursor.isLt
        rw [coderOf_cursor (by unfold State.PB; omega)]
        unfold State.PB; omega
      · have := hlt _ le_rfl
        rw [coderOf_range (by omega)]; exact this
    · rw [he] at hd; cases hd

/-! ## Escapes -/

theorem escapesLead_lt {t n a b : Nat} {c c' : RangeCoder} (h : escapesLead r s t c n a b c') :
    a < 2 ^ n ∧ b < 2 ^ n := by
  induction n generalizing a b c' with
  | zero => obtain ⟨rfl, rfl, rfl⟩ := h; simp
  | succ n ih =>
    obtain ⟨a₀, b₀, c₁, c₂, h1, -, h3⟩ := h
    have := ih h1
    rw [pow_succ]
    split at h3
    · obtain ⟨rfl, rfl, rfl⟩ := h3; omega
    · obtain ⟨x, y, c₃, hx, hy, rfl, rfl⟩ := h3
      have hx := Nat.mul_le_mul_right (2 ^ n) (Nat.le_of_lt_succ (decSym_ok_lt uni2_wf hx))
      have hy := Nat.mul_le_mul_right (2 ^ n) (Nat.le_of_lt_succ (decSym_ok_lt uni2_wf hy))
      omega

/-- Bits put above a number add to it. -/
theorem or_shifted {a x n : Nat} (h : a < 2 ^ n) : a ||| x * 2 ^ n = a + x * 2 ^ n := by
  rw [Nat.or_comm, ← Nat.shiftLeft_eq, ← Nat.shiftLeft_add_eq_or_of_lt h, Nat.shiftLeft_eq]; omega

/-- What an escape chain guarantees, from the registers that the tuple started with: its escapes and the
value symbol after them; a fifteenth escape; or a symbol or a raw bit that does not decode. -/
def chainMeets (r : Roms) (s : State) (t : Nat) (c₀ : RangeCoder) :
    Decoded (Nat × Nat × Nat × Nat) → Prop
  | .ok x c' => ∃ c₁, x.1 ≤ 14 ∧ escapesLead r s t c₀ x.1 x.2.1 x.2.2.1 c₁ ∧
      decSym s (r.cf (r.lut (min x.1 3) t)) 17 c₁ = .ok x.2.2.2 c' ∧ x.2.2.2 < 16
  | .fail e c' =>
    (e = .rcEsc ∧ ∃ a b c₁, escapesLead r s t c₀ 14 a b c₁ ∧
      decSym s (r.cf (r.lut 3 t)) 17 c₁ = .ok 16 c') ∨
    ((e = .rcRange ∨ e = .rcOverrun) ∧ ∃ lev a b c₁, lev ≤ 14 ∧ escapesLead r s t c₀ lev a b c₁ ∧
      (symbolFails s (r.cf (r.lut (min lev 3) t)) 17 c₁ e.code c' ∨
        ∃ c₂, decSym s (r.cf (r.lut (min lev 3) t)) 17 c₁ = .ok 16 c₂ ∧ lev < 14 ∧
          ¬ (s.si.lsb = true ∧ lev = 0) ∧
          (symbolFails s uni2 2 c₂ e.code c' ∨
            ∃ x c₃, decSym s uni2 2 c₂ = .ok x c₃ ∧ symbolFails s uni2 2 c₃ e.code c')))
  | .fault _ => True

/-- Everything an escape chain can do (R211, R212, R214, R216). -/
theorem escapeChain_meets (hr : CumTablesWf r) (hb : s.NBYTES ≤ Config.BYTES_MAX) {t : Nat}
    {c₀ c : RangeCoder} {left lev a b : Nat} (hl : left + lev = 14)
    (h : escapesLead r s t c₀ lev a b c) :
    chainMeets r s t c₀ (escapeChain r s t left lev a b c) := by
  induction left generalizing lev a b c with
  | zero =>
    obtain rfl : lev = 14 := by omega
    simp only [escapeChain, tableOf]
    cases hd : decSym s (r.cf (r.lut (min 14 (Config.LEV_TABLES - 1)) t)) Config.NSYM_SPEC c with
    | ok v c' =>
      have := decSym_ok_lt (hr.cf _) hd
      simp only [Config.NSYM_SPEC] at this
      rw [Decoded.andThen_ok]
      split
      · next hv => exact ⟨c, le_rfl, h, hd, show v < 16 by simp only [Config.ESC] at hv; omega⟩
      · next hv =>
        obtain rfl : v = Config.ESC := not_not.mp hv
        exact .inl ⟨rfl, _, _, _, h, hd⟩
    | fail e c' =>
      obtain ⟨he, hf⟩ := decSym_fail (hr.cf _) hb hd
      exact .inr ⟨he, 14, _, _, _, le_rfl, h, .inl hf⟩
    | fault f => trivial
  | succ left ih =>
    simp only [escapeChain, tableOf]
    cases hd : decSym s (r.cf (r.lut (min lev (Config.LEV_TABLES - 1)) t)) Config.NSYM_SPEC c with
    | ok v c' =>
      have := decSym_ok_lt (hr.cf _) hd
      simp only [Config.NSYM_SPEC] at this
      rw [Decoded.andThen_ok]
      split
      · next hv => exact ⟨c, by omega, h, hd, show v < 16 by simp only [Config.ESC] at hv; omega⟩
      · next hv =>
        obtain rfl : v = Config.ESC := not_not.mp hv
        unfold rawPair
        split
        · next hlsb =>
          rw [Decoded.andThen_ok]
          exact ih (by omega) ⟨a, b, c, c', h, hd, by rw [if_pos hlsb]; exact ⟨rfl, rfl, rfl⟩⟩
        · next hlsb =>
          unfold decBit
          cases hx : decSym s uni2 2 c' with
          | ok x c₃ =>
            rw [Decoded.andThen_ok]
            cases hy : decSym s uni2 2 c₃ with
            | ok y c₄ =>
              have hlt := escapesLead_lt h
              refine ih (by omega) ⟨a, b, c, c', h, hd, ?_⟩
              rw [if_neg hlsb]
              exact ⟨x, y, c₃, hx, hy, or_shifted hlt.1, or_shifted hlt.2⟩
            | fail e c₄ =>
              obtain ⟨he, hf⟩ := decSym_fail uni2_wf hb hy
              exact .inr ⟨he, lev, a, b, c, by omega, h, .inr ⟨c', hd, by omega, hlsb,
                .inr ⟨x, c₃, hx, hf⟩⟩⟩
            | fault f => trivial
          | fail e c₃ =>
            obtain ⟨he, hf⟩ := decSym_fail uni2_wf hb hx
            exact .inr ⟨he, lev, a, b, c, by omega, h, .inr ⟨c', hd, by omega, hlsb, .inl hf⟩⟩
          | fault f => trivial
    | fail e c' =>
      obtain ⟨he, hf⟩ := decSym_fail (hr.cf _) hb hd
      exact .inr ⟨he, lev, _, _, _, by omega, h, .inl hf⟩
    | fault f => trivial

/-! ## Signs -/

/-- Everything a sign can do (R215). -/
theorem signedMagnitude_cases (hb : s.NBYTES ≤ Config.BYTES_MAX) (m : Nat) (c : RangeCoder) :
    (∃ v c', signedMagnitude s m c = .ok v c' ∧ signLeads s m c v c') ∨
      (∃ e c', signedMagnitude s m c = .fail e c' ∧ (e = .rcRange ∨ e = .rcOverrun) ∧ m ≠ 0 ∧
        symbolFails s uni2 2 c e.code c') ∨
      ∃ f, signedMagnitude s m c = .fault f := by
  unfold signedMagnitude decBit
  split
  · next hm => exact .inl ⟨_, _, rfl, .inl ⟨hm, rfl, rfl⟩⟩
  · next hm =>
    cases hx : decSym s uni2 2 c with
    | ok x c' => exact .inl ⟨_, _, rfl, .inr ⟨hm, x, hx, rfl⟩⟩
    | fail e c' =>
      obtain ⟨he, hf⟩ := decSym_fail uni2_wf hb hx
      exact .inr (.inl ⟨e, c', rfl, he, hm, hf⟩)
    | fault f => exact .inr (.inr ⟨f, rfl⟩)

/-! ## Tuples -/

theorem contextIndex_eq (s : State) (ctx j : Nat) : contextIndex s ctx j = tupleContext s ctx j := by
  unfold contextIndex tupleContext bit
  by_cases h : s.NE ≤ 4 * j <;> cases s.cfg.mode.ratef <;> simp [h]

/-- Everything a decode of a tuple can do (R211 to R216): the tuple, the escape error, a symbol that does
not decode, or the fault of a payload read. -/
theorem decodeTuple_cases (hr : CumTablesWf r) (hb : s.NBYTES ≤ Config.BYTES_MAX) (ctx j : Nat)
    (c : RangeCoder) :
    (∃ AB c', decodeTuple r s ctx j c = .ok AB c' ∧ tupleIs r s ctx j c AB c') ∨
      (∃ c', decodeTuple r s ctx j c = .fail .rcEsc c' ∧ tupleEscapes r s ctx j c c') ∨
      (∃ e c', decodeTuple r s ctx j c = .fail e c' ∧ (e = .rcRange ∨ e = .rcOverrun) ∧
        tupleFails r s ctx j c e.code c') ∨
      ∃ f, decodeTuple r s ctx j c = .fault f := by
  have hc := escapeChain_meets (t := tupleContext s ctx j) hr hb (left := 14) (lev := 0) (c₀ := c)
    rfl ⟨rfl, rfl, rfl⟩
  unfold decodeTuple
  rw [contextIndex_eq, show Config.LEV_LIMIT = 14 from rfl]
  cases he : escapeChain r s (tupleContext s ctx j) 14 0 0 0 c with
  | ok x c₂ =>
    rw [he] at hc
    obtain ⟨c₁, h14, hl, hs, hv⟩ := hc
    have hlt := escapesLead_lt hl
    rw [Decoded.andThen_ok, or_shifted hlt.1, or_shifted hlt.2]
    rcases signedMagnitude_cases hb (x.2.1 + x.2.2.2 % 4 * 2 ^ x.1) c₂ with
      ⟨A, c₃, ha, hA⟩ | ⟨e, c₃, ha, hA, hm, hf⟩ | ⟨f, ha⟩
    · rw [ha, Decoded.andThen_ok]
      rcases signedMagnitude_cases hb (x.2.2.1 + x.2.2.2 / 4 * 2 ^ x.1) c₃ with
        ⟨B, c₄, hb', hB⟩ | ⟨e, c₄, hb', hB, hm, hf⟩ | ⟨f, hb'⟩
      · rw [hb']
        exact .inl ⟨_, _, rfl, _, _, _, _, _, _, _, h14, hl, hs, hv, hA, hB⟩
      · rw [hb']
        exact .inr (.inr (.inl ⟨_, _, rfl, hB, _, _, _, _, h14, hl,
          .inr ⟨_, _, hs, .inr ⟨hv, .inr ⟨_, _, hA, hm, hf⟩⟩⟩⟩))
      · rw [hb']; exact .inr (.inr (.inr ⟨f, rfl⟩))
    · rw [ha]
      exact .inr (.inr (.inl ⟨_, _, rfl, hA, _, _, _, _, h14, hl,
        .inr ⟨_, _, hs, .inr ⟨hv, .inl ⟨hm, hf⟩⟩⟩⟩))
    · rw [ha]; exact .inr (.inr (.inr ⟨f, rfl⟩))
  | fail e c' =>
    rw [he] at hc
    rcases hc with ⟨rfl, a, b, c₁, h1, h2⟩ | ⟨he, lev, a, b, c₁, h1, h2, h3⟩
    · exact .inr (.inl ⟨c', rfl, a, b, c₁, h1, h2⟩)
    · refine .inr (.inr (.inl ⟨e, c', rfl, he, lev, a, b, c₁, h1, h2, ?_⟩))
      rcases h3 with h3 | ⟨c₂, h4, h5, h6, h7⟩
      · exact .inl h3
      · exact .inr ⟨16, c₂, h4, .inl ⟨rfl, h5, h6, h7⟩⟩
  | fault f => exact .inr (.inr (.inr ⟨f, rfl⟩))

end Sys2Proof.Machine
end

