-- ==== Sys2Proof/Tests/Slice0.lean ====
section
/-! SUPPORT. Tests: the encodings written out from 30_encoding.md, one or two vectors of 95_test_vectors.md
for each command. -/

namespace Sys2Proof.Tests

-- One proof at a time: proofs that wait for the kernel together would each hold a thread.
set_option Elab.async false

open Sys2Proof Sys2Proof.Machine

/-! ## WellFormed and decoding -/

theorem test_wellFormed_refuses_wide_id : (Instr.rcDecsym .spec 64).wellFormed = false := by decide
theorem test_wellFormed_takes_largest_id : (Instr.rcDecsym .uni2 63).wellFormed = true := by decide

theorem test_decode_control :
    decode 0x00000000#32 = .ok .nop ∧ decode 0x00000001#32 = .ok .frameStart := by decide
theorem test_decode_pvq :
    decode 0x00000010#32 = .ok .pvqDeenum ∧ decode 0x00000011#32 = .ok .pvqShape := by decide
/-- 10 000011 00100001: CLASS 2 in bits [15:14], ID 3 in bits [13:8] (the example of R120). -/
theorem test_decode_decsym :
    decode 0b00000000000000001000001100100001#32 = .ok (.rcDecsym .tnsCoef 3) := by decide
theorem test_decode_decoder :
    decode 0x00000020#32 = .ok .rcInit ∧ decode 0x00000022#32 = .ok .rcDecbit ∧
      decode 0x00000023#32 = .ok .rcDecode := by decide
theorem test_decode_encoder :
    decode 0x00000030#32 = .ok .gainEst ∧ decode 0x00000031#32 = .ok .quantize ∧
      decode 0x00000032#32 = .ok .gainAdj := by decide
theorem test_decode_residual :
    decode 0x00000040#32 = .ok .resEncode ∧ decode 0x00000041#32 = .ok .resDecode := by decide
theorem test_decode_frame :
    decode 0x00000050#32 = .ok .siUnpack ∧ decode 0x00000060#32 = .ok .decodeFrame := by decide
theorem test_decode_illegal :
    decode 0x00000002#32 = .error .illegalCmd ∧ decode 0xFFFF0061#32 = .error .illegalCmd := by decide
/-- R354: QUANTIZE with bit 16 set; and an argument on a command that takes none. -/
theorem test_decode_reserved :
    decode 0x00010031#32 = .error .reservedBits ∧ decode 0x00000120#32 = .error .reservedBits := by
  decide
theorem test_decodeTableWord :
    decodeTableWord 32 0x8321 = some (.rcDecsym .tnsCoef 3) ∧ decodeTableWord 32 0x10021 = none := by
  decide

/-! ## Helpers -/

/-- A property of the next state. -/
def after (o : Host.Outcome State Fault Refusal) (p : State → Bool) : Bool :=
  match o with
  | .next t => p t
  | .fault _ => false
  | .refused _ => false

theorem exists_of_after {o : Host.Outcome State Fault Refusal} {p : State → Bool} (h : after o p = true) :
    ∃ t, o = .next t ∧ p t = true := by
  cases o with
  | next t => exact ⟨t, rfl, h⟩
  | fault f => cases h
  | refused r => cases h

/-- Frequencies of a spectral table of TC1 (95_test_vectors.md): 512, then 32 for each other symbol. -/
def cfTc1 (s : Nat) : Nat := if s = 0 then 0 else 512 + 32 * (s - 1)

/-- TC1's tables, with the entries of BITCOST_ROM, LOG2_ROM and SCALE_ROM that the tests read. -/
def tc1 : Config.Roms :=
  { lut := fun _ _ => 0
    cf := fun _ => cfTc1
    tnsOrder := fun _ s => 128 * s
    tnsCoef := fun _ s => if s ≤ 16 then 60 * s else 1024
    bitcost := fun _ s => if s = 0 then 2048 else 10240
    log2 := fun i => if i = 224 then 59434 else 0
    scale := fun g => if g = 0 then (0x8000, 0) else (0xA1DC, 12) }

/-- Reset with a geometry and a mode. -/
def geometry (ne nbytes : BitVec 10) (mode : Mode) : State :=
  { State.reset with cfg := { FrameConfig.zero with ne := ne, nbytes := nbytes, mode := mode } }

/-- A payload written from byte 0 on. -/
def withPayload (s : State) (bytes : List Nat) : State :=
  { s with mem := s.mem.store PAYLOAD_BASE (bytes.map (BitVec.ofNat 8)) }

/-- A spectrum written from coefficient 0 on. -/
def withSpectrum (s : State) (xs : List Int) : State :=
  { s with mem := s.mem.store X_BASE (xs.flatMap fun x => wordBytes (BitVec.ofInt 32 x)) }

/-- CFG_MODE 0x6: BW_BITS 2, NF_TNS 1. -/
def mode6 : Mode := { Mode.zero with bwBits := 2, nfTns := 1 }

/-- The payload of program P1. -/
def p1 : List Nat :=
  [0x61, 0x92, 0x19, 0xE4, 0x00, 0x00, 0x03, 0x40, 0x00, 0x00, 0x00, 0xC5, 0x34, 0xF3, 0xB8, 0x4A, 0xE9,
    0xD8, 0x71, 0x27]

/-- Program P1 before SI_UNPACK. -/
def frameP1 : State := withPayload (geometry 16 20 mode6) p1

/-- Program P1 with its side information unpacked, RC_FSM IDLE. -/
def unpackedP1 : State :=
  { frameP1 with
    fstat := { FrameStatus.zero with siValid := true }
    si := { SideInfo.zero with lastnz := 10, tns := 1, snsShape := 2, snsIdxA := 1, bits := 58, bytes := 8 } }

/-- Program P1 primed, with given decoder registers. -/
def readyP1 (low range : BitVec 24) (cursor : BitVec 10) : State :=
  { unpackedP1 with
    coder := { low := low, range := range, cursor := cursor }
    dec := { Decoder.zero with fsm := .ready } }

/-- The hand-scaled encoder configuration of 95_test_vectors.md 2.4.2. -/
def encoder (target : BitVec 16) (lsbEn : Bool) : State :=
  withSpectrum
    { geometry 4 20 { Mode.zero with lsbEn := lsbEn } with
      cfg :=
        { FrameConfig.zero with
          ne := 4, nbytes := 20, mode := { Mode.zero with lsbEn := lsbEn }, xexp := 15
          target := target } }
    [0x50000, -0x70000, 0, 0x30000]

/-- A state after a first quantization, with XQ = (5, -7, 0, 3). -/
def quantized (target : BitVec 16) : State :=
  let s := (encoder target false).setXq [5, -7, 0, 3]
  { s with fstat := { FrameStatus.zero with qValid := true, qCount := 1 } }

/-! ## Commands -/

theorem test_nop : after (exec .nop State.reset) (fun t => decide (t.statusWord = 2)) = true := by
  decide

theorem test_frameStart :
    after (exec .frameStart (quantized 20)) (fun t =>
      decide (t.fstat.word = 0 ∧ xqElem t 0 = 0 ∧ t.cfg.ne = 4)) = true := by decide +kernel

/-- Scenario A's shape at index 1: (7, 1, 0, …) (95_test_vectors.md 2.2). -/
theorem test_pvqDeenum :
    after (exec .pvqDeenum { State.reset with pvqIn := { dim := 16, k := 8, idx := 1, ls := false } })
      (fun t => decide (t.pvq.size = 15158272 ∧ t.pvq.vec[0] = 7 ∧ t.pvq.vec[1] = 1)) = true := by
  decide +kernel

/-- (3, 2) at index 17 is out of range: the fallback (2, 0, 0). -/
theorem test_pvqDeenum_out_of_range :
    after (exec .pvqDeenum { State.reset with pvqIn := { dim := 3, k := 2, idx := 17, ls := true } })
      (fun t => decide (t.pvq.vec[0] = 2 ∧ t.fstat.word = 0x600003)) = true := by decide +kernel

/-- The example of R176. -/
theorem test_pvqShape :
    after (exec .pvqShape { unpackedP1 with si := { unpackedP1.si with snsIdxA := 0, snsLsa := true } })
      (fun t => decide (t.snsY[0].toInt = -8 ∧ t.fstat.shapeValid = true)) = true := by decide +kernel

/-- Program P1 (95_test_vectors.md 3.1). -/
theorem test_rcInit :
    after (exec .rcInit unpackedP1) (fun t =>
      decide (t.coder = { low := 0x2771D8, range := 0xFFFFFF, cursor := 3 } ∧ t.dec.fsm = .ready)) =
      true := by decide +kernel

/-- 95_test_vectors.md 2.3.1: priming on FF FF FF. -/
theorem test_rcInit_gap :
    after (exec .rcInit (withPayload unpackedP1 (p1.take 17 ++ [255, 255, 255]))) (fun t =>
      decide (t.coder = { low := 0xFFFFFF, range := 0xFFFFFF, cursor := 3 } ∧ t.dec.fsm = .error ∧
        t.fstat.word = 0x100101)) = true := by decide +kernel

/-- The third symbol of program P1, which shifts a byte in (95_test_vectors.md 2.3.2). -/
theorem test_rcDecsym :
    after (rcDecsymWith tc1 .tnsCoef 1 (readyP1 0x01D30C 0x01DFC4 3)) (fun t =>
      decide (t.dec.sym = 16 ∧ t.coder = { low := 0x14CCE9, range := 0x1DC000, cursor := 4 })) =
      true := by decide +kernel

/-- The example of R222. -/
theorem test_rcDecbit :
    after (exec .rcDecbit (readyP1 0x800000 0xFFFFFF 3)) (fun t =>
      decide (t.dec.sym = 1 ∧ t.coder = { low := 0x000200, range := 0x7FFE00, cursor := 3 })) =
      true := by decide +kernel

/-- Program P1's end state. -/
theorem test_rcDecode :
    after (rcDecodeWith tc1 (readyP1 0x2771D8 0xFFFFFF 3)) (fun t =>
      decide (t.coder = { low := 0, range := 0x3B8000, cursor := 11 } ∧ t.dec.bytes = 11 ∧
        t.dec.ctx = 47 ∧ xqElem t 8 = -20)) = true := by decide +kernel

/-- The escape-free flip of 2.3.6: PAY[15] bit 0 ends with RC_TERM. -/
theorem test_rcDecode_flip :
    after (rcDecodeWith tc1 (withPayload (readyP1 0x2771D8 0xFFFFFF 3) (p1.set 15 0x4B))) (fun t =>
      decide (t.coder = { low := 0xF0F3, range := 0x1DC00, cursor := 7 } ∧ t.fstat.word = 0x800301)) =
      true := by decide +kernel

/-- Program P3's first command (95_test_vectors.md 2.4.4). -/
theorem test_gainEst :
    after
      (gainEstWith tc1
        (withSpectrum
          { State.reset with
            cfg :=
              { FrameConfig.zero with ne := 16, nbytes := 20, ggFloor := 10, target := 100 } }
          (((List.replicate 4 [0x400000, -0x800000, 0xC00000, -0x1000000]).flatten))))
      (fun t => decide (t.gain.gestRaw = 104 ∧ t.cfg.ggInd = 104 ∧ t.gain.scaleM = 41436)) =
      true := by decide +kernel

/-- The rows TARGET 19 of 95_test_vectors.md 2.4.2, with and without LSB mode. -/
theorem test_quantize_lsb :
    after (quantizeWith tc1 (encoder 19 true)) (fun t =>
      decide (xqElem t 0 = 4 ∧ xqElem t 1 = -6 ∧ xqElem t 3 = 3 ∧ t.quant.est = 36864 ∧
        t.quant.rawbits = 3 ∧ t.quant.lsbMode = true)) = true := by decide +kernel
theorem test_quantize_truncates :
    after (quantizeWith tc1 (encoder 19 false)) (fun t =>
      decide (xqElem t 1 = -7 ∧ xqElem t 3 = 0 ∧ t.quant.lastnz = 2 ∧ t.quant.est = 28672)) =
      true := by decide +kernel

/-- The first row of 95_test_vectors.md 2.4.5. -/
theorem test_gainAdj :
    after
      (exec .gainAdj
        { quantized 120 with
          cfg := { (quantized 120).cfg with ggInd := 100, nbitsReal := 95, delta := 10 } })
      (fun t => decide (t.cfg.ggInd = 102 ∧ t.fstat.requant = true ∧ t.fstat.adjCount = 1)) =
      true := by decide +kernel

/-- The row CFG_RES_SLACK 5 of 95_test_vectors.md 2.5. -/
theorem test_resEncode :
    after
      (resEncodeWith tc1
        (withSpectrum
          { quantized 40 with cfg := { (quantized 40).cfg with consumed := 38, resSlack := 5 } }
          [344064, -442368, 0, 196608]))
      (fun t => decide (t.resNbits = 3 ∧ ramWord t RESBUF_BASE = 5)) = true := by decide +kernel

/-- The example of R300: XQ = (3, 0, -1) with refinement bits 1, 0. -/
theorem test_resDecode :
    after
      (exec .resDecode
        (withPayload
          { (geometry 4 20 mode6).setXq [3, 0, -1] with
            fstat := { FrameStatus.zero with siValid := true, rcValid := true } }
          (List.replicate 19 0 ++ [0x80])))
      (fun t => decide (xrElem t 0 = 13568 ∧ xrElem t 2 = -3328 ∧ t.resNbits = 2)) = true := by
  decide +kernel

/-- The P1 row of 95_test_vectors.md 2.6. -/
theorem test_siUnpack :
    after (exec .siUnpack frameP1) (fun t =>
      decide (t.si.bw = 1 ∧ t.si.lastnz = 10 ∧ t.si.gg = 100 ∧ t.si.tns = 1 ∧ t.si.snsLf = 3 ∧
        t.si.snsHf = 7 ∧ t.si.snsShape = 2 ∧ t.si.snsIdxA = 1 ∧ t.si.nf = 5 ∧ t.si.bits = 58 ∧
        t.si.bytes = 8)) = true := by decide +kernel

/-- DECODE_FRAME on P1's payload ends as P1 and the two commands after it (95_test_vectors.md 2.7,
3.1). -/
theorem test_decodeFrame :
    after (decodeFrameWith tc1 frameP1) (fun t =>
      decide (t.fstat.word = 0xF00 ∧ t.resNbits = 6 ∧ xrElem t 8 = -81152 ∧ t.snsY[1] = 1)) =
      true := by decide +kernel

/-- The BFI vector of 95_test_vectors.md 2.7; no payload is written. -/
theorem test_decodeFrame_bfi :
    after (exec .decodeFrame (geometry 16 20 { mode6 with bfi := true })) (fun t =>
      decide (t.fstat.word = 0xF20 ∧ t.coder.range = 0xFFFFFF ∧ t.dec.fsm = .terminal)) = true := by
  decide +kernel

/-! ## Steps and accesses -/

/-- The engine runs a placed word; with the reset configuration a decode command is refused by its
configuration check (R394). -/
theorem test_step_frameStart :
    after (step (State.reset.withFetchWord 32 0x01)) (fun t => decide (t.statusWord = 2)) = true := by
  decide +kernel
theorem test_step_siUnpack :
    after (step (State.reset.withFetchWord 32 0x50)) (fun t => decide (t.statusWord = 0x306)) = true := by
  decide +kernel
theorem test_cmd_write_accepted :
    after (hostStep (.write .word 0x010 0x23#32) State.reset) (fun t => decide (t.pending = some 0x23#32)) =
      true := by decide
theorem test_param_words : param0Word = 0x15064190#32 ∧ param1Word = 0x10040A8E#32 := by decide

end Sys2Proof.Tests
end

