-- ==== Sys2Proof/Tests/Witnesses.lean ====
section
/-! SUPPORT. For each statement of Certificates/Slice0 that has hypotheses, a concrete state and operands
that meet them together, one for each clause, at a boundary of its range where it has one. -/

namespace Sys2Proof.Tests

-- One proof at a time: proofs that wait for the kernel together would each hold a thread.
set_option Elab.async false

open Sys2Proof Sys2Proof.Machine

/-! ## Command words -/

/-- Reset with a word pending. -/
def pendingWord (w : Word) : State := { State.reset with pending := some w }

/-- The highest and the lowest reserved bit, and the two ends of ARG. -/
theorem test_ReservedBitsRejected :
    ∀ n ∈ [0x80000010, 0x00010021, 0x00000150, 0x00008060],
      let w : Word := BitVec.ofNat 32 n
      (pendingWord w).agenda = [] ∧ (pendingWord w).pending = some w ∧
        (w.extractLsb' 0 8).toNat ∈ definedOpcodes ∧
        (w.extractLsb' 16 16 ≠ 0 ∨ ((w.extractLsb' 0 8).toNat ≠ 0x21 ∧ w.extractLsb' 8 8 ≠ 0)) := by
  decide +kernel

/-- The ends of the first, a middle and the last range of undefined opcodes. -/
theorem test_IllegalOpcodeRejected :
    ∀ n ∈ [0x02, 0x0F, 0x24, 0x2F, 0x61, 0xFF],
      let w : Word := BitVec.ofNat 32 n
      (pendingWord w).agenda = [] ∧ (pendingWord w).pending = some w ∧
        (w.extractLsb' 0 8).toNat ∉ definedOpcodes := by decide +kernel

theorem test_DecodeEncode : (Instr.rcDecsym .uni2 63).wellFormed = true := by decide

theorem test_EncodeDecode : decode 0x0000FF21#32 = .ok (.rcDecsym .uni2 63) := by decide

theorem test_StepRunsDecodedCommand :
    (pendingWord 0x8321#32).pending = some 0x8321#32 ∧
      decode 0x8321#32 = .ok (.rcDecsym .tnsCoef 3) ∧
      (Instr.rcDecsym .tnsCoef 3).wellFormed = true ∧ (pendingWord 0x8321#32).agenda = [] ∧
      { pendingWord 0x8321#32 with agenda := [.engine] }.agenda = .engine :: [] ∧
      { pendingWord 0x8321#32 with agenda := [rd 0x014] }.agenda = .host (.read .word 0x014) :: [] := by
  decide

/-! ## PVQ -/

theorem test_ShellSizeCountsVectors :
    1 ≤ 16 ∧ 16 ≤ 16 ∧ 1 ≤ 10 ∧ 10 ≤ 10 ∧ [0, 1, -1].length = 3 ∧ norm1 [0, 1, -1] = 2 := by decide

/-- The last index of (3, 2), and the vector it names with leading sign 1. -/
theorem test_IndexSpaceIsBijective :
    1 ≤ 2 ∧ 8 < mpvqSize 3 2 ∧ [(0 : Int), 0, -2].length = 3 ∧ norm1 [0, 0, -2] = 2 := by decide

theorem test_DeenumInvertsEnumerate : 1 ≤ norm1 [0, 1, -1] := by decide

/-- PVQ operands after reset. -/
def pvqOperands (d : BitVec 5) (k : BitVec 4) (I : BitVec 32) : State :=
  { State.reset with pvqIn := { dim := d, k := k, idx := I, ls := true } }

/-- The smallest and the largest shape, each at its last index. -/
theorem test_PvqDeenumResult :
    ∀ s ∈ [pvqOperands 1 0 0, pvqOperands 16 10 193664255],
      1 ≤ s.pvqIn.dim.toNat ∧ s.pvqIn.dim.toNat ≤ 16 ∧ s.pvqIn.k.toNat ≤ 10 ∧
        s.pvqIn.idx.toNat < mpvqSize s.pvqIn.dim.toNat s.pvqIn.k.toNat := by decide +kernel

/-- The same shapes, each at the first index out of range. -/
theorem test_PvqOutOfRangeFallback :
    ∀ s ∈ [pvqOperands 1 0 1, pvqOperands 16 10 193664256],
      1 ≤ s.pvqIn.dim.toNat ∧ s.pvqIn.dim.toNat ≤ 16 ∧ s.pvqIn.k.toNat ≤ 10 ∧
        mpvqSize s.pvqIn.dim.toNat s.pvqIn.k.toNat ≤ s.pvqIn.idx.toNat := by decide +kernel

/-- P1's side information with given shape fields. -/
def shaped (j : BitVec 2) (a : BitVec 24) (b : BitVec 3) : State :=
  { unpackedP1 with si := { unpackedP1.si with snsShape := j, snsIdxA := a, snsIdxB := b } }

/-- Each submode at its last index of section A, and submode 0 at the last and the first wrong index of
section B. -/
theorem test_PvqShapeResult :
    (∀ s ∈ [shaped 0 2390003 5, shaped 0 2390003 6, shaped 1 2390004 7, shaped 2 15158271 0,
        shaped 3 774912 0],
      decodeConfigured s ∧ s.fstat.siValid = true ∧ s.fstat.shapeValid = false ∧
        s.cfg.mode.bfi = false) ∧
      (shaped 0 2390003 5).si.snsIdxA.toNat < mpvqSize 10 10 ∧
      6 ≤ (shaped 0 2390003 6).si.snsIdxB.toNat ∧
      mpvqSize 16 6 ≤ (shaped 3 774912 0).si.snsIdxA.toNat := by
  unfold decodeConfigured; decide +kernel

/-! ## Range decoder -/

/-- P1 before priming with SI_BYTES given. -/
def unprimed (bytes : BitVec 10) : State := { unpackedP1 with si := { unpackedP1.si with bytes := bytes } }

/-- Two and three payload bytes, and three bytes FF. -/
theorem test_RcInitResult :
    (∀ s ∈ [unprimed 18, unprimed 17, withPayload unpackedP1 (p1.take 17 ++ [255, 255, 255])],
      decodeConfigured s ∧ payloadWritten s ∧ s.fstat.siValid = true ∧ s.dec.fsm = .idle ∧
        s.cfg.mode.bfi = false) ∧
      (unprimed 18).NBYTES < (unprimed 18).si.bytes.toNat + 3 ∧
      (unprimed 17).si.bytes.toNat + 3 ≤ (unprimed 17).NBYTES ∧
      payloadValue (unprimed 17) 0 ≠ 255 ∧
      payloadValue (withPayload unpackedP1 (p1.take 17 ++ [255, 255, 255])) 2 = 255 := by
  unfold decodeConfigured payloadWritten; decide +kernel

/-- A low at the start of the gap, a low just below it, and, with no payload byte left, a symbol of the
least range that needs none and one that needs one. -/
theorem test_RcDecsymResult :
    (∀ s ∈ [readyP1 0xFFFC00 0xFFFFFF 3, readyP1 0xFFFBFF 0xFFFFFF 3, readyP1 0x7FFF 0x20000 12,
        readyP1 0x7FFF 0x10000 12],
      s.dec.fsm = .ready ∧ s.NBYTES ≤ 400 ∧ payloadWritten s) ∧
      (readyP1 0xFFFC00 0xFFFFFF 3).coder.range.toNat / 2 ^ 10 * 2 ^ 10 ≤ 0xFFFC00 ∧
      0xFFFBFF < (readyP1 0xFFFBFF 0xFFFFFF 3).coder.range.toNat / 2 ^ 10 * 2 ^ 10 ∧
      shiftsFor (0x20000 / 2 ^ 10 * (uni2 1 - uni2 0)) = 0 ∧
      shiftsFor (0x10000 / 2 ^ 10 * (uni2 1 - uni2 0)) = 1 ∧
      (readyP1 0x7FFF 0x10000 12).NBYTES - (readyP1 0x7FFF 0x10000 12).si.bytes.toNat - 12 = 0 := by
  unfold payloadWritten; decide +kernel

/-- The largest legal ID of each class. -/
theorem test_RcDecsymResult_arguments :
    argumentLegal (.rcDecsym .spec 63) ∧ argumentLegal (.rcDecsym .tnsOrder 1) ∧
      argumentLegal (.rcDecsym .tnsCoef 7) ∧ argumentLegal (.rcDecsym .uni2 0) := by
  simp [argumentLegal]

/-- The two sides of the middle of the interval. -/
theorem test_RcDecbitResult :
    ∀ s ∈ [readyP1 0x7FFDFF 0xFFFFFF 3, readyP1 0x7FFE00 0xFFFFFF 3],
      s.dec.fsm = .ready ∧ s.NBYTES ≤ 400 ∧ payloadWritten s ∧
        s.coder.low.toNat < s.coder.range.toNat / 2 ^ 10 * 2 ^ 10 ∧
        shiftsFor (s.coder.range.toNat / 2 ^ 10 * 2 ^ 9) ≤
          s.NBYTES - s.si.bytes.toNat - s.coder.cursor.toNat := by
  unfold payloadWritten; decide +kernel

/-- P1 with a payload that carries what the encoder emits for some symbols. -/
def carrying (e : RangeEncoder) : State :=
  withPayload (readyP1 0 0 0)
    ((List.range 20).map fun j => if 19 - j < 3 + e.shifts then e.emitted (19 - j) else 0)

/-- A raw bit 1 and the escape symbol, which needs a shift. -/
def someSymbols : List Coded :=
  [codedBit true, { cum := cfTc1, n := 17, sym := 16 }, { cum := cfTc1, n := 17, sym := 0 }]

theorem test_SymbolRoundTrip :
    (∀ x ∈ someSymbols, x.ok) ∧
      carries (carrying (RangeEncoder.start.codeAll someSymbols))
        (RangeEncoder.start.codeAll someSymbols) := by
  unfold Coded.ok carries; decide +kernel

/-- The frame of program P1 as an encoder sees it. -/
def p1Tuples : List (Int × Int) := [(3, -1), (0, 0), (5, 0), (0, 2), (-20, 1)]
/-- P1's TNS coefficients. -/
def p1Coefs (_ k : Nat) : Nat := if k = 0 then 3 else 16
/-- P1 primed. -/
def p1Primed : State := readyP1 0x2771D8 0xFFFFFF 3

/-- Program P1 meets every hypothesis with TC1's frequencies: its payload is what the encoder emits. -/
theorem test_FrameRoundTrip :
    let s := p1Primed
    let codes := codedTns tc1 s (fun _ => 2) p1Coefs ++ codedTuples tc1 s 0 0 p1Tuples
    decodeConfigured s ∧ s.cfg.mode.bfi = false ∧ s.dec.fsm = .ready ∧ s.fstat.rcValid = false ∧
      s.coder = coderOf (payloadNumber s 0 3) 0xFFFFFF 3 ∧
      s.si.lastnz.toNat = 2 * p1Tuples.length ∧ s.si.lastnz.toNat ≤ s.NE ∧
      (∀ ab ∈ p1Tuples, ab.1.natAbs ≤ 65535 ∧ ab.2.natAbs ≤ 65535 ∧ lsbFits s.si.lsb ab) ∧
      (∀ f ∈ activeFilters s, 1 ≤ 2 ∧ 2 ≤ 8) ∧ activeFilters s = [0] ∧
      (∀ x ∈ codes, x.ok) ∧ carries s (RangeEncoder.start.codeAll codes) := by
  unfold decodeConfigured lsbFits Coded.ok carries; decide +kernel

/-- READY with SI_LASTNZ at NE and above it, and ERROR. -/
theorem test_RcDecodeResult :
    let at_ := fun (l : BitVec 10) (f : RcFsm) =>
      { p1Primed with si := { p1Primed.si with lastnz := l }, dec := { p1Primed.dec with fsm := f } }
    (∀ s ∈ [at_ 16 .ready, at_ 18 .ready, at_ 10 .error],
      decodeConfigured s ∧ payloadWritten s ∧ s.cfg.mode.bfi = false ∧
        (s.dec.fsm = .ready ∨ s.dec.fsm = .error) ∧ s.fstat.rcValid = false) ∧
      (at_ 16 .ready).si.lastnz.toNat ≤ (at_ 16 .ready).NE ∧
      (at_ 18 .ready).NE < (at_ 18 .ready).si.lastnz.toNat := by
  unfold decodeConfigured payloadWritten; decide +kernel

/-! ## Encoder -/

/-- The energy of program P3's quadruples, and the two ends of the range. -/
theorem test_LogEnergyInTable :
    ∀ P ∈ [1, 2 ^ 44 * 30, 2 ^ 64], 1 ≤ P ∧ P ≤ 2 ^ 64 := by decide

theorem test_GainSearchFindsLargest :
    (104 : Int) ≤ 105 ∧ 1 ≤ 1 ∧ 1 ≤ 255 ∧ 255 ≤ 255 ∧ 0 < [(1 : Int), 2, 3, 4].length / 4 := by decide

/-- The largest budget that the geometry allows. -/
theorem test_GainMonotoneInTarget :
    (encoder 0 false).cfg.target.toNat ≤ (160#16).toNat ∧
      encodeConfigured
        { encoder 0 false with cfg := { (encoder 0 false).cfg with target := 160 } } ∧
      (encoder 0 false).fstat.qCount = 0 ∧ spectrumWritten (encoder 0 false) := by
  unfold encodeConfigured spectrumWritten; decide +kernel

/-- A spectrum, and one that is all zero. -/
theorem test_GainEstResult :
    ∀ s ∈ [encoder 160 false, withSpectrum (encoder 0 false) [0, 0, 0, 0]],
      encodeConfigured s ∧ s.fstat.qCount = 0 ∧ spectrumWritten s := by
  unfold encodeConfigured spectrumWritten; decide +kernel

/-- A quantization that LSB mode keeps whole, one cut off without LSB mode, with a tuple that fits, one that
nothing fits of, and an all-zero one. -/
theorem test_TruncationWithinBudget :
    let xs : List Int := [0x50000, -0x70000, 0, 0x30000]
    (codeSpectrum tc1 (encoder 19 true) xs).kept = [4, -6, 0, 3] ∧
      (codeSpectrum tc1 (encoder 19 true) xs).lsb = true ∧
      (codeSpectrum tc1 (encoder 19 false) xs).kept = [5, -7] ∧
      (codeSpectrum tc1 (encoder 19 false) xs).lsb = false ∧
      nonzeroTuple (xs.map (quantCoef tc1 (encoder 19 false))) 0 ∧
      tuplesCost tc1 (encoder 19 false) false (xs.map (quantCoef tc1 (encoder 19 false))) 1 ≤
        19 * 2048 ∧
      (codeSpectrum tc1 (encoder 11 false) xs).kept = [] ∧
      (codeSpectrum tc1 (encoder 20 true) [0, 0]).estFull ≤ 20 * 2048 ∧
      xs.length % 2 = 0 ∧ xs ≠ [] ∧ 1 < tupleLevel 9 0 := by
  unfold nonzeroTuple; decide +kernel

/-- The first and the second pass. -/
theorem test_QuantizeResult :
    ∀ s ∈ [encoder 20 true,
        { quantized 20 with
          fstat := { (quantized 20).fstat with adjCount := 1, requant := true } }],
      encodeConfigured s ∧ spectrumWritten s ∧
        (s.fstat.qCount = 0 ∨
          s.fstat.qCount = 1 ∧ s.fstat.adjCount = 1 ∧ s.fstat.requant = true) := by
  unfold encodeConfigured spectrumWritten; decide +kernel

/-- After a quantization, with the operands of 95_test_vectors.md 2.4.5. -/
def adjusting (nb : BitVec 16) (gg floor : BitVec 8) : State :=
  { quantized 120 with
    cfg :=
      { (quantized 120).cfg with ggInd := gg, ggFloor := floor, nbitsReal := nb, delta := 10 } }

/-- Each clause of the first adjustment at the edge of its range, and the second. -/
theorem test_GainAdjResult :
    (∀ s ∈ [adjusting 121 1 0, adjusting 121 0 0, adjusting 109 254 0, adjusting 99 253 0,
        adjusting 110 100 0, adjusting 0 255 0],
      encodeConfigured s ∧ s.TARGET = 120 ∧ s.cfg.delta = 10 ∧ s.fstat.adjCount = 0 ∧
        s.fstat.qCount = 1) ∧
      (let s := { adjusting 121 99 0 with
                  fstat := { (quantized 120).fstat with qCount := 2, adjCount := 1, requant := true } }
       encodeConfigured s ∧ s.fstat.adjCount = 1 ∧ s.fstat.requant = true ∧ s.fstat.qCount = 2) := by
  unfold encodeConfigured; decide +kernel

/-- A first quantization with NOP pending. -/
def adjustingNext : State := { adjusting 121 0 0 with pending := some 0#32 }

theorem adjustingNext_coherent : Coherent adjustingNext := by
  refine ⟨⟨Memory.store_wf _ _ _ (Memory.store_wf _ _ _ rfl), ?_⟩,
    ⟨by decide +kernel, by decide +kernel, by decide +kernel⟩,
    ⟨by decide +kernel, by decide +kernel, by decide +kernel⟩,
    ⟨.inl rfl, by decide +kernel, by decide +kernel, by decide +kernel, by decide +kernel⟩,
    ⟨by decide +kernel, by decide +kernel, by decide +kernel, by decide +kernel, by decide +kernel,
      by decide +kernel, by decide +kernel⟩,
    ⟨by decide +kernel, by decide +kernel, by decide +kernel, by decide +kernel, by decide +kernel⟩,
    fun _ j hj => ?_⟩
  · unfold storable; decide +kernel
  · have hl : j < (paddedWords [5, -7, 0, 3]).length := by rw [paddedWords_length]; exact hj
    have h := (encoder 120 false).mem.read_store_inside (lo := XQ_BASE) hl
    rw [show adjustingNext.mem = (encoder 120 false).mem.store XQ_BASE (paddedWords [5, -7, 0, 3]) from rfl,
      h, List.getElem?_eq_getElem hl]
    rfl

theorem test_BudgetNeverSilent :
    encodeConfigured adjustingNext ∧ Coherent adjustingNext ∧ adjustingNext.fstat.adjCount = 0 ∧
      adjustingNext.fstat.qCount = 1 := by
  refine ⟨?_, adjustingNext_coherent, by decide +kernel, by decide +kernel⟩
  unfold encodeConfigured; decide +kernel

/-- A third QUANTIZE, a third GAIN_ADJ, and a command that answers a next state. -/
theorem test_PassBound :
    (let s := { quantized 120 with fstat := { (quantized 120).fstat with qCount := 2, adjCount := 2 } }
     encodeConfigured s ∧ s.fstat.qCount = 2 ∧ s.fstat.adjCount = 2 ∧ s.fstat.qCount.toNat ≤ 2 ∧
      s.fstat.adjCount.toNat ≤ 2) ∧
      exec .nop State.reset = .next State.reset.complete := by
  refine ⟨?_, rfl⟩
  unfold encodeConfigured; decide +kernel

/-! ## Residual -/

/-- A quantized frame before RES_ENCODE, with a slack. -/
def refining (slack : BitVec 16) : State :=
  { quantized 40 with cfg := { (quantized 40).cfg with consumed := 38, resSlack := slack } }

/-- A slack that leaves two bits for three nonzero coefficients, and one that leaves none. -/
theorem test_ResEncodeResult :
    ∀ s ∈ [refining 0, refining (-10)],
      encodeConfigured s ∧ spectrumWritten s ∧ s.fstat.qValid = true ∧
        ¬ (s.fstat.requant = true ∧ s.fstat.qCount = 1) := by
  unfold encodeConfigured spectrumWritten; decide +kernel

/-- A decoded frame of four coefficients, with RC_BYTES given. -/
def decoded (bytes : BitVec 10) : State :=
  withPayload
    { (geometry 4 20 mode6).setXq [3, 0, -1] with
      fstat := { FrameStatus.zero with siValid := true, rcValid := true }
      dec := { Decoder.zero with bytes := bytes } }
    (List.replicate 19 0 ++ [0x80])

/-- With payload bits left and with none. -/
theorem test_ResDecodeResult :
    ∀ s ∈ [decoded 0, decoded 20],
      decodeConfigured s ∧ payloadWritten s ∧ s.cfg.mode.bfi = false ∧ s.fstat.rcValid = true ∧
        s.fstat.resValid = false := by
  unfold decodeConfigured payloadWritten; decide +kernel

theorem test_RefinementKeepsSign : (1 : Int) ≠ 0 ∧ (-1 : Int) ≠ 0 := by decide

/-! ## Side information and whole frames -/

theorem test_SiUnpackResult :
    decodeConfigured frameP1 ∧ payloadWritten frameP1 ∧ frameP1.cfg.mode.bfi = false ∧
      frameP1.fstat.siValid = false := by
  unfold decodeConfigured payloadWritten; decide +kernel

/-- The smallest and the largest geometry. -/
theorem test_SideInfoSize :
    ∀ s ∈ [withPayload (geometry 4 20 { Mode.zero with nfTns := 1 }) p1,
        withPayload (geometry 400 20 { Mode.zero with bwBits := 3, nfTns := 2 }) p1],
      decodeConfigured s ∧ payloadWritten s ∧ s.cfg.mode.bfi = false ∧ s.fstat.siValid = false := by
  unfold decodeConfigured payloadWritten; decide +kernel

theorem test_DecodeFrameIsFiveCommands :
    DecoderCoherent frameP1 ∧ decodeConfigured frameP1 ∧ payloadWritten frameP1 ∧
      frameP1.fstat.siValid = false := by
  refine ⟨⟨?_, by decide +kernel, by decide +kernel, by decide +kernel, by decide +kernel⟩, ?_⟩
  · unfold RcFsm.observable; decide +kernel
  · unfold decodeConfigured payloadWritten; decide +kernel

/-- A bad frame before each of the commands, with no payload written. -/
theorem test_BadFrameDecode :
    let s := geometry 16 20 { mode6 with bfi := true }
    let u := { s with fstat := { FrameStatus.zero with siValid := true } }
    let p := { u with dec := { Decoder.zero with fsm := .ready } }
    let d := { p with fstat := { u.fstat with rcValid := true } }
    decodeConfigured s ∧ s.cfg.mode.bfi = true ∧ s.fstat.siValid = false ∧
      u.fstat.siValid = true ∧ u.dec.fsm = .idle ∧ p.dec.fsm = .ready ∧ p.fstat.rcValid = false ∧
      d.fstat.rcValid = true ∧ d.fstat.resValid = false ∧ d.fstat.shapeValid = false := by
  unfold decodeConfigured; decide +kernel

/-! ## Errors and completion -/

/-- SI_UNPACK pending with the reset configuration. -/
theorem test_CommandErrorChangesNothing :
    (pendingWord 0x50#32).agenda = [] ∧ (pendingWord 0x50#32).busy = true ∧
      (pendingWord 0x50#32).status.err = false ∧
      step (pendingWord 0x50#32) = .next ((pendingWord 0x50#32).completeError .configErr) ∧
      ((pendingWord 0x50#32).completeError .configErr).status.err = true :=
  ⟨rfl, rfl, rfl, rfl, rfl⟩

/-- The ends of each legal range, and just outside. -/
theorem test_ConfigurationErrors :
    (∀ s ∈ [geometry 4 20 mode6, geometry 400 400 { mode6 with nfTns := 2 }],
      s.status.errcode = 0 ∧ decodeConfigured s ∧ encodeConfigured s) ∧
    ∀ s ∈ [geometry 0 20 mode6, geometry 6 20 mode6, geometry 404 20 mode6, geometry 4 19 mode6,
        geometry 4 401 mode6, geometry 4 20 { mode6 with nfTns := 0 },
        geometry 4 20 { mode6 with nfTns := 3 }],
      s.status.errcode = 0 ∧ ¬ decodeConfigured s := by
  unfold decodeConfigured encodeConfigured; decide +kernel

/-- For each error a pending word and a state that it is the first to apply in, and one that none applies
in. -/
theorem test_CommandErrorOrder :
    (0x02#32).extractLsb' 0 8 = 2 ∧ 2 ∉ definedOpcodes ∧
      decode 0x00010031#32 = .error .reservedBits ∧
      decode 0x4221#32 = .ok (.rcDecsym .tnsOrder 2) ∧ ¬ argumentLegal (.rcDecsym .tnsOrder 2) ∧
      ¬ configured State.reset .pvqDeenum ∧ ¬ configured State.reset .quantize ∧
      ¬ sequenced State.reset .rcDecbit ∧
      pastPassLimit { quantized 20 with fstat := { (quantized 20).fstat with qCount := 2 } }
        .quantize ∧
      configured (encoder 20 false) .quantize ∧ sequenced (encoder 20 false) .quantize ∧
      ¬ pastPassLimit (encoder 20 false) .quantize := by
  simp only [argumentLegal, configured, sequenced, pastPassLimit, encodeConfigured]
  decide +kernel

/-- All inputs written, and the inputs that reset asks for, which are none. -/
theorem test_EveryCommandCompletes :
    (pendingWord 0x60#32).agenda = [] ∧ (pendingWord 0x60#32).busy = true ∧
      inputsWritten (withSpectrum (encoder 20 false) [0, 0, 0, 0] |> (withPayload · p1)) ∧
      inputsWritten { pendingWord 0x60#32 with cfg := FrameConfig.zero } := by
  unfold inputsWritten payloadWritten spectrumWritten; decide +kernel

/-- A command that faults, on the first payload byte. -/
theorem test_FaultsNameTheElementRead :
    (match exec .siUnpack (geometry 16 20 mode6) with
      | .fault f => decide (f = .unwrittenPayload 0)
      | .next _ => false
      | .refused _ => false) = true := by decide +kernel

/-- Two memories that differ outside what a command of a frame of NBYTES 20 reads. -/
theorem test_ReadsOnlyItsInputs :
    let s := frameP1
    ∀ a, engineReads s a → (s.mem.store (PAYLOAD_BASE + 20) [0xFF]).read a = s.mem.read a := by
  intro s a h
  apply Memory.read_store_outside
  have hn : s.NBYTES = 20 := rfl
  simp only [engineReads, PAYLOAD_BASE, X_BASE, XQ_BASE, hn] at h ⊢
  simp only [List.length_singleton]
  omega

theorem test_CommandAcceptance :
    State.reset.busy = false ∧ (pendingWord 0x60#32).busy = true := by decide

theorem test_InterruptLine :
    Completed State.reset State.reset.complete ∧ State.reset.status.err = false ∧
      { State.reset with irqEn := { doneIe := true, errIe := false } }.irqEn.doneIe = true ∧
      CompletedWithError State.reset .seqErr (State.reset.completeError .seqErr) ∧
      (0x0000000E#32).getLsbD 1 = true ∧ (0x0000000E#32).getLsbD 2 = true :=
  ⟨rfl, rfl, rfl, rfl, by decide⟩

/-! ## The host window -/

/-- The last offset of the window, an offset that is readable while a command runs, and one that is not. -/
theorem test_BusyRejections :
    (pendingWord 0x60#32).busy = true ∧ 0x5FFC < 0x6000 ∧ 0x5FFC % 4 = 0 ∧
      0x010 ∉ [0x000, 0x004, 0x008, 0x014, 0x018, 0x01C] ∧ 0x018 ∉ [0x014, 0x01C] := by decide

theorem test_MisalignedAccessAnswersSlverr :
    Width.half ≠ .word ∧ 0x5FFF < 0x6000 ∧ 0x5FFF % 4 ≠ 0 ∧ 0x5FFC % 4 = 0 := by decide

/-- The first and the last offset of each reserved range, and the offsets next to it, which are not. -/
theorem test_ReservedOffsetAccess :
    (∀ off ∈ [0x00C, 0x058, 0x05C, 0x074, 0x07C, 0x0F8, 0x0FC, 0x14C, 0x15C, 0x188, 0x19C, 0x220, 0xFFC,
        0x1190, 0x1FFC, 0x2640, 0x2FFC, 0x3640, 0x3FFC, 0x4640, 0x4FFC, 0x5034, 0x5FFC],
      off % 4 = 0 ∧ reservedOffset off = true) ∧
    ∀ off ∈ [0x008, 0x010, 0x054, 0x060, 0x070, 0x080, 0x0F4, 0x100, 0x148, 0x160, 0x184, 0x1A0, 0x21C,
        0x1000, 0x118C, 0x2000, 0x263C, 0x3000, 0x363C, 0x4000, 0x463C, 0x5000, 0x5030],
      off % 4 = 0 ∧ reservedOffset off = false := by decide

theorem test_ReadsAndReadOnlyWritesChangeNothing :
    State.reset.busy = false ∧ reservedOffset 0x21C = false ∧ readOnlyOffset 0x5030 = true ∧
      readOnlyOffset 0x010 = false ∧ readOnlyOffset 0x014 = false ∧ readOnlyOffset 0x118C = false ∧
      399 < 400 := by
  decide

theorem test_PayloadWordBytes : State.reset.busy = false ∧ 99 < 100 ∧ 3 < 4 := by decide

theorem test_SpectrumWords : State.reset.busy = false ∧ 399 < 400 := by decide

theorem test_ConfigurationReadsBack :
    (0x030, Reg.cfgGg, fun w : Word => (w.setWidth 16).signExtend 32) ∈ readBack ∧
      State.reset.busy = false ∧ Reg.cfgNe ∈ allRegs ∧ Reg.cfgNe ≠ .cfgGg :=
  ⟨by simp [readBack], by decide, by decide, by decide⟩

/-- The last register of each list. -/
theorem test_StatusAndResultsAsRead :
    State.reset.busy = false ∧ (0x17C, 0) ∈ unsignedResults State.reset ∧
      (0x0CC, 0) ∈ signedResults State.reset := by decide

/-! ## Reset and invariants -/

theorem test_ResetValues :
    Reg.snsY 15 ∈ allRegs ∧ { pendingWord 0x60#32 with agenda := [.reset] }.agenda = .reset :: [] := by
  decide

/-- A frame whose priming failed on FF FF FF, with BFI set after it and RC_DECODE pending. -/
def failedFrame : State :=
  { geometry 16 20 { mode6 with bfi := true } with
    coder := { low := 0xFFFFFF, range := 0xFFFFFF, cursor := 3 }
    dec := { Decoder.zero with fsm := .error }
    fstat := { FrameStatus.zero with siValid := true, biterr := true, biterrCause := 1 }
    pending := some 0x23#32 }

theorem failedFrame_coherent : Coherent failedFrame :=
  ⟨⟨rfl, by unfold storable; decide⟩, ⟨by decide, by decide, by decide⟩,
    ⟨by decide, by decide, by decide⟩,
    ⟨.inr (.inr (.inr rfl)), by decide, by decide, by decide, by decide⟩,
    ⟨by decide, by decide, by decide, by decide, by decide, by decide, by decide⟩,
    ⟨by decide, by decide, by decide, by decide, by decide⟩,
    fun h => absurd h (by decide)⟩

/-- Coherent states in which R51 holds and a step from each: the engine's NOP, and the one command after
which R51 does not hold. -/
theorem test_StepKeepsCoherent :
    (Coherent adjustingNext ∧ IntervalInWindow adjustingNext ∧
      step adjustingNext = .next adjustingNext.complete) ∧
    Coherent failedFrame ∧ IntervalInWindow failedFrame ∧
      ∃ t, step failedFrame = .next t ∧ BadFrameAfterError failedFrame t :=
  ⟨⟨adjustingNext_coherent, ⟨by decide, by decide⟩, rfl⟩, failedFrame_coherent,
    ⟨by decide, by decide⟩, _, rfl, ⟨0x23#32, rfl, by decide⟩, rfl, rfl, rfl, rfl⟩

/-- TC1's four open tables with constant other ones. -/
def constantScale : Config.Roms :=
  { tc1 with bitcost := fun _ _ => 0xFFFF, log2 := fun _ => 0xFFFF, scale := fun _ => (0x8000, 127) }

/-- Well-formed tables, and tables that fail one condition. -/
theorem test_TablesWellFormed : TablesLegal constantScale ∧ ¬ TablesLegal { tc1 with lut := fun _ _ => 64 } :=
  ⟨{ lut := fun _ _ _ _ => (by decide : 0 < 64)
     cf := fun _ _ => (by unfold cumLegal; decide : cumLegal cfTc1 17)
     tnsOrder := fun _ _ => (by unfold cumLegal; decide : cumLegal (fun s => 128 * s) 8)
     tnsCoef := fun _ _ =>
       (by unfold cumLegal; decide : cumLegal (fun s => if s ≤ 16 then 60 * s else 1024) 17)
     bitcost := fun _ _ _ _ => (by decide : 0xFFFF < 65536)
     log2 := fun _ _ => (by decide : 0xFFFF < 65536)
     mantissa := fun _ _ _ => (by decide : 0x8000 ≤ 0x8000 ∧ 0x8000 ≤ 0xFFFF)
     exponent := fun _ _ _ => (by decide : (-128 : Int) ≤ 127 ∧ (127 : Int) ≤ 127)
     rising := fun _ _ _ => le_refl _ },
   fun h => absurd (h.lut 3 (by decide) 1023 (by decide)) (by decide)⟩

theorem test_DefaultTablesRound :
    1 ≤ 1 ∧ 1024 ≤ 1024 ∧ 255 < 256 ∧ (-128 : Int) ≤ -128 ∧ (-128 : Int) ≤ 382 ∧ (382 : Int) ≤ 382 := by
  decide

end Sys2Proof.Tests
end

/-! ## Coherence: one rule for each update of the state

What holds between commands (`Coherent`) is split into its parts, and each update that a command or a host
access makes is shown once to keep them. The commands then cite these rules. -/

namespace Sys2Proof.Machine

-- One proof at a time: in one file with the tests, waiting proofs would each hold a thread.
set_option Elab.async false

variable {s t u : State}

/-! ### Updates outside the relations -/

/-- Coherence speaks of STATUS, the pending command, FSTAT, the side information, the decoder and the
memory, and of nothing else. -/
theorem Coherent.congr (h : Coherent s) (hstatus : t.status = s.status := by rfl)
    (hpending : t.pending = s.pending := by rfl) (hfstat : t.fstat = s.fstat := by rfl)
    (hsi : t.si = s.si := by rfl) (hcoder : t.coder = s.coder := by rfl)
    (hdec : t.dec = s.dec := by rfl) (hmem : t.mem = s.mem := by rfl) : Coherent t := by
  cases s
  cases t
  subst hstatus hpending hfstat hsi hcoder hdec hmem
  exact
    { memory := { h.memory with }
      status := { h.status with }
      bitError := { h.bitError with }
      decoder := { h.decoder with }
      interval := { h.interval with }
      passes := { h.passes with }
      quantized := h.quantized }

/-! ### Memory -/

theorem MemoryCoherent.store (h : MemoryCoherent s) {lo : Nat} {bs : List Byte}
    (hlo : ∀ a, lo ≤ a → a < lo + bs.length → storable a) (hmem : t.mem = s.mem.store lo bs) :
    MemoryCoherent t where
  canonical := by rw [hmem]; exact s.mem.store_wf lo bs h.canonical
  inRams := fun c hc => by
    rw [hmem] at hc
    rcases s.mem.mem_store_cells lo bs c hc with hc | ⟨hge, hlt⟩
    · exact h.inRams c hc
    · exact hlo c.1 hge hlt

theorem storable_iff {a : Nat} :
    storable a ↔ ((0x1000 ≤ a ∧ a < 0x1000 + 400) ∨ (0x2000 ≤ a ∧ a < 0x2000 + 1600) ∨
      (0x3000 ≤ a ∧ a < 0x3000 + 1600) ∨ (0x4000 ≤ a ∧ a < 0x4000 + 1600) ∨
        (0x5000 ≤ a ∧ a < 0x5000 + 52)) ∧ a < 0x5032 := by
  rw [storable, inRam_iff]; exact Iff.rfl

theorem storable_xq (vs : List Int) :
    ∀ a, XQ_BASE ≤ a → a < XQ_BASE + (paddedWords vs).length → storable a := by
  intro a hge hlt
  rw [paddedWords_length] at hlt
  rw [storable_iff]; unfold XQ_BASE at hge hlt; omega

theorem storable_xr (vs : List Int) :
    ∀ a, XR_BASE ≤ a → a < XR_BASE + (paddedWords vs).length → storable a := by
  intro a hge hlt
  rw [paddedWords_length] at hlt
  rw [storable_iff]; unfold XR_BASE at hge hlt; omega

theorem resbufBytes_length (bits : List Bool) :
    ((List.range RESBUF_BYTES).map (resbufByte bits)).length = 50 := by
  rw [List.length_map, List.length_range]; rfl

theorem storable_resbuf (bits : List Bool) :
    ∀ a, RESBUF_BASE ≤ a → a < RESBUF_BASE + ((List.range RESBUF_BYTES).map (resbufByte bits)).length →
      storable a := by
  intro a hge hlt
  rw [resbufBytes_length] at hlt
  rw [storable_iff]; unfold RESBUF_BASE at hge hlt; omega

/-- XQ holds a value in each of its words (70_reset_and_hazards.md R391). -/
def XqWritten (m : Memory) : Prop := ∀ j < 4 * Config.NE_MAX, (m.read (XQ_BASE + j)).isSome = true

theorem xqWritten_store_xq (m : Memory) (vs : List Int) :
    XqWritten (m.store XQ_BASE (paddedWords vs)) := by
  intro j hj
  have hlen : j < (paddedWords vs).length := by rw [paddedWords_length]; exact hj
  rw [m.read_store_inside hlen, List.getElem?_eq_getElem hlen]
  rfl

theorem XqWritten.store {m : Memory} (h : XqWritten m) {lo : Nat} {bs : List Byte}
    (hout : lo + bs.length ≤ XQ_BASE ∨ XQ_BASE + 1600 ≤ lo) : XqWritten (m.store lo bs) := by
  intro j hj
  have hj' : j < 1600 := hj
  rw [m.read_store_outside (by omega)]
  exact h j hj

theorem quantizedCoherent_iff :
    QuantizedCoherent s ↔ (s.fstat.rcValid = true ∨ s.fstat.qValid = true → XqWritten s.mem) := Iff.rfl

/-! ### Bit errors (60_exceptions.md R360, R361) -/

theorem BitError.code_ne_zero (e : BitError) : e.code ≠ 0 := by cases e <;> decide

theorem BitError.code_le (e : BitError) : e.code.toNat ≤ 8 := by cases e <;> decide

theorem BitError.code_ne_resBudget {e : BitError} (he : e ≠ .resBudget) :
    e.code ≠ BitError.resBudget.code := by
  cases e with
  | resBudget => exact absurd rfl he
  | _ => decide

theorem BitErrorCoherent.of_raise (h : BitErrorCoherent s) {f : FrameStatus} {e : BitError}
    (hf : f.biterrCause = s.fstat.biterrCause) (he : e ≠ .resBudget) (ht : t.fstat = f.raise e) :
    BitErrorCoherent t := by
  have hcause : t.fstat.biterrCause = if s.fstat.biterrCause = 0 then e.code else s.fstat.biterrCause := by
    rw [ht, FrameStatus.raise_biterrCause, hf]
  have hflag : t.fstat.biterr = true := by rw [ht]; rfl
  refine ⟨⟨fun _ => ?_, fun _ => hflag⟩, ?_, fun _ => hflag⟩
  · rw [hcause]
    split
    · exact e.code_ne_zero
    · assumption
  · rw [hcause]
    split
    · exact ⟨e.code_le, BitError.code_ne_resBudget he⟩
    · exact h.causeRange

theorem Coherent.raise (h : Coherent s) {e : BitError} (he : e ≠ .resBudget) :
    Coherent (State.raise s e) where
  memory := { h.memory with }
  status := { h.status with }
  bitError := h.bitError.of_raise rfl he rfl
  decoder := { h.decoder with }
  interval := { h.interval with
    terminal := fun ht hf => h.interval.terminal ht (.inl (by simpa using hf))
    failedFlag := fun _ _ => rfl }
  passes := { h.passes with }
  quantized := h.quantized

/-- An index out of range (41_pvq.md R168): the PVQ error and the bit error together. -/
theorem Coherent.raisePvq (h : Coherent s) :
    Coherent (State.raise { s with fstat := { s.fstat with pvqErr := true } } .pvqIndex) where
  memory := { h.memory with }
  status := { h.status with }
  bitError := h.bitError.of_raise (f := { s.fstat with pvqErr := true }) rfl (by decide) rfl
  decoder := { h.decoder with }
  interval := { h.interval with
    terminal := fun ht hf => h.interval.terminal ht (.inl (by simpa using hf))
    failedFlag := fun _ _ => rfl }
  passes := { h.passes with }
  quantized := h.quantized

/-! ### Flags of FSTAT -/

/-- A bad-frame command marks the frame (46_frame.md R333). -/
theorem Coherent.seeBadFrame (h : Coherent s) :
    Coherent { s with fstat := { s.fstat with bfiSeen := true } } where
  memory := { h.memory with }
  status := { h.status with }
  bitError := { h.bitError with }
  decoder := { h.decoder with }
  interval := { h.interval with
    terminal := fun ht hf => h.interval.terminal ht (.inr (by simpa using hf))
    handOff := fun _ hf => absurd hf (by simp) }
  passes := { h.passes with }
  quantized := h.quantized

theorem Coherent.markShape (h : Coherent s) (hsi : s.fstat.siValid = true) :
    Coherent { s with fstat := { s.fstat with shapeValid := true } } where
  memory := { h.memory with }
  status := { h.status with }
  bitError := { h.bitError with }
  decoder := { h.decoder with beforeUnpack := fun hn => absurd (hn.symm.trans hsi) (by decide) }
  interval := { h.interval with }
  passes := { h.passes with }
  quantized := h.quantized

/-- New side information, of a legal size, is valid (45_sideinfo.md R311, R312). -/
theorem Coherent.unpack (h : Coherent s) {si : SideInfo} (hbytes : si.bytes.toNat ≤ 10) :
    Coherent { s with si := si, fstat := { s.fstat with siValid := true } } where
  memory := { h.memory with }
  status := { h.status with }
  bitError := { h.bitError with }
  decoder := { h.decoder with beforeUnpack := fun hn => absurd hn (by simp) }
  interval := { h.interval with sideBytes := hbytes }
  passes := { h.passes with }
  quantized := h.quantized

/-- XR written, and the refinement of a decoded frame valid. -/
theorem Coherent.refine (h : Coherent s) (hrc : s.fstat.rcValid = true) (vs : List Int) :
    Coherent { s.setXr vs with fstat := { s.fstat with resValid := true } } where
  memory := h.memory.store (storable_xr vs) rfl
  status := { h.status with }
  bitError := { h.bitError with }
  decoder := { h.decoder with
    beforeUnpack := fun hn =>
      absurd ((h.decoder.beforeUnpack hn).2.1.symm.trans hrc) (by decide)
    refined := fun _ => hrc }
  interval := { h.interval with }
  passes := { h.passes with }
  quantized := fun hv => XqWritten.store (h.quantized hv) (.inr (by decide))

theorem Coherent.storeResbuf (h : Coherent s) (bits : List Bool) : Coherent (s.setResbuf bits) where
  memory := h.memory.store (storable_resbuf bits) rfl
  status := { h.status with }
  bitError := { h.bitError with }
  decoder := { h.decoder with }
  interval := { h.interval with }
  passes := { h.passes with }
  quantized := fun hv => XqWritten.store (h.quantized hv) (.inr (by decide))

/-! ### The decoder -/

/-- A new interval and decoder state, with the context that goes with it. -/
def State.setDecoder (s : State) (c : RangeCoder) (fsm : RcFsm) : State :=
  { s with coder := c, dec := { s.dec with fsm := fsm } }

/-- READY with a running interval, in a frame not yet decoded. -/
theorem Coherent.ready (h : Coherent s) (hsi : s.fstat.siValid = true)
    (hrc : s.fstat.rcValid = false) (hnt : s.dec.fsm ≠ .terminal) {c : RangeCoder}
    (hc : c.running) : Coherent (s.setDecoder c .ready) where
  memory := { h.memory with }
  status := { h.status with }
  bitError := { h.bitError with }
  decoder :=
    { observable := .inr (.inl rfl)
      beforeUnpack := fun hn => absurd (hn.symm.trans hsi) (by decide)
      decoded := fun hv => absurd (hv.symm.trans hrc) (by decide)
      terminal := fun ht => absurd ht (by simp [State.setDecoder])
      refined := h.decoder.refined }
  interval :=
    { sideBytes := h.interval.sideBytes
      ready := fun _ => hc
      terminal := fun ht => absurd ht (by simp [State.setDecoder])
      inside := fun hf => absurd hf (by simp [State.setDecoder])
      failedFlag := fun hf => absurd hf (by simp [State.setDecoder])
      handOff := fun ht => absurd ht (by simp [State.setDecoder])
      noBytes := fun _ => h.interval.noBytes hnt }
  passes := { h.passes with }
  quantized := h.quantized

/-- What R51 says of RC_LOW and RC_RANGE in ERROR. -/
def RangeCoder.inside (c : RangeCoder) : Prop :=
  c.low.toNat < c.range.toNat ∨ (c.low.toNat = 0xFFFFFF ∧ c.range.toNat = 0xFFFFFF)

/-- A bit error of a frame not yet decoded enters ERROR (42_range_decoder.md R198). -/
theorem Coherent.enterError (h : Coherent s) (hsi : s.fstat.siValid = true)
    (hnt : s.dec.fsm ≠ .terminal) {c : RangeCoder} (hc : c.inside)
    {e : BitError} (he : e ≠ .resBudget) :
    Coherent (State.raise (s.setDecoder c .error) e) where
  memory := { h.memory with }
  status := { h.status with }
  bitError := h.bitError.of_raise rfl he rfl
  decoder :=
    { observable := .inr (.inr (.inr rfl))
      beforeUnpack := fun hn => absurd (hn.symm.trans hsi) (by decide)
      decoded := fun _ => .inr rfl
      terminal := fun ht => absurd ht (by simp [State.setDecoder])
      refined := h.decoder.refined }
  interval :=
    { sideBytes := h.interval.sideBytes
      ready := fun hf => absurd hf (by simp [State.setDecoder])
      terminal := fun ht => absurd ht (by simp [State.setDecoder])
      inside := fun _ => hc
      failedFlag := fun _ _ => rfl
      handOff := fun ht => absurd ht (by simp [State.setDecoder])
      noBytes := fun _ => h.interval.noBytes hnt }
  passes := { h.passes with }
  quantized := h.quantized

/-- RC_DECODE's registers written into an unpacked frame, in TERMINAL. -/
theorem Coherent.terminalProgress (h : Coherent s) (hsi : s.fstat.siValid = true) {p : Progress}
    {b : BitVec 10} (hin : p.coder.inside)
    (hrun : s.fstat.bfiSeen = false ∨ s.fstat.biterr = false → p.coder.running)
    (hoff : s.fstat.bfiSeen = false → p.coder.low = 0 ∧ b = p.coder.cursor) :
    Coherent (s.applyProgress p .terminal b) where
  memory := h.memory.store (storable_xq p.xq) rfl
  status := { h.status with }
  bitError := { h.bitError with }
  decoder :=
    { observable := .inr (.inr (.inl rfl))
      beforeUnpack := fun hn => absurd (hn.symm.trans hsi) (by decide)
      decoded := fun _ => .inl rfl
      terminal := fun _ => rfl
      refined := fun _ => rfl }
  interval :=
    { sideBytes := h.interval.sideBytes
      ready := fun hf => absurd hf (by simp)
      terminal := fun _ => hrun
      inside := fun _ => hin
      failedFlag := fun hf => absurd hf (by simp)
      handOff := fun _ => hoff
      noBytes := fun hf => absurd (s.applyProgress_fsm p .terminal b) hf }
  passes := { h.passes with }
  quantized := fun _ => xqWritten_store_xq _ _

/-- RC_DECODE's registers written into an unpacked frame, in ERROR. -/
theorem Coherent.errorProgress (h : Coherent s) (hsi : s.fstat.siValid = true) {p : Progress}
    (hin : p.coder.inside) : Coherent (s.applyProgress p .error 0) where
  memory := h.memory.store (storable_xq p.xq) rfl
  status := { h.status with }
  bitError := { h.bitError with }
  decoder :=
    { observable := .inr (.inr (.inr rfl))
      beforeUnpack := fun hn => absurd (hn.symm.trans hsi) (by decide)
      decoded := fun _ => .inr rfl
      terminal := fun hf => absurd hf (by simp)
      refined := fun _ => rfl }
  interval :=
    { sideBytes := h.interval.sideBytes
      ready := fun hf => absurd hf (by simp)
      terminal := fun hf => absurd hf (by simp)
      inside := fun _ => hin
      failedFlag := fun _ hf => absurd hf (by simp)
      handOff := fun hf => absurd hf (by simp)
      noBytes := fun _ => rfl }
  passes := { h.passes with }
  quantized := fun _ => xqWritten_store_xq _ _

/-- Whatever the decoder has come to, its interval is inside. -/
theorem Coherent.coder_inside (h : Coherent s)
    (hf : s.dec.fsm = .ready ∨ s.dec.fsm = .terminal ∨ s.dec.fsm = .error) : s.coder.inside := by
  rcases hf with hf | hf | hf
  · exact .inl (h.interval.ready hf).2
  · exact h.interval.inside (.inl hf)
  · exact h.interval.inside (.inr hf)

/-! ### Completion, acceptance and the host's accesses -/

theorem Coherent.withStatus (h : Coherent s) {st : Status} {p : Option Word}
    (hst : StatusCoherent { s with status := st, pending := p }) :
    Coherent { s with status := st, pending := p } where
  memory := { h.memory with }
  status := hst
  bitError := { h.bitError with }
  decoder := { h.decoder with }
  interval := { h.interval with }
  passes := { h.passes with }
  quantized := h.quantized

theorem Coherent.complete (h : Coherent s) : Coherent s.complete :=
  Coherent.congr (h.withStatus (st := { s.status with done := true }) (p := none)
    { h.status with busyClear := fun hb => absurd hb (by simp [State.busy]) })

theorem CmdError.code_ne_zero (e : CmdError) : e.code ≠ 0 := by cases e <;> decide

theorem CmdError.code_le (e : CmdError) : e.code.toNat ≤ 7 := by cases e <;> decide

theorem Coherent.completeError (h : Coherent s) (e : CmdError) : Coherent (s.completeError e) :=
  Coherent.congr (h.withStatus
    (st := { s.status with done := true, err := true, errcode := e.code }) (p := none)
    { errCode := ⟨fun _ => e.code_ne_zero, fun _ => rfl⟩
      codeRange := e.code_le
      busyClear := fun hb => absurd hb (by simp [State.busy]) })

theorem Coherent.accept (h : Coherent s) (w : Word) : Coherent (s.accept w) :=
  h.withStatus
    { errCode := ⟨fun hf => absurd hf (by simp), fun hf => absurd rfl hf⟩
      codeRange := Nat.zero_le _
      busyClear := fun _ => ⟨rfl, rfl⟩ }

theorem Coherent.accessError (h : Coherent s) : Coherent s.accessError :=
  h.withStatus { h.status with }

theorem Coherent.clear (h : Coherent s) (w : Word) :
    Coherent { s with status := s.status.clear w } := by
  have hst : StatusCoherent { s with status := s.status.clear w } := by
    obtain ⟨herr, hrange, hbusy⟩ := h.status
    refine ⟨?_, ?_, fun hb => ?_⟩
    · simp only [Status.clear]
      cases w.getLsbD 2 <;> simp [herr]
    · simp only [Status.clear]
      cases w.getLsbD 2 <;> simp [hrange]
    · obtain ⟨hdone, herr⟩ := hbusy hb
      simp [Status.clear, hdone, herr]
  exact h.withStatus hst

/-- A host write of a PAYLOAD or X word (20_memory.md R93, R94). -/
theorem Coherent.storeWord (h : Coherent s) {off : Nat} (w : Word) (halign : off % 4 = 0)
    (hram : inRam off = true) (hlow : ramWritable off = true) :
    Coherent { s with mem := s.mem.store off (wordBytes w) } := by
  rw [inRam_iff] at hram
  have hlt : off < XQ_BASE := by simpa [ramWritable] using hlow
  unfold XQ_BASE at hlt
  exact
    { memory := h.memory.store (fun a hge hle => by
        rw [wordBytes_length] at hle; rw [storable_iff]; omega) rfl
      status := { h.status with }
      bitError := { h.bitError with }
      decoder := { h.decoder with }
      interval := { h.interval with }
      passes := { h.passes with }
      quantized := fun hv => XqWritten.store (h.quantized hv)
        (.inl (by rw [wordBytes_length]; unfold XQ_BASE; omega)) }

end Sys2Proof.Machine

/-! ## Every command keeps the block coherent

Each body is inverted once: what the state can be after it. Its coherence, and what it does to the
decoder's interval, follow from the rules above. -/

namespace Sys2Proof.Machine

-- One proof at a time: in one file with the tests, waiting proofs would each hold a thread.
set_option Elab.async false

open Config (Roms)

variable {s t u : State}

/-! ### The interval in TERMINAL (10_state.md R51) -/

/-- A move into or within TERMINAL that leaves R51's window intact: TERMINAL stays as it was, or is entered
with a running interval. -/
def KeepsWindow (s t : State) : Prop :=
  t.dec.fsm = .terminal → (s.dec.fsm = .terminal ∧ t.coder = s.coder) ∨ t.coder.running

theorem KeepsWindow.of_dec (hdec : t.dec = s.dec) (hcoder : t.coder = s.coder) : KeepsWindow s t :=
  fun ht => .inl ⟨by rw [← hdec]; exact ht, hcoder⟩

theorem KeepsWindow.of_ne (h : t.dec.fsm ≠ .terminal) : KeepsWindow s t := fun ht => absurd ht h

/-- Coherence leaves of R51 only the window in TERMINAL open. -/
theorem IntervalInWindow.of_coherent (h : Coherent t)
    (hrun : t.dec.fsm = .terminal → t.coder.running) : IntervalInWindow t where
  window := fun hf => ⟨hf.elim (fun hr => (h.interval.ready hr).1) (fun ht => (hrun ht).1),
    t.coder.range.isLt⟩
  below := fun hf => by
    rcases hf with hr | ht | he
    · exact .inl (h.interval.ready hr).2
    · exact .inl (hrun ht).2
    · exact (h.interval.inside (.inr he)).imp id fun hb => ⟨he, hb⟩

theorem IntervalInWindow.terminal_running (h : IntervalInWindow s) (ht : s.dec.fsm = .terminal) :
    s.coder.running := by
  refine ⟨(h.window (.inr ht)).1, (h.below (.inr (.inl ht))).resolve_right fun he => ?_⟩
  exact absurd (ht.symm.trans he.1) (by decide)

theorem IntervalInWindow.keep (h : IntervalInWindow s) (ht : Coherent t) (hk : KeepsWindow s t) :
    IntervalInWindow t :=
  .of_coherent ht fun hf => by
    rcases hk hf with ⟨hs, hc⟩ | hrun
    · rw [hc]; exact h.terminal_running hs
    · exact hrun

/-! ### Control and PVQ -/

theorem reset_coherent : Coherent State.reset where
  memory := ⟨rfl, fun c hc => absurd hc List.not_mem_nil⟩
  status := ⟨by decide, by decide, by decide⟩
  bitError := ⟨by decide, by decide, by decide⟩
  decoder := ⟨.inl rfl, fun _ => ⟨rfl, rfl, rfl, rfl⟩, by decide, by decide, by decide⟩
  interval := ⟨by decide, by decide, by decide, by decide, by decide, by decide, fun _ => rfl⟩
  passes := ⟨by decide, by decide, by decide, by decide, by decide⟩
  quantized := fun hv => absurd hv (by decide)

/-- FRAME_START brings the frame's registers to their reset values and writes three RAMs (R151). -/
theorem Coherent.frameStart (h : Coherent s) : Coherent (frameStartBody s) where
  memory :=
    MemoryCoherent.store
      (MemoryCoherent.store (h.memory.store (t := s.setXq []) (storable_xq []) rfl)
        (t := (s.setXq []).setXr []) (storable_xr []) rfl) (storable_resbuf []) rfl
  status := { h.status with }
  bitError := { reset_coherent.bitError with }
  decoder := { reset_coherent.decoder with }
  interval := { reset_coherent.interval with }
  passes := { reset_coherent.passes with }
  quantized := fun hv => absurd hv (by simp [frameStartBody, FrameStatus.zero])

theorem Coherent.pvqDeenum (h : Coherent s) : Coherent (pvqDeenumBody s) := by
  unfold pvqDeenumBody
  dsimp only
  split
  · exact h.raisePvq.congr
  · exact h.congr

/-- PVQ_SHAPE marks a bad frame, or an index out of range, and its result valid (41_pvq.md R176). -/
theorem Coherent.pvqShape (h : Coherent s) (hsi : s.fstat.siValid = true) :
    Coherent (pvqShapeBody s) := by
  unfold pvqShapeBody
  dsimp only
  split
  · exact (h.seeBadFrame.markShape hsi).congr
  · split
    · exact (h.raisePvq.markShape hsi).congr
    · exact (h.markShape hsi).congr

theorem pvqShapeBody_dec (s : State) :
    (pvqShapeBody s).dec = s.dec ∧ (pvqShapeBody s).coder = s.coder := by
  unfold pvqShapeBody
  split <;> exact ⟨rfl, rfl⟩

theorem pvqDeenumBody_dec (s : State) :
    (pvqDeenumBody s).dec = s.dec ∧ (pvqDeenumBody s).coder = s.coder := by
  unfold pvqDeenumBody
  dsimp only
  split <;> exact ⟨rfl, rfl⟩

/-! ### The encoder -/

theorem gainEstBody_cases {r : Roms} (h : gainEstBody r s = .ok u) :
    ∃ raw zero, u = (s.applyEstimate raw zero).loadScale r := by
  unfold gainEstBody at h
  split at h
  · cases h
  · cases h; exact ⟨_, _, rfl⟩

theorem quantizeBody_cases {r : Roms} (h : quantizeBody r s = .ok u) :
    ∃ c, u = s.applyCoding r c := by
  unfold quantizeBody at h
  split at h
  · cases h
  · cases h; exact ⟨_, rfl⟩

theorem resEncodeBody_cases {r : Roms} (h : resEncodeBody r s = .ok u) :
    ∃ bits n, u = { s.setResbuf bits with
      resNbits := n, fstat := { s.fstat with resencValid := true } } := by
  unfold resEncodeBody at h
  dsimp only at h
  split at h
  · cases h
  · cases h; exact ⟨_, _, rfl⟩

theorem Coherent.gainEst (h : Coherent s) (r : Roms) (raw : Nat) (zero : Bool) :
    Coherent ((s.applyEstimate raw zero).loadScale r) where
  memory := { h.memory with }
  status := { h.status with }
  bitError := { h.bitError with }
  decoder := { h.decoder with }
  interval := { h.interval with }
  passes := { h.passes with }
  quantized := h.quantized

theorem Coherent.resEncode (h : Coherent s) (bits : List Bool) (n : BitVec 10) :
    Coherent { s.setResbuf bits with
      resNbits := n, fstat := { s.fstat with resencValid := true } } :=
  have hb := h.storeResbuf bits
  { memory := { hb.memory with }
    status := { hb.status with }
    bitError := { hb.bitError with }
    decoder := { hb.decoder with }
    interval := { hb.interval with }
    passes := { hb.passes with }
    quantized := hb.quantized }

/-- A legal quantization counts to one, or to two after a requantization (43_quantizer_gain.md R272). -/
theorem PassesCoherent.quantize (h : PassesCoherent s) (hq : quantizeLegal s = true)
    (hc : t.fstat.qCount = s.fstat.qCount + 1) (hv : t.fstat.qValid = true)
    (ha : t.fstat.adjCount = s.fstat.adjCount) (hr : t.fstat.requant = s.fstat.requant) :
    PassesCoherent t := by
  have horder := h.order
  have hadj := h.adjusted
  simp only [quantizeLegal, Bool.or_eq_true, Bool.and_eq_true, decide_eq_true_eq] at hq
  rcases hq with hq | ⟨⟨hq, h1⟩, hreq⟩
  · have h0 : s.fstat.adjCount.toNat = 0 := by simpa [hq] using horder
    have hnr : s.fstat.requant = false := by
      rw [Bool.eq_false_iff]
      exact fun hr => hadj hr (BitVec.eq_of_toNat_eq h0)
    refine ⟨?_, ?_, ?_, ?_, ?_⟩ <;> simp [hc, hv, ha, hr, hq, h0, hnr]
  · refine ⟨?_, ?_, ?_, ?_, ?_⟩ <;> simp [hc, hv, ha, hr, hq, h1, hreq]

theorem Coherent.quantize (h : Coherent s) (hq : quantizeLegal s = true) (r : Roms) (c : Coding) :
    Coherent (s.applyCoding r c) where
  memory := h.memory.store (storable_xq c.kept) rfl
  status := { h.status with }
  bitError := { h.bitError with }
  decoder := { h.decoder with }
  interval := { h.interval with }
  passes := h.passes.quantize hq rfl rfl rfl rfl
  quantized := fun _ => xqWritten_store_xq _ _

/-- A legal adjustment counts to one after one quantization, or to two after two (R270, R272). -/
theorem PassesCoherent.adjust (h : PassesCoherent s) (hl : gainAdjLegal s = true)
    (ha : t.fstat.adjCount = s.fstat.adjCount + 1) (hc : t.fstat.qCount = s.fstat.qCount)
    (hv : t.fstat.qValid = s.fstat.qValid)
    (hr : t.fstat.requant = s.fstat.requant ∨ t.fstat.requant = true) : PassesCoherent t := by
  have hvalid := h.valid
  simp only [gainAdjLegal, Bool.or_eq_true, Bool.and_eq_true, decide_eq_true_eq] at hl
  rcases hl with ⟨h0, hq⟩ | ⟨⟨h1, hreq⟩, hq⟩
  · have hval : s.fstat.qValid = true := hvalid.mpr (by rw [hq]; decide)
    refine ⟨?_, ?_, ?_, ?_, ?_⟩ <;> simp [ha, hc, hv, hq, h0, hval]
  · have hval : s.fstat.qValid = true := hvalid.mpr (by rw [hq]; decide)
    have hrt : t.fstat.requant = true := hr.elim (fun hr => hr.trans hreq) id
    refine ⟨?_, ?_, ?_, ?_, ?_⟩ <;> simp [ha, hc, hv, hq, h1, hval, hrt]

theorem Coherent.withPasses (h : Coherent s) {cfg : FrameConfig} {requant budget : Bool}
    {adj : BitVec 2}
    (hp : PassesCoherent { s with
      cfg := cfg
      fstat := { s.fstat with adjCount := adj, requant := requant, budgetFlag := budget } }) :
    Coherent { s with
      cfg := cfg
      fstat := { s.fstat with adjCount := adj, requant := requant, budgetFlag := budget } } where
  memory := { h.memory with }
  status := { h.status with }
  bitError := { h.bitError with }
  decoder := { h.decoder with }
  interval := { h.interval with }
  passes := hp
  quantized := h.quantized

/-- Everything GAIN_ADJ's body can do (43_quantizer_gain.md R270): one adjustment is counted, the gain index
may move with a requantization, and the budget flag is set or not. -/
theorem gainAdjBody_cases (s : State) :
    ∃ cfg requant budget, (requant = s.fstat.requant ∨ requant = true) ∧
      gainAdjBody s = { s with
        cfg := cfg
        fstat := { s.fstat with
          adjCount := s.fstat.adjCount + 1, requant := requant, budgetFlag := budget } } := by
  unfold gainAdjBody
  dsimp only
  split
  · split
    · exact ⟨_, _, _, .inr rfl, rfl⟩
    · exact ⟨_, _, _, .inl rfl, rfl⟩
    · exact ⟨_, _, _, .inl rfl, rfl⟩
  · exact ⟨_, _, _, .inl rfl, rfl⟩

theorem Coherent.gainAdj (h : Coherent s) (hl : gainAdjLegal s = true) : Coherent (gainAdjBody s) := by
  obtain ⟨cfg, requant, budget, hr, he⟩ := gainAdjBody_cases s
  rw [he]
  exact h.withPasses (h.passes.adjust hl rfl rfl rfl hr)

theorem gainAdjBody_dec (s : State) :
    (gainAdjBody s).dec = s.dec ∧ (gainAdjBody s).coder = s.coder := by
  obtain ⟨cfg, requant, budget, -, he⟩ := gainAdjBody_cases s
  rw [he]; exact ⟨rfl, rfl⟩

/-! ### Side information -/

/-- Without an overrun the only error of the side information is its last line index (R314). -/
theorem sideInfoErrors_within {si : SideInfo} {rd : BitReader} {f : FrameStatus}
    (ho : rd.overrun = false) :
    sideInfoErrors s si rd f = if s.NE < si.lastnz.toNat then f.raise .siLastnz else f := by
  unfold sideInfoErrors
  rw [ho]
  rfl

/-- Everything SI_UNPACK's body can do in a legal configuration (45_sideinfo.md R311 to R314): the
side information of a bad frame is cleared; else it is read, with at most the error of its last line
index. -/
theorem siUnpackBody_cases (hcfg : decodeConfigOk s = true) (h : siUnpackBody s = .ok u) :
    ∃ si : SideInfo, si.bytes.toNat ≤ 10 ∧
      ∃ v : State, (v = { s with fstat := { s.fstat with bfiSeen := true } } ∨ v = s ∨
          v = State.raise s .siLastnz) ∧
        u = { v with si := si, fstat := { v.fstat with siValid := true } } := by
  unfold siUnpackBody at h
  split at h
  · cases h
    exact ⟨_, Nat.zero_le _, _, .inl rfl, rfl⟩
  · split at h
    · cases h
    · next si rd hsi =>
      cases h
      obtain ⟨hover, hpos⟩ := readSideInfo_within hcfg hsi
      refine ⟨{ si with
        bits := BitVec.ofNat 12 (sideInfoBits s rd)
        bytes := BitVec.ofNat 10 ((sideInfoBits s rd + 7) / 8) }, ?_, ?_⟩
      · simp only [sideInfoBits, hover, BitVec.toNat_ofNat, Bool.false_eq_true, if_false]
        omega
      · rw [sideInfoErrors_within hover]
        by_cases hl : s.NE < si.lastnz.toNat
        · exact ⟨_, .inr (.inr rfl), by rw [if_pos hl]; rfl⟩
        · exact ⟨_, .inr (.inl rfl), by rw [if_neg hl]⟩

theorem Coherent.siUnpack (h : Coherent s) (hcfg : decodeConfigOk s = true)
    (hu : siUnpackBody s = .ok u) :
    Coherent u ∧ u.fstat.siValid = true ∧ u.fstat.rcValid = s.fstat.rcValid ∧ u.dec = s.dec ∧
      u.coder = s.coder ∧ u.cfg = s.cfg ∧ u.mem = s.mem := by
  obtain ⟨si, hbytes, v, hv, rfl⟩ := siUnpackBody_cases hcfg hu
  rcases hv with rfl | rfl | rfl
  · exact ⟨h.seeBadFrame.unpack hbytes, rfl, rfl, rfl, rfl, rfl, rfl⟩
  · exact ⟨h.unpack hbytes, rfl, rfl, rfl, rfl, rfl, rfl⟩
  · exact ⟨(h.raise (by decide)).unpack hbytes, rfl, rfl, rfl, rfl, rfl, rfl⟩

/-! ### The range decoder -/

theorem payloadByte_lt {j v : Nat} (h : payloadByte s j = .ok v) : v < 256 := by
  rw [payByte_ok h]; exact payValue_lt s _

/-- Everything priming can do with three payload bytes (42_range_decoder.md R191). -/
theorem prime_cases (hpb : 3 ≤ s.PB) (h : prime s = .ok u) :
    (∃ c : RangeCoder, c.inside ∧ u = State.raise (s.setDecoder c .error) .rcRange) ∨
      ∃ c : RangeCoder, c.running ∧ u = s.setDecoder c .ready := by
  unfold prime at h
  rw [if_neg (by omega)] at h
  split at h
  · next b0 b1 b2 h0 h1 h2 =>
    have := payloadByte_lt h0
    have := payloadByte_lt h1
    have := payloadByte_lt h2
    have hlow : b0 * 2 ^ 16 + b1 * 2 ^ 8 + b2 < 2 ^ 24 := by omega
    have hl := coderOf_low (range := 0xFFFFFF) (cursor := 3) hlow
    have hr := coderOf_range (low := b0 * 2 ^ 16 + b1 * 2 ^ 8 + b2) (range := 0xFFFFFF) (cursor := 3)
      (by decide)
    dsimp only at h
    split at h
    · cases h
      exact .inl ⟨coderOf _ _ _, .inr ⟨by rw [hl]; omega, hr⟩, rfl⟩
    · cases h
      refine .inr ⟨coderOf _ _ _, ?_, rfl⟩
      rw [RangeCoder.running, hl, hr]; omega
  · cases h
  · cases h
  · cases h

/-- In a legal configuration with coherent side information, at least three payload bytes are left. -/
theorem Coherent.three_le_PB (h : Coherent s) (hcfg : decodeConfigOk s = true) : 3 ≤ s.PB := by
  obtain ⟨-, ⟨hn, -⟩, -⟩ := decodeConfigOk_iff.mp hcfg
  have := h.interval.sideBytes
  unfold State.PB; omega

/-- The state that RC_INIT starts from: the context cleared (R220). -/
def State.clearContext (s : State) : State := { s with dec := { s.dec with ctx := 0 } }

theorem Coherent.withDecoder (h : Coherent s) {d : Decoder} (hfsm : d.fsm = s.dec.fsm)
    (hbytes : d.bytes = s.dec.bytes) : Coherent { s with dec := d } := by
  obtain ⟨ctx, fsm, sym, bytes, tuples, order, coef⟩ := d
  subst hfsm hbytes
  exact
    { memory := { h.memory with }
      status := { h.status with }
      bitError := { h.bitError with }
      decoder := { h.decoder with }
      interval := { h.interval with }
      passes := { h.passes with }
      quantized := h.quantized }

theorem Coherent.clearContext (h : Coherent s) : Coherent s.clearContext := h.withDecoder rfl rfl

/-- RC_INIT in an unpacked frame with the decoder idle (R220, R353): it ends in READY, or after a bit error
in ERROR, which a bad frame does not enter. -/
theorem Coherent.rcInit (h : Coherent s) (hcfg : decodeConfigOk s = true)
    (hsi : s.fstat.siValid = true) (hidle : s.dec.fsm = .idle) (hu : rcInitBody s = .ok u) :
    Coherent u ∧ u.fstat.siValid = true ∧ u.fstat.rcValid = false ∧ u.cfg = s.cfg ∧
      u.mem = s.mem ∧ (u.dec.fsm = .ready ∨ (u.dec.fsm = .error ∧ s.cfg.mode.bfi = false)) := by
  have hrc : s.fstat.rcValid = false := by
    rw [Bool.eq_false_iff]
    intro hv
    rcases h.decoder.decoded hv with hf | hf <;> exact absurd (hidle.symm.trans hf) (by decide)
  have hnt : s.dec.fsm ≠ .terminal := by rw [hidle]; decide
  have hcc := h.clearContext
  unfold rcInitBody at hu
  dsimp only at hu
  split at hu
  · cases hu
    have hrun : (coderOf 0 0xFFFFFF 0).running := by unfold RangeCoder.running; decide
    exact ⟨(hcc.seeBadFrame.ready hsi hrc hnt hrun).congr, hsi, hrc, rfl, rfl, .inl rfl⟩
  · next hbfi =>
    rcases prime_cases (s := s.clearContext) (h.three_le_PB hcfg) hu with
      ⟨c, hc, rfl⟩ | ⟨c, hc, rfl⟩
    · exact ⟨hcc.enterError hsi hnt hc (by decide), hsi, hrc, rfl, rfl,
        .inr ⟨rfl, by simpa using hbfi⟩⟩
    · exact ⟨hcc.ready hsi hrc hnt hc, hsi, hrc, rfl, rfl, .inl rfl⟩

/-- The decoder leaves IDLE only in an unpacked frame. -/
theorem Coherent.unpacked (h : Coherent s) (hf : s.dec.fsm ≠ .idle) : s.fstat.siValid = true := by
  by_contra hn
  exact hf (h.decoder.beforeUnpack (by simpa using hn)).1

/-- READY is a state of an unpacked frame that is not decoded yet. -/
theorem Coherent.of_ready (h : Coherent s) (hf : s.dec.fsm = .ready) :
    s.fstat.siValid = true ∧ s.fstat.rcValid = false := by
  constructor
  · exact h.unpacked (by rw [hf]; decide)
  · rw [Bool.eq_false_iff]
    intro hv
    rcases h.decoder.decoded hv with ht | ht <;> exact absurd (hf.symm.trans ht) (by decide)

/-- A single decode (R221, R222) stays in READY with a running interval, or enters ERROR. -/
theorem Coherent.decsym (h : Coherent s) (hf : s.dec.fsm = .ready) {cum : Nat → Nat} {n : Nat}
    (hcum : cumWf cum n = true) (hu : decsymBody cum n s = .ok u) :
    Coherent u ∧ u.dec.fsm ≠ .terminal := by
  obtain ⟨hsi, hrc⟩ := h.of_ready hf
  have hnt : s.dec.fsm ≠ .terminal := by rw [hf]; decide
  have hrun : s.coder.running := h.interval.ready hf
  have hsound := decSym_sound (s := s) hcum hrun
  unfold decsymBody at hu
  split at hu
  · next v c hd =>
    cases hu
    rw [hd] at hsound
    exact ⟨((h.ready hsi hrc hnt hsound).withDecoder (d := { s.dec with sym := BitVec.ofNat 5 v })
      hf rfl).congr, hnt⟩
  · next e c hd =>
    cases hu
    rw [hd] at hsound
    refine ⟨h.enterError hsi hnt (.inl hsound.2) ?_, by simp⟩
    rcases hsound.1 with rfl | rfl | rfl | rfl <;> decide
  · cases hu

theorem rcDecodeLegal_iff :
    rcDecodeLegal s = true ↔
      (s.dec.fsm = .ready ∨ s.dec.fsm = .error) ∧ s.fstat.rcValid = false := by
  simp [rcDecodeLegal]

/-- Everything RC_DECODE's body can do (R223): a bad frame ends in TERMINAL with the interval as it was; a
failed priming, or a last line above NE, in ERROR; else the sections are decoded, to TERMINAL or to a bit
error. -/
theorem rcDecodeBody_cases {r : Roms} (h : rcDecodeBody r s = .ok u) :
    (s.cfg.mode.bfi = true ∧
      u = State.applyProgress { s with fstat := { s.fstat with bfiSeen := true } }
        (Progress.start s.coder) .terminal 0) ∨
    (s.cfg.mode.bfi = false ∧ u = s.applyProgress (Progress.start s.coder) .error 0) ∨
    (s.cfg.mode.bfi = false ∧ s.dec.fsm ≠ .error ∧
      ((∃ p e, decodeSections r s = .ok (p, some e) ∧ u = (s.applyProgress p .error 0).raise e) ∨
        ∃ p, decodeSections r s = .ok (p, none) ∧
          u = s.applyProgress p .terminal p.coder.cursor)) := by
  unfold rcDecodeBody at h
  split at h
  · next hb => cases h; exact .inl ⟨hb, rfl⟩
  · next hb =>
    have hb : s.cfg.mode.bfi = false := by simpa using hb
    split at h
    · cases h; exact .inr (.inl ⟨hb, rfl⟩)
    · next hn =>
      refine .inr (.inr ⟨hb, fun he => hn (.inl he), ?_⟩)
      split at h
      · cases h
      · next p e hd => cases h; exact .inl ⟨p, e, hd, rfl⟩
      · next p hd => cases h; exact .inr ⟨p, hd, rfl⟩

theorem rcDecodeBody_frame {r : Roms} (h : rcDecodeBody r s = .ok u) :
    u.fstat.siValid = s.fstat.siValid ∧ u.fstat.rcValid = true ∧ u.cfg = s.cfg := by
  rcases rcDecodeBody_cases h with
    ⟨-, rfl⟩ | ⟨-, rfl⟩ | ⟨-, -, ⟨p, e, -, rfl⟩ | ⟨p, -, rfl⟩⟩ <;> exact ⟨rfl, rfl, rfl⟩

/-- RC_DECODE from READY or ERROR of a frame not yet decoded. R51 stays in full but where a bad frame enters
TERMINAL from ERROR. -/
theorem Coherent.rcDecode (h : Coherent s) {r : Roms} (hr : CumTablesWf r)
    (hf : s.dec.fsm = .ready ∨ s.dec.fsm = .error) (hsi : s.fstat.siValid = true)
    (hrc : s.fstat.rcValid = false) (hu : rcDecodeBody r s = .ok u) :
    Coherent u ∧ (KeepsWindow s u ∨
      (s.cfg.mode.bfi = true ∧ s.dec.fsm = .error ∧ u.dec.fsm = .terminal ∧ u.coder = s.coder)) := by
  have hin : s.coder.inside := h.coder_inside (hf.imp id .inr)
  have hrun : s.dec.fsm = .ready → s.coder.running := h.interval.ready
  rcases rcDecodeBody_cases hu with ⟨hb, rfl⟩ | ⟨-, rfl⟩ | ⟨-, hne, hs⟩
  · refine ⟨h.seeBadFrame.terminalProgress hsi hin (fun hok => ?_) (fun hn => absurd hn (by simp)), ?_⟩
    · refine hf.elim hrun fun he => ?_
      have hbit := h.interval.failedFlag he hrc
      rcases hok with hok | hok
      · exact absurd hok (by simp)
      · exact absurd (hbit.symm.trans hok) (by decide)
    · rcases hf with hf | hf
      · exact .inl fun _ => .inr (hrun hf)
      · exact .inr ⟨hb, hf, rfl, rfl⟩
  · exact ⟨h.errorProgress hsi hin, .inl (.of_ne (by simp))⟩
  · have hready := hf.resolve_right hne
    have hm := decodeSections_meets (s := s) hr (hrun hready) (R := True) (.inl trivial)
    rcases hs with ⟨p, e, hd, rfl⟩ | ⟨p, hd, rfl⟩
    · rw [hd] at hm
      obtain ⟨he, hlt⟩ := hm
      refine ⟨(h.errorProgress hsi (.inl hlt)).raise ?_, .inl (.of_ne (by simp))⟩
      rcases he with rfl | rfl | rfl | rfl <;> decide
    · rw [hd] at hm
      exact ⟨h.terminalProgress hsi (.inl hm.2) (fun _ => hm)
        (fun _ => ⟨decodeSections_low hd, rfl⟩), .inl fun _ => .inr hm⟩

/-! ### Refinement -/

/-- Everything RES_DECODE's body can do (44_residual.md R300): XR, the count and the valid bit are written,
and a bad frame is marked. -/
theorem resDecodeBody_cases (h : resDecodeBody s = .ok u) :
    ∃ vs n, ∃ v : State, (v = s ∨ v = { s with fstat := { s.fstat with bfiSeen := true } }) ∧
      u = { v.setXr vs with resNbits := n, fstat := { v.fstat with resValid := true } } := by
  unfold resDecodeBody at h
  dsimp only at h
  split at h
  · cases h; exact ⟨_, _, _, .inr rfl, rfl⟩
  · split at h
    · cases h
    · cases h; exact ⟨_, _, _, .inl rfl, rfl⟩

theorem Coherent.resDecode (h : Coherent s) (hrc : s.fstat.rcValid = true)
    (hu : resDecodeBody s = .ok u) :
    Coherent u ∧ u.fstat.siValid = s.fstat.siValid ∧ u.dec = s.dec ∧ u.coder = s.coder := by
  obtain ⟨vs, n, v, rfl | rfl, rfl⟩ := resDecodeBody_cases hu
  · exact ⟨(h.refine hrc vs).congr, rfl, rfl, rfl⟩
  · exact ⟨(h.seeBadFrame.refine hrc vs).congr, rfl, rfl, rfl⟩

/-! ### DECODE_FRAME -/

theorem thenBody_ok {f g : State → Except Fault State} (h : thenBody f g s = .ok u) :
    ∃ v, f s = .ok v ∧ g v = .ok u := by
  unfold thenBody at h
  split at h
  · cases h
  · next v hv => exact ⟨v, hv, h⟩

theorem decodeConfigOk_congr (h : t.cfg = s.cfg) : decodeConfigOk t = decodeConfigOk s := by
  unfold decodeConfigOk geometryOk State.NE State.NBYTES State.NF_TNS
  rw [h]

/-- The five bodies of DECODE_FRAME, each with what the ones before it establish (46_frame.md R331). -/
theorem Coherent.decodeFrame (h : Coherent s) {r : Roms} (hr : CumTablesWf r)
    (hcfg : decodeConfigOk s = true) (hsi : s.fstat.siValid = false)
    (hu : decodeFrameBody r s = .ok u) : Coherent u ∧ KeepsWindow s u := by
  obtain ⟨hidle, hrc, -⟩ := h.decoder.beforeUnpack hsi
  obtain ⟨s1, h1, hu⟩ := thenBody_ok hu
  obtain ⟨k1, si1, rc1, dec1, -, cfg1, -⟩ := h.siUnpack hcfg h1
  obtain ⟨s2, h2, hu⟩ := thenBody_ok hu
  obtain ⟨k2, si2, rc2, cfg2, -, fsm2⟩ :=
    k1.rcInit ((decodeConfigOk_congr cfg1).trans hcfg) si1 (by rw [dec1]; exact hidle) h2
  obtain ⟨s3, h3, hu⟩ := thenBody_ok hu
  obtain ⟨k3, w3⟩ := k2.rcDecode hr (fsm2.imp id And.left) si2 rc2 h3
  obtain ⟨si3, rc3, -⟩ := rcDecodeBody_frame h3
  obtain ⟨s4, h4, hu⟩ := thenBody_ok hu
  obtain ⟨k4, si4, dec4, coder4⟩ := k3.resDecode rc3 h4
  cases hu
  refine ⟨k4.pvqShape (by rw [si4, si3]; exact si2), fun ht => ?_⟩
  obtain ⟨dec5, coder5⟩ := pvqShapeBody_dec s4
  rw [dec5, dec4] at ht
  rw [coder5, coder4]
  right
  have hnt : s2.dec.fsm ≠ .terminal := by
    rcases fsm2 with hf | ⟨hf, -⟩ <;> rw [hf] <;> decide
  rcases w3 with w3 | ⟨hb, he, -⟩
  · exact (w3 ht).resolve_left fun hs => hnt hs.1
  · rcases fsm2 with hf | ⟨-, hb'⟩
    · exact absurd (hf.symm.trans he) (by decide)
    · rw [cfg2] at hb
      exact absurd (hb'.symm.trans hb) (by decide)

/-! ### Every command -/

theorem checks_passed {a b : Bool} {e f : CmdError} (h : firstError [(!a, e), (!b, f)] = none) :
    a = true ∧ b = true := by simpa using firstError_eq_none.mp h

/-- QUANTIZE and GAIN_ADJ run their bodies only where they are legal (R353). -/
theorem pass_legal {a legal past : Bool} {e f g : CmdError}
    (h : firstError [(!a, e), (!legal && !past, f), (past, g)] = none) : legal = true := by
  have hall := firstError_eq_none.mp h
  have hpast : past = false := hall (past, g) (by simp)
  simpa [hpast] using hall (!legal && !past, f) (by simp)

/-- What a command whose checks pass leaves: the block coherent, and R51 in full, but for RC_DECODE of a bad
frame in ERROR. -/
theorem bodyOf_keeps {i : Instr} (h : Coherent s) (hc : firstError (checksOf s i) = none)
    (hu : bodyOf i s = .ok u) :
    Coherent u ∧ (KeepsWindow s u ∨ (i = .rcDecode ∧ s.cfg.mode.bfi = true ∧ s.dec.fsm = .error ∧
      u.dec.fsm = .terminal ∧ u.coder = s.coder)) := by
  cases i with
  | nop => cases hu; exact ⟨h, .inl (.of_dec rfl rfl)⟩
  | frameStart => cases hu; exact ⟨h.frameStart, .inl (.of_ne RcFsm.noConfusion)⟩
  | pvqDeenum =>
    cases hu
    obtain ⟨hd, hco⟩ := pvqDeenumBody_dec s
    exact ⟨h.pvqDeenum, .inl (.of_dec hd hco)⟩
  | pvqShape =>
    cases hu
    obtain ⟨hd, hco⟩ := pvqShapeBody_dec s
    obtain ⟨-, hlegal⟩ := checks_passed hc
    exact ⟨h.pvqShape (Bool.and_eq_true_iff.mp hlegal).1, .inl (.of_dec hd hco)⟩
  | rcInit =>
    obtain ⟨hcfg, hlegal⟩ := checks_passed hc
    obtain ⟨hsi, hidle⟩ := Bool.and_eq_true_iff.mp hlegal
    obtain ⟨hk, -, -, -, -, hf⟩ := h.rcInit hcfg hsi (of_decide_eq_true hidle) hu
    refine ⟨hk, .inl (.of_ne ?_)⟩
    rcases hf with hf | ⟨hf, -⟩ <;> rw [hf] <;> decide
  | rcDecsym cls id =>
    obtain ⟨-, hlegal⟩ := checks_passed hc
    obtain ⟨hk, hf⟩ := h.decsym (of_decide_eq_true hlegal) (selectTable_wf cls id) hu
    exact ⟨hk, .inl (.of_ne hf)⟩
  | rcDecbit =>
    have hlegal : decsymLegal s = true := by simpa [checksOf] using firstError_eq_none.mp hc
    obtain ⟨hk, hf⟩ := h.decsym (of_decide_eq_true hlegal) uni2_wf hu
    exact ⟨hk, .inl (.of_ne hf)⟩
  | rcDecode =>
    obtain ⟨-, hlegal⟩ := checks_passed hc
    obtain ⟨hf, hrc⟩ := rcDecodeLegal_iff.mp hlegal
    have hsi : s.fstat.siValid = true :=
      h.unpacked (by rcases hf with hf | hf <;> rw [hf] <;> decide)
    obtain ⟨hk, hw⟩ := h.rcDecode blockRoms_cumTablesWf hf hsi hrc hu
    exact ⟨hk, hw.imp id fun hw => ⟨rfl, hw⟩⟩
  | gainEst =>
    obtain ⟨raw, zero, rfl⟩ := gainEstBody_cases hu
    exact ⟨h.gainEst _ raw zero, .inl (.of_dec rfl rfl)⟩
  | quantize =>
    obtain ⟨c, rfl⟩ := quantizeBody_cases hu
    exact ⟨h.quantize (pass_legal hc) _ c, .inl (.of_dec rfl rfl)⟩
  | gainAdj =>
    cases hu
    obtain ⟨hd, hco⟩ := gainAdjBody_dec s
    exact ⟨h.gainAdj (pass_legal hc), .inl (.of_dec hd hco)⟩
  | resEncode =>
    obtain ⟨bits, n, rfl⟩ := resEncodeBody_cases hu
    exact ⟨h.resEncode bits n, .inl (.of_dec rfl rfl)⟩
  | resDecode =>
    obtain ⟨-, hlegal⟩ := checks_passed hc
    obtain ⟨hk, -, hd, hco⟩ := h.resDecode (Bool.and_eq_true_iff.mp hlegal).1 hu
    exact ⟨hk, .inl (.of_dec hd hco)⟩
  | siUnpack =>
    have hall := firstError_eq_none.mp hc
    have hcfg : decodeConfigOk s = true := by
      simpa using hall (!decodeConfigOk s, .configErr) (by simp [checksOf])
    obtain ⟨hk, -, -, hd, hco, -⟩ := h.siUnpack hcfg hu
    exact ⟨hk, .inl (.of_dec hd hco)⟩
  | decodeFrame =>
    have hall := firstError_eq_none.mp hc
    have hcfg : decodeConfigOk s = true := by
      simpa using hall (!decodeConfigOk s, .configErr) (by simp [checksOf])
    have hsi : s.fstat.siValid = false := hall (s.fstat.siValid, .seqErr) (by simp [checksOf])
    obtain ⟨hk, hw⟩ := h.decodeFrame blockRoms_cumTablesWf hcfg hsi hu
    exact ⟨hk, .inl hw⟩

/-! ### The engine, the host and reset -/

/-- Everything the engine step can do with the pending word (60_exceptions.md R381). -/
theorem engineStep_cases (h : engineStep s = .next t) :
    t = s ∨ (∃ e, t = s.completeError e) ∨
      ∃ w i u, s.pending = some w ∧ decode w = .ok i ∧ firstError (checksOf s i) = none ∧
        bodyOf i s = .ok u ∧ t = u.complete := by
  unfold engineStep at h
  split at h
  · cases h; exact .inl rfl
  · next w hw =>
    unfold runWord at h
    split at h
    · next i hi =>
      rw [exec_eq_runCommand] at h
      rcases runCommand_next h with ⟨e, -, rfl⟩ | ⟨hc, u, hu, rfl⟩
      · exact .inr (.inl ⟨e, rfl⟩)
      · exact .inr (.inr ⟨w, i, u, hw, hi, hc, hu, rfl⟩)
    · cases h; exact .inr (.inl ⟨_, rfl⟩)

theorem engineStep_keeps (h : Coherent s) (ht : engineStep s = .next t) :
    Coherent t ∧ (KeepsWindow s t ∨ BadFrameAfterError s t) := by
  rcases engineStep_cases ht with rfl | ⟨e, rfl⟩ | ⟨w, i, u, hw, hi, hc, hu, rfl⟩
  · exact ⟨h, .inl (.of_dec rfl rfl)⟩
  · exact ⟨h.completeError e, .inl (.of_dec rfl rfl)⟩
  · obtain ⟨hk, hwin⟩ := bodyOf_keeps h hc hu
    refine ⟨hk.complete, hwin.imp id ?_⟩
    rintro ⟨rfl, hb, hf, hent, hco⟩
    exact ⟨⟨w, hw, hi⟩, hb, hf, hent, hco⟩

/-- Everything a host write to a register can do (20_memory.md R96, R106): accept a command, clear STATUS,
or change the enables, the configuration and the operands. -/
theorem Reg.write_cases (s : State) (w : Word) (r : Reg) :
    r.write s w = s.accept w ∨ r.write s w = { s with status := s.status.clear w } ∨
      ∃ irqEn cfg pvqIn, r.write s w = { s with irqEn := irqEn, cfg := cfg, pvqIn := pvqIn } := by
  cases r
  case cmd => exact .inl rfl
  case status => exact .inr (.inl rfl)
  all_goals exact .inr (.inr ⟨_, _, _, rfl⟩)

/-- Everything an aligned host write can do. -/
theorem hostWrite_cases (off : Nat) (w : Word) (s : State) :
    hostWrite off w s = s ∨ hostWrite off w s = s.accessError ∨
      (∃ r : Reg, hostWrite off w s = r.write s w) ∨
      (inRam off = true ∧ ramWritable off = true ∧
        hostWrite off w s = { s with mem := s.mem.store off (wordBytes w) }) := by
  unfold hostWrite placeOf
  cases Reg.ofOffset off with
  | some r =>
    dsimp only
    split
    · exact .inr (.inl rfl)
    · exact .inr (.inr (.inl ⟨r, rfl⟩))
  | none =>
    dsimp only
    by_cases hram : inRam off = true
    · rw [if_pos hram]
      dsimp only
      split
      · exact .inr (.inl rfl)
      · split
        · next hlow => exact .inr (.inr (.inr ⟨hram, hlow, rfl⟩))
        · exact .inl rfl
    · rw [if_neg hram]; exact .inr (.inl rfl)

theorem hostWrite_keeps (h : Coherent s) {off : Nat} (halign : off % 4 = 0) (w : Word) :
    Coherent (hostWrite off w s) ∧ (hostWrite off w s).dec = s.dec ∧
      (hostWrite off w s).coder = s.coder := by
  rcases hostWrite_cases off w s with he | he | ⟨r, he⟩ | ⟨hram, hlow, he⟩ <;> rw [he]
  · exact ⟨h, rfl, rfl⟩
  · exact ⟨h.accessError, rfl, rfl⟩
  · rcases r.write_cases s w with he | he | ⟨_, _, _, he⟩ <;> rw [he]
    · exact ⟨h.accept w, rfl, rfl⟩
    · exact ⟨h.clear w, rfl, rfl⟩
    · exact ⟨h.congr, rfl, rfl⟩
  · exact ⟨h.storeWord w halign hram hlow, rfl, rfl⟩

/-- A read changes at most ACCESS_ERR (R96, R97, R99). -/
theorem hostRead_cases (off : Nat) (s : State) :
    (hostRead off s).1 = s ∨ (hostRead off s).1 = s.accessError := by
  unfold hostRead
  cases placeOf off with
  | reg r =>
    dsimp only
    split
    · exact .inr rfl
    · exact .inl rfl
  | ram =>
    dsimp only
    split
    · exact .inr rfl
    · exact .inl rfl
  | reserved => exact .inr rfl

theorem hostStep_keeps (h : Coherent s) {a : Access} (ht : hostStep a s = .next t) :
    Coherent t ∧ t.dec = s.dec ∧ t.coder = s.coder := by
  cases a with
  | read width off =>
    unfold hostStep at ht
    dsimp only at ht
    split at ht
    · cases ht
    · split at ht
      · cases ht
        rcases hostRead_cases off s with he | he <;> rw [he]
        · exact ⟨h.congr, rfl, rfl⟩
        · exact ⟨h.accessError.congr, rfl, rfl⟩
      · cases ht; exact ⟨h.congr, rfl, rfl⟩
  | write width off w =>
    unfold hostStep at ht
    dsimp only at ht
    split at ht
    · cases ht
    · split at ht
      · next hal =>
        cases ht
        have halign : off % 4 = 0 := of_decide_eq_true (Bool.and_eq_true_iff.mp hal).2
        obtain ⟨hk, hd, hco⟩ := hostWrite_keeps h halign w
        exact ⟨hk.congr, hd, hco⟩
      · cases ht; exact ⟨h.congr, rfl, rfl⟩

/-- One step from a coherent state, whoever moves. -/
theorem step_keeps (h : Coherent s) (ht : step s = .next t) :
    Coherent t ∧ (KeepsWindow s t ∨ BadFrameAfterError s t) := by
  have engine : ∀ rest, engineStep { s with agenda := rest } = .next t →
      Coherent t ∧ (KeepsWindow s t ∨ BadFrameAfterError s t) := by
    intro rest ht
    obtain ⟨hk, hw⟩ := engineStep_keeps (s := { s with agenda := rest }) h.congr ht
    exact ⟨hk, hw.imp id fun hb => { hb with }⟩
  unfold step at ht
  split at ht
  · next ha => exact engine [] (by rw [← ha]; exact ht)
  · next rest ha => exact engine rest ht
  · next a rest ha =>
    obtain ⟨hk, hd, hco⟩ := hostStep_keeps (s := { s with agenda := rest }) h.congr ht
    exact ⟨hk, .inl (.of_dec hd hco)⟩
  · cases ht; exact ⟨reset_coherent.congr, .inl (.of_ne RcFsm.noConfusion)⟩

/-- Settles O57: each move of the host, of the engine and of `rst` keeps every relation between commands,
and R51 in full but where a bad frame enters TERMINAL from ERROR. -/
theorem stepKeepsCoherent : Obligations.StepKeepsCoherent := by
  intro s t h ht
  obtain ⟨hk, hw⟩ := step_keeps h ht
  exact ⟨hk, fun hi => hw.imp (hi.keep hk) id⟩

end Sys2Proof.Machine

/-! ## What an engine read can stop on

The only faults of a command are those of its reads of PAYLOAD below NBYTES and of X below NE
(10_state.md R57, 20_memory.md R101). Each part of a command is shown once to stop on nothing else. -/

namespace Sys2Proof.Machine

-- One proof at a time: in one file with the tests, waiting proofs would each hold a thread.
set_option Elab.async false

open Config (Roms)

variable {s t u : State} {r : Roms}

/-! ### The two engine reads -/

/-- A fault of the engine's read of a payload byte below NBYTES. -/
def PayloadFault (s : State) (f : Fault) : Prop := ∃ j < s.NBYTES, payByte s j = .error f

/-- A fault of the engine's read of a word of X below NE. -/
def SpectrumFault (s : State) (f : Fault) : Prop := ∃ i < s.NE, xElem s i = .error f

theorem payByte_error {j : Nat} {f : Fault} (h : payByte s j = .error f) :
    (f = .unwrittenPayload j ∧ j < 400 ∧ s.mem.read (PAYLOAD_BASE + j) = none) ∨
      (f = .payloadBeyondRam j ∧ 400 ≤ j) := by
  unfold payByte at h
  split at h
  · next hj =>
    split at h
    · cases h
    · next hr => cases h; exact .inl ⟨rfl, hj, hr⟩
  · next hj => cases h; exact .inr ⟨rfl, not_lt.mp hj⟩

theorem xElem_error {i : Nat} {f : Fault} (h : xElem s i = .error f) :
    f = .unwrittenX i ∧ ∃ b < 4, s.mem.read (X_BASE + 4 * i + b) = none := by
  unfold xElem at h
  split at h
  · cases h
  · next hnone =>
    cases h
    refine ⟨rfl, ?_⟩
    by_contra hall
    have written : ∀ b < 4, ∃ v, s.mem.read (X_BASE + 4 * i + b) = some v := fun b hb =>
      Option.ne_none_iff_exists'.mp fun hn => hall ⟨b, hb, hn⟩
    obtain ⟨b0, h0⟩ := written 0 (by decide)
    obtain ⟨b1, h1⟩ := written 1 (by decide)
    obtain ⟨b2, h2⟩ := written 2 (by decide)
    obtain ⟨b3, h3⟩ := written 3 (by decide)
    exact hnone b0 b1 b2 b3 h0 h1 h2 h3

/-! ### Parts of a command that stop on nothing else -/

/-- A part of a command stops only with the faults of `F`. -/
def StopsIn {α : Type} (F : Fault → Prop) (x : Except Fault α) : Prop := ∀ f, x = .error f → F f

/-- A decode stops the machine only with the faults of `F`. -/
def Decoded.stopsIn {α : Type} (F : Fault → Prop) : Decoded α → Prop
  | .ok _ _ => True
  | .fail _ _ => True
  | .fault f => F f

variable {F : Fault → Prop}

theorem StopsIn.ok {α : Type} (a : α) : StopsIn F (.ok a : Except Fault α) := nofun

theorem StopsIn.bind {α β : Type} {x : Except Fault α} {g : α → Except Fault β} (hx : StopsIn F x)
    (hg : ∀ a, StopsIn F (g a)) : StopsIn F (x >>= g) := by
  cases x with
  | ok a => exact hg a
  | error f => intro e he; cases he; exact hx f rfl

theorem Decoded.andThen_stopsIn {α β : Type} {x : Decoded α} {g : α → RangeCoder → Decoded β}
    (hx : x.stopsIn F) (hg : ∀ v c, (g v c).stopsIn F) : (x.andThen g).stopsIn F := by
  cases x with
  | ok v c => exact hg v c
  | fail e c => trivial
  | fault f => exact hx

theorem Decoded.stage_stopsIn {α : Type} {x : Decoded α} {p : Progress}
    {update : α → Progress → Progress} (hx : x.stopsIn F) : StopsIn F (x.stage p update) := by
  cases x with
  | ok v c => exact StopsIn.ok _
  | fail e c => exact StopsIn.ok _
  | fault f => intro g hg; cases hg; exact hx

theorem Stage.next_stopsIn {x : Stage} {g : Progress → Stage} (hx : StopsIn F x)
    (hg : ∀ p, StopsIn F (g p)) : StopsIn F (x.next g) := by
  match x with
  | .ok (p, none) => exact hg p
  | .ok (p, some e) => exact StopsIn.ok _
  | .error f => exact fun e he => hx e he

theorem forEach_stopsIn {act : Nat → Progress → Stage} (h : ∀ i p, StopsIn F (act i p))
    (l : List Nat) (p : Progress) : StopsIn F (forEach act l p) := by
  induction l generalizing p with
  | nil => exact StopsIn.ok _
  | cons i rest ih => exact Stage.next_stopsIn (h i p) ih

/-! ### The range decoder -/

theorem payloadByte_stopsIn (hn : 0 < s.NBYTES) (j : Nat) :
    StopsIn (PayloadFault s) (payloadByte s j) :=
  fun _ hf => ⟨s.NBYTES - 1 - j, by omega, hf⟩

theorem decSym_stopsIn (s : State) (cum : Nat → Nat) (n : Nat) (c : RangeCoder) :
    (decSym s cum n c).stopsIn (PayloadFault s) := by
  unfold decSym
  dsimp only
  split
  · trivial
  · rcases renorm_cases s _ (s.PB - c.cursor.toNat) _ _ c.cursor.toNat with
      ⟨k, -, he, -⟩ | ⟨he, -⟩ | ⟨m, hm, f, hf, he⟩
    · rw [he]; trivial
    · rw [he]; trivial
    · rw [he]
      have hpb : s.PB ≤ s.NBYTES := Nat.sub_le _ _
      exact payloadByte_stopsIn (by omega) _ f hf

theorem rawPair_stopsIn (s : State) (lev a b : Nat) (c : RangeCoder) :
    (rawPair s lev a b c).stopsIn (PayloadFault s) := by
  unfold rawPair
  split
  · trivial
  · exact Decoded.andThen_stopsIn (decSym_stopsIn s _ _ _) fun _ _ =>
      Decoded.andThen_stopsIn (decSym_stopsIn s _ _ _) fun _ _ => trivial

theorem escapeChain_stopsIn (r : Roms) (s : State) (t left lev a b : Nat) (c : RangeCoder) :
    (escapeChain r s t left lev a b c).stopsIn (PayloadFault s) := by
  induction left generalizing lev a b c with
  | zero =>
    refine Decoded.andThen_stopsIn (decSym_stopsIn s _ _ _) fun v c => ?_
    split <;> trivial
  | succ left ih =>
    refine Decoded.andThen_stopsIn (decSym_stopsIn s _ _ _) fun v c => ?_
    split
    · trivial
    · exact Decoded.andThen_stopsIn (rawPair_stopsIn s _ _ _ _) fun _ _ => ih _ _ _ _

theorem signedMagnitude_stopsIn (s : State) (a : Nat) (c : RangeCoder) :
    (signedMagnitude s a c).stopsIn (PayloadFault s) := by
  unfold signedMagnitude
  split
  · trivial
  · exact Decoded.andThen_stopsIn (decSym_stopsIn s _ _ _) fun _ _ => trivial

theorem decodeTuple_stopsIn (r : Roms) (s : State) (ctx j : Nat) (c : RangeCoder) :
    (decodeTuple r s ctx j c).stopsIn (PayloadFault s) :=
  Decoded.andThen_stopsIn (escapeChain_stopsIn r s _ _ _ _ _ _) fun _ _ =>
    Decoded.andThen_stopsIn (signedMagnitude_stopsIn s _ _) fun _ _ =>
      Decoded.andThen_stopsIn (signedMagnitude_stopsIn s _ _) fun _ _ => trivial

theorem decodeSections_stopsIn (r : Roms) (s : State) :
    StopsIn (PayloadFault s) (decodeSections r s) := by
  unfold decodeSections
  refine Stage.next_stopsIn (forEach_stopsIn (fun f p => ?_) _ _) fun p =>
    Stage.next_stopsIn (forEach_stopsIn (fun f p => ?_) _ _) fun p =>
      Stage.next_stopsIn (forEach_stopsIn (fun j p => ?_) _ _) fun p => StopsIn.ok _
  · unfold orderStage
    split
    · exact Decoded.stage_stopsIn (decSym_stopsIn s _ _ _)
    · exact StopsIn.ok _
  · exact forEach_stopsIn (fun k p => Decoded.stage_stopsIn (decSym_stopsIn s _ _ _)) _ _
  · exact Decoded.stage_stopsIn (decodeTuple_stopsIn r s _ _ _)

theorem prime_stopsIn (s : State) : StopsIn (PayloadFault s) (prime s) := by
  unfold prime
  split
  · exact StopsIn.ok _
  · next hpb =>
    have hn : 0 < s.NBYTES := by unfold State.PB at hpb; omega
    have hb := payloadByte_stopsIn hn
    intro f hf
    split at hf
    · dsimp only at hf
      split at hf <;> cases hf
    · next e h0 => cases hf; exact hb 0 _ h0
    · next e _ h1 => cases hf; exact hb 1 _ h1
    · next e _ _ h2 => cases hf; exact hb 2 _ h2

theorem rcInitBody_stopsIn (s : State) : StopsIn (PayloadFault s) (rcInitBody s) := by
  unfold rcInitBody
  dsimp only
  split
  · exact StopsIn.ok _
  · exact prime_stopsIn s.clearContext

theorem decsymBody_stopsIn (cum : Nat → Nat) (n : Nat) (s : State) :
    StopsIn (PayloadFault s) (decsymBody cum n s) := by
  intro f hf
  have hd := decSym_stopsIn s cum n s.coder
  unfold decsymBody at hf
  split at hf
  · cases hf
  · cases hf
  · next g hg => cases hf; rw [hg] at hd; exact hd

theorem rcDecodeBody_stopsIn (r : Roms) (s : State) : StopsIn (PayloadFault s) (rcDecodeBody r s) := by
  intro f hf
  unfold rcDecodeBody at hf
  split at hf
  · cases hf
  · split at hf
    · cases hf
    · split at hf
      · next g hg => cases hf; exact decodeSections_stopsIn r s _ hg
      · cases hf
      · cases hf

/-! ### Refinement -/

theorem refineFrom_stopsIn (hn : 0 < s.NBYTES) (n left : Nat) (qs : List Int) :
    StopsIn (PayloadFault s) (refineFrom s n left qs) := by
  induction qs generalizing n left with
  | nil => exact StopsIn.ok _
  | cons q rest ih =>
    intro f hf
    unfold refineFrom at hf
    split at hf
    · split at hf
      · next g hg => cases hf; exact ih _ _ _ hg
      · cases hf
    · split at hf
      · next g hg =>
        cases hf
        unfold refinementBitAt at hg
        split at hg
        · next e he => cases hg; exact payloadByte_stopsIn hn _ _ he
        · cases hg
      · split at hf
        · next g hg => cases hf; exact ih _ _ _ hg
        · cases hf

theorem resDecodeBody_stopsIn (hn : 0 < s.NBYTES) : StopsIn (PayloadFault s) (resDecodeBody s) := by
  intro f hf
  unfold resDecodeBody at hf
  dsimp only at hf
  split at hf
  · cases hf
  · split at hf
    · next g hg => cases hf; exact refineFrom_stopsIn hn _ _ _ _ hg
    · cases hf

/-! ### Side information -/

theorem sideBits_stopsIn {w p acc : Nat} (h : p + w ≤ 8 * s.NBYTES) :
    StopsIn (PayloadFault s) (sideBits s w p acc) := by
  induction w generalizing p acc with
  | zero => exact StopsIn.ok _
  | succ w ih =>
    intro f hf
    unfold sideBits at hf
    split at hf
    · next g hg =>
      cases hf
      unfold sideBit at hg
      split at hg
      · next e he => cases hg; exact ⟨p / 8, by omega, he⟩
      · cases hg
    · exact ih (by omega) f hf

theorem readField_stopsIn (s : State) (w : Nat) (rd : BitReader) :
    StopsIn (PayloadFault s) (readField s w rd) := by
  intro f hf
  unfold readField at hf
  split at hf
  · cases hf
  · split at hf
    · cases hf
    · next hfit =>
      split at hf
      · next g hg => cases hf; exact sideBits_stopsIn (not_lt.mp hfit) _ hg
      · cases hf

theorem readFieldIf_stopsIn (s : State) (present : Bool) (w : Nat) (rd : BitReader) :
    StopsIn (PayloadFault s) (readFieldIf s present w rd) := by
  cases present with
  | false => exact StopsIn.ok _
  | true => exact readField_stopsIn s w rd

theorem readTnsFlags_stopsIn (s : State) (n f : Nat) (rd : BitReader) :
    StopsIn (PayloadFault s) (readTnsFlags s n f rd) := by
  induction n generalizing f rd with
  | zero => exact StopsIn.ok _
  | succ n ih =>
    intro g hg
    unfold readTnsFlags at hg
    split at hg
    · next e he => cases hg; exact readField_stopsIn s _ _ _ he
    · split at hg
      · next e he => cases hg; exact ih _ _ _ he
      · cases hg

theorem readSideInfo_stopsIn (s : State) : StopsIn (PayloadFault s) (readSideInfo s) := by
  have field := readField_stopsIn s
  have fieldIf := readFieldIf_stopsIn s
  unfold readSideInfo
  exact StopsIn.bind (field _ _) fun _ => StopsIn.bind (field _ _) fun _ =>
    StopsIn.bind (field _ _) fun _ => StopsIn.bind (field _ _) fun _ =>
    StopsIn.bind (readTnsFlags_stopsIn s _ _ _) fun _ => StopsIn.bind (field _ _) fun _ =>
    StopsIn.bind (field _ _) fun _ => StopsIn.bind (field _ _) fun _ =>
    StopsIn.bind (field _ _) fun _ => StopsIn.bind (field _ _) fun _ =>
    StopsIn.bind (field _ _) fun _ => StopsIn.bind (field _ _) fun _ =>
    StopsIn.bind (fieldIf _ _ _) fun _ => StopsIn.bind (fieldIf _ _ _) fun _ =>
    StopsIn.bind (fieldIf _ _ _) fun _ => StopsIn.bind (fieldIf _ _ _) fun _ =>
    StopsIn.bind (field _ _) fun _ => StopsIn.ok _

theorem siUnpackBody_stopsIn (s : State) : StopsIn (PayloadFault s) (siUnpackBody s) := by
  intro f hf
  unfold siUnpackBody at hf
  split at hf
  · cases hf
  · split at hf
    · next g hg => cases hf; exact readSideInfo_stopsIn s _ hg
    · cases hf

/-! ### The encoder -/

theorem xElems_stopsIn {i n : Nat} (h : i + n ≤ s.NE) :
    StopsIn (SpectrumFault s) (xElems s i n) := by
  induction n generalizing i with
  | zero => exact StopsIn.ok _
  | succ n ih =>
    intro f hf
    unfold xElems at hf
    split at hf
    · next g hg => cases hf; exact ⟨i, by omega, hg⟩
    · split at hf
      · next g hg => cases hf; exact ih (by omega) _ hg
      · cases hf

theorem gainEstBody_stopsIn (r : Roms) (s : State) : StopsIn (SpectrumFault s) (gainEstBody r s) := by
  intro f hf
  unfold gainEstBody at hf
  split at hf
  · next g hg => cases hf; exact xElems_stopsIn (Nat.zero_add _).le _ hg
  · cases hf

theorem quantizeBody_stopsIn (r : Roms) (s : State) :
    StopsIn (SpectrumFault s) (quantizeBody r s) := by
  intro f hf
  unfold quantizeBody at hf
  split at hf
  · next g hg => cases hf; exact xElems_stopsIn (Nat.zero_add _).le _ hg
  · cases hf

theorem encodeBits_stopsIn (r : Roms) {i left : Nat} {qs : List Int} (h : i + qs.length ≤ s.NE) :
    StopsIn (SpectrumFault s) (encodeBits r s i left qs) := by
  induction qs generalizing i left with
  | nil => unfold encodeBits; exact StopsIn.ok _
  | cons q rest ih =>
    rw [List.length_cons] at h
    cases left with
    | zero => unfold encodeBits; exact StopsIn.ok _
    | succ left =>
      intro f hf
      unfold encodeBits at hf
      split at hf
      · exact ih (by omega) f hf
      · split at hf
        · next g hg => cases hf; exact ⟨i, by omega, hg⟩
        · split at hf
          · next g hg => cases hf; exact ih (by omega) _ hg
          · cases hf

theorem xqElems_length (s : State) (n : Nat) : (xqElems s n).length = n := by simp [xqElems]

theorem resEncodeBody_stopsIn (r : Roms) (s : State) :
    StopsIn (SpectrumFault s) (resEncodeBody r s) := by
  intro f hf
  unfold resEncodeBody at hf
  dsimp only at hf
  split at hf
  · next g hg => cases hf; exact encodeBits_stopsIn r (by rw [xqElems_length]; omega) _ hg
  · cases hf

/-! ### DECODE_FRAME -/

/-- `t` has the configuration, the payload and the spectrum of `s`. -/
structure SameInputs (s t : State) : Prop where
  cfg : t.cfg = s.cfg
  mem : ∀ a < XQ_BASE, t.mem.read a = s.mem.read a

theorem SameInputs.of_mem (hcfg : t.cfg = s.cfg) (hmem : t.mem = s.mem) : SameInputs s t :=
  ⟨hcfg, fun _ _ => by rw [hmem]⟩

theorem SameInputs.trans (h : SameInputs s t) (h' : SameInputs t u) : SameInputs s u :=
  ⟨h'.cfg.trans h.cfg, fun a ha => (h'.mem a ha).trans (h.mem a ha)⟩

theorem SameInputs.nbytes (h : SameInputs s t) : t.NBYTES = s.NBYTES := by
  unfold State.NBYTES; rw [h.cfg]

theorem SameInputs.payByte (h : SameInputs s t) (j : Nat) : payByte t j = payByte s j := by
  unfold Machine.payByte
  split
  · next hj =>
    have hlt : PAYLOAD_BASE + j < XQ_BASE := by
      unfold Config.BYTES_MAX at hj; unfold PAYLOAD_BASE XQ_BASE; omega
    rw [h.mem _ hlt]
  · rfl

theorem SameInputs.payloadFault (h : SameInputs s t) {f : Fault} (hf : PayloadFault t f) :
    PayloadFault s f := by
  obtain ⟨j, hj, he⟩ := hf
  exact ⟨j, by rw [← h.nbytes]; exact hj, by rw [← h.payByte]; exact he⟩

theorem siUnpackBody_sameInputs (h : siUnpackBody s = .ok u) : SameInputs s u := by
  unfold siUnpackBody at h
  split at h
  · cases h; exact .of_mem rfl rfl
  · split at h
    · cases h
    · cases h; exact .of_mem rfl rfl

theorem prime_sameInputs (h : prime s = .ok u) : SameInputs s u := by
  unfold prime at h
  split at h
  · cases h; exact .of_mem rfl rfl
  · split at h
    · dsimp only at h
      split at h <;> cases h <;> exact .of_mem rfl rfl
    · cases h
    · cases h
    · cases h

theorem rcInitBody_sameInputs (h : rcInitBody s = .ok u) : SameInputs s u := by
  unfold rcInitBody at h
  dsimp only at h
  split at h
  · cases h; exact .of_mem rfl rfl
  · exact .trans (.of_mem (t := s.clearContext) rfl rfl) (prime_sameInputs h)

theorem applyProgress_sameInputs (s : State) (p : Progress) (f : RcFsm) (b : BitVec 10) :
    SameInputs s (s.applyProgress p f b) where
  cfg := rfl
  mem := fun a ha => by
    rw [State.applyProgress_mem, s.mem.read_store_outside (by omega)]

theorem rcDecodeBody_sameInputs (h : rcDecodeBody r s = .ok u) : SameInputs s u := by
  have hp := applyProgress_sameInputs s
  rcases rcDecodeBody_cases h with ⟨-, rfl⟩ | ⟨-, rfl⟩ | ⟨-, -, ⟨p, e, -, rfl⟩ | ⟨p, -, rfl⟩⟩
  · exact { hp _ .terminal 0 with }
  · exact hp _ _ _
  · exact { hp p .error 0 with }
  · exact hp _ _ _

/-- One body after another stops only on the inputs of the first state, where the first keeps them. -/
theorem thenBody_stopsIn {f g : State → Except Fault State} (hf : StopsIn (PayloadFault s) (f s))
    (hg : ∀ v, f s = .ok v → SameInputs s v ∧ StopsIn (PayloadFault v) (g v)) :
    StopsIn (PayloadFault s) (thenBody f g s) := by
  intro e he
  unfold thenBody at he
  split at he
  · next e' he' => cases he; exact hf _ he'
  · next v hv =>
    obtain ⟨hsame, hstop⟩ := hg v hv
    exact hsame.payloadFault (hstop e he)

theorem decodeFrameBody_stopsIn (r : Roms) (hn : 0 < s.NBYTES) :
    StopsIn (PayloadFault s) (decodeFrameBody r s) := by
  refine thenBody_stopsIn (siUnpackBody_stopsIn s) fun s1 h1 => ⟨siUnpackBody_sameInputs h1, ?_⟩
  have hn1 := (siUnpackBody_sameInputs h1).nbytes
  refine thenBody_stopsIn (rcInitBody_stopsIn s1) fun s2 h2 => ⟨rcInitBody_sameInputs h2, ?_⟩
  have hn2 := (rcInitBody_sameInputs h2).nbytes
  refine thenBody_stopsIn (rcDecodeBody_stopsIn r s2) fun s3 h3 => ⟨rcDecodeBody_sameInputs h3, ?_⟩
  have hn3 := (rcDecodeBody_sameInputs h3).nbytes
  intro f hf
  unfold thenBody at hf
  split at hf
  · next e he => cases hf; exact resDecodeBody_stopsIn (by omega) _ he
  · cases hf

/-! ### Every command -/

/-- A legal decode configuration bounds the payload by its RAM, so that the fault names an unwritten
byte. -/
theorem PayloadFault.unwritten {f : Fault} (h : PayloadFault s f) (hcfg : decodeConfigOk s = true) :
    ∃ j, f = .unwrittenPayload j ∧ j < s.NBYTES ∧ s.mem.read (PAYLOAD_BASE + j) = none := by
  obtain ⟨-, ⟨-, hle⟩, -⟩ := decodeConfigOk_iff.mp hcfg
  obtain ⟨j, hj, he⟩ := h
  rcases payByte_error he with ⟨hf, -, hr⟩ | ⟨-, hge⟩
  · exact ⟨j, hf, hj, hr⟩
  · omega

theorem PayloadFault.names {f : Fault} (h : PayloadFault s f) :
    (∃ j, f = .unwrittenPayload j ∧ j < s.NBYTES ∧ s.mem.read (PAYLOAD_BASE + j) = none) ∨
      ∃ j, f = .payloadBeyondRam j ∧ 400 ≤ j ∧ j < s.NBYTES := by
  obtain ⟨j, hj, he⟩ := h
  rcases payByte_error he with ⟨hf, -, hr⟩ | ⟨hf, hge⟩
  · exact .inl ⟨j, hf, hj, hr⟩
  · exact .inr ⟨j, hf, hge, hj⟩

/-- What each command can stop on: no command but the decode commands reads the payload under a checked
configuration, RC_DECSYM and RC_DECBIT read it under any, and the encoder reads the spectrum. -/
theorem bodyOf_stops {i : Instr} {f : Fault} (hc : firstError (checksOf s i) = none)
    (hf : bodyOf i s = .error f) :
    (PayloadFault s f ∧ decodeConfigOk s = true) ∨
      (PayloadFault s f ∧ (i = .rcDecbit ∨ ∃ cls id, i = .rcDecsym cls id)) ∨ SpectrumFault s f := by
  have config : (!decodeConfigOk s, CmdError.configErr) ∈ checksOf s i →
      decodeConfigOk s = true ∧ 0 < s.NBYTES := fun hmem => by
    have hcfg : decodeConfigOk s = true := by simpa using firstError_eq_none.mp hc _ hmem
    obtain ⟨-, ⟨hn, -⟩, -⟩ := decodeConfigOk_iff.mp hcfg
    exact ⟨hcfg, by omega⟩
  cases i with
  | nop => cases hf
  | frameStart => cases hf
  | pvqDeenum => cases hf
  | pvqShape => cases hf
  | gainAdj => cases hf
  | rcInit => exact .inl ⟨rcInitBody_stopsIn s f hf, (config (by simp [checksOf])).1⟩
  | rcDecode => exact .inl ⟨rcDecodeBody_stopsIn _ s f hf, (config (by simp [checksOf])).1⟩
  | siUnpack => exact .inl ⟨siUnpackBody_stopsIn s f hf, (config (by simp [checksOf])).1⟩
  | resDecode =>
    obtain ⟨hcfg, hn⟩ := config (by simp [checksOf])
    exact .inl ⟨resDecodeBody_stopsIn hn f hf, hcfg⟩
  | decodeFrame =>
    obtain ⟨hcfg, hn⟩ := config (by simp [checksOf])
    exact .inl ⟨decodeFrameBody_stopsIn _ hn f hf, hcfg⟩
  | rcDecsym cls id =>
    exact .inr (.inl ⟨decsymBody_stopsIn _ _ s f hf, .inr ⟨cls, id, rfl⟩⟩)
  | rcDecbit => exact .inr (.inl ⟨decsymBody_stopsIn _ _ s f hf, .inl rfl⟩)
  | gainEst => exact .inr (.inr (gainEstBody_stopsIn _ s f hf))
  | quantize => exact .inr (.inr (quantizeBody_stopsIn _ s f hf))
  | resEncode => exact .inr (.inr (resEncodeBody_stopsIn _ s f hf))

/-- Settles O43: no command is refused, and a fault is that of one of the two engine reads. -/
theorem faultsNameTheElementRead : Obligations.FaultsNameTheElementRead := by
  intro i s
  rw [exec_eq_runCommand]
  refine ⟨fun r => runCommand_not_refused, fun f hf => ?_⟩
  obtain ⟨hc, hb⟩ := runCommand_fault hf
  rcases bodyOf_stops hc hb with ⟨hp, hcfg⟩ | ⟨hp, hi⟩ | ⟨i, hi, he⟩
  · exact .inl (hp.unwritten hcfg)
  · exact hp.names.imp id fun ⟨j, hj, hge, hlt⟩ => .inr ⟨j, hj, hge, hlt, hi⟩
  · obtain ⟨hx, hnone⟩ := xElem_error he
    exact .inr (.inl ⟨i, hx, hi, hnone⟩)

end Sys2Proof.Machine

/-! ## The registers of the host window

Each register lies at its own offset, so that an access to the offset is an access to the register. What a
register reads as and what a write to it keeps are then facts about its fields. -/

namespace Sys2Proof.Machine

-- One proof at a time: in one file with the tests, waiting proofs would each hold a thread.
set_option Elab.async false

variable {s : State}

/-! ### Offsets (20_memory.md R91) -/

theorem mem_allRegs (r : Reg) : r ∈ allRegs := by
  cases r with
  | pvqVec i => simp [allRegs, regArrays]
  | tnsOrder f => simp [allRegs, regArrays]
  | tnsCoef fk => simp [allRegs, regArrays]
  | snsY i => simp [allRegs, regArrays]
  | _ => decide

theorem ofOffset_offset (r : Reg) : Reg.ofOffset r.offset = some r := by
  have all : ∀ r ∈ allRegs, Reg.ofOffset r.offset = some r := by decide +kernel
  exact all r (mem_allRegs r)

@[simp] theorem placeOf_offset (r : Reg) : placeOf r.offset = .reg r := by
  rw [placeOf, ofOffset_offset]

/-! ### Accesses to a register (20_memory.md R96, R99) -/

theorem hostRead_idle (hb : s.busy = false) (r : Reg) : hostRead r.offset s = (s, r.read s) := by
  simp [hostRead, hb]

theorem hostRead_readable (s : State) {r : Reg} (hr : r.readableWhileBusy = true) :
    hostRead r.offset s = (s, r.read s) := by
  simp [hostRead, hr]

theorem hostWrite_idle (hb : s.busy = false) (r : Reg) (w : Word) :
    hostWrite r.offset w s = r.write s w := by
  simp [hostWrite, hb]

theorem hostWrite_writable (s : State) {r : Reg} (hr : r.writableWhileBusy = true) (w : Word) :
    hostWrite r.offset w s = r.write s w := by
  simp [hostWrite, hr]

/-! ### The constant registers (10_state.md R32 to R34) -/

theorem hostRead_id (s : State) : (hostRead 0x000 s).2 = 0x50564431#32 :=
  congrArg Prod.snd (hostRead_readable s (r := .id) rfl)

theorem hostRead_param0 (s : State) : (hostRead 0x004 s).2 = 0x15064190#32 :=
  congrArg Prod.snd (hostRead_readable s (r := .param0) rfl)

theorem hostRead_param1 (s : State) : (hostRead 0x008 s).2 = 0x10040A8E#32 :=
  congrArg Prod.snd (hostRead_readable s (r := .param1) rfl)

/-- Settles O54: the three registers may be read at any time, and what they read does not depend on the
state. -/
theorem constantRegisters : Obligations.ConstantRegisters := fun _ _ =>
  ⟨hostRead_id _, hostRead_param0 _, hostRead_param1 _, hostRead_id _, hostRead_param0 _,
    hostRead_param1 _⟩

/-! ### Fields of words -/

theorem bit_eq_toNat (b : Bool) : bit b = b.toNat := by cases b <;> rfl

theorem bit_getLsbD (w : Word) (i : Nat) : bit (w.getLsbD i) = w.toNat / 2 ^ i % 2 := by
  rw [bit_eq_toNat, BitVec.getLsbD, Nat.toNat_testBit]

theorem toNat_extract (w : Word) (lo n : Nat) :
    (w.extractLsb' lo n).toNat = w.toNat / 2 ^ lo % 2 ^ n := by
  rw [BitVec.extractLsb'_toNat, Nat.shiftRight_eq_div_pow]

theorem toNat_and_mask (w : Word) {n : Nat} (hn : n ≤ 32) :
    (w &&& BitVec.ofNat 32 (2 ^ n - 1)).toNat = w.toNat % 2 ^ n := by
  have hle : 2 ^ n ≤ 2 ^ 32 := Nat.pow_le_pow_right (by decide) hn
  rw [BitVec.toNat_and, BitVec.toNat_ofNat, Nat.mod_eq_of_lt (by omega), Nat.and_two_pow_sub_one_eq_mod]

/-- An unsigned field keeps the low bits of the word written. -/
theorem zext_setWidth (w : Word) {n : Nat} (hn : n ≤ 32) :
    zext (w.setWidth n) = w &&& BitVec.ofNat 32 (2 ^ n - 1) := by
  apply BitVec.eq_of_toNat_eq
  rw [toNat_and_mask w hn, zext, BitVec.toNat_setWidth, BitVec.toNat_setWidth]
  exact Nat.mod_eq_of_lt ((Nat.mod_le _ _).trans_lt w.isLt)

theorem flagWord_getLsbD (w : Word) : flagWord (w.getLsbD 0) = w &&& 0x1#32 := by
  apply BitVec.eq_of_toNat_eq
  have hm := toNat_and_mask w (n := 1) (by decide)
  rw [show 0x1#32 = BitVec.ofNat 32 (2 ^ 1 - 1) from rfl, hm, flagWord, bit_getLsbD,
    BitVec.toNat_ofNat]
  omega

theorem irqEnable_word_ofWord (w : Word) : (IrqEnable.ofWord w).word = w &&& 0x3#32 := by
  apply BitVec.eq_of_toNat_eq
  rw [show 0x3#32 = BitVec.ofNat 32 (2 ^ 2 - 1) from rfl, toNat_and_mask w (by decide)]
  simp only [IrqEnable.word, IrqEnable.ofWord, flagAt, bit_getLsbD, BitVec.toNat_ofNat]
  omega

theorem mode_word_ofWord (w : Word) : (Mode.ofWord w).word = w &&& 0xFF#32 := by
  apply BitVec.eq_of_toNat_eq
  rw [show 0xFF#32 = BitVec.ofNat 32 (2 ^ 8 - 1) from rfl, toNat_and_mask w (by decide)]
  simp only [Mode.word, Mode.ofWord, flagAt, bit_getLsbD, toNat_extract, BitVec.toNat_ofNat]
  omega

/-- The two fields of CFG_GG make up the low half of the word written. -/
theorem extract_append_extract (w : Word) :
    w.extractLsb' 8 8 ++ w.extractLsb' 0 8 = (w.setWidth 16 : BitVec 16) := by
  apply BitVec.eq_of_getLsbD_eq
  intro i hi
  simp only [BitVec.getLsbD_append, BitVec.getLsbD_extractLsb', BitVec.getLsbD_setWidth]
  by_cases h : i < 8
  · simp [h, hi]
  · simp [h, hi, show i - 8 < 8 by omega, show 8 + (i - 8) = i by omega]

/-! ### What a write keeps (10_state.md R37, R39, R40, R42, R43) -/

/-- The registers that hold what the host writes: the configuration, the operands and IRQ_EN. -/
def hostRegs : List Reg := readBack.map fun p => p.2.1

/-- A write to such a register changes the enables, the configuration and the operands only. -/
theorem Reg.write_hostRegs {r : Reg} (hr : r ∈ hostRegs) (s : State) (w : Word) :
    ∃ irqEn cfg pvqIn, r.write s w = { s with irqEn := irqEn, cfg := cfg, pvqIn := pvqIn } := by
  cases r
  case cmd => exact absurd hr (by decide)
  case status => exact absurd hr (by decide)
  all_goals exact ⟨_, _, _, rfl⟩

/-- Every other register reads none of these fields. -/
theorem Reg.read_of_not_mem_hostRegs {r : Reg} (hr : r ∉ hostRegs) (s : State) (irqEn : IrqEnable)
    (cfg : FrameConfig) (pvqIn : PvqOperands) :
    r.read { s with irqEn := irqEn, cfg := cfg, pvqIn := pvqIn } = r.read s := by
  cases r
  all_goals first | rfl | exact absurd (by decide) hr

/-- Registers that the host writes are independent of each other. -/
theorem Reg.read_write_of_ne {r r' : Reg} (hr : r ∈ hostRegs) (hne : r' ≠ r) (s : State)
    (w : Word) : r'.read (r.write s w) = r'.read s := by
  by_cases hr' : r' ∈ hostRegs
  · simp only [hostRegs, readBack, List.map_cons, List.map_nil] at hr hr'
    fin_cases hr <;> fin_cases hr'
    all_goals first | rfl | exact absurd rfl hne
  · obtain ⟨irqEn, cfg, pvqIn, he⟩ := r.write_hostRegs hr s w
    rw [he, r'.read_of_not_mem_hostRegs hr']

/-- Each register reads back the fields of the word written to it. -/
theorem Reg.read_write_self (s : State) (w : Word) :
    ∀ p ∈ readBack, p.1 = p.2.1.offset ∧ p.2.1.read (p.2.1.write s w) = p.2.2 w := by
  have unsigned : ∀ n, n ≤ 32 → zext (w.setWidth n) = w &&& BitVec.ofNat 32 (2 ^ n - 1) :=
    fun _ => zext_setWidth w
  simp only [readBack, List.forall_mem_cons]
  exact ⟨⟨rfl, irqEnable_word_ofWord w⟩, ⟨rfl, unsigned 10 (by decide)⟩,
    ⟨rfl, unsigned 10 (by decide)⟩, ⟨rfl, mode_word_ofWord w⟩, ⟨rfl, rfl⟩,
    ⟨rfl, congrArg sext (extract_append_extract w)⟩, ⟨rfl, unsigned 16 (by decide)⟩,
    ⟨rfl, unsigned 16 (by decide)⟩, ⟨rfl, unsigned 16 (by decide)⟩, ⟨rfl, unsigned 16 (by decide)⟩,
    ⟨rfl, rfl⟩, ⟨rfl, rfl⟩, ⟨rfl, unsigned 16 (by decide)⟩, ⟨rfl, unsigned 16 (by decide)⟩,
    ⟨rfl, unsigned 8 (by decide)⟩, ⟨rfl, unsigned 5 (by decide)⟩, ⟨rfl, unsigned 4 (by decide)⟩,
    ⟨rfl, rfl⟩, ⟨rfl, flagWord_getLsbD w⟩, fun _ h => absurd h List.not_mem_nil⟩

/-- Settles O53: a write to one of these registers is read back by field, and reaches no other
register. -/
theorem configurationReadsBack : Obligations.ConfigurationReadsBack := by
  intro p hp s w hb t
  have hr : p.2.1 ∈ hostRegs := List.mem_map_of_mem hp
  obtain ⟨hoff, hself⟩ := Reg.read_write_self s w p hp
  obtain ⟨irqEn, cfg, pvqIn, he⟩ := p.2.1.write_hostRegs hr s w
  have ht : t = p.2.1.write s w := by
    show hostWrite p.1 w s = _
    rw [hoff, hostWrite_idle hb]
  have hpend : t.pending = none := by
    rw [ht, he]; simpa [State.busy] using hb
  refine ⟨?_, by rw [ht, he], hpend, fun r _ hne => by rw [ht]; exact Reg.read_write_of_ne hr hne s w⟩
  rw [hoff, hostRead_idle (by rw [State.busy, hpend]; rfl), ht, hself]

/-! ### STATUS, FSTAT and the results as read (10_state.md R35, R36, R44 to R54) -/

theorem toNat_append_eq_add {n m : Nat} (x : BitVec n) (y : BitVec m) :
    (x ++ y).toNat = x.toNat * 2 ^ m + y.toNat := by
  rw [BitVec.toNat_append, ← Nat.shiftLeft_add_eq_or_of_lt y.isLt, Nat.shiftLeft_eq]

theorem toNat_ofBool (b : Bool) : (BitVec.ofBool b).toNat = bit b := by cases b <;> rfl

/-- The host reads every field of STATUS at its bits. -/
theorem statusWord_eq_append (s : State) :
    s.statusWord = 0#16 ++ s.status.errcode ++ 0#4 ++ BitVec.ofBool s.status.accessErr ++
      BitVec.ofBool s.status.err ++ BitVec.ofBool s.status.done ++ BitVec.ofBool s.busy := by
  apply BitVec.eq_of_toNat_eq
  have herr := s.status.errcode.isLt
  have h0 := bit_lt_two s.busy
  have h1 := bit_lt_two s.status.done
  have h2 := bit_lt_two s.status.err
  have h3 := bit_lt_two s.status.accessErr
  simp only [State.statusWord, flagAt, BitVec.toNat_ofNat, toNat_append_eq_add, toNat_ofBool]
  omega

/-- The host reads every field of FSTAT at its bits. -/
theorem fstatWord_eq_append (f : FrameStatus) :
    f.word = 0#8 ++ f.biterrCause ++ f.adjCount ++ f.qCount ++ 0#1 ++
      BitVec.ofBool f.resencValid ++ BitVec.ofBool f.qValid ++ BitVec.ofBool f.gestValid ++
      BitVec.ofBool f.shapeValid ++ BitVec.ofBool f.resValid ++ BitVec.ofBool f.rcValid ++
      BitVec.ofBool f.siValid ++ 0#2 ++ BitVec.ofBool f.bfiSeen ++ BitVec.ofBool f.requant ++
      BitVec.ofBool f.zeroFrame ++ BitVec.ofBool f.budgetFlag ++ BitVec.ofBool f.pvqErr ++
      BitVec.ofBool f.biterr := by
  apply BitVec.eq_of_toNat_eq
  have hcause := f.biterrCause.isLt
  have hadj := f.adjCount.isLt
  have hq := f.qCount.isLt
  have h0 := bit_lt_two f.biterr
  have h1 := bit_lt_two f.pvqErr
  have h2 := bit_lt_two f.budgetFlag
  have h3 := bit_lt_two f.zeroFrame
  have h4 := bit_lt_two f.requant
  have h5 := bit_lt_two f.bfiSeen
  have h8 := bit_lt_two f.siValid
  have h9 := bit_lt_two f.rcValid
  have h10 := bit_lt_two f.resValid
  have h11 := bit_lt_two f.shapeValid
  have h12 := bit_lt_two f.gestValid
  have h13 := bit_lt_two f.qValid
  have h14 := bit_lt_two f.resencValid
  simp only [FrameStatus.word, flagAt, BitVec.toNat_ofNat, toNat_append_eq_add, toNat_ofBool]
  omega

theorem status_clear (st : Status) (w : Word) :
    st.clear w =
      { done := if w.getLsbD 1 then false else st.done
        err := if w.getLsbD 2 then false else st.err
        accessErr := if w.getLsbD 3 then false else st.accessErr
        errcode := if w.getLsbD 2 then 0 else st.errcode } := by
  unfold Status.clear
  cases w.getLsbD 1 <;> cases w.getLsbD 2 <;> cases w.getLsbD 3 <;> simp

theorem toNat_zext {n : Nat} (v : BitVec n) (hn : n ≤ 32) : (zext v).toNat = v.toNat := by
  have hle : 2 ^ n ≤ 2 ^ 32 := Nat.pow_le_pow_right (by decide) hn
  rw [zext, BitVec.toNat_setWidth, Nat.mod_eq_of_lt (v.isLt.trans_le hle)]

theorem toNat_flagWord (b : Bool) : (flagWord b).toNat = b.toNat := by cases b <;> rfl

theorem toInt_sext {n : Nat} (v : BitVec n) (hn : n ≤ 32) : (sext v).toInt = v.toInt :=
  BitVec.toInt_signExtend_of_le hn

/-- The result registers that hold an unsigned number, in the order of `unsignedResults`. -/
def unsignedRegs : List Reg :=
  [.pvqSize, .scaleM, .gestRaw, .lastnz, .lastnzFull, .nnz, .qEst, .qEstFull, .qEstLsbFull,
    .qRawbits, .qLsbMode, .resNbits, .siBw, .siLastnz, .siLsb, .siGg, .siTns, .siPitch, .siSnsLf,
    .siSnsHf, .siSnsShape, .siSnsGain, .siSnsLsa, .siSnsIdxA, .siSnsLsb, .siSnsIdxB, .siPitchIdx,
    .siLtpf, .siNf, .siBits, .siBytes, .rcLow, .rcRange, .rcCursor, .rcCtx, .rcFsm, .rcSym, .rcBytes,
    .rcTuples]

theorem unsignedResults_eq (s : State) :
    unsignedResults s = unsignedRegs.map fun r => (r.offset, (r.read s).toNat) := by
  simp [unsignedResults, unsignedRegs, Reg.offset, Reg.read, toNat_zext, toNat_flagWord]

/-- The result registers that hold a signed number, in the order of `signedResults`. -/
def signedRegs : List Reg := [.scaleE, .nbOff, .tEff]

theorem signedResults_eq (s : State) :
    signedResults s = signedRegs.map fun r => (r.offset, (r.read s).toInt) := by
  simp [signedResults, signedRegs, Reg.offset, Reg.read, toInt_sext]

theorem hostRead_unsigned (hb : s.busy = false) :
    ∀ p ∈ unsignedResults s, hostRead p.1 s = (s, BitVec.ofNat 32 p.2) := by
  rw [unsignedResults_eq]
  intro p hp
  obtain ⟨r, -, rfl⟩ := List.mem_map.mp hp
  rw [hostRead_idle hb, BitVec.ofNat_toNat, BitVec.setWidth_eq]

theorem hostRead_signed (hb : s.busy = false) :
    ∀ p ∈ signedResults s, hostRead p.1 s = (s, BitVec.ofInt 32 p.2) := by
  rw [signedResults_eq]
  intro p hp
  obtain ⟨r, -, rfl⟩ := List.mem_map.mp hp
  rw [hostRead_idle hb, BitVec.ofInt_toInt]

/-- Settles O60: each register is read at its offset as the number of its fields. -/
theorem statusAndResultsAsRead : Obligations.StatusAndResultsAsRead := by
  refine ⟨fun s => ⟨?_, ?_⟩, fun s w => ?_, fun s hb => ⟨hostRead_unsigned hb, hostRead_signed hb,
    fun i => ?_, fun f => ?_, fun fk => ?_, fun i => ?_⟩, rfl, rfl, rfl, rfl, rfl, rfl, rfl, rfl⟩
  · rw [← statusWord_eq_append]; exact hostRead_readable s (r := .status) rfl
  · rw [← fstatWord_eq_append]; exact hostRead_readable s (r := .fstat) rfl
  · rw [← status_clear]; exact hostWrite_writable s (r := .status) rfl w
  · rw [BitVec.ofInt_toInt]; exact hostRead_idle hb (.pvqVec i)
  · rw [BitVec.ofNat_toNat]; exact hostRead_idle hb (.tnsOrder f)
  · rw [BitVec.ofNat_toNat]; exact hostRead_idle hb (.tnsCoef fk)
  · rw [BitVec.ofInt_toInt]; exact hostRead_idle hb (.snsY i)

end Sys2Proof.Machine

/-! ## The default tables round real numbers

The default tables are computed with whole numbers only. Each search is shown to find what it looks for, and
then what it finds is compared with the real number of the rule. -/

namespace Sys2Proof.Machine

-- One proof at a time: in one file with the tests, waiting proofs would each hold a thread.
set_option Elab.async false

open Config (Roms)

/-! ### The tables of the block -/

theorem blockRoms_log2 (i : Nat) : blockRoms.log2 i = defaultLog2 i := by unfold blockRoms; rfl

theorem blockRoms_scale (g : Int) : blockRoms.scale g = defaultScale g := by unfold blockRoms; rfl

theorem blockRoms_bitcost (id s : Nat) :
    blockRoms.bitcost id s = bitcostOf (blockRoms.cf id (s + 1) - blockRoms.cf id s) := by
  simp only [blockRoms, withDefaults, defaultBitcost]

/-! ### The searches -/

/-! The numbers compared have up to 2^21 bits. Their bound stays the power that it is: an arithmetic tactic
that sees it as a hypothesis writes the number out. -/

/-- The search ends where the property holds last. -/
theorem searchBits_spec {p : Nat → Bool} {n m : Nat} (hm : p m = true) (htop : p (m + 2 ^ n) = false) :
    p (searchBits p n m) = true ∧ p (searchBits p n m + 1) = false := by
  induction n generalizing m with
  | zero => exact ⟨hm, htop⟩
  | succ n ih =>
    unfold searchBits
    split
    · next h => exact ih h (by rw [add_assoc, ← two_mul, ← pow_succ']; exact htop)
    · next h => exact ih hm (by simpa using h)

theorem floorLog2_spec {N : Nat} (h0 : 0 < N) (hN : N < 2 ^ 2 ^ 21) :
    2 ^ floorLog2 N ≤ N ∧ N < 2 ^ (floorLog2 N + 1) := by
  have h := searchBits_spec (p := fun m => decide (2 ^ m ≤ N)) (n := 21) (m := 0)
    (decide_eq_true (by rw [pow_zero]; exact h0))
    (decide_eq_false (by rw [zero_add]; exact not_le.mpr hN))
  exact ⟨of_decide_eq_true h.1, not_le.mp (of_decide_eq_false h.2)⟩

theorem floorLog2_mono {N M : Nat} (h0 : 0 < N) (hle : N ≤ M) (hM : M < 2 ^ 2 ^ 21) :
    floorLog2 N ≤ floorLog2 M := by
  have hN := (floorLog2_spec h0 (hle.trans_lt hM)).1
  have hM := (floorLog2_spec (h0.trans_le hle) hM).2
  exact Nat.lt_succ_iff.mp ((Nat.pow_lt_pow_iff_right one_lt_two).mp ((hN.trans hle).trans_lt hM))

/-- The position of the leading 1 of a power is the floor of its logarithm. -/
theorem floorLog2_pow {b K : Nat} (hb : 0 < b) (hlt : b ^ K < 2 ^ 2 ^ 21) :
    (floorLog2 (b ^ K) : ℝ) ≤ K * Real.logb 2 b ∧ K * Real.logb 2 b < floorLog2 (b ^ K) + 1 := by
  obtain ⟨hle, hgt⟩ := floorLog2_spec (Nat.pow_pos hb) hlt
  have hpos : (0 : ℝ) < (b : ℝ) ^ K := by positivity
  rw [← Real.logb_pow]
  constructor
  · rw [Real.le_logb_iff_rpow_le one_lt_two hpos, Real.rpow_natCast]
    exact_mod_cast hle
  · rw [Real.logb_lt_iff_lt_rpow one_lt_two hpos]
    have : (b : ℝ) ^ K < 2 ^ (floorLog2 (b ^ K) + 1) := by exact_mod_cast hgt
    exact_mod_cast this

/-- Half of a number lies within half a unit of the half, rounded up, of its floor. -/
theorem abs_half_sub_le {y : ℝ} {m : Nat} (h : (m : ℝ) ≤ y) (h' : y < m + 1) :
    |y / 2 - ((m + 1) / 2 : Nat)| ≤ 1 / 2 := by
  obtain ⟨k, rfl | rfl⟩ := Nat.even_or_odd' m
  · rw [show (2 * k + 1) / 2 = k by omega]
    push_cast at h h'
    rw [abs_le]; constructor <;> linarith
  · rw [show (2 * k + 1 + 1) / 2 = k + 1 by omega]
    push_cast at h h' ⊢
    rw [abs_le]; constructor <;> linarith

theorem logb_two_pow (n : Nat) : Real.logb 2 ((2 : ℝ) ^ n) = n := by
  rw [Real.logb_pow, Real.logb_self_eq_one one_lt_two, mul_one]

/-! ### LOG2_ROM (10_state.md R75) -/

theorem pow_le_two_pow {b K n : Nat} (hb : b ≤ 2 ^ n) : b ^ K ≤ 2 ^ (n * K) := by
  rw [pow_mul]; exact Nat.pow_le_pow_left hb K

theorem pow_le_of_le_two_pow {b K n : Nat} (hb : b ≤ 2 ^ n) (hn : n * K ≤ 2 ^ 21) :
    b ^ K ≤ 2 ^ 2 ^ 21 :=
  (pow_le_two_pow hb).trans (Nat.pow_le_pow_right (by decide) hn)

theorem pow_lt_of_lt_two_pow {b K n : Nat} (hb : b < 2 ^ n) (hK : K ≠ 0) (hn : n * K ≤ 2 ^ 21) :
    b ^ K < 2 ^ 2 ^ 21 :=
  calc b ^ K < (2 ^ n) ^ K := Nat.pow_lt_pow_left hb hK
    _ = 2 ^ (n * K) := (pow_mul 2 n K).symm
    _ ≤ 2 ^ 2 ^ 21 := Nat.pow_le_pow_right (by decide) hn

theorem defaultLog2_round {i : Nat} (hi : i < 256) :
    |65536 * Real.logb 2 (1 + (i : ℝ) / 256) - (defaultLog2 i : ℝ)| ≤ 1 / 2 := by
  obtain ⟨hle, hlt⟩ := floorLog2_pow (b := 256 + i) (K := 131072) (by omega)
    (pow_lt_of_lt_two_pow (n := 9) (by omega) (by decide) (by decide))
  have hlog : Real.logb 2 ((256 + i : Nat) : ℝ) = 8 + Real.logb 2 (1 + (i : ℝ) / 256) := by
    have h8 := logb_two_pow 8
    rw [show ((256 + i : Nat) : ℝ) = 2 ^ 8 * (1 + (i : ℝ) / 256) by push_cast; ring,
      Real.logb_mul (by positivity) (by positivity), h8]
    norm_num
  have hnonneg : 0 ≤ Real.logb 2 (1 + (i : ℝ) / 256) :=
    Real.logb_nonneg one_lt_two (le_add_of_nonneg_right (by positivity))
  rw [hlog] at hle hlt
  unfold defaultLog2
  generalize hq : floorLog2 ((256 + i) ^ 131072) = q at hle hlt ⊢
  push_cast at hle hlt
  have hge : 8 * 131072 ≤ q := by
    have : ((8 * 131072 : Nat) : ℝ) < q + 1 := by push_cast; linarith
    exact Nat.lt_succ_iff.mp (by exact_mod_cast this)
  have hcast : ((q - 8 * 131072 : Nat) : ℝ) = q - 8 * 131072 := by
    rw [Nat.cast_sub hge]; push_cast; ring
  have h := abs_half_sub_le (y := 131072 * Real.logb 2 (1 + (i : ℝ) / 256)) (m := q - 8 * 131072)
    (by rw [hcast]; linarith) (by rw [hcast]; linarith)
  rwa [show 131072 * Real.logb 2 (1 + (i : ℝ) / 256) / 2 =
    65536 * Real.logb 2 (1 + (i : ℝ) / 256) by ring] at h

/-! ### BITCOST_ROM (R74) -/

/-- The least exponent of a power of 2 that reaches N. -/
def leastExponent (N : Nat) : Nat := if N ≤ 1 then 0 else floorLog2 (N - 1) + 1

theorem bitcostOf_eq {F : Nat} (hF : F ≠ 0) :
    bitcostOf F = (40960 - leastExponent (F ^ 4096) + 1) / 2 := by
  unfold bitcostOf leastExponent
  rw [if_neg hF]
  rfl

theorem leastExponent_spec {N : Nat} (h0 : 0 < N) (hN : N ≤ 2 ^ 2 ^ 21) :
    N ≤ 2 ^ leastExponent N ∧ (leastExponent N = 0 ∨ 2 ^ (leastExponent N - 1) < N) := by
  unfold leastExponent
  split
  · next h => exact ⟨by simpa using h, .inl rfl⟩
  · next h =>
    have hpred : N - 1 < N := Nat.sub_lt h0 Nat.one_pos
    obtain ⟨hle, hlt⟩ := floorLog2_spec (Nat.sub_pos_of_lt (not_le.mp h)) (lt_of_lt_of_le hpred hN)
    rw [Nat.add_sub_cancel]
    exact ⟨Nat.le_of_pred_lt hlt, .inr (lt_of_le_of_lt hle hpred)⟩

theorem leastExponent_pow_le {b K k : Nat} (hb : 0 < b) (hle : b ^ K ≤ 2 ^ 2 ^ 21)
    (h : b ^ K ≤ 2 ^ k) : leastExponent (b ^ K) ≤ k := by
  rcases (leastExponent_spec (pow_pos hb K) hle).2 with he | he
  · omega
  · have := (Nat.pow_lt_pow_iff_right one_lt_two).mp (he.trans_le h)
    omega

theorem leastExponent_logb {b K : Nat} (hb : 0 < b) (hle : b ^ K ≤ 2 ^ 2 ^ 21) :
    K * Real.logb 2 b ≤ leastExponent (b ^ K) ∧
      (leastExponent (b ^ K) : ℝ) < K * Real.logb 2 b + 1 := by
  obtain ⟨hup, hlo⟩ := leastExponent_spec (pow_pos hb K) hle
  have hb' : (1 : ℝ) ≤ b := by exact_mod_cast hb
  have hpos : (0 : ℝ) < (b : ℝ) ^ K := by positivity
  generalize leastExponent (b ^ K) = e at hup hlo
  rw [← Real.logb_pow]
  constructor
  · rw [Real.logb_le_iff_le_rpow one_lt_two hpos, Real.rpow_natCast]
    exact_mod_cast hup
  · rcases hlo with rfl | hlo
    · have : 0 ≤ Real.logb 2 ((b : ℝ) ^ K) := Real.logb_nonneg one_lt_two (one_le_pow₀ hb')
      push_cast; linarith
    · have hlt : ((e - 1 : Nat) : ℝ) < Real.logb 2 ((b : ℝ) ^ K) := by
        rw [Real.lt_logb_iff_rpow_lt one_lt_two hpos, Real.rpow_natCast]
        exact_mod_cast hlo
      have : (e : ℝ) ≤ ((e - 1 : Nat) : ℝ) + 1 := by
        exact_mod_cast (show e ≤ e - 1 + 1 by omega)
      linarith

theorem bitcostOf_round {F : Nat} (h1 : 1 ≤ F) (hle : F ≤ 1024) :
    |2048 * Real.logb 2 (1024 / (F : ℝ)) - (bitcostOf F : ℝ)| ≤ 1 / 2 := by
  have h40960 : F ^ 4096 ≤ 2 ^ (10 * 4096) := pow_le_two_pow hle
  have hbound : F ^ 4096 ≤ 2 ^ 2 ^ 21 := pow_le_of_le_two_pow (n := 10) hle (by decide)
  have hmax := leastExponent_pow_le h1 hbound h40960
  obtain ⟨hup, hlo⟩ := leastExponent_logb h1 hbound
  rw [bitcostOf_eq (by omega)]
  generalize leastExponent (F ^ 4096) = e at hmax hup hlo ⊢
  push_cast at hup hlo
  have hlog : Real.logb 2 (1024 / (F : ℝ)) = 10 - Real.logb 2 F := by
    have h10 := logb_two_pow 10
    have hF : (F : ℝ) ≠ 0 := by positivity
    rw [Real.logb_div (by norm_num) hF, show (1024 : ℝ) = 2 ^ 10 by norm_num, h10]
    norm_num
  have hcast : ((40960 - e : Nat) : ℝ) = 40960 - e := by
    rw [Nat.cast_sub hmax]; push_cast; ring
  have h := abs_half_sub_le (y := 40960 - 4096 * Real.logb 2 F) (m := 40960 - e)
    (by rw [hcast]; linarith) (by rw [hcast]; linarith)
  rwa [show (40960 - 4096 * Real.logb 2 F) / 2 = 2048 * Real.logb 2 (1024 / (F : ℝ)) by
    rw [hlog]; ring] at h

/-! ### SCALE_ROM (R76) -/

/-- The binary logarithm of the default scale S(g) = 10^(g / 28). -/
noncomputable def scaleLog (g : Int) : ℝ := (g : ℝ) / 28 * Real.logb 2 10

/-- The default scale S(g) = 10^(g / 28). -/
noncomputable def scaleReal (g : Int) : ℝ := (10 : ℝ) ^ ((g : ℝ) / 28)

theorem scaleReal_eq (g : Int) : scaleReal g = (2 : ℝ) ^ scaleLog g := by
  rw [scaleReal, scaleLog, mul_comm, Real.rpow_mul (by norm_num),
    Real.rpow_logb (by norm_num) (by norm_num) (by norm_num)]

theorem scaleReal_pos (g : Int) : 0 < scaleReal g := Real.rpow_pos_of_pos (by norm_num) _

theorem ten_pow_lt {n : Nat} (hn : n ≤ 382) : 10 ^ n < 2 ^ 2 ^ 21 := by
  rcases Nat.eq_zero_or_pos n with rfl | h0
  · exact Nat.one_lt_pow (by decide) (by decide)
  · exact pow_lt_of_lt_two_pow (n := 4) (by decide) (by omega) (by omega)

/-- Division by 28 as the reals see it. -/
theorem real_div_bounds (q : Nat) :
    28 * ((q / 28 : Nat) : ℝ) ≤ q ∧ (q : ℝ) + 1 ≤ 28 * (((q / 28 : Nat) : ℝ) + 1) := by
  have hle : 28 * (q / 28) ≤ q := Nat.mul_div_le q 28
  have hlt : q + 1 ≤ 28 * (q / 28 + 1) := by omega
  exact ⟨by exact_mod_cast hle, by exact_mod_cast hlt⟩

/-- The exponent is the floor of the logarithm, but where that is a whole number of a negative index. -/
theorem defaultScaleExp_spec {g : Int} (hlo : -128 ≤ g) (hhi : g ≤ 382) :
    (defaultScaleExp g : ℝ) ≤ scaleLog g ∧ scaleLog g ≤ defaultScaleExp g + 1 := by
  unfold defaultScaleExp scaleLog
  rw [show Config.GI_PER_DECADE = 28 from rfl]
  split
  · next hg =>
    obtain ⟨n, rfl⟩ := Int.eq_ofNat_of_zero_le hg
    obtain ⟨hle, hlt⟩ := floorLog2_pow (b := 10) (K := n) (by decide) (ten_pow_lt (by omega))
    rw [Int.toNat_natCast, Int.cast_natCast]
    obtain ⟨hdiv, hmod⟩ := real_div_bounds (floorLog2 (10 ^ n))
    rw [Nat.cast_ofNat] at hle hlt
    push_cast
    constructor <;> linarith
  · next hg =>
    obtain ⟨n, rfl⟩ : ∃ n : Nat, g = -(n : Int) := ⟨(-g).toNat, by omega⟩
    obtain ⟨hle, hlt⟩ := floorLog2_pow (b := 10) (K := n) (by decide) (ten_pow_lt (by omega))
    rw [neg_neg, Int.toNat_natCast, Int.cast_neg (R := ℝ) (_ : ℕ), Int.cast_natCast]
    obtain ⟨hdiv, hmod⟩ := real_div_bounds (floorLog2 (10 ^ n))
    rw [Nat.cast_ofNat] at hle hlt
    push_cast
    constructor <;> linarith

/-- The value whose rounding is the mantissa at exponent e. -/
noncomputable def scaledReal (g e : Int) : ℝ := scaleReal g * (2 : ℝ) ^ (15 - e)

theorem scaledReal_bounds {g e : Int} (hlo : (e : ℝ) ≤ scaleLog g) (hhi : scaleLog g ≤ e + 1) :
    2 ^ 15 ≤ scaledReal g e ∧ scaledReal g e ≤ 2 ^ 16 := by
  have h : scaledReal g e = (2 : ℝ) ^ (scaleLog g + (15 - e)) := by
    rw [scaledReal, scaleReal_eq, Real.rpow_add two_pos, ← Real.rpow_intCast]
    push_cast; rfl
  rw [h]
  constructor
  · calc (2 : ℝ) ^ 15 = (2 : ℝ) ^ (15 : ℝ) := by norm_cast
      _ ≤ _ := Real.rpow_le_rpow_of_exponent_le one_le_two (by linarith)
  · calc _ ≤ (2 : ℝ) ^ (16 : ℝ) := Real.rpow_le_rpow_of_exponent_le one_le_two (by linarith)
      _ = (2 : ℝ) ^ 16 := by norm_cast

theorem zpow_eq_div_toNat (a : ℝ) (n : Int) : a ^ n = a ^ n.toNat / a ^ (-n).toNat := by
  rcases Int.le_total 0 n with h | h
  · obtain ⟨k, rfl⟩ := Int.eq_ofNat_of_zero_le h
    simp
  · obtain ⟨k, rfl⟩ : ∃ k : Nat, n = -(k : Int) := ⟨(-n).toNat, by omega⟩
    simp

/-- The comparison of the mantissa search (R76). -/
def mantissaFits (g e : Int) (n : Nat) : Bool :=
  decide ((2 * n - 1) ^ 28 * (10 ^ (-g).toNat * 2 ^ (28 * (e - 15).toNat)) ≤
    2 ^ 28 * 10 ^ g.toNat * 2 ^ (28 * (15 - e).toNat))

theorem defaultScaleMant_eq (g e : Int) :
    defaultScaleMant g e = searchBits (mantissaFits g e) 17 0 := rfl

/-- It compares 2n - 1 with twice the value to round. -/
theorem mantissaFits_iff {g e : Int} {n : Nat} :
    mantissaFits g e n = true ↔ ((2 * n - 1 : Nat) : ℝ) ≤ 2 * scaledReal g e := by
  have hpos : 0 ≤ 2 * scaledReal g e := by
    have := scaleReal_pos g
    unfold scaledReal; positivity
  have h10 : scaleReal g ^ 28 = (10 : ℝ) ^ g.toNat / 10 ^ (-g).toNat := by
    rw [← zpow_eq_div_toNat, scaleReal, ← Real.rpow_natCast, ← Real.rpow_mul (by norm_num),
      ← Real.rpow_intCast]
    norm_num
  have h2 : ((2 : ℝ) ^ (15 - e)) ^ 28 =
      2 ^ (28 * (15 - e).toNat) / 2 ^ (28 * (e - 15).toNat) := by
    rw [zpow_eq_div_toNat, div_pow, ← pow_mul, ← pow_mul, neg_sub]
    ring_nf
  rw [mantissaFits, decide_eq_true_eq,
    ← pow_le_pow_iff_left₀ (Nat.cast_nonneg _) hpos (n := 28) (by decide), mul_pow, scaledReal, mul_pow,
    h10, h2, div_mul_div_comm, ← mul_div_assoc, le_div_iff₀ (by positivity),
    ← mul_assoc ((2 : ℝ) ^ 28)]
  exact_mod_cast Iff.rfl

/-- The mantissa is the value at its exponent, rounded. -/
theorem defaultScaleMant_spec {g e : Int} (hlo : (e : ℝ) ≤ scaleLog g) (hhi : scaleLog g ≤ e + 1) :
    |scaledReal g e - defaultScaleMant g e| ≤ 1 / 2 ∧ 2 ^ 15 ≤ defaultScaleMant g e ∧
      defaultScaleMant g e ≤ 2 ^ 16 := by
  obtain ⟨hge, hle⟩ := scaledReal_bounds hlo hhi
  obtain ⟨hlast, hnext⟩ := searchBits_spec (p := mantissaFits g e) (n := 17) (m := 0)
    (by rw [mantissaFits_iff]; norm_num; linarith)
    (by rw [← Bool.not_eq_true, mantissaFits_iff]; norm_num; linarith)
  rw [mantissaFits_iff] at hlast
  rw [← Bool.not_eq_true, mantissaFits_iff, not_le] at hnext
  rw [← defaultScaleMant_eq] at hlast hnext
  generalize defaultScaleMant g e = n at hlast hnext ⊢
  rw [show 2 * (n + 1) - 1 = 2 * n + 1 by omega] at hnext
  have hpred : (2 * n : ℝ) - 1 ≤ ((2 * n - 1 : Nat) : ℝ) := by
    have : 2 * n ≤ (2 * n - 1) + 1 := by omega
    have : ((2 * n : Nat) : ℝ) ≤ ((2 * n - 1 : Nat) : ℝ) + 1 := by exact_mod_cast this
    push_cast at this ⊢; linarith
  push_cast at hnext
  refine ⟨by rw [abs_le]; constructor <;> linarith, ?_, ?_⟩
  · have : ((2 ^ 15 : Nat) : ℝ) < n + 1 := by push_cast; linarith
    exact Nat.lt_succ_iff.mp (by exact_mod_cast this)
  · have : (n : ℝ) < (2 ^ 16 + 1 : Nat) := by push_cast; linarith
    exact Nat.lt_succ_iff.mp (by exact_mod_cast this)

/-- What an entry of the default SCALE_ROM is: a mantissa of sixteen bits with its leading bit set, an
exponent near the logarithm, and the value rounded at that exponent. -/
theorem defaultScale_spec {g : Int} (hlo : -128 ≤ g) (hhi : g ≤ 382) :
    |scaledReal g (defaultScale g).2 - (defaultScale g).1| ≤ 1 / 2 ∧
      (0x8000 ≤ (defaultScale g).1 ∧ (defaultScale g).1 ≤ 0xFFFF) ∧
      scaleLog g ≤ (defaultScale g).2 + 1 ∧ ((defaultScale g).2 : ℝ) ≤ scaleLog g + 1 := by
  obtain ⟨h1, h2⟩ := defaultScaleExp_spec hlo hhi
  obtain ⟨hround, hge, hle⟩ := defaultScaleMant_spec h1 h2
  unfold defaultScale
  generalize defaultScaleExp g = e at *
  dsimp only
  split
  · next hm =>
    rw [hm] at hround
    have hhalf : scaledReal g (e + 1) = scaledReal g e / 2 := by
      rw [scaledReal, scaledReal, show 15 - (e + 1) = 15 - e - 1 by ring, zpow_sub_one₀ two_ne_zero]
      ring
    refine ⟨?_, ⟨le_rfl, (by decide : 0x8000 ≤ 0xFFFF)⟩, ?_, ?_⟩
    · rw [hhalf, abs_le] at *
      norm_num at hround ⊢
      constructor <;> linarith
    · push_cast; linarith
    · push_cast; linarith
  · next hm => exact ⟨hround, ⟨hge, by omega⟩, h2, by linarith⟩

/-- Settles O59: the cost and logarithm tables round half of a floor, and the scale table rounds by
search. -/
theorem defaultTablesRound : Obligations.DefaultTablesRound := by
  refine ⟨blockRoms_bitcost, rfl, fun F => bitcostOf_round, fun i hi => ?_, fun g hlo hhi => ?_, ?_⟩
  · rw [blockRoms_log2]; exact defaultLog2_round hi
  · rw [blockRoms_scale]; exact (defaultScale_spec hlo hhi).1
  · simp only [blockRoms_log2, blockRoms_scale]
    decide +kernel

/-! ### The order of SCALE_ROM -/

/-- The entry's scale SM · 2^(SE - 15) is near S(g): half a unit of a mantissa with its leading bit set is
one part in 2^16. -/
theorem defaultScale_near {g : Int} (hlo : -128 ≤ g) (hhi : g ≤ 382) :
    |scaleReal g - ((defaultScale g).1 : ℝ) * 2 ^ ((defaultScale g).2 - 15)| ≤
      ((defaultScale g).1 : ℝ) * 2 ^ ((defaultScale g).2 - 15) / 2 ^ 16 := by
  obtain ⟨hround, ⟨hm, -⟩, -⟩ := defaultScale_spec hlo hhi
  generalize (defaultScale g).1 = m at *
  generalize (defaultScale g).2 = e at *
  have hunit : (0 : ℝ) < 2 ^ (e - 15) := by positivity
  have hscaled : scaleReal g = scaledReal g e * 2 ^ (e - 15) := by
    rw [scaledReal, mul_assoc, ← zpow_add₀ two_ne_zero, show 15 - e + (e - 15) = 0 by ring, zpow_zero,
      mul_one]
  have hm' : (2 : ℝ) ^ 15 ≤ m := by exact_mod_cast hm
  rw [hscaled, ← sub_mul, abs_mul, abs_of_pos hunit]
  calc |scaledReal g e - m| * 2 ^ (e - 15) ≤ 1 / 2 * 2 ^ (e - 15) :=
        mul_le_mul_of_nonneg_right hround hunit.le
    _ = 2 ^ 15 * 2 ^ (e - 15) / 2 ^ 16 := by ring
    _ ≤ m * 2 ^ (e - 15) / 2 ^ 16 := by gcongr

/-- A gain step of one raises the scale by more than one part in a hundred. -/
theorem scaleReal_succ (g : Int) : 1.01 * scaleReal g ≤ scaleReal (g + 1) := by
  have hstep : (1.01 : ℝ) ≤ 10 ^ ((1 : ℝ) / 28) := by
    rw [one_div, Real.le_rpow_inv_iff_of_pos (by norm_num) (by norm_num) (by norm_num)]
    norm_num
  have hsucc : scaleReal (g + 1) = 10 ^ ((1 : ℝ) / 28) * scaleReal g := by
    rw [scaleReal, scaleReal, ← Real.rpow_add (by norm_num)]
    push_cast; ring_nf
  rw [hsucc]
  exact mul_le_mul_of_nonneg_right hstep (scaleReal_pos g).le

/-! ### The block's tables are well formed (R70 to R77) -/

theorem cumLegal_of_cumWf {cum : Nat → Nat} {n : Nat} (h : cumWf cum n = true) : cumLegal cum n :=
  cumWf_iff.mp h

theorem defaultLog2_last : defaultLog2 255 = 65351 := by decide +kernel

theorem defaultLog2_le {i : Nat} (hi : i < 256) : defaultLog2 i ≤ 65351 := by
  rw [← defaultLog2_last]
  have h := floorLog2_mono (N := (256 + i) ^ 131072) (M := (256 + 255) ^ 131072)
    (pow_pos (by omega) _) (Nat.pow_le_pow_left (by omega) _)
    (pow_lt_of_lt_two_pow (n := 9) (by decide) (by decide) (by decide))
  unfold defaultLog2
  omega

theorem logb_ten_bounds : 0 ≤ Real.logb 2 10 ∧ Real.logb 2 10 ≤ 4 := by
  constructor
  · exact Real.logb_nonneg one_lt_two (by norm_num)
  · rw [Real.logb_le_iff_le_rpow one_lt_two (by norm_num)]
    norm_num

theorem scaleLog_bounds {g : Int} (hlo : -128 ≤ g) (hhi : g ≤ 382) :
    -19 ≤ scaleLog g ∧ scaleLog g ≤ 55 := by
  obtain ⟨h0, h4⟩ := logb_ten_bounds
  have hlo' : (-128 : ℝ) ≤ g := by exact_mod_cast hlo
  have hhi' : (g : ℝ) ≤ 382 := by exact_mod_cast hhi
  unfold scaleLog
  constructor <;> nlinarith

theorem defaultScale_exponent {g : Int} (hlo : -128 ≤ g) (hhi : g ≤ 382) :
    -128 ≤ (defaultScale g).2 ∧ (defaultScale g).2 ≤ 127 := by
  obtain ⟨-, -, h1, h2⟩ := defaultScale_spec hlo hhi
  obtain ⟨h3, h4⟩ := scaleLog_bounds hlo hhi
  have hge : ((-128 : Int) : ℝ) ≤ ((defaultScale g).2 : ℝ) := by push_cast; linarith
  have hle : ((defaultScale g).2 : ℝ) ≤ ((127 : Int) : ℝ) := by push_cast; linarith
  exact ⟨by exact_mod_cast hge, by exact_mod_cast hle⟩

/-- The rounding of two neighbouring entries is too small to bring them out of order. -/
theorem blockRoms_scale_rising {g : Int} (hlo : -128 ≤ g) (hhi : g < 382) :
    scaleValue blockRoms g ≤ scaleValue blockRoms (g + 1) := by
  have hcast : ∀ h, ((scaleValue blockRoms h : ℚ) : ℝ) =
      ((defaultScale h).1 : ℝ) * 2 ^ ((defaultScale h).2 - 15) := fun h => by
    rw [scaleValue, blockRoms_scale]; push_cast; rfl
  have h1 := abs_le.mp (defaultScale_near hlo hhi.le)
  have h2 := abs_le.mp (defaultScale_near (g := g + 1) (by omega) (by omega))
  have h3 := scaleReal_succ g
  have hpos := scaleReal_pos g
  rw [← hcast] at h1 h2
  have : (scaleValue blockRoms g : ℝ) ≤ scaleValue blockRoms (g + 1) := by linarith
  exact_mod_cast this

theorem blockRoms_legal : TablesLegal blockRoms where
  lut := fun l _ t _ => blockRoms_lut_lt l t
  cf := fun id _ => cumLegal_of_cumWf (blockRoms_cf_wf id)
  tnsOrder := fun w _ => cumLegal_of_cumWf (blockRoms_tnsOrder_wf w)
  tnsCoef := fun k _ => cumLegal_of_cumWf (blockRoms_tnsCoef_wf k)
  bitcost := fun id _ s _ => Nat.lt_succ_of_le (blockRoms_bitcost_le id s)
  log2 := fun i hi => by
    rw [blockRoms_log2]
    have := defaultLog2_le hi
    omega
  mantissa := fun g hlo hhi => by
    rw [blockRoms_scale]; exact (defaultScale_spec hlo hhi).2.1
  exponent := fun g hlo hhi => by rw [blockRoms_scale]; exact defaultScale_exponent hlo hhi
  rising := fun g hlo hhi => blockRoms_scale_rising hlo hhi

/-- The comparison of two entries by whole numbers is that of their scales (R76). -/
theorem scaleLe_iff (r : Roms) (g h : Int) :
    scaleLe (r.scale g) (r.scale h) = true ↔ scaleValue r g ≤ scaleValue r h := by
  unfold scaleLe scaleValue
  generalize r.scale g = a
  generalize r.scale h = b
  have hunit : (0 : ℚ) < 2 ^ (min a.2 b.2 - 15) := by positivity
  have factor : ∀ e : Int, min a.2 b.2 ≤ e →
      (2 : ℚ) ^ (e - 15) = 2 ^ (e - min a.2 b.2).toNat * 2 ^ (min a.2 b.2 - 15) := fun e he => by
    rw [← zpow_natCast, Int.toNat_of_nonneg (by omega), ← zpow_add₀ two_ne_zero]
    ring_nf
  rw [decide_eq_true_eq, factor a.2 (min_le_left _ _), factor b.2 (min_le_right _ _), ← mul_assoc,
    ← mul_assoc, mul_le_mul_iff_left₀ hunit]
  exact_mod_cast Iff.rfl

/-- The positions of SCALE_ROM are its gain values. -/
theorem forall_scaleIndex {n : Nat} {P : Int → Prop} :
    (∀ k < n, P (scaleIndex k)) ↔ ∀ g : Int, -128 ≤ g → g < (n : Int) - 128 → P g := by
  constructor
  · intro h g hlo hhi
    have := h (g + 128).toNat (by omega)
    rwa [scaleIndex, show ((g + 128).toNat : Int) - 128 = g by omega] at this
  · intro h k hk
    exact h _ (by unfold scaleIndex; omega) (by unfold scaleIndex; omega)

theorem scaleEntries_iff (r : Roms) :
    (∀ n < 511, (0x8000 ≤ (r.scale (scaleIndex n)).1 ∧ (r.scale (scaleIndex n)).1 ≤ 0xFFFF) ∧
        -128 ≤ (r.scale (scaleIndex n)).2 ∧ (r.scale (scaleIndex n)).2 ≤ 127) ↔
      ∀ g : Int, -128 ≤ g → g ≤ 382 → (0x8000 ≤ (r.scale g).1 ∧ (r.scale g).1 ≤ 0xFFFF) ∧
        -128 ≤ (r.scale g).2 ∧ (r.scale g).2 ≤ 127 :=
  (forall_scaleIndex (n := 511) (P := fun g => (0x8000 ≤ (r.scale g).1 ∧ (r.scale g).1 ≤ 0xFFFF) ∧
    -128 ≤ (r.scale g).2 ∧ (r.scale g).2 ≤ 127)).trans
    ⟨fun h g hlo hhi => h g hlo (by omega), fun h g hlo hhi => h g hlo (by omega)⟩

theorem scaleRising_iff (r : Roms) :
    (∀ n < 510, scaleLe (r.scale (scaleIndex n)) (r.scale (scaleIndex (n + 1))) = true) ↔
      ∀ g : Int, -128 ≤ g → g < 382 → scaleValue r g ≤ scaleValue r (g + 1) := by
  have hnext : ∀ n, scaleIndex (n + 1) = scaleIndex n + 1 := fun n => by
    unfold scaleIndex; push_cast; ring
  simp only [hnext, scaleLe_iff]
  exact forall_scaleIndex (n := 510) (P := fun g => scaleValue r g ≤ scaleValue r (g + 1))

/-- The check of a configuration decides its conditions. -/
theorem romsWf_iff (r : Roms) : romsWf r = true ↔ TablesLegal r := by
  simp only [romsWf, Bool.and_eq_true, List.all_eq_true, List.mem_range, decide_eq_true_eq, cumWf_iff,
    scaleEntries_iff, scaleRising_iff]
  constructor
  · rintro ⟨⟨⟨⟨⟨⟨⟨hlut, hcf⟩, horder⟩, hcoef⟩, hcost⟩, hlog⟩, hscale⟩, hrising⟩
    exact ⟨hlut, hcf, horder, hcoef, hcost, hlog, fun g hlo hhi => (hscale g hlo hhi).1,
      fun g hlo hhi => (hscale g hlo hhi).2, hrising⟩
  · rintro ⟨hlut, hcf, horder, hcoef, hcost, hlog, hmant, hexp, hrising⟩
    exact ⟨⟨⟨⟨⟨⟨⟨hlut, hcf⟩, horder⟩, hcoef⟩, hcost⟩, hlog⟩,
      fun g hlo hhi => ⟨hmant g hlo hhi, hexp g hlo hhi⟩⟩, hrising⟩

/-- Settles O58: the check decides the conditions, and the block's tables meet them. -/
theorem tablesWellFormed : Obligations.TablesWellFormed := by
  refine ⟨fun r => ⟨fun h => ?_, fun h => ?_⟩, blockRoms_legal⟩
  · rw [configure, if_pos ((romsWf_iff r).mpr h)]
  · rw [configure, if_neg fun hw => h ((romsWf_iff r).mp hw)]

end Sys2Proof.Machine

/-! ## What a command reads of the memory

Two memories that agree on the addresses the engine may read (20_memory.md R101) make every read of a
command answer the same. Each part of a command is shown once to depend on the memory through these reads
only; a body then stores the same bytes over either memory. -/

namespace Sys2Proof.Machine

-- One proof at a time: in one file with the tests, waiting proofs would each hold a thread.
set_option Elab.async false

open Config (Roms)

variable {s t u : State} {m : Memory} {r : Roms}

/-- The state over another memory. -/
def State.withMem (s : State) (m : Memory) : State := { s with mem := m }

@[simp] theorem State.withMem_mem : (s.withMem m).mem = m := rfl
@[simp] theorem State.withMem_epoch : (s.withMem m).epoch = s.epoch := rfl
@[simp] theorem State.withMem_cfg : (s.withMem m).cfg = s.cfg := rfl
@[simp] theorem State.withMem_fstat : (s.withMem m).fstat = s.fstat := rfl
@[simp] theorem State.withMem_si : (s.withMem m).si = s.si := rfl
@[simp] theorem State.withMem_dec : (s.withMem m).dec = s.dec := rfl
@[simp] theorem State.withMem_coder : (s.withMem m).coder = s.coder := rfl
@[simp] theorem State.withMem_NE : (s.withMem m).NE = s.NE := rfl
@[simp] theorem State.withMem_NBYTES : (s.withMem m).NBYTES = s.NBYTES := rfl
@[simp] theorem State.withMem_PB : (s.withMem m).PB = s.PB := rfl

/-- The memory `m` agrees with the state's own on every address that a command may read. -/
def ReadsAgree (s : State) (m : Memory) : Prop := ∀ a, engineReads s a → m.read a = s.mem.read a

/-! ### The engine's reads -/

theorem ReadsAgree.payByte (h : ReadsAgree s m) {j : Nat} (hj : j < s.NBYTES) :
    payByte (s.withMem m) j = payByte s j := by
  have hr := h (PAYLOAD_BASE + j) (.inl ⟨by omega, by omega⟩)
  simp only [Machine.payByte, State.withMem_mem, hr]

theorem ReadsAgree.payloadByte (h : ReadsAgree s m) (hn : 0 < s.NBYTES) (j : Nat) :
    payloadByte (s.withMem m) j = payloadByte s j :=
  h.payByte (j := s.NBYTES - 1 - j) (by omega)

theorem ReadsAgree.xElem (h : ReadsAgree s m) {i : Nat} (hi : i < s.NE) :
    xElem (s.withMem m) i = xElem s i := by
  have hr : ∀ b < 4, m.read (X_BASE + 4 * i + b) = s.mem.read (X_BASE + 4 * i + b) := fun b hb =>
    h _ (.inr (.inl ⟨by omega, by omega⟩))
  have h0 := hr 0 (by decide)
  rw [Nat.add_zero] at h0
  simp only [Machine.xElem, State.withMem_mem, h0, hr 1 (by decide), hr 2 (by decide),
    hr 3 (by decide)]

theorem ReadsAgree.xElems (h : ReadsAgree s m) {i n : Nat} (hle : i + n ≤ s.NE) :
    xElems (s.withMem m) i n = xElems s i n := by
  induction n generalizing i with
  | zero => rfl
  | succ n ih =>
    have hrest := ih (i := i + 1) (by omega)
    simp only [Machine.xElems, h.xElem (show i < s.NE by omega), hrest]

theorem ReadsAgree.xqElem (h : ReadsAgree s m) {i : Nat} (hi : i < s.NE) :
    xqElem (s.withMem m) i = xqElem s i := by
  have hr : ∀ b < 4, ramByte (s.withMem m) (XQ_BASE + 4 * i + b) = ramByte s (XQ_BASE + 4 * i + b) :=
    fun b hb => by
      have ha := h (XQ_BASE + 4 * i + b) (.inr (.inr ⟨by omega, by omega⟩))
      simp only [ramByte, State.withMem_mem, State.withMem_epoch, ha]
  have h0 := hr 0 (by decide)
  rw [Nat.add_zero] at h0
  simp only [Machine.xqElem, ramWord, h0, hr 1 (by decide), hr 2 (by decide), hr 3 (by decide)]

theorem ReadsAgree.xqElems (h : ReadsAgree s m) : xqElems (s.withMem m) s.NE = xqElems s s.NE :=
  List.map_congr_left fun _ hi => h.xqElem (List.mem_range.mp hi)

/-! ### Decodes -/

/-- Renormalization reads no payload byte where none is left, so that NBYTES 0 is no exception. -/
theorem ReadsAgree.renorm (h : ReadsAgree s m) {sym avail low range cursor : Nat}
    (hle : avail ≤ s.NBYTES) :
    renorm (s.withMem m) sym avail low range cursor = renorm s sym avail low range cursor := by
  induction avail generalizing low range cursor with
  | zero => simp only [Machine.renorm]
  | succ avail ih =>
    have hrest := fun b => ih (low := low * 256 + b) (range := range * 256) (cursor := cursor + 1)
      (by omega)
    simp only [Machine.renorm, h.payloadByte (by omega) cursor, hrest]

theorem ReadsAgree.decSym (h : ReadsAgree s m) : decSym (s.withMem m) = decSym s := by
  funext cum n c
  have hle : s.PB - c.cursor.toNat ≤ s.NBYTES := (Nat.sub_le _ _).trans (Nat.sub_le _ _)
  simp only [Machine.decSym, State.withMem_PB, h.renorm hle]

theorem ReadsAgree.decBit (h : ReadsAgree s m) : decBit (s.withMem m) = decBit s := by
  funext c; rw [Machine.decBit, h.decSym, Machine.decBit]

theorem ReadsAgree.rawPair (h : ReadsAgree s m) : rawPair (s.withMem m) = rawPair s := by
  funext lev a b c
  simp only [Machine.rawPair, h.decBit, State.withMem_si]

theorem ReadsAgree.escapeChain (h : ReadsAgree s m) (t left lev a b : Nat) (c : RangeCoder) :
    escapeChain r (s.withMem m) t left lev a b c = escapeChain r s t left lev a b c := by
  induction left generalizing lev a b c with
  | zero => simp only [Machine.escapeChain, h.decSym]
  | succ left ih => simp only [Machine.escapeChain, h.decSym, h.rawPair, ih]

theorem ReadsAgree.signedMagnitude (h : ReadsAgree s m) :
    signedMagnitude (s.withMem m) = signedMagnitude s := by
  funext a c
  simp only [Machine.signedMagnitude, h.decBit]

theorem contextIndex_withMem : contextIndex (s.withMem m) = contextIndex s := rfl

theorem ReadsAgree.decodeTuple (h : ReadsAgree s m) :
    decodeTuple r (s.withMem m) = decodeTuple r s := by
  funext ctx j c
  simp only [Machine.decodeTuple, h.escapeChain, h.signedMagnitude, contextIndex_withMem]

theorem ReadsAgree.orderStage (h : ReadsAgree s m) :
    orderStage r (s.withMem m) = orderStage r s := by
  funext f p
  simp only [Machine.orderStage, h.decSym, State.withMem_si, State.withMem_cfg]

theorem ReadsAgree.coefStage (h : ReadsAgree s m) :
    coefStage r (s.withMem m) = coefStage r s := by
  funext f p
  simp only [Machine.coefStage, h.decSym]

theorem ReadsAgree.tupleStage (h : ReadsAgree s m) :
    tupleStage r (s.withMem m) = tupleStage r s := by
  funext j p
  simp only [Machine.tupleStage, h.decodeTuple]

theorem ReadsAgree.decodeSections (h : ReadsAgree s m) :
    decodeSections r (s.withMem m) = decodeSections r s := by
  unfold Machine.decodeSections
  rw [h.orderStage, h.coefStage, h.tupleStage]
  rfl

/-! ### Side information and refinement -/

theorem ReadsAgree.sideBits (h : ReadsAgree s m) {w p acc : Nat} (hle : p + w ≤ 8 * s.NBYTES) :
    sideBits (s.withMem m) w p acc = sideBits s w p acc := by
  induction w generalizing p acc with
  | zero => rfl
  | succ w ih =>
    have hrest := fun acc => ih (p := p + 1) (acc := acc) (by omega)
    simp only [Machine.sideBits, sideBit, h.payByte (show p / 8 < s.NBYTES by omega), hrest]

theorem ReadsAgree.readField (h : ReadsAgree s m) : readField (s.withMem m) = readField s := by
  funext w rd
  by_cases hle : 8 * s.NBYTES < rd.pos + w
  · simp only [Machine.readField, State.withMem_NBYTES, hle, if_true]
  · simp only [Machine.readField, State.withMem_NBYTES, h.sideBits (not_lt.mp hle)]

theorem ReadsAgree.readFieldIf (h : ReadsAgree s m) : readFieldIf (s.withMem m) = readFieldIf s := by
  funext present w rd
  simp only [Machine.readFieldIf, h.readField]

theorem ReadsAgree.readTnsFlags (h : ReadsAgree s m) (n f : Nat) (rd : BitReader) :
    readTnsFlags (s.withMem m) n f rd = readTnsFlags s n f rd := by
  induction n generalizing f rd with
  | zero => rfl
  | succ n ih => simp only [Machine.readTnsFlags, h.readField, ih]

theorem ReadsAgree.readSideInfo (h : ReadsAgree s m) :
    readSideInfo (s.withMem m) = readSideInfo s := by
  unfold Machine.readSideInfo
  rw [h.readField, h.readFieldIf]
  simp only [h.readTnsFlags]
  rfl

theorem ReadsAgree.refineFrom (h : ReadsAgree s m) (hn : 0 < s.NBYTES) (n left : Nat)
    (qs : List Int) : refineFrom (s.withMem m) n left qs = refineFrom s n left qs := by
  induction qs generalizing n left with
  | nil => rfl
  | cons q rest ih =>
    simp only [Machine.refineFrom, refinementBitAt, h.payloadByte hn, State.withMem_dec, ih]

theorem ReadsAgree.encodeBits (h : ReadsAgree s m) {i left : Nat} {qs : List Int}
    (hle : i + qs.length ≤ s.NE) :
    encodeBits r (s.withMem m) i left qs = encodeBits r s i left qs := by
  induction qs generalizing i left with
  | nil => unfold Machine.encodeBits; rfl
  | cons q rest ih =>
    rw [List.length_cons] at hle
    have hrest := fun left => ih (i := i + 1) (left := left) (by omega)
    cases left with
    | zero => rfl
    | succ left =>
      simp only [Machine.encodeBits, h.xElem (show i < s.NE by omega), hrest]
      rfl

/-! ### The quantizer's numbers, which read no memory -/

theorem rawGain_withMem (xs : List Int) : rawGain r (s.withMem m) xs = rawGain r s xs := by
  unfold rawGain; rfl

theorem runTrack_withMem (tr : Track) (j ctx cum : Nat) (tuples : List (Nat × Nat)) :
    runTrack r (s.withMem m) tr j ctx cum tuples = runTrack r s tr j ctx cum tuples := by
  induction tuples generalizing j ctx cum with
  | nil => rfl
  | cons ab rest ih => simp only [runTrack, costTuple, contextIndex_withMem, ih]

theorem codeSpectrum_withMem (xs : List Int) :
    codeSpectrum r (s.withMem m) xs = codeSpectrum r s xs := by
  unfold codeSpectrum
  simp only [runTrack_withMem]
  rfl

/-! ### Runs over two memories -/

/-- From the memories `m₀` and `m`, the same bytes were written to leave `k` and `k'`, and every other
byte was kept. -/
def WrittenAlike (m₀ m k k' : Memory) : Prop :=
  ∀ a, k'.read a = k.read a ∨ (k.read a = m₀.read a ∧ k'.read a = m.read a)

/-- Two runs of a body, over `m₀` and over `m`, stop alike, or leave the same registers and have written
alike. -/
inductive RunsAlike (m₀ m : Memory) : Except Fault State → Except Fault State → Prop
  | next {t : State} {k : Memory} (hk : WrittenAlike m₀ m t.mem k) :
    RunsAlike m₀ m (.ok t) (.ok (t.withMem k))
  | stop (f : Fault) : RunsAlike m₀ m (.error f) (.error f)

section WrittenAlike

variable {m₀ k k' l l' : Memory}

theorem WrittenAlike.refl : WrittenAlike m₀ m m₀ m := fun _ => .inr ⟨rfl, rfl⟩

theorem WrittenAlike.store (h : WrittenAlike m₀ m k k') {lo : Nat} {bs : List Byte} :
    WrittenAlike m₀ m (k.store lo bs) (k'.store lo bs) := by
  intro a
  rw [k.read_store, k'.read_store]
  split
  · exact .inl rfl
  · exact h a

theorem WrittenAlike.trans (h : WrittenAlike m₀ m k k') (h' : WrittenAlike k k' l l') :
    WrittenAlike m₀ m l l' := by
  intro a
  rcases h' a with he | ⟨hl, hl'⟩
  · exact .inl he
  · rw [hl, hl']; exact h a

theorem RunsAlike.trans (h : WrittenAlike m₀ m k k') {x y : Except Fault State}
    (hr : RunsAlike k k' x y) : RunsAlike m₀ m x y := by
  cases hr with
  | next hl => exact .next (h.trans hl)
  | stop f => exact .stop f

end WrittenAlike

/-- A run of a command that keeps its configuration keeps the two memories in agreement. -/
theorem ReadsAgree.after (h : ReadsAgree s m) {k : Memory} (hcfg : u.cfg = s.cfg)
    (hk : WrittenAlike s.mem m u.mem k) : ReadsAgree u k := by
  intro a ha
  have ha : engineReads s a := by simpa only [engineReads, State.NE, State.NBYTES, hcfg] using ha
  rcases hk a with he | ⟨hu, hk⟩
  · exact he
  · rw [hk, hu, h a ha]

/-! ### The bodies -/

theorem frameStartBody_alike (s : State) (m : Memory) :
    RunsAlike s.mem m (.ok (frameStartBody s)) (.ok (frameStartBody (s.withMem m))) :=
  .next WrittenAlike.refl.store.store.store

/-- A body that keeps the memory and does the same over every other. -/
theorem RunsAlike.of_keeps {f : State → State}
    (h : (f s).mem = s.mem ∧ f (s.withMem m) = (f s).withMem m) :
    RunsAlike s.mem m (.ok (f s)) (.ok (f (s.withMem m))) := by
  obtain ⟨hmem, hf⟩ := h
  rw [hf]
  exact .next (by rw [hmem]; exact .refl)

theorem pvqDeenumBody_withMem (s : State) (m : Memory) :
    (pvqDeenumBody s).mem = s.mem ∧ pvqDeenumBody (s.withMem m) = (pvqDeenumBody s).withMem m := by
  have hin : (s.withMem m).pvqIn = s.pvqIn := rfl
  unfold pvqDeenumBody
  rw [hin]
  dsimp only
  by_cases herr : (deenum s.pvqIn.idx.toNat s.pvqIn.ls s.pvqIn.dim.toNat s.pvqIn.k.toNat).2 = true
  · rw [if_pos herr, if_pos herr]; exact ⟨rfl, rfl⟩
  · rw [if_neg herr, if_neg herr]; exact ⟨rfl, rfl⟩

theorem pvqShapeBody_withMem (s : State) (m : Memory) :
    (pvqShapeBody s).mem = s.mem ∧ pvqShapeBody (s.withMem m) = (pvqShapeBody s).withMem m := by
  unfold pvqShapeBody
  rw [State.withMem_cfg]
  cases s.cfg.mode.bfi with
  | true => exact ⟨rfl, rfl⟩
  | false => exact ⟨rfl, rfl⟩

theorem gainAdjBody_withMem (s : State) (m : Memory) :
    (gainAdjBody s).mem = s.mem ∧ gainAdjBody (s.withMem m) = (gainAdjBody s).withMem m := by
  unfold gainAdjBody
  dsimp only
  rw [State.withMem_fstat]
  by_cases hq : s.fstat.adjCount = 0
  · rw [if_pos hq, if_pos hq]
    have hfirst : firstAdjustment (s.withMem m).cfg.nbitsReal.toNat (s.withMem m).TARGET
        (s.withMem m).cfg.delta.toNat (s.withMem m).GG_FLOOR (s.withMem m).GG_IND =
      firstAdjustment s.cfg.nbitsReal.toNat s.TARGET s.cfg.delta.toNat s.GG_FLOOR s.GG_IND := rfl
    rw [hfirst]
    cases firstAdjustment s.cfg.nbitsReal.toNat s.TARGET s.cfg.delta.toNat s.GG_FLOOR s.GG_IND with
    | moveTo gg => exact ⟨rfl, rfl⟩
    | flag => exact ⟨rfl, rfl⟩
    | keep => exact ⟨rfl, rfl⟩
  · rw [if_neg hq, if_neg hq]
    exact ⟨rfl, rfl⟩

theorem ReadsAgree.prime (h : ReadsAgree s m) : RunsAlike s.mem m (prime s) (prime (s.withMem m)) := by
  unfold Machine.prime
  rw [State.withMem_PB]
  by_cases hpb : s.PB < 3
  · rw [if_pos hpb, if_pos hpb]; exact .next .refl
  · have hn : 0 < s.NBYTES := by unfold State.PB at hpb; omega
    rw [if_neg hpb, if_neg hpb, h.payloadByte hn, h.payloadByte hn, h.payloadByte hn]
    cases Machine.payloadByte s 0 with
    | error f => exact .stop f
    | ok b0 =>
      cases Machine.payloadByte s 1 with
      | error f => exact .stop f
      | ok b1 =>
        cases Machine.payloadByte s 2 with
        | error f => exact .stop f
        | ok b2 =>
          dsimp only
          by_cases hlow : 0xFFFFFF ≤ b0 * 2 ^ 16 + b1 * 2 ^ 8 + b2
          · rw [if_pos hlow, if_pos hlow]; exact .next .refl
          · rw [if_neg hlow, if_neg hlow]; exact .next .refl

theorem ReadsAgree.rcInitBody (h : ReadsAgree s m) :
    RunsAlike s.mem m (rcInitBody s) (rcInitBody (s.withMem m)) := by
  have hprime : RunsAlike s.mem m (Machine.prime s.clearContext)
      (Machine.prime (s.clearContext.withMem m)) := ReadsAgree.prime (s := s.clearContext) h
  unfold Machine.rcInitBody
  by_cases hb : s.cfg.mode.bfi = true
  · simp only [State.withMem_cfg, hb, if_true]; exact .next .refl
  · simp only [State.withMem_cfg, hb, Bool.false_eq_true, if_false]; exact hprime

theorem ReadsAgree.decsymBody (h : ReadsAgree s m) (cum : Nat → Nat) (n : Nat) :
    RunsAlike s.mem m (decsymBody cum n s) (decsymBody cum n (s.withMem m)) := by
  unfold Machine.decsymBody
  rw [h.decSym, State.withMem_coder]
  cases Machine.decSym s cum n s.coder with
  | ok v c => exact .next .refl
  | fail e c => exact .next .refl
  | fault f => exact .stop f

theorem ReadsAgree.rcDecodeBody (h : ReadsAgree s m) :
    RunsAlike s.mem m (rcDecodeBody r s) (rcDecodeBody r (s.withMem m)) := by
  unfold Machine.rcDecodeBody
  rw [h.decodeSections, State.withMem_cfg, State.withMem_dec, State.withMem_si, State.withMem_NE]
  by_cases hb : s.cfg.mode.bfi = true
  · rw [if_pos hb, if_pos hb]; exact .next WrittenAlike.refl.store
  rw [if_neg hb, if_neg hb]
  by_cases he : s.dec.fsm = .error ∨ s.NE < s.si.lastnz.toNat
  · rw [if_pos he, if_pos he]; exact .next WrittenAlike.refl.store
  rw [if_neg he, if_neg he]
  match Machine.decodeSections r s with
  | .error f => exact .stop f
  | .ok (p, some e) => exact .next WrittenAlike.refl.store
  | .ok (p, none) => exact .next WrittenAlike.refl.store

theorem ReadsAgree.gainEstBody (h : ReadsAgree s m) :
    RunsAlike s.mem m (gainEstBody r s) (gainEstBody r (s.withMem m)) := by
  unfold Machine.gainEstBody
  rw [State.withMem_NE, h.xElems (Nat.zero_add _).le]
  cases Machine.xElems s 0 s.NE with
  | error f => exact .stop f
  | ok xs =>
    dsimp only
    rw [rawGain_withMem]
    exact .next .refl

theorem ReadsAgree.quantizeBody (h : ReadsAgree s m) :
    RunsAlike s.mem m (quantizeBody r s) (quantizeBody r (s.withMem m)) := by
  unfold Machine.quantizeBody
  rw [State.withMem_NE, h.xElems (Nat.zero_add _).le]
  cases Machine.xElems s 0 s.NE with
  | error f => exact .stop f
  | ok xs =>
    dsimp only
    rw [codeSpectrum_withMem]
    exact .next WrittenAlike.refl.store

theorem ReadsAgree.resEncodeBody (h : ReadsAgree s m) :
    RunsAlike s.mem m (resEncodeBody r s) (resEncodeBody r (s.withMem m)) := by
  have hcount : encoderCount (s.withMem m) = encoderCount s := rfl
  unfold Machine.resEncodeBody
  dsimp only
  rw [State.withMem_NE, h.xqElems, hcount, h.encodeBits (by rw [xqElems_length]; omega)]
  cases Machine.encodeBits r s 0 (encoderCount s (countNonzero (Machine.xqElems s s.NE)))
      (Machine.xqElems s s.NE) with
  | error f => exact .stop f
  | ok bits => exact .next WrittenAlike.refl.store

theorem ReadsAgree.resDecodeBody (h : ReadsAgree s m) (hn : 0 < s.NBYTES) :
    RunsAlike s.mem m (resDecodeBody s) (resDecodeBody (s.withMem m)) := by
  have hcount : decoderCount (s.withMem m) = decoderCount s := rfl
  unfold Machine.resDecodeBody
  dsimp only
  rw [State.withMem_cfg, State.withMem_fstat]
  by_cases hb : s.cfg.mode.bfi = true
  · rw [if_pos hb, if_pos hb]; exact .next WrittenAlike.refl.store
  rw [if_neg hb, if_neg hb, State.withMem_NE, h.xqElems, hcount, h.refineFrom hn]
  generalize (if s.fstat.biterr then 0 else decoderCount s (countNonzero (Machine.xqElems s s.NE))) = n
  cases Machine.refineFrom s 0 n.toNat (Machine.xqElems s s.NE) with
  | error f => exact .stop f
  | ok vs => exact .next WrittenAlike.refl.store

theorem ReadsAgree.siUnpackBody (h : ReadsAgree s m) :
    RunsAlike s.mem m (siUnpackBody s) (siUnpackBody (s.withMem m)) := by
  unfold Machine.siUnpackBody
  rw [h.readSideInfo, State.withMem_cfg]
  by_cases hb : s.cfg.mode.bfi = true
  · rw [if_pos hb, if_pos hb]; exact .next .refl
  rw [if_neg hb, if_neg hb]
  cases Machine.readSideInfo s with
  | error f => exact .stop f
  | ok x => exact .next .refl

theorem thenBody_alike {f g : State → Except Fault State}
    (hf : RunsAlike s.mem m (f s) (f (s.withMem m)))
    (hg : ∀ u k, f s = .ok u → WrittenAlike s.mem m u.mem k →
      RunsAlike u.mem k (g u) (g (u.withMem k))) :
    RunsAlike s.mem m (thenBody f g s) (thenBody f g (s.withMem m)) := by
  unfold thenBody
  generalize f s = x at hf hg
  generalize f (s.withMem m) = y at hf
  cases hf with
  | next hk => exact .trans hk (hg _ _ rfl hk)
  | stop e => exact .stop e

theorem ReadsAgree.decodeFrameBody (h : ReadsAgree s m) (hn : 0 < s.NBYTES) :
    RunsAlike s.mem m (decodeFrameBody r s) (decodeFrameBody r (s.withMem m)) := by
  refine thenBody_alike h.siUnpackBody fun s1 m1 e1 w1 => ?_
  have h1 := h.after (siUnpackBody_sameInputs e1).cfg w1
  refine thenBody_alike h1.rcInitBody fun s2 m2 e2 w2 => ?_
  have h2 := h1.after (rcInitBody_sameInputs e2).cfg w2
  refine thenBody_alike h2.rcDecodeBody fun s3 m3 e3 w3 => ?_
  have h3 := h2.after (rcDecodeBody_sameInputs e3).cfg w3
  have hn3 : s3.NBYTES = s.NBYTES :=
    (rcDecodeBody_sameInputs e3).nbytes.trans
      ((rcInitBody_sameInputs e2).nbytes.trans (siUnpackBody_sameInputs e1).nbytes)
  exact thenBody_alike (h3.resDecodeBody (by omega)) fun s4 m4 _ _ =>
    .of_keeps (pvqShapeBody_withMem s4 m4)

/-! ### Every command -/

theorem checksOf_withMem (i : Instr) : checksOf (s.withMem m) i = checksOf s i := by cases i <;> rfl

/-- The checks of a command that reads the payload at its end leave NBYTES positive. -/
theorem nbytes_pos_of_checks {i : Instr} (hc : firstError (checksOf s i) = none)
    (hmem : (!decodeConfigOk s, CmdError.configErr) ∈ checksOf s i) : 0 < s.NBYTES := by
  have hcfg : decodeConfigOk s = true := by simpa using firstError_eq_none.mp hc _ hmem
  obtain ⟨-, ⟨hn, -⟩, -⟩ := decodeConfigOk_iff.mp hcfg
  omega

theorem bodyOf_alike {i : Instr} (h : ReadsAgree s m) (hc : firstError (checksOf s i) = none) :
    RunsAlike s.mem m (bodyOf i s) (bodyOf i (s.withMem m)) := by
  cases i with
  | nop => exact .next .refl
  | frameStart => exact frameStartBody_alike s m
  | pvqDeenum => exact .of_keeps (pvqDeenumBody_withMem s m)
  | pvqShape => exact .of_keeps (pvqShapeBody_withMem s m)
  | rcInit => exact h.rcInitBody
  | rcDecsym cls id => exact h.decsymBody _ _
  | rcDecbit => exact h.decsymBody _ _
  | rcDecode => exact h.rcDecodeBody
  | gainEst => exact h.gainEstBody
  | quantize => exact h.quantizeBody
  | gainAdj => exact .of_keeps (gainAdjBody_withMem s m)
  | resEncode => exact h.resEncodeBody
  | resDecode => exact h.resDecodeBody (nbytes_pos_of_checks hc (by simp [checksOf]))
  | siUnpack => exact h.siUnpackBody
  | decodeFrame => exact h.decodeFrameBody (nbytes_pos_of_checks hc (by simp [checksOf]))

/-- A command over another memory that agrees with the state's on what it may read: the checks read no
memory, and the body runs alike. -/
theorem runCommand_alike {checks : List (Bool × CmdError)} {body : State → Except Fault State}
    (hr : firstError checks = none → RunsAlike s.mem m (body s) (body (s.withMem m))) :
    (∃ f, runCommand checks body s = .fault f ∧ runCommand checks body (s.withMem m) = .fault f) ∨
      ∃ t k, runCommand checks body s = .next t ∧
        runCommand checks body (s.withMem m) = .next (t.withMem k) ∧
        WrittenAlike s.mem m t.mem k := by
  unfold runCommand
  cases hc : firstError checks with
  | some e => exact .inr ⟨s.completeError e, m, rfl, rfl, WrittenAlike.refl⟩
  | none =>
    have hr := hr hc
    generalize body s = x at hr
    generalize body (s.withMem m) = y at hr
    cases hr with
    | next hk => exact .inr ⟨_, _, rfl, rfl, hk⟩
    | stop f => exact .inl ⟨f, rfl, rfl⟩

/-- Settles O44: the checks read no memory, and the bodies read it alike. -/
theorem readsOnlyItsInputs : Obligations.ReadsOnlyItsInputs := by
  intro i s m (h : ReadsAgree s m)
  have hrun := runCommand_alike fun hc => bodyOf_alike (i := i) h hc
  rw [← exec_eq_runCommand, ← checksOf_withMem (m := m), ← exec_eq_runCommand] at hrun
  rcases hrun with ⟨f, he, he'⟩ | ⟨t, k, he, he', hk⟩
  · rw [he]
    refine ⟨fun g hg => ?_, fun u hu => by cases hu⟩
    rw [← hg]; exact he'
  · rw [he]
    refine ⟨fun g hg => (by cases hg), fun u hu => ?_⟩
    obtain rfl : t = u := Host.Outcome.next.inj hu
    exact ⟨t.withMem k, he', rfl, hk⟩

end Sys2Proof.Machine

/-! ## Accesses of the host window

An offset of the window names a register, lies in a RAM or is reserved (20_memory.md R91). An access is then
one of three: to a register, by its rules; to a RAM, by its words; or to nothing, which sets ACCESS_ERR. -/

namespace Sys2Proof.Machine

-- One proof at a time: in one file with the tests, waiting proofs would each hold a thread.
set_option Elab.async false

variable {s : State} {off : Nat}

/-! ### The window map (20_memory.md R91) -/

theorem ofOffset_some {r : Reg} (h : Reg.ofOffset off = some r) : r.offset = off := by
  simpa using List.find?_some h

/-- Registers lie below the RAMs and at no reserved offset. -/
theorem Reg.offset_place (r : Reg) : r.offset < 0x1000 ∧ reservedOffset r.offset = false := by
  have all : ∀ r ∈ allRegs, r.offset < 0x1000 ∧ reservedOffset r.offset = false := by decide +kernel
  exact all r (mem_allRegs r)

theorem reservedOffset_iff :
    reservedOffset off = true ↔
      off = 0x00C ∨ (0x058 ≤ off ∧ off < 0x060) ∨ (0x074 ≤ off ∧ off < 0x080) ∨
        (0x0F8 ≤ off ∧ off < 0x100) ∨ (0x14C ≤ off ∧ off < 0x160) ∨ (0x188 ≤ off ∧ off < 0x1A0) ∨
          (0x220 ≤ off ∧ off < 0x1000) ∨ (0x1190 ≤ off ∧ off < 0x2000) ∨
            (0x2640 ≤ off ∧ off < 0x3000) ∨ (0x3640 ≤ off ∧ off < 0x4000) ∨
              (0x4640 ≤ off ∧ off < 0x5000) ∨ (0x5034 ≤ off ∧ off < 0x6000) := by
  simp only [reservedOffset, Bool.or_eq_true, decide_eq_true_eq, or_assoc]

theorem placeOf_ram (h : inRam off = true) : placeOf off = .ram := by
  have hnone : Reg.ofOffset off = none := by
    cases hr : Reg.ofOffset off with
    | none => rfl
    | some r =>
      have := r.offset_place.1
      rw [ofOffset_some hr] at this
      have := inRam_iff.mp h
      omega
  rw [placeOf, hnone]
  exact if_pos h

theorem placeOf_reserved (h : reservedOffset off = true) : placeOf off = .reserved := by
  have hnone : Reg.ofOffset off = none := by
    cases hr : Reg.ofOffset off with
    | none => rfl
    | some r =>
      have hres := r.offset_place.2
      rw [ofOffset_some hr, h] at hres
      cases hres
  have hram : ¬ inRam off = true := fun hram => by
    have := inRam_iff.mp hram
    have := reservedOffset_iff.mp h
    omega
  rw [placeOf, hnone]
  exact if_neg hram

/-- Below the RAMs every word offset that is not reserved is a register's. -/
theorem exists_reg_of_not_reserved (hlt : off < 0x1000) (halign : off % 4 = 0)
    (h : reservedOffset off = false) : ∃ r : Reg, off = r.offset := by
  have low : ∀ k < 0x88, reservedOffset (4 * k) = false → (Reg.ofOffset (4 * k)).isSome = true := by
    decide +kernel
  have hk : 4 * (off / 4) = off := by omega
  have hnot := mt reservedOffset_iff.mpr (by rw [h]; decide)
  have hsome := low (off / 4) (by omega) (by rw [hk]; exact h)
  rw [hk] at hsome
  obtain ⟨r, hr⟩ := Option.isSome_iff_exists.mp hsome
  exact ⟨r, (ofOffset_some hr).symm⟩

/-- What a word offset of the window names (R91). -/
theorem offset_cases (hlt : off < 0x6000) (halign : off % 4 = 0) :
    (∃ r : Reg, off = r.offset) ∨ inRam off = true ∨ reservedOffset off = true := by
  cases hres : reservedOffset off with
  | true => exact .inr (.inr rfl)
  | false =>
    by_cases hlow : off < 0x1000
    · exact .inl (exists_reg_of_not_reserved hlow halign hres)
    · have hnot := mt reservedOffset_iff.mpr (by rw [hres]; decide)
      exact .inr (.inl (inRam_iff.mpr (by omega)))

/-! ### Accesses to a RAM and to a reserved offset -/

theorem hostRead_ram (hb : s.busy = false) (h : inRam off = true) :
    hostRead off s = (s, ramWord s off) := by simp [hostRead, placeOf_ram h, hb]

theorem hostWrite_ram (hb : s.busy = false) (h : inRam off = true) (w : Word) :
    hostWrite off w s =
      if off < XQ_BASE then { s with mem := s.mem.store off (wordBytes w) } else s := by
  simp [hostWrite, placeOf_ram h, hb, ramWritable]

theorem hostRead_reserved (h : reservedOffset off = true) (s : State) :
    hostRead off s = (s.accessError, 0) := by rw [hostRead, placeOf_reserved h]

theorem hostWrite_reserved (h : reservedOffset off = true) (s : State) (w : Word) :
    hostWrite off w s = s.accessError := by rw [hostWrite, placeOf_reserved h]

/-- Settles O49: a reserved offset names neither a register nor a RAM, so that neither the command pending
nor the word written matters. -/
theorem reservedOffsetAccess : Obligations.ReservedOffsetAccess := fun s _ w _ h =>
  ⟨hostRead_reserved h s, hostWrite_reserved h s w⟩

/-- Settles O48: inside the window the alignment check alone decides whether the access is done. -/
theorem misalignedAccessAnswersSlverr : Obligations.MisalignedAccessAnswersSlverr := by
  intro s width off w hlt
  have hwin : ¬ WINDOW_BYTES ≤ off := not_le.mpr hlt
  constructor
  · intro hbad
    have hal : ¬ aligned width off = true := by
      rw [aligned, Bool.and_eq_true, decide_eq_true_eq, decide_eq_true_eq]
      exact not_and_or.mpr hbad
    exact ⟨by rw [hostStep, if_neg hwin, if_neg hal], by rw [hostStep, if_neg hwin, if_neg hal]⟩
  · intro hwidth halign
    have hal : aligned width off = true := by
      rw [aligned, Bool.and_eq_true, decide_eq_true_eq, decide_eq_true_eq]
      exact ⟨hwidth, halign⟩
    exact ⟨by rw [hostStep, if_neg hwin, if_pos hal], _, by rw [hostStep, if_neg hwin, if_pos hal], rfl⟩

/-! ### While a command runs (R99) -/

theorem Reg.offset_of_readable {r : Reg} (h : r.readableWhileBusy = true) :
    r.offset ∈ [0x000, 0x004, 0x008, 0x014, 0x018, 0x01C] := by
  cases r
  case id => decide
  case param0 => decide
  case param1 => decide
  case status => decide
  case fstat => decide
  case irqEn => decide
  all_goals cases h

theorem Reg.offset_of_writable {r : Reg} (h : r.writableWhileBusy = true) :
    r.offset ∈ [0x014, 0x01C] := by
  cases r
  case status => decide
  case irqEn => decide
  all_goals cases h

/-- Every read but those of the six registers is rejected. -/
theorem hostRead_busy (hb : s.busy = true) (hlt : off < 0x6000) (halign : off % 4 = 0)
    (hoff : off ∉ [0x000, 0x004, 0x008, 0x014, 0x018, 0x01C]) :
    hostRead off s = (s.accessError, 0) := by
  rcases offset_cases hlt halign with ⟨r, rfl⟩ | hram | hres
  · have hr : r.readableWhileBusy = false := by
      rw [← Bool.not_eq_true]; exact mt Reg.offset_of_readable hoff
    simp [hostRead, hb, hr]
  · simp [hostRead, placeOf_ram hram, hb]
  · exact hostRead_reserved hres s

/-- Every write but those of STATUS and IRQ_EN is rejected. -/
theorem hostWrite_busy (hb : s.busy = true) (hlt : off < 0x6000) (halign : off % 4 = 0)
    (hoff : off ∉ [0x014, 0x01C]) (w : Word) : hostWrite off w s = s.accessError := by
  rcases offset_cases hlt halign with ⟨r, rfl⟩ | hram | hres
  · have hr : r.writableWhileBusy = false := by
      rw [← Bool.not_eq_true]; exact mt Reg.offset_of_writable hoff
    simp [hostWrite, hb, hr]
  · simp [hostWrite, placeOf_ram hram, hb]
  · exact hostWrite_reserved hres s w

/-- Settles O47: the registers of R99 are done as they are, and any other place is rejected. -/
theorem busyRejections : Obligations.BusyRejections := by
  intro s off w hb hlt halign rejected
  have read := fun {r : Reg} (hr : r.readableWhileBusy = true) => hostRead_readable s hr
  have write := fun {r : Reg} (hr : r.writableWhileBusy = true) => hostWrite_writable s hr w
  exact ⟨read (r := .id) rfl, read (r := .param0) rfl, read (r := .param1) rfl,
    read (r := .status) rfl, read (r := .fstat) rfl, read (r := .irqEn) rfl,
    hostRead_busy hb hlt halign, write (r := .status) rfl, write (r := .irqEn) rfl,
    fun hoff => hostWrite_busy hb hlt halign hoff w⟩

/-! ### While no command runs (R96) -/

theorem readOnlyOffset_iff :
    readOnlyOffset off = true ↔
      reservedOffset off = false ∧
        (off < 0x00C ∨ off = 0x018 ∨ (0x070 ≤ off ∧ off < 0x220) ∨ (0x3000 ≤ off ∧ off < 0x6000)) := by
  simp only [readOnlyOffset, Bool.and_eq_true, Bool.not_eq_true', Bool.or_eq_true, decide_eq_true_eq,
    or_assoc]

/-- The registers that the host can write are at no read-only offset. -/
theorem Reg.not_readOnly {r : Reg} (h : r ∈ Reg.cmd :: .status :: hostRegs) :
    readOnlyOffset r.offset = false := by
  have all : ∀ r ∈ Reg.cmd :: .status :: hostRegs, readOnlyOffset r.offset = false := by decide
  exact all r h

/-- Every other register ignores a write. -/
theorem Reg.write_readOnly {r : Reg} (h : r ∉ Reg.cmd :: .status :: hostRegs) (s : State) (w : Word) :
    r.write s w = s := by
  cases r
  all_goals try rfl
  all_goals exact absurd (by decide) h

/-- A read is done without a change where the offset is not reserved. -/
theorem hostRead_unchanged (hb : s.busy = false) (hlt : off < 0x6000) (halign : off % 4 = 0)
    (hres : reservedOffset off = false) : (hostRead off s).1 = s := by
  rcases offset_cases hlt halign with ⟨r, rfl⟩ | hram | hres'
  · rw [hostRead_idle hb]
  · rw [hostRead_ram hb hram]
  · rw [hres] at hres'; cases hres'

theorem hostWrite_readOnly (hb : s.busy = false) (hlt : off < 0x6000) (halign : off % 4 = 0)
    (hro : readOnlyOffset off = true) (w : Word) : hostWrite off w s = s := by
  obtain ⟨hres, hrange⟩ := readOnlyOffset_iff.mp hro
  rcases offset_cases hlt halign with ⟨r, rfl⟩ | hram | hres'
  · rw [hostWrite_idle hb]
    refine Reg.write_readOnly (fun hmem => ?_) s w
    rw [Reg.not_readOnly hmem] at hro
    cases hro
  · have hin := inRam_iff.mp hram
    rw [hostWrite_ram hb hram, if_neg (by unfold XQ_BASE; omega)]
  · rw [hres] at hres'; cases hres'

/-! ### The words of a RAM (R93 to R95) -/

/-- Bit j of a RAM word is bit j mod 8 of its byte j / 8. -/
theorem ramWord_getLsbD (s : State) (off : Nat) {j : Nat} (hj : j < 32) :
    (ramWord s off).getLsbD j = (ramByte s (off + j / 8)).getLsbD (j % 8) := by
  obtain ⟨b, k, hb, hk, rfl⟩ : ∃ b k, b < 4 ∧ k < 8 ∧ j = 8 * b + k :=
    ⟨j / 8, j % 8, by omega, by omega, by omega⟩
  rw [show (8 * b + k) / 8 = b by omega, show (8 * b + k) % 8 = k by omega, ramWord, wordOfBytes]
  simp only [BitVec.getLsbD_append]
  interval_cases b
  · simp [hk]
  · simp [hk]
  · simp [hk, show ¬ 16 + k < 8 by omega, show ¬ 16 + k - 8 < 8 by omega,
      show 16 + k - 8 - 8 = k by omega]
  · simp [show ¬ 24 + k < 8 by omega, show ¬ 24 + k - 8 < 8 by omega,
      show ¬ 24 + k - 8 - 8 < 8 by omega, show 24 + k - 8 - 8 - 8 = k by omega]

theorem ramByte_store {lo : Nat} {bs : List Byte} {k : Nat} {v : Byte} (s : State) (hv : bs[k]? = some v)
    (hoff : lo + k < RESBUF_BASE + RESBUF_BYTES) :
    ramByte { s with mem := s.mem.store lo bs } (lo + k) = v := by
  have hk : k < bs.length := (List.getElem?_eq_some_iff.mp hv).1
  simp only [ramByte, if_neg (not_le.mpr hoff), s.mem.read_store_inside hk, hv, Option.getD_some]

/-- A word stored in a RAM is the word read there. -/
theorem ramWord_store_word (s : State) (w : Word) (hoff : off + 3 < RESBUF_BASE + RESBUF_BYTES) :
    ramWord { s with mem := s.mem.store off (wordBytes w) } off = w := by
  have byte := fun k v (hv : (wordBytes w)[k]? = some v) (hk : k < 4) =>
    ramByte_store s hv (lo := off) (by omega)
  have h0 := byte 0 _ rfl (by decide)
  rw [Nat.add_zero] at h0
  rw [ramWord, h0, byte 1 _ rfl (by decide), byte 2 _ rfl (by decide), byte 3 _ rfl (by decide)]
  exact wordOfBytes_wordBytes w

/-- What a write of a word of PAYLOAD or X leaves: the word itself, as the host reads it back, every other
byte and every register as they were (R93, R94). -/
theorem hostWrite_ram_word (hb : s.busy = false) (h : inRam off = true) (hlow : off + 3 < XQ_BASE)
    (w : Word) :
    let t := hostWrite off w s
    t = { s with mem := s.mem.store off (wordBytes w) } ∧ sameBytesOutside off 4 s t ∧
      hostRead off t = (t, w) := by
  intro t
  have ht : t = { s with mem := s.mem.store off (wordBytes w) } :=
    (hostWrite_ram hb h w).trans (if_pos (by omega))
  refine ⟨ht, fun a ha => ?_, ?_⟩
  · rw [ht]; exact s.mem.read_store_outside ha
  · have hbt : t.busy = false := by rw [ht]; exact hb
    have hword : ramWord t off = w := by
      rw [ht]; exact ramWord_store_word s w (by unfold XQ_BASE at hlow; unfold RESBUF_BASE; omega)
    rw [hostRead_ram hbt h, hword]

/-- Settles O50: reads and read-only writes by the place of the offset, RESBUF by the bits of its
words. -/
theorem readsAndReadOnlyWritesChangeNothing : Obligations.ReadsAndReadOnlyWritesChangeNothing := by
  intro s off w hb hlt halign
  refine ⟨hostRead_unchanged hb hlt halign, fun hro => hostWrite_readOnly hb hlt halign hro w, ?_,
    fun n hn => ?_, fun b hge hlt => ?_⟩
  · exact congrArg Prod.snd (hostRead_idle hb .cmd)
  · rw [hostRead_ram hb (inRam_iff.mpr (by omega)), ramWord_getLsbD s _ (Nat.mod_lt _ (by decide)),
      resbufBit, RESBUF_BASE, show 0x5000 + 4 * (n / 32) + n % 32 / 8 = 0x5000 + n / 8 by omega,
      show n % 32 % 8 = n % 8 by omega]
  · have hbyte : ramByte s (0x5030 + b / 8) = 0 :=
      if_pos (show 0x5000 + 50 ≤ 0x5030 + b / 8 by omega)
    rw [hostRead_ram hb (by decide), ramWord_getLsbD s _ hlt, hbyte]
    exact BitVec.getLsbD_zero

/-- Settles O51: the bytes of the stored word are the payload bytes that the engine reads. -/
theorem payloadWordBytes : Obligations.PayloadWordBytes := by
  intro s k w hb hk t
  have hram : inRam (0x1000 + 4 * k) = true := inRam_iff.mpr (by omega)
  obtain ⟨ht, hsame, hread⟩ := hostWrite_ram_word hb hram (by unfold XQ_BASE; omega) w
  refine ⟨by rw [show t = _ from ht], hsame, fun i hi => ?_, hread⟩
  have hbyte : (wordBytes w)[i]? = some (w.extractLsb' (8 * i) 8) := by
    interval_cases i <;> rfl
  have hmem : t.mem.read (PAYLOAD_BASE + (4 * k + i)) = some (w.extractLsb' (8 * i) 8) := by
    rw [show t = _ from ht, ← hbyte, PAYLOAD_BASE, ← Nat.add_assoc]
    exact s.mem.read_store_inside hi
  rw [payByte, if_pos (by unfold Config.BYTES_MAX; omega), hmem]

/-- Settles O52: the four stored bytes make up the word that the engine reads as an integer. -/
theorem spectrumWords : Obligations.SpectrumWords := by
  intro s i w hb hi t
  have hram : inRam (0x2000 + 4 * i) = true := inRam_iff.mpr (by omega)
  obtain ⟨ht, hsame, hread⟩ := hostWrite_ram_word hb hram (by unfold XQ_BASE; omega) w
  refine ⟨by rw [show t = _ from ht], hsame, ?_, hread, ?_, ?_⟩
  · have byte : ∀ k < 4, t.mem.read (X_BASE + 4 * i + k) = (wordBytes w)[k]? := fun k hk => by
      rw [show t = _ from ht]; exact s.mem.read_store_inside hk
    have h0 : t.mem.read (X_BASE + 4 * i) = _ := byte 0 (by decide)
    rw [xElem, h0, byte 1 (by decide), byte 2 (by decide), byte 3 (by decide)]
    exact congrArg (fun v : Word => Except.ok v.toInt) (wordOfBytes_wordBytes w)
  · rw [hostRead_ram hb (inRam_iff.mpr (by omega))]; rfl
  · rw [hostRead_ram hb (inRam_iff.mpr (by omega))]; rfl

end Sys2Proof.Machine

/-! ## Command words

A word is its three fields (30_encoding.md R115), and it decodes to a command exactly when the command is
well-formed and the fields are its opcode, its argument and 0. What a word decodes to, and what the engine
does with a word that is no command, follow from that one rule. -/

namespace Sys2Proof

-- One proof at a time: in one file with the tests, waiting proofs would each hold a thread.
set_option Elab.async false

variable {w : Word} {i : Instr}

/-! ### The fields of a word (30_encoding.md R115) -/

theorem opcField_eq_extract (w : Word) : opcField w = (w.extractLsb' 0 8).toNat := by
  rw [opcField, Machine.toNat_extract]
  omega

theorem argField_eq_extract (w : Word) : argField w = (w.extractLsb' 8 8).toNat :=
  (Machine.toNat_extract w 8 8).symm

theorem reservedField_eq_extract (w : Word) : reservedField w = (w.extractLsb' 16 16).toNat := by
  rw [reservedField, Machine.toNat_extract]
  omega

/-- CLASS is the upper two bits of ARG (R117). -/
theorem class_extract (w : Word) : (w.extractLsb' 14 2).toNat = argField w / 64 := by
  rw [argField, Machine.toNat_extract]
  omega

/-- ID is the lower six bits of ARG (R117). -/
theorem id_extract (w : Word) : (w.extractLsb' 8 6).toNat = argField w % 64 := by
  rw [argField, Machine.toNat_extract]
  omega

theorem argField_lt (w : Word) : argField w < 256 := Nat.mod_lt _ (by decide)

theorem toNat_eq_fields (w : Word) :
    w.toNat = opcField w + 256 * argField w + 65536 * reservedField w := by
  unfold opcField argField reservedField
  omega

theorem word_eq_iff_fields {v : Word} :
    w = v ↔ opcField w = opcField v ∧ argField w = argField v ∧ reservedField w = reservedField v := by
  refine ⟨fun h => h ▸ ⟨rfl, rfl, rfl⟩, fun ⟨hopc, harg, hres⟩ => BitVec.eq_of_toNat_eq ?_⟩
  rw [toNat_eq_fields w, toNat_eq_fields v, hopc, harg, hres]

/-- The mask of RC_DECSYM keeps OPC and the reserved bits and clears ARG (R120). -/
theorem fields_and_decsymMask (w : Word) :
    opcField (w &&& 0xFFFF00FF#32) = opcField w ∧ argField (w &&& 0xFFFF00FF#32) = 0 ∧
      reservedField (w &&& 0xFFFF00FF#32) = reservedField w := by
  have hall : (w &&& 0xFFFF00FF#32).extractLsb' 16 16 = w.extractLsb' 16 16 := by
    rw [BitVec.extractLsb'_and]
    exact BitVec.and_allOnes
  have hnone : (w &&& 0xFFFF00FF#32).extractLsb' 8 8 = 0 := by
    rw [BitVec.extractLsb'_and]
    exact BitVec.and_zero
  have hlow : (w &&& 0xFFFF00FF#32).extractLsb' 0 8 = w.extractLsb' 0 8 := by
    rw [BitVec.extractLsb'_and]
    exact BitVec.and_allOnes
  refine ⟨?_, ?_, ?_⟩
  · rw [opcField_eq_extract, hlow, ← opcField_eq_extract]
  · rw [argField_eq_extract, hnone]; rfl
  · rw [reservedField_eq_extract, hall, ← reservedField_eq_extract]

theorem and_decsymMask_iff :
    w &&& 0xFFFF00FF#32 = 0x21#32 ↔ opcField w = 0x21 ∧ reservedField w = 0 := by
  obtain ⟨hopc, harg, hres⟩ := fields_and_decsymMask w
  rw [word_eq_iff_fields, hopc, harg, hres]
  exact ⟨fun ⟨ho, _, hr⟩ => ⟨ho, hr⟩, fun ⟨ho, hr⟩ => ⟨ho, rfl, hr⟩⟩

/-! ### The opcode map (30_encoding.md R116, R117) -/

theorem TableClass.ofCode_code (cls : TableClass) : TableClass.ofCode cls.code = cls := by
  cases cls <;> rfl

theorem TableClass.code_ofCode {n : Nat} (h : n < 4) : (TableClass.ofCode n).code = n := by
  interval_cases n <;> rfl

theorem Instr.rcDecsym_wellFormed {cls : TableClass} {id : Nat} :
    (Instr.rcDecsym cls id).wellFormed = true ↔ id < 64 := decide_eq_true_iff

theorem Instr.arg_of_takesArg (h : i.takesArg = false) : i.arg = 0 := by
  cases i with
  | rcDecsym cls id => cases h
  | _ => rfl

/-- RC_DECSYM alone reads its argument byte, and alone has the opcode 0x21. -/
theorem Instr.takesArg_iff_opcode : i.takesArg = true ↔ i.opcode = 0x21 := by
  cases i with
  | rcDecsym cls id => exact iff_of_true rfl rfl
  | _ => decide

/-- The map gives well-formed commands under their own opcodes, and gives back the argument of the one
that has one. -/
theorem ofOpcode_some {opc arg : Nat} (harg : arg < 256) (h : ofOpcode opc arg = some i) :
    i.opcode = opc ∧ i.wellFormed = true ∧ (i.takesArg = true → i.arg = arg) := by
  unfold ofOpcode at h
  split at h
  case h_6 =>
    cases h
    refine ⟨rfl, Instr.rcDecsym_wellFormed.mpr (by omega), fun _ => ?_⟩
    rw [Instr.arg, TableClass.code_ofCode (by omega)]
    omega
  case h_16 => cases h
  all_goals
    cases h
    exact ⟨rfl, rfl, nofun⟩

theorem ofOpcode_opcode_arg (h : i.wellFormed = true) : ofOpcode i.opcode i.arg = some i := by
  cases i with
  | rcDecsym cls id =>
    have hid : id < 64 := Instr.rcDecsym_wellFormed.mp h
    show some (Instr.rcDecsym (.ofCode ((cls.code * 64 + id) / 64)) ((cls.code * 64 + id) % 64)) = _
    rw [show (cls.code * 64 + id) / 64 = cls.code by omega,
      show (cls.code * 64 + id) % 64 = id by omega, cls.ofCode_code]
  | _ => rfl

/-- The map is undefined exactly outside the opcodes of R116. -/
theorem ofOpcode_eq_none_iff {opc arg : Nat} :
    ofOpcode opc arg = none ↔ opc ∉ Machine.definedOpcodes := by
  unfold ofOpcode
  split
  case h_16 =>
    refine ⟨fun _ hmem => ?_, fun _ => rfl⟩
    simp only [Machine.definedOpcodes, List.mem_cons, List.not_mem_nil] at hmem
    tauto
  all_goals exact ⟨nofun, fun h => absurd (by decide) h⟩

/-! ### Decoding -/

/-- A word decodes to a command exactly when the command is well-formed and the word holds its opcode, its
argument and no reserved bit (R115, R118). -/
theorem decode_eq_ok_iff :
    decode w = .ok i ↔
      i.wellFormed = true ∧ opcField w = i.opcode ∧ argField w = i.arg ∧ reservedField w = 0 := by
  unfold decode
  constructor
  · intro h
    split at h
    · cases h
    · next j hj =>
      split at h
      · cases h
      · next hbits =>
        cases h
        obtain ⟨hopc, hwf, harg⟩ := ofOpcode_some (argField_lt w) hj
        push Not at hbits
        obtain ⟨hres, hzero⟩ := hbits
        refine ⟨hwf, hopc.symm, ?_, hres⟩
        cases ht : i.takesArg with
        | true => exact (harg ht).symm
        | false => rw [hzero ht, Instr.arg_of_takesArg ht]
  · rintro ⟨hwf, hopc, harg, hres⟩
    have hbits : ¬ (reservedField w ≠ 0 ∨ (i.takesArg = false ∧ argField w ≠ 0)) := by
      rintro (hr | ⟨ht, ha⟩)
      · exact hr hres
      · exact ha (harg.trans (Instr.arg_of_takesArg ht))
    rw [hopc, harg, ofOpcode_opcode_arg hwf, ← harg]
    exact if_neg hbits

/-- A word is illegal exactly when its opcode is outside the map (R119). -/
theorem decode_eq_illegalCmd_iff :
    decode w = .error .illegalCmd ↔ opcField w ∉ Machine.definedOpcodes := by
  rw [← ofOpcode_eq_none_iff (arg := argField w)]
  unfold decode
  split
  · next h => exact ⟨fun _ => h, fun _ => rfl⟩
  · next j hj =>
    refine ⟨fun h => ?_, fun h => absurd (hj.symm.trans h) nofun⟩
    split at h <;> cases h

/-- A defined opcode with a reserved bit set, or with an argument where none is read (R118). -/
theorem decode_reservedBits (hopc : opcField w ∈ Machine.definedOpcodes)
    (hbits : reservedField w ≠ 0 ∨ (opcField w ≠ 0x21 ∧ argField w ≠ 0)) :
    decode w = .error .reservedBits := by
  match hd : decode w with
  | .ok i =>
    obtain ⟨-, hop, harg, hres⟩ := decode_eq_ok_iff.mp hd
    obtain ⟨hne, hnz⟩ := hbits.resolve_left (not_not_intro hres)
    have ht : i.takesArg = false :=
      Bool.eq_false_iff.mpr fun ht => hne (hop.trans (Instr.takesArg_iff_opcode.mp ht))
    exact absurd (harg.trans (Instr.arg_of_takesArg ht)) hnz
  | .error .illegalCmd => exact absurd hopc (decode_eq_illegalCmd_iff.mp hd)
  | .error .reservedBits => rfl

/-! ### Encoding -/

theorem encode_fields (i : Instr) : Laws.WordFields.Statement i :=
  match i with
  | .nop => Laws.WordFields.nop
  | .frameStart => Laws.WordFields.frameStart
  | .pvqDeenum => Laws.WordFields.pvqDeenum
  | .pvqShape => Laws.WordFields.pvqShape
  | .rcInit => Laws.WordFields.rcInit
  | .rcDecsym cls id => Laws.WordFields.rcDecsym cls id
  | .rcDecbit => Laws.WordFields.rcDecbit
  | .rcDecode => Laws.WordFields.rcDecode
  | .gainEst => Laws.WordFields.gainEst
  | .quantize => Laws.WordFields.quantize
  | .gainAdj => Laws.WordFields.gainAdj
  | .resEncode => Laws.WordFields.resEncode
  | .resDecode => Laws.WordFields.resDecode
  | .siUnpack => Laws.WordFields.siUnpack
  | .decodeFrame => Laws.WordFields.decodeFrame

/-- A well-formed command is decoded from its own word and from no other. -/
theorem decode_eq_ok_iff_eq_encode (hwf : i.wellFormed = true) : decode w = .ok i ↔ w = encode i := by
  obtain ⟨hopc, harg, hres, -⟩ := encode_fields i hwf
  rw [decode_eq_ok_iff, word_eq_iff_fields, hopc, harg, hres]
  exact and_iff_right hwf

/-- RC_DECSYM is matched under its mask, CLASS and ID being the two parts of ARG (R117, R120). -/
theorem decode_eq_rcDecsym_iff {cls : TableClass} {id : Nat} :
    decode w = .ok (.rcDecsym cls id) ↔
      w &&& 0xFFFF00FF#32 = 0x21#32 ∧ (w.extractLsb' 14 2).toNat = cls.code ∧
        (w.extractLsb' 8 6).toNat = id := by
  have hsplit : (id < 64 ∧ argField w = cls.code * 64 + id) ↔
      (argField w / 64 = cls.code ∧ argField w % 64 = id) := by omega
  rw [decode_eq_ok_iff, and_decsymMask_iff, class_extract, id_extract, ← hsplit,
    Instr.rcDecsym_wellFormed, Instr.opcode, Instr.arg]
  tauto

/-! ### A pending word that is no command (60_exceptions.md R355, R381) -/

/-- The step of a pending word that does not decode completes it with the word's error and changes nothing
else. -/
theorem step_decode_error {s : Machine.State} {e : DecodeError} (hagenda : s.agenda = [])
    (hpending : s.pending = some w) (hd : decode w = .error e) :
    ∃ t, Machine.step s = .next t ∧ Machine.CompletedWithError s (Machine.decodeErrorOf e) t ∧
      t.status.errcode = (Machine.decodeErrorOf e).code := by
  refine ⟨s.completeError (Machine.decodeErrorOf e), ?_, rfl, rfl⟩
  simp only [Machine.step, hagenda, Machine.engineStep, hpending, Machine.runWord, hd]

/-! ### The statements -/

/-- Settles O5: the word of a well-formed command is the one that decodes to it. -/
theorem decodeEncode : Obligations.DecodeEncode := fun _ hwf =>
  (decode_eq_ok_iff_eq_encode hwf).mpr rfl

/-- Settles O6: a command that a word decodes to is well-formed, so that only its own word does. -/
theorem encodeDecode : Obligations.EncodeDecode := fun _ _ h =>
  have hwf := (decode_eq_ok_iff.mp h).1
  ⟨hwf, ((decode_eq_ok_iff_eq_encode hwf).mp h).symm⟩

/-- Settles O2: each command without an argument has one word, its encoding; RC_DECSYM has its mask. -/
theorem decodeMatchAndMask : Obligations.DecodeMatchAndMask := fun _ =>
  ⟨decode_eq_ok_iff_eq_encode rfl, decode_eq_ok_iff_eq_encode rfl, decode_eq_ok_iff_eq_encode rfl,
    decode_eq_ok_iff_eq_encode rfl, decode_eq_ok_iff_eq_encode rfl, decode_eq_ok_iff_eq_encode rfl,
    decode_eq_ok_iff_eq_encode rfl, decode_eq_ok_iff_eq_encode rfl, decode_eq_ok_iff_eq_encode rfl,
    decode_eq_ok_iff_eq_encode rfl, decode_eq_ok_iff_eq_encode rfl, decode_eq_ok_iff_eq_encode rfl,
    decode_eq_ok_iff_eq_encode rfl, decode_eq_ok_iff_eq_encode rfl, fun _ _ => decode_eq_rcDecsym_iff,
    decode_eq_rcDecsym_iff.mpr (by decide)⟩

/-- Settles O3: such a word decodes to RESERVED_BITS. -/
theorem reservedBitsRejected : Obligations.ReservedBitsRejected := by
  intro s w hagenda hpending hopc hbits
  refine step_decode_error hagenda hpending (decode_reservedBits ?_ ?_)
  · rwa [opcField_eq_extract]
  · rw [reservedField_eq_extract, opcField_eq_extract, argField_eq_extract]
    simpa [← BitVec.toNat_inj] using hbits

/-- Settles O4: such a word decodes to ILLEGAL_CMD, and the word of NOP is 0. -/
theorem illegalOpcodeRejected : Obligations.IllegalOpcodeRejected := by
  refine ⟨fun s w hagenda hpending hopc => ?_, fun w => (decode_eq_ok_iff_eq_encode rfl).mp⟩
  refine step_decode_error hagenda hpending (decode_eq_illegalCmd_iff.mpr ?_)
  rwa [opcField_eq_extract]

/-- Settles O1: the words that R116 gives are the encodings of their commands. -/
theorem decodeWordsOfSpec : Obligations.DecodeWordsOfSpec :=
  ⟨decodeEncode .nop rfl, decodeEncode .frameStart rfl, decodeEncode .pvqDeenum rfl,
    decodeEncode .pvqShape rfl, decodeEncode .rcInit rfl, decodeEncode (.rcDecsym .tnsCoef 3) rfl,
    decodeEncode (.rcDecsym .spec 63) rfl, decodeEncode (.rcDecsym .uni2 0) rfl,
    decodeEncode .rcDecbit rfl, decodeEncode .rcDecode rfl, decodeEncode .gainEst rfl,
    decodeEncode .quantize rfl, decodeEncode .gainAdj rfl, decodeEncode .resEncode rfl,
    decodeEncode .resDecode rfl, decodeEncode .siUnpack rfl, decodeEncode .decodeFrame rfl⟩

end Sys2Proof

/-! ## Control (40_control.md)

FRAME_START stores zero bytes over XQ, XR and RESBUF. What its memory reads as is said once, address by
address; the words of XQ and XR and the bits of RESBUF follow from their bytes. -/

namespace Sys2Proof.Machine

-- One proof at a time: in one file with the tests, waiting proofs would each hold a thread.
set_option Elab.async false

variable {s t : State} {a : Nat}

/-! ### Completion -/

/-- A command whose checks all pass and whose body runs completes with what the body leaves. -/
theorem exec_ok {i : Instr} (hc : firstError (checksOf s i) = none) (hb : bodyOf i s = .ok t) :
    exec i s = .next t.complete := by
  rw [exec_eq_runCommand, runCommand_ok hc hb]

/-! ### RAMs written with zeros -/

/-- XQ or XR written with no values is all zero bytes (R56). -/
theorem paddedWords_nil : paddedWords [] = List.replicate 1600 0 := by
  refine List.eq_replicate_iff.mpr ⟨paddedWords_length [], fun b hb => ?_⟩
  obtain ⟨i, -, hb⟩ := List.mem_flatMap.mp hb
  have hzero : ∀ c ∈ wordBytes (BitVec.ofInt 32 0), c = 0 := by decide
  exact hzero b (by simpa using hb)

theorem resbufByte_nil (k : Nat) : resbufByte [] k = 0 := by simp [resbufByte, bit]

/-- RESBUF written with no bits is all zero bytes (R292). -/
theorem resbufBytes_nil : (List.range RESBUF_BYTES).map (resbufByte []) = List.replicate 50 0 := by
  refine List.eq_replicate_iff.mpr ⟨resbufBytes_length [], fun b hb => ?_⟩
  obtain ⟨k, -, rfl⟩ := List.mem_map.mp hb
  exact resbufByte_nil k

theorem Memory.read_store_replicate (m : Memory) {lo n : Nat} (b : Byte) (h : inRange lo n a) :
    (m.store lo (List.replicate n b)).read a = some b := by
  obtain ⟨hge, hlt⟩ := h
  obtain ⟨k, rfl⟩ := Nat.exists_eq_add_of_le hge
  have hk : k < n := by omega
  rw [m.read_store_inside (by rwa [List.length_replicate]), List.getElem?_replicate_of_lt hk]

theorem Memory.read_store_replicate_outside (m : Memory) {lo n : Nat} (b : Byte)
    (h : ¬ inRange lo n a) : (m.store lo (List.replicate n b)).read a = m.read a :=
  m.read_store_outside (by rwa [List.length_replicate])

/-! ### Reading zero bytes -/

/-- A byte that holds 0 is read as 0, in RESBUF and in the bits beyond it too. -/
theorem ramByte_eq_zero (h : s.mem.read a = some 0) : ramByte s a = 0 := by
  unfold ramByte
  split
  · rfl
  · rw [h]; rfl

theorem ramWord_eq_zero (h : ∀ k < 4, s.mem.read (a + k) = some 0) : ramWord s a = 0 := by
  have hbyte := fun k hk => ramByte_eq_zero (h k hk)
  have h0 : ramByte s a = 0 := hbyte 0 (by decide)
  rw [ramWord, h0, hbyte 1 (by decide), hbyte 2 (by decide), hbyte 3 (by decide)]
  rfl

/-! ### FRAME_START (R151) -/

theorem exec_frameStart (s : State) : exec .frameStart s = .next (frameStartBody s).complete :=
  exec_ok rfl rfl

theorem frameStartBody_mem (s : State) :
    (frameStartBody s).mem =
      ((s.mem.store XQ_BASE (List.replicate 1600 0)).store XR_BASE (List.replicate 1600 0)).store
        RESBUF_BASE (List.replicate 50 0) := by
  rw [← paddedWords_nil, ← resbufBytes_nil]
  rfl

/-- The addresses that FRAME_START clears: XQ, XR and RESBUF. -/
def clearedAt (a : Nat) : Prop :=
  inRange XQ_BASE 1600 a ∨ inRange XR_BASE 1600 a ∨ inRange RESBUF_BASE 50 a

/-- A later store of zeros does not disturb an earlier one, so the order of the three does not matter. -/
theorem frameStartBody_read_cleared (s : State) (h : clearedAt a) :
    (frameStartBody s).mem.read a = some 0 := by
  rw [frameStartBody_mem]
  by_cases hres : inRange RESBUF_BASE 50 a
  · exact Memory.read_store_replicate _ 0 hres
  rw [Memory.read_store_replicate_outside _ 0 hres]
  by_cases hxr : inRange XR_BASE 1600 a
  · exact Memory.read_store_replicate _ 0 hxr
  rw [Memory.read_store_replicate_outside _ 0 hxr]
  exact Memory.read_store_replicate _ 0 (h.resolve_right (not_or.mpr ⟨hxr, hres⟩))

theorem frameStartBody_read_outside (s : State) (h : ¬ clearedAt a) :
    (frameStartBody s).mem.read a = s.mem.read a := by
  simp only [clearedAt, not_or] at h
  obtain ⟨hxq, hxr, hres⟩ := h
  rw [frameStartBody_mem, Memory.read_store_replicate_outside _ 0 hres,
    Memory.read_store_replicate_outside _ 0 hxr, Memory.read_store_replicate_outside _ 0 hxq]

/-- Where the cleared bytes hold 0, every element of the three RAMs reads 0. -/
theorem elements_zero_of_cleared (h : ∀ a, clearedAt a → t.mem.read a = some 0) {i : Nat} (hi : i < 400) :
    xqElem t i = 0 ∧ xrElem t i = 0 ∧ resbufBit t i = false := by
  refine ⟨?_, ?_, ?_⟩
  · rw [xqElem, ramWord_eq_zero fun k hk => h _ (.inl ⟨by omega, by omega⟩)]
    rfl
  · rw [xrElem, ramWord_eq_zero fun k hk => h _ (.inr (.inl ⟨by omega, by omega⟩))]
    rfl
  · rw [resbufBit, ramByte_eq_zero (h _ (.inr (.inr ⟨by omega, by omega⟩)))]
    exact BitVec.getLsbD_zero

/-! ### The statements -/

/-- Settles O9: the registers are those of the body, and the RAMs read as its memory does. -/
theorem frameStartClears : Obligations.FrameStartClears := by
  intro s
  refine ⟨(frameStartBody s).complete, exec_frameStart s, rfl, fun i hi => ?_, fun a hxq hxr hres => ?_⟩
  · refine elements_zero_of_cleared (fun a ha => ?_) hi
    rw [State.complete_mem]
    exact frameStartBody_read_cleared s ha
  · rw [State.complete_mem]
    exact frameStartBody_read_outside s (not_or.mpr ⟨hxq, not_or.mpr ⟨hxr, hres⟩⟩)

/-- Settles O8: NOP has no check to fail and its body is the identity. -/
theorem nopOnlyCompletes : Obligations.NopOnlyCompletes := fun s =>
  ⟨s.complete, exec_ok rfl rfl, rfl⟩

end Sys2Proof.Machine

/-! ## PVQ (41_pvq.md)

De-enumeration and the closed form of R170 both cut the indices into blocks, one for each value of the
next coordinate. Each `pick` is tied to its blocks in both directions: the pair that it answers lies in its
block, and a place in a block is picked. By induction over the coordinates the walks are then inverse to
each other, and the shell sizes count vectors because they count index pairs. -/

namespace Sys2Proof.Machine

-- One proof at a time: in one file with the tests, waiting proofs would each hold a thread.
set_option Elab.async false

/-! ### The recursion of the shell sizes (R160) -/

theorem shellScan_length (left corner : Nat) (l : List Nat) :
    (shellScan left corner l).length = l.length := by
  induction l generalizing left corner with
  | nil => rfl
  | cons above rest ih => simp [shellScan, ih]

/-- Each entry that the scan appends is the sum of the one above it, the one to its left and the one above
that. -/
theorem shellScan_getD (left corner : Nat) (l : List Nat) {j : Nat} (hj : j < l.length) :
    (left :: shellScan left corner l).getD (j + 1) 0 =
      (corner :: l).getD (j + 1) 0 + (left :: shellScan left corner l).getD j 0 +
        (corner :: l).getD j 0 := by
  induction l generalizing left corner j with
  | nil => simp at hj
  | cons above rest ih =>
    cases j with
    | zero => rfl
    | succ j => exact ih (above + left + corner) above (Nat.lt_of_succ_lt_succ hj)

theorem shellRow_length (k d : Nat) : (shellRow k d).length = k + 1 := by
  induction d with
  | zero => simp [shellRow]
  | succ d ih =>
    rw [shellRow]
    split
    · next h => simp [h] at ih
    · next corner rest h => simpa [h, shellScan_length] using ih

/-- A row of k + 1 entries from the row before it, taken apart. -/
theorem exists_shellRow_eq_cons (k d : Nat) :
    ∃ corner rest, shellRow k d = corner :: rest ∧ rest.length = k ∧
      shellRow k (d + 1) = 1 :: shellScan 1 corner rest := by
  have hlen := shellRow_length k d
  cases h : shellRow k d with
  | nil => simp [h] at hlen
  | cons corner rest => exact ⟨corner, rest, rfl, by simpa [h] using hlen, by rw [shellRow, h]⟩

theorem shellRow_getD_zero (k d : Nat) : (shellRow k d).getD 0 0 = 1 := by
  cases d with
  | zero => rfl
  | succ d =>
    obtain ⟨corner, rest, -, -, hrow⟩ := exists_shellRow_eq_cons k d
    rw [hrow, List.getD_cons_zero]

theorem shellRow_zero_getD_succ (k j : Nat) : (shellRow k 0).getD (j + 1) 0 = 0 := by
  simp [shellRow]

theorem shellRow_getD_succ {k j : Nat} (d : Nat) (hj : j < k) :
    (shellRow k (d + 1)).getD (j + 1) 0 =
      (shellRow k d).getD (j + 1) 0 + (shellRow k (d + 1)).getD j 0 + (shellRow k d).getD j 0 := by
  obtain ⟨corner, rest, hprev, hlen, hrow⟩ := exists_shellRow_eq_cons k d
  rw [hprev, hrow]
  exact shellScan_getD 1 corner rest (hlen ▸ hj)

/-- An entry does not depend on how long the row is. -/
theorem shellRow_getD {k j : Nat} (d : Nat) (hj : j ≤ k) : (shellRow k d).getD j 0 = shellSize d j := by
  suffices h : ∀ k', j ≤ k' → (shellRow k d).getD j 0 = (shellRow k' d).getD j 0 from h j le_rfl
  intro k' hj'
  induction d generalizing j with
  | zero =>
    cases j with
    | zero => rw [shellRow_getD_zero, shellRow_getD_zero]
    | succ j => rw [shellRow_zero_getD_succ, shellRow_zero_getD_succ]
  | succ d ih =>
    induction j with
    | zero => rw [shellRow_getD_zero, shellRow_getD_zero]
    | succ j ihj =>
      rw [shellRow_getD_succ d hj, shellRow_getD_succ d hj', ih hj hj', ih (by omega) (by omega),
        ihj (by omega) (by omega)]

@[simp] theorem shellSize_zero_right (d : Nat) : shellSize d 0 = 1 := shellRow_getD_zero 0 d

@[simp] theorem shellSize_zero_succ (k : Nat) : shellSize 0 (k + 1) = 0 :=
  shellRow_zero_getD_succ (k + 1) k

theorem shellSize_succ_succ (d k : Nat) :
    shellSize (d + 1) (k + 1) = shellSize d (k + 1) + shellSize (d + 1) k + shellSize d k := by
  have h := shellRow_getD_succ (k := k + 1) (j := k) d (by omega)
  rwa [shellRow_getD _ le_rfl, shellRow_getD _ le_rfl, shellRow_getD _ (by omega),
    shellRow_getD _ (by omega)] at h

theorem shellSize_one_succ (k : Nat) : shellSize 1 (k + 1) = 2 := by
  induction k with
  | zero => rfl
  | succ k ih => rw [shellSize_succ_succ, shellSize_zero_succ, shellSize_zero_succ, ih]

theorem shellSize_le_succ_left (d k : Nat) : shellSize d k ≤ shellSize (d + 1) k := by
  cases k with
  | zero => simp
  | succ k => rw [shellSize_succ_succ]; omega

theorem shellSize_le_succ_right (d k : Nat) : shellSize (d + 1) k ≤ shellSize (d + 1) (k + 1) := by
  rw [shellSize_succ_succ]; omega

/-- Over the block's dimensions the largest shell is that of dimension 16 and 10 pulses. -/
theorem shellSize_le_max {d k : Nat} (hd : d ≤ 16) (hk : k ≤ 10) : shellSize d k ≤ shellSize 16 10 :=
  calc shellSize d k
    _ ≤ shellSize 16 k := monotone_nat_of_le_succ (f := (shellSize · k)) (shellSize_le_succ_left · k) hd
    _ ≤ shellSize 16 10 := monotone_nat_of_le_succ (shellSize_le_succ_right 15) hk

theorem shellSize_max : shellSize 16 10 = 387328512 := by decide

/-! ### Half shells (R161) -/

@[simp] theorem mpvqSize_zero_right (d : Nat) : mpvqSize d 0 = 1 := rfl

@[simp] theorem mpvqSize_zero_succ (k : Nat) : mpvqSize 0 (k + 1) = 0 := by simp [mpvqSize]

theorem mpvqSize_of_pos (d : Nat) {k : Nat} (hk : 1 ≤ k) : mpvqSize d k = shellSize d k / 2 :=
  if_neg (Nat.one_le_iff_ne_zero.mp hk)

theorem mpvqSize_lt {d k : Nat} (hd : d ≤ 16) (hk : k ≤ 10) : mpvqSize d k < 2 ^ 32 := by
  have hmax := shellSize_max ▸ shellSize_le_max hd hk
  cases k with
  | zero => simp
  | succ k => rw [mpvqSize_of_pos d (by omega)]; omega

/-- Σ N(d, j) over j < k: the vectors of dimension d with fewer than k pulses. -/
def shellSum (d k : Nat) : Nat := ((List.range k).map (shellSize d)).sum

@[simp] theorem shellSum_zero (d : Nat) : shellSum d 0 = 0 := rfl

theorem shellSum_succ (d k : Nat) : shellSum d (k + 1) = shellSum d k + shellSize d k := by
  simp [shellSum, List.range_succ]

/-- The sum over the pulse counts that `a + 1` pulses or more on the next coordinate leave, from the sum
that excludes `a + 1` itself. -/
theorem shellSum_sub (d : Nat) {a k : Nat} (h : a + 1 ≤ k) :
    shellSum d (k - a) = shellSum d (k - (a + 1)) + shellSize d (k - (a + 1)) := by
  rw [← shellSum_succ]
  congr 1
  omega

theorem shellSum_mono (d : Nat) {j k : Nat} (h : j ≤ k) : shellSum d j ≤ shellSum d k :=
  monotone_nat_of_le_succ (fun k => by rw [shellSum_succ]; omega) h

/-- A vector has a first coordinate of 0, or of one of two signs and then fewer pulses after it. -/
theorem shellSize_succ (d k : Nat) : shellSize (d + 1) k = shellSize d k + 2 * shellSum d k := by
  induction k with
  | zero => simp
  | succ k ih => rw [shellSize_succ_succ, ih, shellSum_succ]; omega

theorem two_mul_mpvqSize (d : Nat) {k : Nat} (hk : 1 ≤ k) : 2 * mpvqSize d k = shellSize d k := by
  have heven : shellSize d k % 2 = 0 := by
    induction d with
    | zero => obtain ⟨k, rfl⟩ := Nat.exists_eq_add_of_le' hk; simp
    | succ d ih => rw [shellSize_succ]; omega
  rw [mpvqSize_of_pos d hk]
  omega

/-- Of a first coordinate that is not 0 one sign is left out. -/
theorem mpvqSize_succ (d k : Nat) : mpvqSize (d + 1) k = mpvqSize d k + shellSum d k := by
  cases k with
  | zero => simp
  | succ k =>
    have h := two_mul_mpvqSize (d + 1) (k := k + 1) (by omega)
    have h' := two_mul_mpvqSize d (k := k + 1) (by omega)
    rw [shellSize_succ] at h
    omega

theorem mpvqSize_pos {d : Nat} (hd : 1 ≤ d) (k : Nat) : 0 < mpvqSize d k := by
  obtain ⟨d, rfl⟩ := Nat.exists_eq_add_of_le' hd
  cases k with
  | zero => simp
  | succ k =>
    have hmono := shellSum_mono d (show 1 ≤ k + 1 by omega)
    rw [shellSum_succ, shellSize_zero_right] at hmono
    rw [mpvqSize_succ]
    omega

/-! ### Choosing one coordinate (R166)

A `pick` that starts at magnitude a has passed the blocks of the larger magnitudes, which hold
`shellSum n (kr - a)` indices for each of their signs. -/

/-- The place of v's block among the indices of n + 1 coordinates with kr pulses, once the leading
coordinate is placed. -/
def signedStart (n kr : Nat) (v : Int) : Nat :=
  2 * shellSum n (kr - v.natAbs) + if v < 0 then shellSize n (kr - v.natAbs) else 0

/-- The size of the block of magnitude m before the leading coordinate is placed. -/
def leadSize (n kr m : Nat) : Nat := if m = 0 then mpvqSize n kr else shellSize n (kr - m)

section
variable {n kr a m r r' : Nat} {v : Int}

@[simp] theorem signedStart_natCast (n kr m : Nat) :
    signedStart n kr (m : Int) = 2 * shellSum n (kr - m) := by
  simp [signedStart, show ¬ (m : Int) < 0 by omega]

@[simp] theorem signedStart_zero (n kr : Nat) : signedStart n kr 0 = 2 * shellSum n kr :=
  signedStart_natCast n kr 0

theorem signedStart_neg (n kr a : Nat) :
    signedStart n kr (-((a + 1 : Nat) : Int)) =
      2 * shellSum n (kr - (a + 1)) + shellSize n (kr - (a + 1)) := by
  rw [signedStart, Int.natAbs_neg, Int.natAbs_natCast, if_pos (by omega)]

theorem le_signedStart (ha : v.natAbs ≤ a) : 2 * shellSum n (kr - a) ≤ signedStart n kr v := by
  have hmono := shellSum_mono n (show kr - a ≤ kr - v.natAbs by omega)
  unfold signedStart
  omega

@[simp] theorem leadSize_zero (n kr : Nat) : leadSize n kr 0 = mpvqSize n kr := rfl

@[simp] theorem leadSize_succ (n kr m : Nat) : leadSize n kr (m + 1) = shellSize n (kr - (m + 1)) := rfl

theorem pickSigned_pos (h : r < shellSize n (kr - (a + 1))) :
    pickSigned n kr (a + 1) r = (((a + 1 : Nat) : Int), r) := by simp [pickSigned, h]

theorem pickSigned_neg (h : r < shellSize n (kr - (a + 1))) :
    pickSigned n kr (a + 1) (shellSize n (kr - (a + 1)) + r) = (-((a + 1 : Nat) : Int), r) := by
  simp [pickSigned, h]

theorem pickSigned_next (n kr a r : Nat) :
    pickSigned n kr (a + 1) (2 * shellSize n (kr - (a + 1)) + r) = pickSigned n kr a r := by
  simp [pickSigned, Nat.two_mul, Nat.add_assoc]

theorem pickLead_here (h : r < shellSize n (kr - (a + 1))) :
    pickLead n kr (a + 1) r = (a + 1, r) := by simp [pickLead, h]

theorem pickLead_next (n kr a r : Nat) :
    pickLead n kr (a + 1) (shellSize n (kr - (a + 1)) + r) = pickLead n kr a r := by simp [pickLead]

/-- The candidate taken is that whose block holds the index. -/
theorem pickSigned_spec (ha : a ≤ kr) (hr : r + 2 * shellSum n (kr - a) < shellSize (n + 1) kr) :
    ∃ v r', pickSigned n kr a r = (v, r') ∧ v.natAbs ≤ a ∧ r' < shellSize n (kr - v.natAbs) ∧
      r + 2 * shellSum n (kr - a) = signedStart n kr v + r' := by
  induction a generalizing r with
  | zero =>
    rw [shellSize_succ] at hr
    exact ⟨0, r, rfl, le_rfl, by simpa using hr, by simp [Nat.add_comm]⟩
  | succ a ih =>
    by_cases hpos : r < shellSize n (kr - (a + 1))
    · refine ⟨_, r, pickSigned_pos hpos, le_rfl, hpos, ?_⟩
      rw [signedStart_natCast, Nat.add_comm]
    obtain ⟨q, rfl⟩ := Nat.exists_eq_add_of_le (Nat.le_of_not_lt hpos)
    by_cases hneg : q < shellSize n (kr - (a + 1))
    · refine ⟨_, q, pickSigned_neg hneg, by omega, by rwa [Int.natAbs_neg], ?_⟩
      rw [signedStart_neg]
      omega
    obtain ⟨p, rfl⟩ := Nat.exists_eq_add_of_le (Nat.le_of_not_lt hneg)
    have hsum := shellSum_sub n ha
    obtain ⟨v, r', hpick, hle, hlt, heq⟩ := ih (r := p) (by omega) (by omega)
    refine ⟨v, r', ?_, by omega, hlt, by omega⟩
    rw [← hpick, ← pickSigned_next n kr a p, Nat.two_mul, Nat.add_assoc]

/-- A place in the block of v is taken as v. -/
theorem pickSigned_block (ha : a ≤ kr) (hv : v.natAbs ≤ a) (hr' : r' < shellSize n (kr - v.natAbs))
    (hr : r + 2 * shellSum n (kr - a) = signedStart n kr v + r') : pickSigned n kr a r = (v, r') := by
  induction a generalizing r with
  | zero =>
    obtain rfl : v = 0 := by omega
    rw [signedStart_zero, Nat.sub_zero] at hr
    rw [pickSigned, show r = r' by omega]
  | succ a ih =>
    rcases Nat.lt_or_eq_of_le hv with hlt | heq
    · have hsum := shellSum_sub n ha
      have hstart := le_signedStart (n := n) (kr := kr) (Nat.le_of_lt_succ hlt)
      obtain ⟨q, rfl⟩ := Nat.exists_eq_add_of_le
        (show 2 * shellSize n (kr - (a + 1)) ≤ r by omega)
      rw [pickSigned_next]
      exact ih (by omega) (by omega) (by omega)
    rw [heq] at hr'
    rcases heq ▸ Int.natAbs_eq v with rfl | rfl
    · rw [signedStart_natCast] at hr
      rw [show r = r' by omega, pickSigned_pos hr']
    · rw [signedStart_neg] at hr
      rw [show r = shellSize n (kr - (a + 1)) + r' by omega, pickSigned_neg hr']

/-- The magnitude taken is that whose block holds the index. -/
theorem pickLead_spec (ha : a ≤ kr) (hr : r + shellSum n (kr - a) < mpvqSize (n + 1) kr) :
    ∃ m r', pickLead n kr a r = (m, r') ∧ m ≤ a ∧ r' < leadSize n kr m ∧
      r + shellSum n (kr - a) = shellSum n (kr - m) + r' := by
  induction a generalizing r with
  | zero =>
    rw [mpvqSize_succ] at hr
    exact ⟨0, r, rfl, le_rfl, by simpa using hr, Nat.add_comm _ _⟩
  | succ a ih =>
    by_cases hhere : r < shellSize n (kr - (a + 1))
    · exact ⟨a + 1, r, pickLead_here hhere, le_rfl, hhere, Nat.add_comm _ _⟩
    obtain ⟨q, rfl⟩ := Nat.exists_eq_add_of_le (Nat.le_of_not_lt hhere)
    have hsum := shellSum_sub n ha
    obtain ⟨m, r', hpick, hle, hlt, heq⟩ := ih (r := q) (by omega) (by omega)
    exact ⟨m, r', by rw [pickLead_next, hpick], by omega, hlt, by omega⟩

/-- A place in the block of magnitude m is taken as m. -/
theorem pickLead_block (ha : a ≤ kr) (hm : m ≤ a) (hr' : r' < leadSize n kr m)
    (hr : r + shellSum n (kr - a) = shellSum n (kr - m) + r') : pickLead n kr a r = (m, r') := by
  induction a generalizing r with
  | zero =>
    obtain rfl : m = 0 := by omega
    rw [pickLead, show r = r' by omega]
  | succ a ih =>
    rcases Nat.lt_or_eq_of_le hm with hlt | rfl
    · have hsum := shellSum_sub n ha
      have hmono := shellSum_mono n (show kr - a ≤ kr - m by omega)
      obtain ⟨q, rfl⟩ := Nat.exists_eq_add_of_le (show shellSize n (kr - (a + 1)) ≤ r by omega)
      rw [pickLead_next]
      exact ih (by omega) (by omega) (by omega)
    · rw [show r = r' by omega, pickLead_here hr']

end

/-! ### The walk and the closed form (R166, R170) -/

@[simp] theorem norm1_nil : norm1 [] = 0 := rfl

@[simp] theorem norm1_cons (v : Int) (w : List Int) : norm1 (v :: w) = v.natAbs + norm1 w := by
  simp [norm1]

theorem natAbs_getD_le_norm1 (w : List Int) (i : Nat) : (w.getD i 0).natAbs ≤ norm1 w := by
  induction w generalizing i with
  | nil => simp
  | cons v w ih =>
    cases i with
    | zero => simp
    | succ i => simpa using Nat.le_add_left_of_le (ih i)

theorem eq_replicate_of_norm1_eq_zero {w : List Int} (h : norm1 w = 0) :
    w = List.replicate w.length 0 := by
  induction w with
  | nil => rfl
  | cons v w ih =>
    rw [norm1_cons] at h
    rw [List.length_cons, List.replicate_succ, ← ih (by omega), show v = 0 by omega]

/-- The coordinate of magnitude m with the leading sign. -/
def leadValue (ls : Bool) (m : Nat) : Int := if ls then -(m : Int) else (m : Int)

@[simp] theorem leadValue_zero (ls : Bool) : leadValue ls 0 = 0 := by cases ls <;> rfl

@[simp] theorem natAbs_leadValue (ls : Bool) (m : Nat) : (leadValue ls m).natAbs = m := by
  cases ls <;> simp [leadValue]

theorem leadValue_eq_zero {ls : Bool} {m : Nat} : leadValue ls m = 0 ↔ m = 0 := by
  rw [← Int.natAbs_eq_zero, natAbs_leadValue]

theorem decide_leadValue_neg (ls : Bool) {m : Nat} (hm : m ≠ 0) : decide (leadValue ls m < 0) = ls := by
  cases ls
  · simp [leadValue]
  · simpa [leadValue] using Nat.pos_of_ne_zero hm

theorem leadValue_natAbs (v : Int) : leadValue (decide (v < 0)) v.natAbs = v := by
  unfold leadValue
  split
  · next h => exact (Int.eq_neg_natAbs_of_nonpos (of_decide_eq_true h).le).symm
  · next h => exact Int.natAbs_of_nonneg (not_lt.mp (of_decide_eq_false (by simpa using h)))

@[simp] theorem leadingSign_zero_cons (w : List Int) : leadingSign (0 :: w) = leadingSign w := rfl

theorem leadingSign_cons {v : Int} (hv : v ≠ 0) (w : List Int) :
    leadingSign (v :: w) = decide (v < 0) := if_neg hv

theorem enumWalk_placed_cons (v : Int) (w : List Int) (kr : Nat) :
    enumWalk (v :: w) kr true =
      signedStart w.length kr v + enumWalk w (kr - v.natAbs) true := by
  simp [enumWalk, signedStart, shellSum, Nat.mul_comm]

theorem enumWalk_unplaced_cons (v : Int) (w : List Int) (kr : Nat) :
    enumWalk (v :: w) kr false =
      shellSum w.length (kr - v.natAbs) + enumWalk w (kr - v.natAbs) (decide (v ≠ 0)) := by
  simp [enumWalk, shellSum]

section
variable {n kr m r r' : Nat} {v : Int}

theorem deenumWalk_placed_cons (ls : Bool) (h : pickSigned n kr kr r = (v, r')) :
    deenumWalk ls (n + 1) r kr true = v :: deenumWalk ls n r' (kr - v.natAbs) true := by
  rw [deenumWalk, h]

theorem deenumWalk_unplaced_cons (ls : Bool) (h : pickLead n kr kr r = (m, r')) :
    deenumWalk ls (n + 1) r kr false =
      leadValue ls m :: deenumWalk ls n r' (kr - m) (decide (m ≠ 0)) := by
  rw [deenumWalk, h, leadValue]

/-- With no pulses left the walk writes zeros. -/
theorem deenumWalk_no_pulses (ls : Bool) (n : Nat) (lead : Bool) :
    deenumWalk ls n 0 0 lead = List.replicate n 0 := by
  induction n generalizing lead with
  | zero => rfl
  | succ n ih =>
    rw [List.replicate_succ]
    cases lead with
    | false => rw [deenumWalk_unplaced_cons ls (m := 0) (r' := 0) rfl, leadValue_zero, ih]
    | true => rw [deenumWalk_placed_cons ls (v := 0) (r' := 0) rfl, Nat.zero_sub, ih]

/-- Index 0 is the vector with all pulses on coordinate 0 (R168). -/
theorem deenumWalk_zero (n k : Nat) :
    deenumWalk false (n + 1) 0 k false = (k : Int) :: List.replicate n 0 := by
  have hpick : pickLead n k k 0 = (k, 0) := by
    cases k with
    | zero => rfl
    | succ k => exact pickLead_here (by simp)
  rw [deenumWalk_unplaced_cons false hpick, Nat.sub_self, deenumWalk_no_pulses]
  rfl

/-! #### From an index to its vector and back -/

/-- `w` is a vector of n coordinates with kr pulses, and its place in the enumeration is r. -/
structure HasIndex (lead : Bool) (n kr r : Nat) (w : List Int) : Prop where
  length : w.length = n
  norm : norm1 w = kr
  index : enumWalk w kr lead = r

theorem deenumWalk_placed_hasIndex (ls : Bool) (n kr r : Nat) (h : r < shellSize n kr) :
    HasIndex true n kr r (deenumWalk ls n r kr true) := by
  induction n generalizing kr r with
  | zero =>
    cases kr with
    | zero => exact ⟨rfl, rfl, (Nat.lt_one_iff.mp h).symm⟩
    | succ kr => simp at h
  | succ n ih =>
    obtain ⟨v, r', hpick, hle, hlt, heq⟩ := pickSigned_spec (n := n) (r := r) (le_refl kr) (by simpa)
    obtain ⟨hlen, hnorm, hindex⟩ := ih _ _ hlt
    rw [deenumWalk_placed_cons ls hpick]
    refine ⟨by rw [List.length_cons, hlen], by rw [norm1_cons, hnorm]; omega, ?_⟩
    rw [enumWalk_placed_cons, hlen, hindex, ← heq, Nat.sub_self, shellSum_zero, Nat.mul_zero, Nat.add_zero]

theorem deenumWalk_unplaced_hasIndex (ls : Bool) (n kr r : Nat) (h : r < mpvqSize n kr) :
    HasIndex false n kr r (deenumWalk ls n r kr false) := by
  induction n generalizing r with
  | zero =>
    cases kr with
    | zero => exact ⟨rfl, rfl, (Nat.lt_one_iff.mp h).symm⟩
    | succ kr => simp at h
  | succ n ih =>
    obtain ⟨m, r', hpick, hle, hlt, heq⟩ := pickLead_spec (n := n) (r := r) (le_refl kr) (by simpa)
    have hrest : HasIndex (decide (m ≠ 0)) n (kr - m) r'
        (deenumWalk ls n r' (kr - m) (decide (m ≠ 0))) := by
      cases m with
      | zero => exact ih r' hlt
      | succ m => exact deenumWalk_placed_hasIndex ls n _ r' hlt
    obtain ⟨hlen, hnorm, hindex⟩ := hrest
    rw [deenumWalk_unplaced_cons ls hpick]
    refine ⟨by rw [List.length_cons, hlen], by rw [norm1_cons, hnorm, natAbs_leadValue]; omega, ?_⟩
    have hstart : r = shellSum n (kr - m) + r' := by simpa using heq
    simp only [enumWalk_unplaced_cons, natAbs_leadValue, ne_eq, leadValue_eq_zero, hlen, hstart]
    exact congrArg _ hindex

theorem leadingSign_deenumWalk (ls : Bool) (n kr r : Nat) (hkr : 1 ≤ kr) (h : r < mpvqSize n kr) :
    leadingSign (deenumWalk ls n r kr false) = ls := by
  induction n generalizing r with
  | zero => obtain ⟨kr, rfl⟩ := Nat.exists_eq_add_of_le' hkr; simp at h
  | succ n ih =>
    obtain ⟨m, r', hpick, -, hlt, -⟩ := pickLead_spec (n := n) (r := r) (le_refl kr) (by simpa)
    rw [deenumWalk_unplaced_cons ls hpick]
    cases m with
    | zero => simpa using ih r' hlt
    | succ m =>
      rw [leadingSign_cons (by simp [leadValue_eq_zero]), decide_leadValue_neg ls (Nat.succ_ne_zero m)]

/-! #### From a vector to its index and back -/

theorem signedStart_add_lt (hv : v.natAbs ≤ kr) (hr : r < shellSize n (kr - v.natAbs)) :
    signedStart n kr v + r < shellSize (n + 1) kr := by
  rw [shellSize_succ]
  by_cases h0 : v = 0
  · subst h0
    rw [Int.natAbs_zero, Nat.sub_zero] at hr
    rw [signedStart_zero]
    omega
  · have hmono := shellSum_mono n (show kr - v.natAbs + 1 ≤ kr by omega)
    rw [shellSum_succ] at hmono
    unfold signedStart
    split <;> omega

theorem leadStart_add_lt (hm : m ≤ kr) (hr : r < leadSize n kr m) :
    shellSum n (kr - m) + r < mpvqSize (n + 1) kr := by
  rw [mpvqSize_succ]
  cases m with
  | zero => rw [leadSize_zero] at hr; rw [Nat.sub_zero]; omega
  | succ m =>
    have hmono := shellSum_mono n (show kr - (m + 1) + 1 ≤ kr by omega)
    rw [shellSum_succ] at hmono
    rw [leadSize_succ] at hr
    omega

theorem enumWalk_placed_lt (w : List Int) :
    enumWalk w (norm1 w) true < shellSize w.length (norm1 w) := by
  induction w with
  | nil => decide
  | cons v w ih =>
    rw [enumWalk_placed_cons, norm1_cons, Nat.add_sub_cancel_left]
    exact signedStart_add_lt (Nat.le_add_right _ _) (by rwa [Nat.add_sub_cancel_left])

theorem deenumWalk_enumWalk_placed (ls : Bool) (w : List Int) :
    deenumWalk ls w.length (enumWalk w (norm1 w) true) (norm1 w) true = w := by
  induction w with
  | nil => rfl
  | cons v w ih =>
    have hpick : pickSigned w.length (norm1 (v :: w)) (norm1 (v :: w))
        (enumWalk (v :: w) (norm1 (v :: w)) true) = (v, enumWalk w (norm1 w) true) := by
      apply pickSigned_block le_rfl
      · simp
      · simpa using enumWalk_placed_lt w
      · simp [enumWalk_placed_cons]
    rw [List.length_cons, deenumWalk_placed_cons ls hpick, norm1_cons, Nat.add_sub_cancel_left, ih]

/-- The index of what follows a coordinate v lies in v's block. -/
theorem enumWalk_rest_lt {w : List Int}
    (h : enumWalk w (norm1 w) false < mpvqSize w.length (norm1 w)) (v : Int) :
    enumWalk w (norm1 w) (decide (v ≠ 0)) < leadSize w.length (norm1 (v :: w)) v.natAbs := by
  by_cases hv : v = 0
  · subst hv
    simpa using h
  · simpa [hv, leadSize] using enumWalk_placed_lt w

theorem enumWalk_unplaced_lt (w : List Int) :
    enumWalk w (norm1 w) false < mpvqSize w.length (norm1 w) := by
  induction w with
  | nil => decide
  | cons v w ih =>
    have hlt := leadStart_add_lt (by simp) (enumWalk_rest_lt ih v)
    rwa [enumWalk_unplaced_cons, List.length_cons, norm1_cons, Nat.add_sub_cancel_left] at *

theorem deenumWalk_enumWalk_unplaced (w : List Int) :
    deenumWalk (leadingSign w) w.length (enumWalk w (norm1 w) false) (norm1 w) false = w := by
  induction w with
  | nil => rfl
  | cons v w ih =>
    have hpick : pickLead w.length (norm1 (v :: w)) (norm1 (v :: w))
        (enumWalk (v :: w) (norm1 (v :: w)) false) =
          (v.natAbs, enumWalk w (norm1 w) (decide (v ≠ 0))) := by
      apply pickLead_block le_rfl
      · simp
      · exact enumWalk_rest_lt (enumWalk_unplaced_lt w) v
      · simp [enumWalk_unplaced_cons]
    rw [List.length_cons, deenumWalk_unplaced_cons _ hpick, norm1_cons, Nat.add_sub_cancel_left]
    by_cases hv : v = 0
    · subst hv
      simpa using ih
    · rw [leadingSign_cons hv, leadValue_natAbs]
      simpa [hv] using deenumWalk_enumWalk_placed _ w

end

/-! ### Pairs of a leading sign and an index (R164, R168) -/

/-- The vectors of d coordinates with absolute sum k. -/
def shell (d k : Nat) : Set (List Int) := {v | v.length = d ∧ norm1 v = k}

/-- The pairs of a leading sign and an index in range. -/
def indexPairs (d k : Nat) : Finset (Bool × Nat) := Finset.univ ×ˢ Finset.range (mpvqSize d k)

/-- The vector that a pair names. -/
def vectorOf (d k : Nat) (p : Bool × Nat) : List Int := (deenum p.2 p.1 d k).1

section
variable {d k I : Nat} {ls : Bool} {p : Bool × Nat}

theorem HasIndex.mem_shell {lead : Bool} {w : List Int} (h : HasIndex lead d k I w) : w ∈ shell d k :=
  ⟨h.length, h.norm⟩

theorem deenum_of_lt (h : I < mpvqSize d k) : deenum I ls d k = (deenumWalk ls d I k false, false) :=
  if_neg (Nat.not_le_of_lt h)

theorem deenum_of_le (h : mpvqSize d k ≤ I) :
    deenum I ls d k = (deenumWalk false d 0 k false, true) := if_pos h

theorem deenum_error : (deenum I ls d k).2 = true ↔ mpvqSize d k ≤ I := by
  by_cases h : mpvqSize d k ≤ I
  · simp [deenum_of_le h, h]
  · simp [deenum_of_lt (Nat.lt_of_not_le h), h]

/-- An index in range or not, the vector is one of the shell. -/
theorem deenum_mem_shell (hd : 1 ≤ d) : (deenum I ls d k).1 ∈ shell d k := by
  by_cases h : mpvqSize d k ≤ I
  · rw [deenum_of_le h]
    exact (deenumWalk_unplaced_hasIndex false d k 0 (mpvqSize_pos hd k)).mem_shell
  · have hlt := Nat.lt_of_not_le h
    rw [deenum_of_lt hlt]
    exact (deenumWalk_unplaced_hasIndex ls d k I hlt).mem_shell

/-- The fallback is (k, 0, …, 0). -/
theorem deenum_fallback (hd : 1 ≤ d) (h : mpvqSize d k ≤ I) :
    deenum I ls d k = ((k : Int) :: List.replicate (d - 1) 0, true) := by
  obtain ⟨d, rfl⟩ := Nat.exists_eq_add_of_le' hd
  rw [deenum_of_le h, deenumWalk_zero, Nat.add_sub_cancel]

theorem mem_indexPairs : p ∈ indexPairs d k ↔ p.2 < mpvqSize d k := by simp [indexPairs]

theorem card_indexPairs (hk : 1 ≤ k) : (indexPairs d k).card = shellSize d k := by
  simp [indexPairs, two_mul_mpvqSize d hk]

theorem vectorOf_mem_shell (h : p.2 < mpvqSize d k) : vectorOf d k p ∈ shell d k := by
  rw [vectorOf, deenum_of_lt h]
  exact (deenumWalk_unplaced_hasIndex p.1 d k p.2 h).mem_shell

theorem enumerate_vectorOf (hk : 1 ≤ k) (h : p.2 < mpvqSize d k) :
    enumerate (vectorOf d k p) = p.swap := by
  obtain ⟨-, hnorm, hindex⟩ := deenumWalk_unplaced_hasIndex p.1 d k p.2 h
  rw [vectorOf, deenum_of_lt h, enumerate, hnorm, hindex, leadingSign_deenumWalk p.1 d k p.2 hk h]
  rfl

theorem enumerate_lt (w : List Int) : (enumerate w).1 < mpvqSize w.length (norm1 w) :=
  enumWalk_unplaced_lt w

theorem deenum_enumerate (w : List Int) :
    deenum (enumerate w).1 (enumerate w).2 w.length (norm1 w) = (w, false) := by
  rw [deenum_of_lt (enumerate_lt w)]
  exact congrArg (·, false) (deenumWalk_enumWalk_unplaced w)

theorem enumerate_replicate_zero (d : Nat) : enumerate (List.replicate d 0) = (0, false) := by
  induction d with
  | zero => rfl
  | succ d ih =>
    have hnorm : norm1 (List.replicate d 0) = 0 := by simp [norm1]
    rw [enumerate, Prod.mk.injEq, hnorm] at ih
    obtain ⟨hindex, hsign⟩ := ih
    simp [enumerate, List.replicate_succ, enumWalk_unplaced_cons, hnorm, hindex, hsign]

/-- R164: the pairs and the vectors of a shell correspond, by de-enumeration and enumeration. -/
theorem vectorOf_bijOn (hk : 1 ≤ k) : Set.BijOn (vectorOf d k) (indexPairs d k) (shell d k) := by
  refine Set.InvOn.bijOn (f' := fun w => (enumerate w).swap) ⟨fun p hp => ?_, fun w hw => ?_⟩
    (fun p hp => vectorOf_mem_shell (mem_indexPairs.mp hp)) (fun w hw => ?_)
  · exact congrArg Prod.swap (enumerate_vectorOf hk (mem_indexPairs.mp hp))
  · obtain ⟨rfl, rfl⟩ := hw
    exact congrArg Prod.fst (deenum_enumerate w)
  · obtain ⟨rfl, rfl⟩ := hw
    exact mem_indexPairs.mpr (enumerate_lt w)

theorem shell_zero (d : Nat) : shell d 0 = {List.replicate d 0} := by
  ext w
  constructor
  · rintro ⟨rfl, hnorm⟩
    exact eq_replicate_of_norm1_eq_zero hnorm
  · rintro rfl
    simp [shell, norm1]

/-- R160: a shell has as many vectors as pairs, and the shell without pulses has one. -/
theorem shell_finite_ncard (d k : Nat) : (shell d k).Finite ∧ (shell d k).ncard = shellSize d k := by
  rcases Nat.eq_zero_or_pos k with rfl | hk
  · rw [shell_zero, shellSize_zero_right]
    exact ⟨Set.finite_singleton _, Set.ncard_singleton _⟩
  · have hbij := vectorOf_bijOn (d := d) hk
    rw [← hbij.image_eq]
    refine ⟨(indexPairs d k).finite_toSet.image _, ?_⟩
    rw [hbij.injOn.ncard_image, Set.ncard_coe_finset, card_indexPairs hk]

end

/-- The combined codes of a sign bit and an index below M are the numbers below 2 · M, each of one pair. -/
theorem lt_two_mul_iff_existsUnique_code (M c : Nat) :
    c < 2 * M ↔ ∃! p : Bool × Nat, p.2 < M ∧ p.1.toNat * M + p.2 = c := by
  constructor
  · intro hc
    refine ⟨(decide (M ≤ c), if M ≤ c then c - M else c), ?_, ?_⟩
    · by_cases h : M ≤ c <;> simp [h] <;> omega
    · rintro ⟨_ | _, I⟩ ⟨hI, rfl⟩
      · simp [show ¬ M ≤ I from Nat.not_le_of_lt hI]
      · simp
  · rintro ⟨⟨_ | _, I⟩, ⟨hI, rfl⟩, -⟩
    · simp only [Bool.toNat_false]; omega
    · simp only [Bool.toNat_true]; omega

/-! ### The statements on the shells -/

/-- Settles O11: a vector is named by its enumeration and by no other pair, and N is twice M. -/
theorem indexSpaceIsBijective : Obligations.IndexSpaceIsBijective := by
  intro d k
  refine ⟨fun hk => ⟨fun ls I h => ?_, fun v hlen hnorm => ?_⟩, fun hk c => ?_, rfl, fun ls => ?_⟩
  · exact ⟨congrArg Prod.snd (deenum_of_lt h), vectorOf_mem_shell (p := (ls, I)) h⟩
  · subst hlen hnorm
    refine ⟨(enumerate v).swap, ⟨enumerate_lt v, deenum_enumerate v⟩, ?_⟩
    rintro p ⟨hlt, heq⟩
    have hv : vectorOf v.length (norm1 v) p = v := congrArg Prod.fst heq
    rw [← Prod.swap_swap p, ← enumerate_vectorOf hk hlt, hv]
  · rw [← two_mul_mpvqSize d hk]
    exact lt_two_mul_iff_existsUnique_code _ c
  · rw [deenum_of_lt (by simp), deenumWalk_no_pulses]

/-- Settles O12: the two walks are inverse to each other. -/
theorem deenumInvertsEnumerate : Obligations.DeenumInvertsEnumerate :=
  ⟨fun v _ => ⟨enumerate_lt v, deenum_enumerate v⟩, enumerate_replicate_zero⟩

/-- Settles O10: the count is that of the pairs; the rest is the recursion, and the values evaluate. -/
theorem shellSizeCountsVectors : Obligations.ShellSizeCountsVectors := by
  refine ⟨shell_finite_ncard, fun d k hd hk => ?_, fun k hk => ?_, shellSize_zero_right, fun k hk => ?_,
    fun d k _ hd hk => ⟨?_, shellSize_le_max hd hk⟩, shellSize_max, fun d k => two_mul_mpvqSize d,
    mpvqSize_zero_right, ?_⟩
  · obtain ⟨d, rfl⟩ := Nat.exists_eq_add_of_le' hd
    obtain ⟨k, rfl⟩ := Nat.exists_eq_add_of_le' hk
    exact shellSize_succ_succ d k
  · obtain ⟨k, rfl⟩ := Nat.exists_eq_add_of_le' hk
    exact shellSize_one_succ k
  · obtain ⟨k, rfl⟩ := Nat.exists_eq_add_of_le' hk
    exact shellSize_zero_succ k
  · have hmax := shellSize_max ▸ shellSize_le_max hd hk
    omega
  · decide

/-! ### Vectors in the registers (10_state.md R44, R54) -/

theorem norm1_append (v w : List Int) : norm1 (v ++ w) = norm1 v + norm1 w := by simp [norm1]

theorem vecOfFn_getElem {α : Type} {n : Nat} (f : Nat → α) (i : Fin n) : (vecOfFn n f)[i] = f i := by
  simp [vecOfFn]

/-- A register array written with the coordinates of a vector. -/
def vectorWords (w : List Int) : Vector Word 16 := vecOfFn 16 fun i => BitVec.ofInt 32 (w.getD i 0)

theorem vectorWords_toInt {w : List Int} (h : norm1 w < 2 ^ 31) (i : Fin 16) :
    (vectorWords w)[i].toInt = w.getD i 0 := by
  have hle := natAbs_getD_le_norm1 w i
  rw [vectorWords, vecOfFn_getElem, BitVec.toInt_ofInt]
  exact Int.bmod_eq_of_le (by omega) (by omega)

theorem getD_of_mem_shell {d k i : Nat} {w : List Int} (hw : w ∈ shell d k) (hi : d ≤ i) :
    w.getD i 0 = 0 := by
  obtain ⟨rfl, -⟩ := hw
  exact List.getD_eq_default _ _ hi

/-! ### PVQ_DEENUM (R165) -/

section
variable {s : State}

/-- PVQ_SIZE and PVQ_VEC as PVQ_DEENUM writes them. -/
def pvqResult (s : State) : PvqResult where
  size := BitVec.ofNat 32 (mpvqSize s.pvqIn.dim.toNat s.pvqIn.k.toNat)
  vec := vectorWords (deenum s.pvqIn.idx.toNat s.pvqIn.ls s.pvqIn.dim.toNat s.pvqIn.k.toNat).1

theorem pvqDeenumBody_of_lt (h : s.pvqIn.idx.toNat < mpvqSize s.pvqIn.dim.toNat s.pvqIn.k.toNat) :
    pvqDeenumBody s = { s with pvq := pvqResult s } := by
  simp [pvqDeenumBody, pvqResult, vectorWords, deenum_of_lt h]

theorem pvqDeenumBody_of_le (h : mpvqSize s.pvqIn.dim.toNat s.pvqIn.k.toNat ≤ s.pvqIn.idx.toNat) :
    pvqDeenumBody s =
      { s with
        pvq := pvqResult s
        fstat := ({ s.fstat with pvqErr := true } : FrameStatus).flagged 6 } := by
  simp only [pvqDeenumBody, pvqResult, vectorWords, deenum_of_le h, if_true]
  rfl

theorem exec_pvqDeenum (hd : 1 ≤ s.pvqIn.dim.toNat) (hd' : s.pvqIn.dim.toNat ≤ 16)
    (hk : s.pvqIn.k.toNat ≤ 10) : exec .pvqDeenum s = .next (pvqDeenumBody s).complete := by
  refine exec_ok (firstError_eq_none.mpr fun c hc => ?_) rfl
  have hok : pvqConfigOk s = true := decide_eq_true ⟨hd, hd', hk⟩
  rw [List.mem_singleton.mp hc, hok]
  rfl

theorem pvqResult_size (hd : s.pvqIn.dim.toNat ≤ 16) (hk : s.pvqIn.k.toNat ≤ 10) :
    (pvqResult s).size.toNat = mpvqSize s.pvqIn.dim.toNat s.pvqIn.k.toNat :=
  (BitVec.toNat_ofNat ..).trans (Nat.mod_eq_of_lt (mpvqSize_lt hd hk))

theorem pvqResult_vec (hd : 1 ≤ s.pvqIn.dim.toNat) (hk : s.pvqIn.k.toNat ≤ 10) (i : Fin 16) :
    (pvqResult s).vec[i].toInt =
      (deenum s.pvqIn.idx.toNat s.pvqIn.ls s.pvqIn.dim.toNat s.pvqIn.k.toNat).1.getD i 0 := by
  obtain ⟨-, hnorm⟩ := deenum_mem_shell (I := s.pvqIn.idx.toNat) (ls := s.pvqIn.ls)
    (k := s.pvqIn.k.toNat) hd
  exact vectorWords_toInt (by omega) i

/-- Settles O13: the coordinates of a vector with at most 10 pulses fit into the words of PVQ_VEC. -/
theorem pvqDeenumResult : Obligations.PvqDeenumResult := by
  intro s d k hd hd' hk hidx
  refine ⟨_, exec_pvqDeenum hd hd' hk, ?_⟩
  rw [pvqDeenumBody_of_lt hidx]
  refine ⟨rfl, pvqResult_size hd' hk, fun i => (pvqResult_vec hd hk i).trans ?_⟩
  split
  · rfl
  · next hi => exact getD_of_mem_shell (deenum_mem_shell hd) (Nat.le_of_not_lt hi)

/-- Settles O14: the fallback is the vector of index 0. -/
theorem pvqOutOfRangeFallback : Obligations.PvqOutOfRangeFallback := by
  intro s d k hd hd' hk hidx
  refine ⟨?_, _, exec_pvqDeenum hd hd' hk, ?_⟩
  · rw [deenum_of_le hidx, deenum_of_lt (mpvqSize_pos hd k)]
  rw [pvqDeenumBody_of_le hidx]
  refine ⟨rfl, pvqResult_size hd' hk, fun i => (pvqResult_vec hd hk i).trans ?_⟩
  rw [deenum_fallback hd hidx]
  obtain ⟨_ | i, hi⟩ := i
  · rfl
  · simp

end

/-! ### PVQ_SHAPE (R175, R176) -/

/-- The shapes of R175 as a list over the submode. -/
theorem shapeSectionA_eq_getD (j : BitVec 2) :
    shapeSectionA j.toNat =
      ([(10, 10), (10, 10), (16, 8), (16, 6)] : List (Nat × Nat)).getD j.toNat (0, 0) := by
  revert j
  decide

theorem shapeSectionA_bounds (j : Nat) : 1 ≤ (shapeSectionA j).1 ∧ (shapeSectionA j).2 ≤ 10 := by
  unfold shapeSectionA
  split <;> decide

section
variable {s : State} (si : SideInfo)

/-- Section A of the shape, with whether its index is out of range. -/
def sectionA : List Int × Bool :=
  deenum si.snsIdxA.toNat si.snsLsa (shapeSectionA si.snsShape.toNat).1
    (shapeSectionA si.snsShape.toNat).2

/-- Section B of the shape, with whether its index is out of range. -/
def sectionB : List Int × Bool := deenum si.snsIdxB.toNat si.snsLsb 6 1

variable {si}

theorem snsShape_eq_zero : si.snsShape = 0 ↔ si.snsShape.toNat = 0 := by
  rw [← BitVec.toNat_inj]; rfl

theorem shapeVector_of_zero (h : si.snsShape.toNat = 0) :
    shapeVector si = ((sectionA si).1 ++ (sectionB si).1, (sectionA si).2 || (sectionB si).2) := by
  simp [shapeVector, snsShape_eq_zero.mpr h, sectionA, sectionB]

theorem shapeVector_of_ne_zero (h : si.snsShape.toNat ≠ 0) : shapeVector si = sectionA si := by
  simp only [shapeVector, snsShape_eq_zero, h, if_false, sectionA]

theorem sectionA_mem_shell :
    (sectionA si).1 ∈ shell (shapeSectionA si.snsShape.toNat).1 (shapeSectionA si.snsShape.toNat).2 :=
  deenum_mem_shell (shapeSectionA_bounds _).1

theorem sectionB_mem_shell : (sectionB si).1 ∈ shell 6 1 := deenum_mem_shell (by decide)

/-- The shape is bad when a section that the submode has is. -/
theorem shapeVector_error :
    (shapeVector si).2 = true ↔
      mpvqSize (shapeSectionA si.snsShape.toNat).1 (shapeSectionA si.snsShape.toNat).2 ≤
          si.snsIdxA.toNat ∨
        si.snsShape.toNat = 0 ∧ 6 ≤ si.snsIdxB.toNat := by
  have hB : (sectionB si).2 = true ↔ 6 ≤ si.snsIdxB.toNat := deenum_error
  rw [← deenum_error (ls := si.snsLsa), ← hB]
  by_cases h : si.snsShape.toNat = 0
  · rw [shapeVector_of_zero h, Bool.or_eq_true, and_iff_right h]
    rfl
  · rw [shapeVector_of_ne_zero h]
    exact (or_iff_left fun hb => h hb.1).symm

theorem shapeVector_norm1 : norm1 (shapeVector si).1 ≤ 11 := by
  obtain ⟨-, hA⟩ := sectionA_mem_shell (si := si)
  obtain ⟨-, hB⟩ := sectionB_mem_shell (si := si)
  obtain ⟨-, hk⟩ := shapeSectionA_bounds si.snsShape.toNat
  by_cases h : si.snsShape.toNat = 0
  · rw [shapeVector_of_zero h, norm1_append]
    omega
  · rw [shapeVector_of_ne_zero h]
    omega

/-- The coordinates of the shape, section by section. -/
theorem shapeVector_getD (i : Nat) :
    (shapeVector si).1.getD i 0 =
      if i < (shapeSectionA si.snsShape.toNat).1 then (sectionA si).1.getD i 0
      else if si.snsShape.toNat = 0 then (sectionB si).1.getD (i - 10) 0 else 0 := by
  obtain ⟨hlen, -⟩ := sectionA_mem_shell (si := si)
  by_cases h : si.snsShape.toNat = 0
  · rw [shapeVector_of_zero h, if_pos h]
    split
    · next hi => exact List.getD_append _ _ _ _ (hlen ▸ hi)
    · next hi =>
      rw [List.getD_append_right _ _ _ _ (by omega), hlen, h]
      rfl
  · rw [shapeVector_of_ne_zero h, if_neg h]
    split
    · rfl
    · next hi => exact getD_of_mem_shell sectionA_mem_shell (Nat.le_of_not_lt hi)

/-- What PVQ_SHAPE leaves in FSTAT, with whether a section's index is out of range. -/
def shapeStatus (f : FrameStatus) (err : Bool) : FrameStatus :=
  { (if err then ({ f with pvqErr := true } : FrameStatus).raise .pvqIndex else f) with
    shapeValid := true }

theorem pvqShapeBody_of_noBfi (h : s.cfg.mode.bfi = false) :
    pvqShapeBody s =
      { s with
        snsY := vectorWords (shapeVector s.si).1
        fstat := shapeStatus s.fstat (shapeVector s.si).2 } := by
  simp [pvqShapeBody, h, vectorWords, shapeStatus]

theorem decodeConfigOk_of_decodeConfigured (h : decodeConfigured s) : decodeConfigOk s = true := by
  obtain ⟨hlo, hhi, hmod, hmin, hmax, htns⟩ := h
  exact decodeConfigOk_iff.mpr ⟨⟨hlo, hhi, hmod⟩, ⟨hmin, hmax⟩, by omega, by omega⟩

theorem exec_pvqShape (hcfg : decodeConfigured s) (hsi : s.fstat.siValid = true)
    (hshape : s.fstat.shapeValid = false) : exec .pvqShape s = .next (pvqShapeBody s).complete := by
  refine exec_ok (firstError_eq_none.mpr ?_) rfl
  simp [checksOf, decodeConfigOk_of_decodeConfigured hcfg, pvqShapeLegal, hsi, hshape]

/-- Settles O15: the shape is its sections, and it is bad when one that the submode has is. -/
theorem pvqShapeResult : Obligations.PvqShapeResult := by
  intro s hcfg hsi hshape hbfi
  dsimp only
  rw [← shapeSectionA_eq_getD]
  refine ⟨_, exec_pvqShape hcfg hsi hshape, ?_⟩
  rw [pvqShapeBody_of_noBfi hbfi]
  refine ⟨rfl, fun hbad => ?_, fun hgood => ?_, fun i => ?_⟩
  · rw [State.complete_fstat, shapeVector_error.mpr hbad]
    rfl
  · rw [State.complete_fstat, Bool.eq_false_iff.mpr (mt shapeVector_error.mp hgood)]
    rfl
  · have hnorm := shapeVector_norm1 (si := s.si)
    exact (vectorWords_toInt (by omega) i).trans (shapeVector_getD i)

end

end Sys2Proof.Machine

/-! ## The range decoder (42_range_decoder.md)

A symbol decodes to the part of the interval that holds low, and the range encoder of R199 narrows its own
interval to that same part: the bytes emitted so far, less the encoder's low, are the decoder's low. A
sequence of coded symbols is then decoded symbol by symbol, and the tuple code by running the encoder's list
of codes through the decoder's control flow. -/

namespace Sys2Proof.Machine

-- One proof at a time: in one file with the tests, waiting proofs would each hold a thread.
set_option Elab.async false

open Config (Roms)

/-! ### The number of shifts (R196) -/

theorem shiftsFor_spec {range : Nat} (h : 0 < range) :
    2 ^ 16 ≤ range * 256 ^ shiftsFor range ∧ ∀ m < shiftsFor range, range * 256 ^ m < 2 ^ 16 := by
  unfold shiftsFor
  split
  · next hge => exact ⟨by simpa using hge, by simp⟩
  split
  · next hlt hge =>
    refine ⟨by omega, fun m hm => ?_⟩
    obtain rfl : m = 0 := by omega
    omega
  · next hlt =>
    refine ⟨by omega, fun m hm => ?_⟩
    obtain rfl | rfl : m = 0 ∨ m = 1 := by omega
    all_goals omega

section
variable {s : State} {sym avail low range cursor k : Nat}

/-! ### Renormalization (R196) -/

theorem renorm_of_le (h : 2 ^ 16 ≤ range) :
    renorm s sym avail low range cursor = .ok sym (coderOf low range cursor) := by
  unfold renorm
  rw [if_pos h]

theorem renorm_zero_of_lt (h : range < 2 ^ 16) :
    renorm s sym 0 low range cursor = .fail .rcOverrun (coderOf low range cursor) := by
  unfold renorm
  rw [if_neg (Nat.not_le.mpr h)]

/-- Shifts that are needed and whose bytes are written are done one after another. -/
theorem renorm_shift (hk : k ≤ avail) (hlt : ∀ m < k, range * 256 ^ m < 2 ^ 16)
    (hread : ∀ m < k, payloadByte s (cursor + m) = .ok (payloadValue s (cursor + m))) :
    renorm s sym avail low range cursor =
      renorm s sym (avail - k) (low * 256 ^ k + payloadNumber s cursor k) (range * 256 ^ k)
        (cursor + k) := by
  induction k with
  | zero => simp [payloadNumber]
  | succ k ih =>
    obtain ⟨rest, hrest⟩ : ∃ rest, avail - k = rest + 1 := ⟨avail - k - 1, by omega⟩
    rw [ih (by omega) (fun m hm => hlt m (by omega)) fun m hm => hread m (by omega), hrest, renorm,
      if_neg (Nat.not_le.mpr (hlt k (by omega))), hread k (by omega),
      show avail - (k + 1) = rest by omega, payloadNumber, pow_succ, ← Nat.mul_assoc range,
      show low * (256 ^ k * 256) + (256 * payloadNumber s cursor k + payloadValue s (cursor + k)) =
        (low * 256 ^ k + payloadNumber s cursor k) * 256 + payloadValue s (cursor + k) by ring]
    rfl

/-! ### Decoding a symbol (R193 to R196) -/

variable {cum : Nat → Nat} {n : Nat} {c : RangeCoder}

/-- The range per unit of frequency. -/
def RangeCoder.unit (c : RangeCoder) : Nat := c.range.toNat / 2 ^ 10

theorem decSym_of_gap (h : c.unit * 2 ^ 10 ≤ c.low.toNat) : decSym s cum n c = .fail .rcRange c := by
  unfold decSym
  exact if_pos h

/-- A symbol whose part of the interval holds low is taken off the interval. -/
theorem decSym_of_mem (hwf : cumWf cum n = true) (hsym : sym < n) (hlo : c.unit * cum sym ≤ c.low.toNat)
    (hhi : c.low.toNat < c.unit * cum (sym + 1)) :
    decSym s cum n c =
      renorm s sym (s.PB - c.cursor.toNat) (c.low.toNat - c.unit * cum sym)
        (c.unit * (cum (sym + 1) - cum sym)) c.cursor.toNat := by
  have hgap : ¬ c.unit * 2 ^ Config.FREQ_BITS ≤ c.low.toNat :=
    Nat.not_le.mpr (hhi.trans_le (Nat.mul_le_mul_left _ (cumWf_le hwf hsym)))
  have hlargest : largestSymbol cum c.unit c.low.toNat (n - 1) = sym := largestSymbol_eq hwf hsym hlo hhi
  unfold decSym
  exact (if_neg hgap).trans (by rw [← hlargest]; rfl)

/-- Where the payload has the bytes, the interval is renormalized. -/
theorem decSym_ok (hwf : cumWf cum n = true) (hsym : sym < n) (hlo : c.unit * cum sym ≤ c.low.toNat)
    (hhi : c.low.toNat < c.unit * cum (sym + 1))
    (hk : k = shiftsFor (c.unit * (cum (sym + 1) - cum sym))) (havail : k ≤ s.PB - c.cursor.toNat)
    (hread : ∀ m < k, payloadByte s (c.cursor.toNat + m) = .ok (payloadValue s (c.cursor.toNat + m))) :
    decSym s cum n c =
      .ok sym (coderOf ((c.low.toNat - c.unit * cum sym) * 256 ^ k + payloadNumber s c.cursor.toNat k)
        (c.unit * (cum (sym + 1) - cum sym) * 256 ^ k) (c.cursor.toNat + k)) := by
  have hpos : 0 < c.unit * (cum (sym + 1) - cum sym) := by rw [Nat.mul_sub]; omega
  obtain ⟨hge, hlt⟩ := shiftsFor_spec hpos
  rw [← hk] at hge hlt
  rw [decSym_of_mem hwf hsym hlo hhi, renorm_shift havail hlt hread, renorm_of_le hge]

/-- Where the payload has too few bytes, those it has are shifted in (R196). -/
theorem decSym_overrun (hwf : cumWf cum n = true) (hsym : sym < n)
    (hlo : c.unit * cum sym ≤ c.low.toNat) (hhi : c.low.toNat < c.unit * cum (sym + 1))
    (hk : k = s.PB - c.cursor.toNat) (hshort : k < shiftsFor (c.unit * (cum (sym + 1) - cum sym)))
    (hread : ∀ m < k, payloadByte s (c.cursor.toNat + m) = .ok (payloadValue s (c.cursor.toNat + m))) :
    decSym s cum n c =
      .fail .rcOverrun
        (coderOf ((c.low.toNat - c.unit * cum sym) * 256 ^ k + payloadNumber s c.cursor.toNat k)
          (c.unit * (cum (sym + 1) - cum sym) * 256 ^ k) (c.cursor.toNat + k)) := by
  have hpos : 0 < c.unit * (cum (sym + 1) - cum sym) := by rw [Nat.mul_sub]; omega
  obtain ⟨-, hlt⟩ := shiftsFor_spec hpos
  rw [decSym_of_mem hwf hsym hlo hhi, renorm_shift hk.le (fun m hm => hlt m (hm.trans hshort)) hread,
    hk, Nat.sub_self, ← hk, renorm_zero_of_lt (hlt k hshort)]

end

/-! ### The range encoder narrows its interval (R199) -/

/-- The encoder's range between symbols. -/
def RangeEncoder.running (e : RangeEncoder) : Prop := 2 ^ 16 ≤ e.range ∧ e.range < 2 ^ 24

/-- The interval of `f` lies in that of `e`, on the scale of `f`. -/
def RangeEncoder.narrows (e f : RangeEncoder) : Prop :=
  ∃ m, f.shifts = e.shifts + m ∧ e.low * 256 ^ m ≤ f.low ∧ f.low + f.range ≤ (e.low + e.range) * 256 ^ m

theorem RangeEncoder.narrows_refl (e : RangeEncoder) : e.narrows e := ⟨0, rfl, by simp, by simp⟩

theorem RangeEncoder.narrows.trans {e f g : RangeEncoder} (hef : e.narrows f) (hfg : f.narrows g) :
    e.narrows g := by
  obtain ⟨m, hm, hlo, hhi⟩ := hef
  obtain ⟨k, hk, hlo', hhi'⟩ := hfg
  refine ⟨m + k, by omega, ?_, ?_⟩
  · calc e.low * 256 ^ (m + k) = e.low * 256 ^ m * 256 ^ k := by ring
      _ ≤ f.low * 256 ^ k := Nat.mul_le_mul_right _ hlo
      _ ≤ g.low := hlo'
  · calc g.low + g.range ≤ (f.low + f.range) * 256 ^ k := hhi'
      _ ≤ (e.low + e.range) * 256 ^ m * 256 ^ k := Nat.mul_le_mul_right _ hhi
      _ = (e.low + e.range) * 256 ^ (m + k) := by ring

section
variable {e : RangeEncoder} {x : Coded}

/-- The range per unit of frequency. -/
def RangeEncoder.unit (e : RangeEncoder) : Nat := e.range / 2 ^ 10

/-- The width of a symbol's part of the interval. -/
def RangeEncoder.width (e : RangeEncoder) (x : Coded) : Nat := e.unit * (x.cum (x.sym + 1) - x.cum x.sym)

/-- The encoder after a symbol. -/
theorem RangeEncoder.code_eq (e : RangeEncoder) (x : Coded) :
    e.code x.cum x.sym =
      { low := (e.low + e.unit * x.cum x.sym) * 256 ^ shiftsFor (e.width x)
        range := e.width x * 256 ^ shiftsFor (e.width x)
        shifts := e.shifts + shiftsFor (e.width x) } := rfl

theorem RangeEncoder.width_pos (he : e.running) (hx : x.ok) : 0 < e.width x := by
  obtain ⟨hge, -⟩ := he
  obtain ⟨-, -, hfreq⟩ := hx
  exact Nat.mul_pos (Nat.div_pos (by omega) (by decide)) (by omega)

/-- The symbol's part of the interval, before renormalization. -/
def RangeEncoder.part (e : RangeEncoder) (x : Coded) : RangeEncoder :=
  { low := e.low + e.unit * x.cum x.sym, range := e.width x, shifts := e.shifts }

/-- A symbol's part ends within the truncated range. -/
theorem RangeEncoder.part_le (hx : x.ok) : e.unit * x.cum x.sym + e.width x ≤ e.range := by
  obtain ⟨hwf, hsym, hfreq⟩ := hx
  have hle : e.unit * x.cum (x.sym + 1) ≤ e.unit * 2 ^ 10 :=
    Nat.mul_le_mul_left _ (cumWf_le hwf (s := x.sym + 1) hsym)
  have htrunc : e.unit * 2 ^ 10 ≤ e.range := Nat.div_mul_le_self _ _
  have hmono := Nat.mul_le_mul_left e.unit hfreq.le
  rw [width, Nat.mul_sub]
  omega

theorem RangeEncoder.narrows_part (hx : x.ok) : e.narrows (e.part x) := by
  have hpart := part_le (e := e) hx
  refine ⟨0, rfl, ?_, ?_⟩ <;> simp only [part] <;> omega

/-- Renormalization is a change of scale. -/
theorem RangeEncoder.part_narrows_code (e : RangeEncoder) (x : Coded) :
    (e.part x).narrows (e.code x.cum x.sym) := ⟨_, rfl, le_rfl, (Nat.add_mul ..).ge⟩

theorem RangeEncoder.narrows_code (hx : x.ok) : e.narrows (e.code x.cum x.sym) :=
  (narrows_part hx).trans (e.part_narrows_code x)

theorem RangeEncoder.code_running (he : e.running) (hx : x.ok) : (e.code x.cum x.sym).running := by
  obtain ⟨hge, hlt⟩ := shiftsFor_spec (width_pos he hx)
  obtain ⟨-, hmax⟩ := id he
  have hpart := part_le (e := e) hx
  obtain ⟨hbound, -⟩ := shifted_bounds (low := 0) (num := 0) (width_pos he hx) (by positivity)
    (show e.width x < 2 ^ 24 by omega) hlt
  exact ⟨hge, hbound⟩

theorem RangeEncoder.codeAll_narrows {xs : List Coded} (he : e.running) (hxs : ∀ x ∈ xs, x.ok) :
    (e.codeAll xs).running ∧ e.narrows (e.codeAll xs) := by
  induction xs generalizing e with
  | nil => exact ⟨he, e.narrows_refl⟩
  | cons x xs ih =>
    have hx := hxs x (by simp)
    obtain ⟨hrun, hnarrow⟩ := ih (code_running he hx) fun y hy => hxs y (by simp [hy])
    exact ⟨hrun, (narrows_code hx).trans hnarrow⟩

theorem RangeEncoder.start_running : RangeEncoder.start.running := by
  unfold RangeEncoder.running; decide

/-- What the encoder emits fits its bytes. -/
theorem RangeEncoder.codeAll_start_low_lt {xs : List Coded} (hxs : ∀ x ∈ xs, x.ok) :
    (start.codeAll xs).low < 256 ^ (3 + (start.codeAll xs).shifts) := by
  obtain ⟨⟨hrange, -⟩, m, hm, -, hhi⟩ := codeAll_narrows start_running hxs
  have hshifts : (start.codeAll xs).shifts = m := hm.trans (Nat.zero_add m)
  calc (start.codeAll xs).low < (start.low + start.range) * 256 ^ m := by omega
    _ ≤ 256 ^ 3 * 256 ^ m := Nat.mul_le_mul_right _ (by decide)
    _ = 256 ^ (3 + (start.codeAll xs).shifts) := by rw [← pow_add, hshifts]

end

/-! ### The payload that the encoder emits (R199) -/

section
variable {s : State} {f : RangeEncoder}

theorem payloadNumber_add (s : State) (c k j : Nat) :
    payloadNumber s c (k + j) = payloadNumber s c k * 256 ^ j + payloadNumber s (c + k) j := by
  induction j with
  | zero => simp [payloadNumber]
  | succ j ih => rw [← Nat.add_assoc, payloadNumber, ih, payloadNumber, ← Nat.add_assoc]; ring

/-- The number that the first 3 + j emitted bytes make. -/
def RangeEncoder.leading (f : RangeEncoder) (j : Nat) : Nat := f.low / 256 ^ (f.shifts - j)

theorem payloadNumber_eq_div (hc : carries s f) (hlow : f.low < 256 ^ (3 + f.shifts)) {i : Nat}
    (hi : i ≤ 3 + f.shifts) : payloadNumber s 0 i = f.low / 256 ^ (3 + f.shifts - i) := by
  obtain ⟨-, -, hbytes⟩ := hc
  induction i with
  | zero => rw [payloadNumber, Nat.sub_zero, Nat.div_eq_of_lt hlow]
  | succ i ih =>
    obtain ⟨-, hbyte⟩ := hbytes i (by omega)
    rw [payloadNumber, ih (by omega), Nat.zero_add, hbyte, RangeEncoder.emitted,
      show 3 + f.shifts - i = 2 + f.shifts - i + 1 by omega,
      show 3 + f.shifts - (i + 1) = 2 + f.shifts - i by omega, pow_succ, ← Nat.div_div_eq_div_mul]
    exact Nat.div_add_mod _ _

theorem payloadNumber_eq_leading (hc : carries s f) (hlow : f.low < 256 ^ (3 + f.shifts)) {j : Nat}
    (hj : j ≤ f.shifts) : payloadNumber s 0 (3 + j) = f.leading j := by
  rw [payloadNumber_eq_div hc hlow (by omega), RangeEncoder.leading, Nat.add_sub_add_left]

theorem leading_add (hc : carries s f) (hlow : f.low < 256 ^ (3 + f.shifts)) {j k : Nat}
    (hj : j + k ≤ f.shifts) :
    f.leading (j + k) = f.leading j * 256 ^ k + payloadNumber s (3 + j) k := by
  rw [← payloadNumber_eq_leading hc hlow hj, ← payloadNumber_eq_leading hc hlow (by omega), ← Nat.add_assoc,
    payloadNumber_add, Nat.zero_add]

theorem payloadByte_of_carries (hc : carries s f) {j : Nat} (hj : j < 3 + f.shifts) :
    payloadByte s j = .ok (payloadValue s j) := by
  obtain ⟨hmax, hpb, hbytes⟩ := hc
  obtain ⟨hwritten, -⟩ := hbytes j hj
  have hle : s.PB ≤ s.NBYTES := Nat.sub_le _ _
  exact payByte_written (by omega) hwritten

/-- The first bytes of what is emitted lie in every interval that was narrowed to it. -/
theorem RangeEncoder.narrows.leading_mem {e : RangeEncoder} (h : e.narrows f) (hf : f.running) :
    e.low ≤ f.leading e.shifts ∧ f.leading e.shifts < e.low + e.range := by
  obtain ⟨m, hm, hlo, hhi⟩ := h
  obtain ⟨hpos, -⟩ := hf
  rw [leading, show f.shifts - e.shifts = m by omega]
  exact ⟨(Nat.le_div_iff_mul_le (by positivity)).mpr hlo,
    (Nat.div_lt_iff_lt_mul (by positivity)).mpr (by omega)⟩

/-! ### The decoder follows the encoder (R199) -/

/-- The decoder's registers where the encoder that ends as `f` stood at `e`. -/
def RangeEncoder.follower (f e : RangeEncoder) : RangeCoder :=
  coderOf (f.leading e.shifts - e.low) e.range (3 + e.shifts)

theorem follower_registers {e : RangeEncoder} (hc : carries s f) (hf : f.running) (he : e.running)
    (h : e.narrows f) :
    (f.follower e).low.toNat = f.leading e.shifts - e.low ∧ (f.follower e).unit = e.unit ∧
      (f.follower e).cursor.toNat = 3 + e.shifts := by
  obtain ⟨hlo, hhi⟩ := h.leading_mem hf
  obtain ⟨m, hm, -, -⟩ := h
  obtain ⟨hmax, hpb, -⟩ := hc
  obtain ⟨-, hrange⟩ := he
  have hpbmax : s.PB ≤ 400 := (Nat.sub_le _ _).trans hmax
  exact ⟨coderOf_low (by omega), congrArg (· / 2 ^ 10) (coderOf_range hrange), coderOf_cursor (by omega)⟩

/-- A coded symbol is decoded, and the decoder follows the encoder's step. -/
theorem decSym_follower {e : RangeEncoder} {x : Coded} (hc : carries s f)
    (hlow : f.low < 256 ^ (3 + f.shifts)) (hf : f.running) (he : e.running) (hx : x.ok)
    (hnext : (e.code x.cum x.sym).narrows f) :
    decSym s x.cum x.n (f.follower e) = .ok x.sym (f.follower (e.code x.cum x.sym)) := by
  obtain ⟨hwf, hsym, hfreq⟩ := id hx
  obtain ⟨-, hpb, -⟩ := id hc
  obtain ⟨hcl, hunit, hcc⟩ := follower_registers hc hf he ((RangeEncoder.narrows_code hx).trans hnext)
  obtain ⟨hlo, hhi⟩ := ((e.part_narrows_code x).trans hnext).leading_mem hf
  obtain ⟨m, hm, -, -⟩ := hnext
  set k := shiftsFor (e.width x) with hk
  have hshifts : e.shifts + k ≤ f.shifts := Nat.le.intro hm.symm
  have hwidth : e.unit * x.cum (x.sym + 1) = e.unit * x.cum x.sym + e.width x := by
    rw [RangeEncoder.width, ← Nat.mul_add, Nat.add_sub_cancel' hfreq.le]
  have hfollower : f.follower (e.code x.cum x.sym) =
      coderOf (f.leading (e.shifts + k) - (e.low + e.unit * x.cum x.sym) * 256 ^ k)
        (e.width x * 256 ^ k) (3 + (e.shifts + k)) := rfl
  simp only [RangeEncoder.part] at hlo hhi
  rw [decSym_ok hwf hsym (by rw [hunit, hcl]; omega) (by rw [hunit, hcl]; omega)
    (hk.trans (by rw [hunit]; rfl)) (by rw [hcc]; omega)
    fun m hm => payloadByte_of_carries hc (by rw [hcc]; omega)]
  rw [hfollower, leading_add hc hlow hshifts, hunit, hcl, hcc, Nat.sub_sub, Nat.sub_mul, Nat.add_assoc 3,
    ← Nat.sub_add_comm (Nat.mul_le_mul_right _ hlo)]
  rfl

/-! ### Coded symbols decode -/

/-- The codes decode, one after another, from the registers `c` to `c'`. -/
def Decodes (s : State) (xs : List Coded) (c c' : RangeCoder) : Prop :=
  decodeSymbols s (xs.map fun x => (x.cum, x.n)) c = .ok (xs.map fun x => x.sym) c'

theorem Decoded.andThen_eq_ok {α β : Type} {x : Decoded α} {g : α → RangeCoder → Decoded β} {v : β}
    {c : RangeCoder} : x.andThen g = .ok v c ↔ ∃ w c₁, x = .ok w c₁ ∧ g w c₁ = .ok v c := by
  cases x <;> simp

theorem decodeSymbols_cons (t : (Nat → Nat) × Nat) (rest : List ((Nat → Nat) × Nat)) (c : RangeCoder) :
    decodeSymbols s (t :: rest) c =
      (decSym s t.1 t.2 c).andThen fun sym c =>
        (decodeSymbols s rest c).andThen fun syms c => .ok (sym :: syms) c := rfl

theorem decodeSymbols_cons_eq_ok {t : (Nat → Nat) × Nat} {rest : List ((Nat → Nat) × Nat)}
    {vs : List Nat} {c c' : RangeCoder} :
    decodeSymbols s (t :: rest) c = .ok vs c' ↔
      ∃ v ws c₁, decSym s t.1 t.2 c = .ok v c₁ ∧ decodeSymbols s rest c₁ = .ok ws c' ∧ v :: ws = vs := by
  simp only [decodeSymbols_cons, Decoded.andThen_eq_ok, Decoded.ok.injEq]
  exact ⟨fun ⟨v, c₁, hv, ws, _, hws, hvs, hc⟩ => ⟨v, ws, c₁, hv, hc ▸ hws, hvs⟩,
    fun ⟨v, ws, c₁, hv, hws, hvs⟩ => ⟨v, c₁, hv, ws, c', hws, hvs, rfl⟩⟩

theorem decodes_nil {c c' : RangeCoder} : Decodes s [] c c' ↔ c = c' := by
  simp [Decodes, decodeSymbols]

theorem decodes_cons {x : Coded} {xs : List Coded} {c c' : RangeCoder} :
    Decodes s (x :: xs) c c' ↔ ∃ c₁, decSym s x.cum x.n c = .ok x.sym c₁ ∧ Decodes s xs c₁ c' := by
  simp only [Decodes, List.map_cons, decodeSymbols_cons_eq_ok, List.cons.injEq]
  exact ⟨fun ⟨_, _, c₁, hv, hws, hsym, hsyms⟩ => ⟨c₁, hsym ▸ hv, hsyms ▸ hws⟩,
    fun ⟨c₁, hv, hws⟩ => ⟨_, _, c₁, hv, hws, rfl, rfl⟩⟩

theorem codeAll_decodes {e : RangeEncoder} {xs : List Coded} (hxs : ∀ x ∈ xs, x.ok) (he : e.running)
    (hf : f = e.codeAll xs) (hc : carries s f) (hlow : f.low < 256 ^ (3 + f.shifts)) :
    Decodes s xs (f.follower e) (f.follower f) := by
  induction xs generalizing e with
  | nil => rw [decodes_nil, hf]; rfl
  | cons x xs ih =>
    have hx := hxs x (by simp)
    have hrest : ∀ y ∈ xs, y.ok := fun y hy => hxs y (by simp [hy])
    have hrun := RangeEncoder.code_running he hx
    have hend : f = (e.code x.cum x.sym).codeAll xs := hf
    obtain ⟨hfrun, hnarrow⟩ := RangeEncoder.codeAll_narrows hrun hrest
    rw [← hend] at hfrun hnarrow
    exact decodes_cons.mpr ⟨_, decSym_follower hc hlow hfrun he hx hnarrow, ih hrest hrun hend⟩

/-- Codes that a payload carries decode from the primed registers, to low 0 and a cursor past the bytes
emitted. -/
theorem carries_decodes {xs : List Coded} (hxs : ∀ x ∈ xs, x.ok)
    (hc : carries s (RangeEncoder.start.codeAll xs)) :
    ∃ c, Decodes s xs (coderOf (payloadNumber s 0 3) 0xFFFFFF 3) c ∧ c.low = 0 ∧
      c.cursor.toNat = 3 + (RangeEncoder.start.codeAll xs).shifts := by
  have hlow := RangeEncoder.codeAll_start_low_lt hxs
  obtain ⟨hmax, hpb, -⟩ := id hc
  have hpbmax : s.PB ≤ 400 := (Nat.sub_le _ _).trans hmax
  have hdec := codeAll_decodes hxs RangeEncoder.start_running rfl hc hlow
  rw [RangeEncoder.follower, show RangeEncoder.start.shifts = 0 from rfl,
    ← payloadNumber_eq_leading hc hlow (Nat.zero_le _)] at hdec
  refine ⟨_, hdec, ?_, coderOf_cursor (by omega)⟩
  simp [RangeEncoder.follower, RangeEncoder.leading, coderOf]

/-- Settles O19: the decoder follows the encoder from its start to its end. -/
theorem symbolRoundTrip : Obligations.SymbolRoundTrip := by
  intro s xs hxs hc
  refine ⟨?_, carries_decodes hxs hc⟩
  calc _ < 256 ^ (3 + (RangeEncoder.start.codeAll xs).shifts) := RangeEncoder.codeAll_start_low_lt hxs
    _ = 2 ^ (24 + 8 * (RangeEncoder.start.codeAll xs).shifts) := by
      rw [show (256 : Nat) = 2 ^ 8 from rfl, ← pow_mul, Nat.mul_add]

end

/-! ### RC_INIT (R191, R220) -/

section
variable {s t : State}

/-- The first three payload bytes, which priming loads into low. -/
def primingLow (s : State) : Nat :=
  payloadValue s 0 * 2 ^ 16 + payloadValue s 1 * 2 ^ 8 + payloadValue s 2

theorem primingLow_lt (s : State) : primingLow s < 2 ^ 24 := by
  have h0 : payloadValue s 0 < 256 := payValue_lt s _
  have h1 : payloadValue s 1 < 256 := payValue_lt s _
  have h2 : payloadValue s 2 < 256 := payValue_lt s _
  unfold primingLow
  omega

theorem prime_of_short (h : s.PB < 3) :
    prime s = .ok (State.raise { s with dec := { s.dec with fsm := .error } } .rcOverrun) := by
  unfold prime
  exact if_pos h

section
variable (hpb : 3 ≤ s.PB) (hread : ∀ j < 3, payloadByte s j = .ok (payloadValue s j))
include hpb hread

/-- Priming on FF FF FF, the only value in the gap. -/
theorem prime_of_eq (h : primingLow s = 0xFFFFFF) :
    prime s =
      .ok (State.raise (s.setDecoder (coderOf (primingLow s) 0xFFFFFF 3) .error) .rcRange) := by
  unfold prime
  rw [if_neg (Nat.not_lt.mpr hpb), hread 0 (by decide), hread 1 (by decide), hread 2 (by decide)]
  exact if_pos h.ge

theorem prime_of_ne (h : primingLow s ≠ 0xFFFFFF) :
    prime s = .ok (s.setDecoder (coderOf (primingLow s) 0xFFFFFF 3) .ready) := by
  have hlt := primingLow_lt s
  have hbelow : ¬ 0xFFFFFF ≤ primingLow s := by omega
  unfold prime
  rw [if_neg (Nat.not_lt.mpr hpb), hread 0 (by decide), hread 1 (by decide), hread 2 (by decide)]
  exact if_neg hbelow

end

theorem rcInitBody_of_noBfi (h : s.cfg.mode.bfi = false) : rcInitBody s = prime s.clearContext :=
  if_neg (by rw [h]; decide)

theorem exec_rcInit (hcfg : decodeConfigured s) (hsi : s.fstat.siValid = true) (hidle : s.dec.fsm = .idle)
    (hbody : rcInitBody s = .ok t) : exec .rcInit s = .next t.complete := by
  refine exec_ok (firstError_eq_none.mpr ?_) hbody
  simp [checksOf, decodeConfigOk_of_decodeConfigured hcfg, rcInitLegal, hsi, hidle]

/-- Settles O16: clearing the context first changes nothing that priming reads. -/
theorem rcInitResult : Obligations.RcInitResult := by
  intro s hcfg hw hsi hidle hbfi
  obtain ⟨-, -, -, -, hmax, -⟩ := id hcfg
  have hPB : s.PB = s.NBYTES - s.si.bytes.toNat := rfl
  have hrun : ∀ {t}, prime s.clearContext = .ok t → exec .rcInit s = .next t.complete := fun h =>
    exec_rcInit hcfg hsi hidle ((rcInitBody_of_noBfi hbfi).trans h)
  rcases Nat.lt_or_ge s.PB 3 with hshort | hlong
  · exact ⟨_, hrun (prime_of_short hshort), fun _ => rfl, fun h => by omega, fun h => by omega⟩
  have hread : ∀ j < 3, payloadByte s j = .ok (payloadValue s j) := fun j hj =>
    payloadByte_written hmax hw (by omega)
  by_cases hlow : primingLow s = 0xFFFFFF
  · exact ⟨_, hrun (prime_of_eq hlong hread hlow), fun h => by omega, fun _ _ => rfl,
      fun _ hne => absurd hlow hne⟩
  · exact ⟨_, hrun (prime_of_ne hlong hread hlow), fun h => by omega, fun _ heq => absurd heq hlow,
      fun _ _ => rfl⟩

/-! ### RC_DECSYM (R221) -/

variable {cum : Nat → Nat} {n sym k : Nat}

/-- The bytes that a symbol may shift in are written. -/
theorem payloadByte_of_avail (hmax : s.NBYTES ≤ 400) (hw : payloadWritten s) {c : Nat}
    (hk : k ≤ s.PB - c) : ∀ m < k, payloadByte s (c + m) = .ok (payloadValue s (c + m)) := by
  intro m hm
  have hle : s.PB ≤ s.NBYTES := Nat.sub_le _ _
  exact payloadByte_written hmax hw (by omega)

theorem decsymBody_of_gap (h : s.coder.unit * 2 ^ 10 ≤ s.coder.low.toNat) :
    decsymBody cum n s =
      .ok (State.raise { s with dec := { s.dec with fsm := .error } } .rcRange) := by
  unfold decsymBody
  rw [decSym_of_gap h]

section
variable (hwf : cumWf cum n = true) (hsym : sym < n) (hmax : s.NBYTES ≤ 400) (hw : payloadWritten s)
  (hlo : s.coder.unit * cum sym ≤ s.coder.low.toNat)
  (hhi : s.coder.low.toNat < s.coder.unit * cum (sym + 1))
include hwf hsym hmax hw hlo hhi

theorem decsymBody_of_le (hk : k = shiftsFor (s.coder.unit * (cum (sym + 1) - cum sym)))
    (havail : k ≤ s.PB - s.coder.cursor.toNat) :
    decsymBody cum n s =
      .ok { s with
        coder := coderOf ((s.coder.low.toNat - s.coder.unit * cum sym) * 256 ^ k +
            payloadNumber s s.coder.cursor.toNat k)
          (s.coder.unit * (cum (sym + 1) - cum sym) * 256 ^ k) (s.coder.cursor.toNat + k)
        dec := { s.dec with sym := BitVec.ofNat 5 sym } } := by
  unfold decsymBody
  rw [decSym_ok hwf hsym hlo hhi hk havail (payloadByte_of_avail hmax hw havail)]

theorem decsymBody_of_lt (hk : k = s.PB - s.coder.cursor.toNat)
    (hshort : k < shiftsFor (s.coder.unit * (cum (sym + 1) - cum sym))) :
    decsymBody cum n s =
      .ok (State.raise
        { s with
          coder := coderOf ((s.coder.low.toNat - s.coder.unit * cum sym) * 256 ^ k +
              payloadNumber s s.coder.cursor.toNat k)
            (s.coder.unit * (cum (sym + 1) - cum sym) * 256 ^ k) (s.coder.cursor.toNat + k)
          dec := { s.dec with fsm := .error } } .rcOverrun) := by
  unfold decsymBody
  rw [decSym_overrun hwf hsym hlo hhi hk hshort (payloadByte_of_avail hmax hw hk.le)]

end

theorem argLegal_of_argumentLegal {cls : TableClass} {id : Nat} (h : argumentLegal (.rcDecsym cls id)) :
    argLegal cls id = true := by
  cases cls <;> exact decide_eq_true h

theorem exec_rcDecsym {cls : TableClass} {id : Nat} (harg : argumentLegal (.rcDecsym cls id))
    (hf : s.dec.fsm = .ready)
    (hbody : decsymBody (selectTable blockRoms cls id).1 (selectTable blockRoms cls id).2 s = .ok t) :
    exec (.rcDecsym cls id) s = .next t.complete := by
  refine exec_ok (firstError_eq_none.mpr ?_) hbody
  simp [checksOf, argLegal_of_argumentLegal harg, decsymLegal, hf]

/-- Settles O17: low lies in the gap or in the part of one symbol, whose shifts the payload has or not. -/
theorem rcDecsymResult : Obligations.RcDecsymResult := by
  intro cls id s harg hf hmax hw cum n r c avail
  have hwf : cumWf cum n = true := selectTable_wf cls id
  rcases Nat.lt_or_ge s.coder.low.toNat (r * 2 ^ 10) with hlow | hgap
  · obtain ⟨hsym, hlo, hhi⟩ := largestSymbol_spec hwf hlow
    set sym := largestSymbol cum r s.coder.low.toNat (n - 1)
    rcases Nat.lt_or_ge avail (shiftsFor (r * (cum (sym + 1) - cum sym))) with hshort | havail
    · have hbody := decsymBody_of_lt hwf hsym hmax hw hlo hhi rfl hshort
      exact ⟨_, exec_rcDecsym harg hf hbody, fun h => by omega, fun _ =>
        ⟨sym, hsym, hlo, hhi, fun h => absurd h (Nat.not_le.mpr hshort), fun _ => rfl⟩⟩
    · have hbody := decsymBody_of_le hwf hsym hmax hw hlo hhi rfl havail
      exact ⟨_, exec_rcDecsym harg hf hbody, fun h => by omega, fun _ =>
        ⟨sym, hsym, hlo, hhi, fun _ => rfl, fun h => absurd h (Nat.not_lt.mpr havail)⟩⟩
  · exact ⟨_, exec_rcDecsym harg hf (decsymBody_of_gap hgap), fun _ => rfl, fun h => by omega⟩

/-! ### RC_DECBIT (R222) -/

theorem checksOf_rcDecbit (s : State) :
    firstError (checksOf s .rcDecbit) = firstError (checksOf s (.rcDecsym .uni2 0)) := rfl

/-- In every state RC_DECBIT does what RC_DECSYM does with the uniform table. -/
theorem exec_rcDecbit_eq (s : State) : exec .rcDecbit s = exec (.rcDecsym .uni2 0) s := by
  rw [exec_eq_runCommand, exec_eq_runCommand, runCommand, runCommand, checksOf_rcDecbit]
  rfl

/-- The state with another word pending. -/
def State.withPending (s : State) (w : Option Word) : State := { s with pending := w }

theorem renorm_withPending (s : State) (w : Option Word) (sym avail low range cursor : Nat) :
    renorm (s.withPending w) sym avail low range cursor = renorm s sym avail low range cursor := by
  induction avail generalizing low range cursor with
  | zero => simp only [renorm]
  | succ avail ih =>
    have hbyte : payloadByte (s.withPending w) cursor = payloadByte s cursor := rfl
    simp only [renorm, hbyte, ih]

theorem decSym_withPending (s : State) (w : Option Word) :
    decSym (s.withPending w) = decSym s := by
  funext cum n c
  exact if_congr Iff.rfl rfl (renorm_withPending s w ..)

/-- The word that a command of a single decode runs from is gone when it completes. -/
theorem exec_rcDecbit_withPending (s : State) (w : Option Word) :
    exec .rcDecbit (s.withPending w) = exec .rcDecbit s := by
  rw [exec_eq_runCommand, exec_eq_runCommand, runCommand, runCommand,
    show firstError (checksOf (s.withPending w) .rcDecbit) = firstError (checksOf s .rcDecbit) from rfl]
  cases firstError (checksOf s .rcDecbit) with
  | some e => rfl
  | none =>
    simp only [bodyOf, decsymBody, decSym_withPending, show (s.withPending w).coder = s.coder from rfl]
    cases decSym s uni2 2 s.coder <;> rfl

theorem exec_rcDecbit (hf : s.dec.fsm = .ready) (hbody : decsymBody uni2 2 s = .ok t) :
    exec .rcDecbit s = .next t.complete :=
  exec_rcDecbit_eq s ▸ exec_rcDecsym (cls := .uni2) (id := 0) rfl hf hbody

/-- Settles O18: the two words run the same body, and the bit's half of the interval is the symbol's part
in the uniform table. -/
theorem rcDecbitResult : Obligations.RcDecbitResult := by
  constructor
  · intro s
    have hbit : step { s with agenda := [], pending := some 0x00000022#32 } =
        exec .rcDecbit (State.withPending { s with agenda := [] } (some 0x00000022#32)) := rfl
    have hsym : step { s with agenda := [], pending := some 0x0000C021#32 } =
        exec (.rcDecsym .uni2 0) (State.withPending { s with agenda := [] } (some 0x0000C021#32)) := rfl
    rw [hbit, hsym, ← exec_rcDecbit_eq, exec_rcDecbit_withPending, exec_rcDecbit_withPending]
  · intro s hf hmax hw r c b low k hlow havail
    have hhalf : r * 2 ^ 10 = r * 2 ^ 9 + r * 2 ^ 9 := by ring
    by_cases hb : r * 2 ^ 9 ≤ s.coder.low.toNat
    · have hbody := decsymBody_of_le (sym := 1) uni2_wf (by decide) hmax hw hb hlow rfl havail
      refine ⟨_, exec_rcDecbit hf hbody, ?_⟩
      simp only [low, b, if_pos hb, Nat.one_mul]
      rfl
    · have hbody := decsymBody_of_le (sym := 0) uni2_wf (by decide) hmax hw (Nat.zero_le _)
        (Nat.not_le.mp hb) rfl havail
      refine ⟨_, exec_rcDecbit hf hbody, ?_⟩
      simp only [low, b, if_neg hb, Nat.zero_mul]
      rfl

end

/-! ### Values recorded at the places of a list (R208, R210) -/

section
variable {ι : Type} [DecidableEq ι] [BEq ι] [LawfulBEq ι] {idx : ι → Nat} {val : Nat → Nat} {i : ι}
  {l : List ι} {vs : List Nat}

/-- A register array with values recorded one after another, each at the index of its place. -/
def recorded (idx : ι → Nat) (val : Nat → Nat) (ivs : List (ι × Nat)) (a : List Nat) : List Nat :=
  ivs.foldl (fun a iv => a.set (idx iv.1) (val iv.2)) a

omit [DecidableEq ι] [BEq ι] [LawfulBEq ι] in
theorem recorded_snoc (ivs : List (ι × Nat)) (v : Nat) (a : List Nat) :
    recorded idx val (ivs ++ [(i, v)]) a = (recorded idx val ivs a).set (idx i) (val v) := by
  simp [recorded]

omit [DecidableEq ι] in
theorem lookup_zip_of_notMem (h : i ∉ l) (vs : List Nat) : (l.zip vs).lookup i = none := by
  refine List.lookup_eq_none_iff.mpr fun p hp => ?_
  have hmem := (List.of_mem_zip hp).1
  simpa using fun he : i = p.1 => h (he ▸ hmem)

theorem lookup_zip_cons (j : ι) (v : Nat) :
    ((j :: l).zip (v :: vs)).lookup i = if i = j then some v else (l.zip vs).lookup i := by
  rw [List.zip_cons_cons, List.lookup_cons]
  by_cases h : i = j
  · simp [h]
  · rw [beq_false_of_ne h, if_neg h]

theorem lookup_zip_map (g : ι → Nat) :
    (l.zip (l.map g)).lookup i = if i ∈ l then some (g i) else none := by
  induction l with
  | nil => rfl
  | cons j l ih =>
    rw [List.map_cons, lookup_zip_cons, ih]
    by_cases h : i = j <;> simp [h]

/-- Each place keeps its own value, where no two places share an index. -/
theorem recorded_getD {a : List Nat} (hl : l.Nodup) (hidx : ∀ j ∈ l, idx j = idx i → j = i)
    (hi : idx i < a.length) :
    (recorded idx val (l.zip vs) a).getD (idx i) 0 =
      (((l.zip vs).lookup i).map val).getD (a.getD (idx i) 0) := by
  induction l generalizing vs a with
  | nil => rfl
  | cons j l ih =>
    cases vs with
    | nil => rfl
    | cons v vs =>
      obtain ⟨hj, hl⟩ := List.nodup_cons.mp hl
      have hrest := ih (vs := vs) (a := a.set (idx j) (val v)) hl
        (fun k hk => hidx k (List.mem_cons_of_mem j hk)) (by rwa [List.length_set])
      rw [lookup_zip_cons]
      refine hrest.trans ?_
      by_cases h : i = j
      · subst h
        rw [lookup_zip_of_notMem hj, if_pos rfl]
        simp [hi]
      · have hne : idx j ≠ idx i := fun he => h (hidx j (by simp) he).symm
        rw [if_neg h]
        simp [List.getElem?_set_ne hne]

end

/-! ### Symbols of a frame decoded one after another (R208, R210) -/

section
variable {ι : Type} {s : State} {r : Roms} {tab : ι → (Nat → Nat) × Nat}
  {record : ι → Nat → Progress → Progress}

/-- A stage that decodes a symbol for each place of a list, from the place's table, and records it. -/
def symbolStages (s : State) (tab : ι → (Nat → Nat) × Nat) (record : ι → Nat → Progress → Progress) :
    List ι → Progress → Stage
  | [], p => .ok (p, none)
  | i :: rest, p =>
    ((decSym s (tab i).1 (tab i).2 p.coder).stage p (record i)).next (symbolStages s tab record rest)

/-- The progress with other decoder registers. -/
def Progress.withCoder (p : Progress) (c : RangeCoder) : Progress := { p with coder := c }

/-- `done` is what has been recorded after some symbols: one more extends it. -/
def Records (record : ι → Nat → Progress → Progress) (done : List (ι × Nat) → Progress) : Prop :=
  ∀ ivs i v c, record i v ((done ivs).withCoder c) = (done (ivs ++ [(i, v)])).withCoder c

variable {done : List (ι × Nat) → Progress}

theorem symbolStages_cons_of_ok {i : ι} {l : List ι} {p : Progress} {v : Nat} {c : RangeCoder}
    (h : decSym s (tab i).1 (tab i).2 p.coder = .ok v c) :
    symbolStages s tab record (i :: l) p = symbolStages s tab record l (record i v (p.withCoder c)) := by
  rw [symbolStages, h]
  rfl

theorem symbolStages_cons_of_fail {i : ι} {l : List ι} {p : Progress} {e : BitError} {c : RangeCoder}
    (h : decSym s (tab i).1 (tab i).2 p.coder = .fail e c) :
    symbolStages s tab record (i :: l) p = .ok (p.withCoder c, some e) := by
  rw [symbolStages, h]
  rfl

/-- Symbols that decode are all recorded. -/
theorem symbolStages_of_ok (hrec : Records record done) {l : List ι} {pre : List (ι × Nat)}
    {vs : List Nat} {c c' : RangeCoder} (h : decodeSymbols s (l.map tab) c = .ok vs c') :
    symbolStages s tab record l ((done pre).withCoder c) =
      .ok ((done (pre ++ l.zip vs)).withCoder c', none) := by
  induction l generalizing pre vs c with
  | nil => cases h; simp [symbolStages]
  | cons i l ih =>
    rw [List.map_cons] at h
    obtain ⟨v, ws, c₁, hv, hws, rfl⟩ := decodeSymbols_cons_eq_ok.mp h
    have hrest := ih (pre := pre ++ [(i, v)]) hws
    rw [← hrec, List.append_assoc] at hrest
    rw [symbolStages_cons_of_ok (p := (done pre).withCoder c) hv]
    exact hrest

/-- Everything such a stage can do with the payload written: all symbols decode, or those before the first
that does not. -/
theorem symbolStages_cases (hrec : Records record done)
    (hread : ∀ i c, (decSym s (tab i).1 (tab i).2 c).readable) (l : List ι) (pre : List (ι × Nat))
    (c : RangeCoder) :
    ∃ vs c', decodeSymbols s ((l.map tab).take vs.length) c = .ok vs c' ∧
      ((vs.length = l.length ∧
          symbolStages s tab record l ((done pre).withCoder c) =
            .ok ((done (pre ++ l.zip vs)).withCoder c', none)) ∨
        ∃ i e c₁, l[vs.length]? = some i ∧ decSym s (tab i).1 (tab i).2 c' = .fail e c₁ ∧
          symbolStages s tab record l ((done pre).withCoder c) =
            .ok ((done (pre ++ l.zip vs)).withCoder c₁, some e)) := by
  induction l generalizing pre c with
  | nil => exact ⟨[], c, rfl, .inl ⟨rfl, by simp [symbolStages]⟩⟩
  | cons i l ih =>
    have hi := hread i c
    cases hd : decSym s (tab i).1 (tab i).2 c with
    | ok v c₁ =>
      obtain ⟨vs, c₂, hdec, hcase⟩ := ih (pre ++ [(i, v)]) c₁
      refine ⟨v :: vs, c₂, ?_, ?_⟩
      · exact decodeSymbols_cons_eq_ok.mpr ⟨v, vs, c₁, hd, hdec, rfl⟩
      · rw [← hrec, List.append_assoc] at hcase
        rw [symbolStages_cons_of_ok (p := (done pre).withCoder c) hd, List.length_cons, List.length_cons,
          Nat.add_right_cancel_iff]
        exact hcase
    | fail e c₁ =>
      refine ⟨[], c, rfl, .inr ⟨i, e, c₁, rfl, hd, ?_⟩⟩
      rw [symbolStages_cons_of_fail (p := (done pre).withCoder c) hd, List.zip_nil_right, List.append_nil]
      rfl
    | fault f => rw [hd] at hi; exact hi.elim

/-- Symbols of tables with at most N symbols are below N. -/
theorem decodeSymbols_lt {N : Nat} {tabs : List ((Nat → Nat) × Nat)} {vs : List Nat} {c c' : RangeCoder}
    (hwf : ∀ t ∈ tabs, cumWf t.1 t.2 = true ∧ t.2 ≤ N) (h : decodeSymbols s tabs c = .ok vs c') :
    ∀ v ∈ vs, v < N := by
  induction tabs generalizing c vs with
  | nil => cases h; simp
  | cons t tabs ih =>
    obtain ⟨ht, hN⟩ := hwf t (by simp)
    obtain ⟨v, ws, c₁, hv, hws, rfl⟩ := decodeSymbols_cons_eq_ok.mp h
    have hlt := decSym_ok_lt ht hv
    exact List.forall_mem_cons.mpr ⟨by omega, ih (fun t ht => hwf t (by simp [ht])) hws⟩

/-! ### The TNS sections as symbols (R208, R210) -/

/-- The table of a TNS order symbol. -/
def orderTable (r : Roms) (s : State) (_ : Nat) : (Nat → Nat) × Nat :=
  (r.tnsOrder (bit s.cfg.mode.tnsLpcw), 8)

/-- The table of the TNS coefficient symbol of a place (f, k). -/
def coefTable (r : Roms) (fk : Nat × Nat) : (Nat → Nat) × Nat := (r.tnsCoef fk.2, 17)

/-- TNS_COEF[f][k] stands at 8 · f + k (10_state.md R53). -/
def placeIndex (fk : Nat × Nat) : Nat := 8 * fk.1 + fk.2

/-- A TNS order symbol recorded: the order is one more. -/
def recordOrder (f o : Nat) (p : Progress) : Progress := { p with orders := p.orders.set f (o + 1) }

/-- A TNS coefficient symbol recorded. -/
def recordCoef (fk : Nat × Nat) (v : Nat) (p : Progress) : Progress :=
  { p with coefs := p.coefs.set (placeIndex fk) v }

theorem forEach_orderStage (fs : List Nat) (p : Progress) :
    forEach (orderStage r s) fs p =
      symbolStages s (orderTable r s) recordOrder (fs.filter fun f => s.si.tns.getLsbD f) p := by
  induction fs generalizing p with
  | nil => rfl
  | cons f fs ih =>
    rw [forEach, orderStage, funext ih]
    by_cases h : s.si.tns.getLsbD f
    · rw [if_pos h, List.filter_cons_of_pos h]; rfl
    · rw [if_neg h, List.filter_cons_of_neg h]; rfl

/-- The coefficients of one filter, then those of the filters after it, with the orders they were given. -/
theorem forEach_next_symbolStages {orders : List Nat} {f : Nat} {rest : Progress → Stage}
    {places : List (Nat × Nat)} (h : ∀ p, p.orders = orders →
      rest p = symbolStages s (coefTable r) recordCoef places p) (ks : List Nat) {p : Progress}
    (hp : p.orders = orders) :
    (forEach
        (fun k p => (decSym s (r.tnsCoef k) Config.TNS_COEF_SYMS p.coder).stage p fun v p =>
          { p with coefs := p.coefs.set (Config.TNS_ORDER_MAX * f + k) v }) ks p).next rest =
      symbolStages s (coefTable r) recordCoef (ks.map (fun k => (f, k)) ++ places) p := by
  induction ks generalizing p with
  | nil => exact h p hp
  | cons k ks ih =>
    rw [forEach, List.map_cons, List.cons_append, symbolStages]
    change ((Decoded.stage (decSym s (r.tnsCoef k) 17 p.coder) _ _).next _).next _ = _
    dsimp only [coefTable]
    cases decSym s (r.tnsCoef k) 17 p.coder with
    | ok v c => exact ih (p := recordCoef (f, k) v (p.withCoder c)) hp
    | fail e c => rfl
    | fault g => rfl

theorem forEach_coefStage {orders : List Nat} (fs : List Nat) {p : Progress} (hp : p.orders = orders) :
    forEach (coefStage r s) fs p =
      symbolStages s (coefTable r) recordCoef
        (fs.flatMap fun f => (List.range (orders.getD f 0)).map fun k => (f, k)) p := by
  induction fs generalizing p with
  | nil => rfl
  | cons f fs ih =>
    rw [forEach, coefStage, List.flatMap_cons, hp]
    exact forEach_next_symbolStages (fun q hq => ih hq) _ hp

/-- Filters without an order have no places; the others have one for each coefficient of theirs. -/
theorem flatMap_filter {α : Type} {P : Nat → Bool} {g : Nat → List α} {l : List Nat}
    (h : ∀ f ∈ l, P f = false → g f = []) : l.flatMap g = (l.filter P).flatMap g := by
  induction l with
  | nil => rfl
  | cons f l ih =>
    have hrest := ih fun k hk => h k (by simp [hk])
    cases hf : P f with
    | true => simp [hf, hrest]
    | false => simp [hf, hrest, h f (by simp) hf]

theorem flatMap_lookup_zip {l vs : List Nat} (hl : l.Nodup) (hlen : vs.length = l.length) :
    (l.flatMap fun f =>
        (List.range ((((l.zip vs).lookup f).map (· + 1)).getD 0)).map fun k => (f, k)) =
      (l.zip vs).flatMap fun fo => (List.range (fo.2 + 1)).map fun k => (fo.1, k) := by
  induction l generalizing vs with
  | nil => rfl
  | cons f l ih =>
    obtain ⟨hf, hl⟩ := List.nodup_cons.mp hl
    cases vs with
    | nil => simp at hlen
    | cons v vs =>
      rw [List.flatMap_cons, List.zip_cons_cons, List.flatMap_cons, ← ih hl (by simpa using hlen)]
      congr 1
      · simp
      · refine List.flatMap_congr fun k hk => ?_
        have hne : k ≠ f := fun he => hf (he ▸ hk)
        rw [← List.zip_cons_cons, lookup_zip_cons, if_neg hne]

end

/-! ### What RC_DECODE has got to, as its registers hold it -/

section
variable {s t : State} {r : Roms} {d : Decoding} {c : RangeCoder}

/-- The progress of RC_DECODE where the frame has been decoded as far as `d`. -/
def Decoding.progress (d : Decoding) (s : State) : Progress where
  coder := d.coder
  orders := recorded id (· + 1) ((activeFilters s).zip d.orders) (List.replicate 2 0)
  coefs := recorded placeIndex id ((coefPlaces s d.orders).zip d.coefs) (List.replicate 16 0)
  xq := d.tuples.flatMap fun ab => [ab.1, ab.2]
  ctx := contextAfter d.tuples
  tuples := d.tuples.length

/-- The order symbols decoded, nothing else. -/
def Decoding.ofOrders (vs : List Nat) (c : RangeCoder) : Decoding := ⟨vs, [], [], c, c, c⟩

/-- The coefficient symbols decoded after the orders. -/
def Decoding.withCoefs (d : Decoding) (vs : List Nat) (c : RangeCoder) : Decoding :=
  { d with coefs := vs, afterCoefs := c, coder := c }

/-- One more tuple decoded. -/
def Decoding.withTuple (d : Decoding) (ab : Int × Int) (c : RangeCoder) : Decoding :=
  { d with tuples := d.tuples ++ [ab], coder := c }

theorem contextAfter_snoc (tuples : List (Int × Int)) (ab : Int × Int) :
    contextAfter (tuples ++ [ab]) = nextContext (contextAfter tuples) ab.1.natAbs ab.2.natAbs := by
  rw [contextAfter, List.foldl_append]
  rfl

theorem contextAfter_lt (tuples : List (Int × Int)) : contextAfter tuples < 256 := by
  induction tuples using List.reverseRecOn with
  | nil => decide
  | append_singleton tuples ab =>
    rw [contextAfter_snoc, nextContext]
    omega

theorem Decoding.progress_withTuple (d : Decoding) (ab : Int × Int) (c : RangeCoder) :
    (d.withTuple ab c).progress s =
      { d.progress s with
        coder := c
        xq := (d.progress s).xq ++ [ab.1, ab.2]
        ctx := nextContext (d.progress s).ctx ab.1.natAbs ab.2.natAbs
        tuples := (d.progress s).tuples + 1 } := by
  simp [progress, withTuple, contextAfter_snoc]

/-! ### The sections of a frame -/

/-- The progress within the orders' section. -/
def orderProgress (c : RangeCoder) (ivs : List (Nat × Nat)) : Progress :=
  { Progress.start c with orders := recorded id (· + 1) ivs (List.replicate 2 0) }

theorem orderProgress_records (c : RangeCoder) : Records recordOrder (orderProgress c) := by
  intro ivs f o c'
  simp only [orderProgress, recorded_snoc]
  rfl

theorem orderProgress_zip (c₀ : RangeCoder) (vs : List Nat) (c : RangeCoder) :
    (orderProgress c₀ ((activeFilters s).zip vs)).withCoder c = (Decoding.ofOrders vs c).progress s := by
  simp [orderProgress, Progress.withCoder, Progress.start, Decoding.progress, Decoding.ofOrders, recorded,
    contextAfter]

theorem orderSection_eq (r : Roms) (s : State) :
    forEach (orderStage r s) (List.range s.NF_TNS) (Progress.start s.coder) =
      symbolStages s (orderTable r s) recordOrder (activeFilters s)
        ((orderProgress s.coder []).withCoder s.coder) :=
  forEach_orderStage _ _

/-- The progress within the coefficients' section. -/
def coefProgress (d : Decoding) (s : State) (ivs : List ((Nat × Nat) × Nat)) : Progress :=
  { d.progress s with coefs := recorded placeIndex id ivs (List.replicate 16 0) }

theorem coefProgress_records (d : Decoding) (s : State) : Records recordCoef (coefProgress d s) := by
  intro ivs fk v c
  simp only [coefProgress, recorded_snoc]
  rfl

theorem activeFilters_nodup (s : State) : (activeFilters s).Nodup := List.nodup_range.filter _

theorem lt_of_mem_activeFilters {f : Nat} (h : f ∈ activeFilters s) : f < s.NF_TNS :=
  List.mem_range.mp (List.mem_of_mem_filter h)

/-- The order that the symbols give a filter, 0 where the filter has none. -/
theorem Decoding.progress_orders {f : Nat} (hf : f < 2) :
    (d.progress s).orders.getD f 0 =
      ((((activeFilters s).zip d.orders).lookup f).map (· + 1)).getD 0 := by
  have h := recorded_getD (idx := id) (val := (· + 1)) (i := f) (vs := d.orders)
    (a := List.replicate 2 0) (activeFilters_nodup s) (fun _ _ h => h) (by simpa using hf)
  have hzero : (List.replicate 2 0).getD (id f) 0 = 0 := List.getD_replicate _ hf
  rwa [hzero] at h

/-- The coefficients' section decodes a symbol for each place that the orders give. -/
theorem coefSection_eq (hnf : s.NF_TNS ≤ 2) (hlen : d.orders.length = (activeFilters s).length)
    (hcoefs : d.coefs = []) :
    forEach (coefStage r s) (List.range s.NF_TNS) (d.progress s) =
      symbolStages s (coefTable r) recordCoef (coefPlaces s d.orders)
        ((coefProgress d s []).withCoder d.coder) := by
  have hstart : (coefProgress d s []).withCoder d.coder = d.progress s := by
    simp [coefProgress, Progress.withCoder, Decoding.progress, hcoefs, recorded]
  have hplaces : ((List.range s.NF_TNS).flatMap fun f =>
      (List.range ((d.progress s).orders.getD f 0)).map fun k => (f, k)) = coefPlaces s d.orders := by
    rw [coefPlaces, ← flatMap_lookup_zip (activeFilters_nodup s) hlen]
    have horder : ∀ f ∈ List.range s.NF_TNS, (d.progress s).orders.getD f 0 = _ := fun f hf =>
      Decoding.progress_orders ((List.mem_range.mp hf).trans_le hnf)
    rw [List.flatMap_congr fun f hf => by rw [horder f hf]]
    refine flatMap_filter fun f hf hoff => ?_
    have hnot : f ∉ activeFilters s := fun hmem => by
      simpa [hoff] using List.of_mem_filter hmem
    rw [lookup_zip_of_notMem hnot]
    rfl
  rw [forEach_coefStage _ rfl, hplaces, hstart]

theorem tupleStage_of_ok {j : Nat} {ab : Int × Int}
    (h : decodeTuple r s (contextAfter d.tuples) j d.coder = .ok ab c) :
    tupleStage r s j (d.progress s) = .ok ((d.withTuple ab c).progress s, none) := by
  rw [Decoding.progress_withTuple, tupleStage]
  change (decodeTuple r s (contextAfter d.tuples) j d.coder).stage _ _ = _
  rw [h]
  rfl

theorem tupleStage_of_fail {j : Nat} {e : BitError}
    (h : decodeTuple r s (contextAfter d.tuples) j d.coder = .fail e c) :
    tupleStage r s j (d.progress s) = .ok ((d.progress s).withCoder c, some e) := by
  rw [tupleStage]
  change (decodeTuple r s (contextAfter d.tuples) j d.coder).stage _ _ = _
  rw [h]
  rfl

/-! ### The registers and XQ after RC_DECODE -/

/-- The symbols and values of a decoding fit the registers. -/
structure Decoding.fits (d : Decoding) : Prop where
  orders : ∀ o ∈ d.orders, o < 8
  coefs : ∀ v ∈ d.coefs, v < 17
  tuples : ∀ ab ∈ d.tuples, ab.1.natAbs < 2 ^ 16 ∧ ab.2.natAbs < 2 ^ 16
  count : d.tuples.length ≤ 200

/-- The registers and XQ hold a decoding. -/
structure Decoding.heldBy (d : Decoding) (s t : State) : Prop where
  tuples : t.dec.tuples.toNat = d.tuples.length
  ctx : t.dec.ctx.toNat = contextAfter d.tuples
  xq : ∀ j < d.tuples.length, xqElem t (2 * j) = (d.tuples.getD j (0, 0)).1 ∧
    xqElem t (2 * j + 1) = (d.tuples.getD j (0, 0)).2
  rest : ∀ i, 2 * d.tuples.length ≤ i → i < 400 → xqElem t i = 0
  orders : ∀ f : Fin 2, t.dec.tnsOrder[f].toNat =
    ((((activeFilters s).zip d.orders).lookup f.val).map (· + 1)).getD 0
  coefs : ∀ f < 2, ∀ k < 8, ∀ fk : Fin 16, fk.val = 8 * f + k → t.dec.tnsCoef[fk].toNat =
    (((coefPlaces s d.orders).zip d.coefs).lookup (f, k)).getD 0

theorem mem_coefPlaces {orders : List Nat} {fk : Nat × Nat} (h : fk ∈ coefPlaces s orders) :
    fk.1 ∈ activeFilters s ∧ ∃ o ∈ orders, fk.2 ≤ o := by
  obtain ⟨⟨f, o⟩, hfo, hk⟩ := List.mem_flatMap.mp h
  obtain ⟨k, hmem, rfl⟩ := List.mem_map.mp hk
  obtain ⟨hf, ho⟩ := List.of_mem_zip hfo
  exact ⟨hf, o, ho, Nat.lt_succ_iff.mp (List.mem_range.mp hmem)⟩

theorem coefPlaces_nodup (s : State) (orders : List Nat) : (coefPlaces s orders).Nodup := by
  have hkeys : ∀ {l vs : List Nat}, l.Nodup → (l.zip vs).Pairwise fun a b => a.1 ≠ b.1 := by
    intro l vs hl
    induction l generalizing vs with
    | nil => exact .nil
    | cons f l ih =>
      obtain ⟨hf, hl⟩ := List.nodup_cons.mp hl
      cases vs with
      | nil => exact .nil
      | cons v vs =>
        refine .cons (fun p hp he => hf ?_) (ih hl)
        obtain ⟨hmem, -⟩ := List.of_mem_zip hp
        rwa [← show f = p.1 from he] at hmem
  refine List.nodup_flatMap.mpr ⟨fun fo _ => ?_, (hkeys (activeFilters_nodup s)).imp fun hne => ?_⟩
  · exact List.nodup_range.map fun _ _ h => (Prod.mk.inj h).2
  · intro fk ha hb
    obtain ⟨_, -, rfl⟩ := List.mem_map.mp ha
    obtain ⟨_, -, h⟩ := List.mem_map.mp hb
    exact hne (Prod.mk.inj h).1.symm

theorem Decoding.fits.progress_coefs (h : d.fits) {f k : Nat} (hf : f < 2) (hk : k < 8) :
    (d.progress s).coefs.getD (8 * f + k) 0 =
      (((coefPlaces s d.orders).zip d.coefs).lookup (f, k)).getD 0 := by
  have hidx : ∀ j ∈ coefPlaces s d.orders, placeIndex j = placeIndex (f, k) → j = (f, k) := by
    rintro ⟨f', k'⟩ hj he
    obtain ⟨-, o, ho, hle⟩ := mem_coefPlaces hj
    have := h.orders o ho
    simp only [placeIndex] at he hle
    rw [Prod.mk.injEq]
    omega
  have hrec := recorded_getD (idx := placeIndex) (val := id) (i := (f, k)) (vs := d.coefs)
    (a := List.replicate 16 0) (coefPlaces_nodup s d.orders) hidx
    (by simp only [placeIndex, List.length_replicate]; omega)
  rw [List.getD_replicate _ (by simp only [placeIndex]; omega), Option.map_id] at hrec
  exact hrec

/-- The coefficients of XQ in the order of the tuples. -/
theorem pairs_getD (tuples : List (Int × Int)) (j : Nat) :
    (tuples.flatMap fun ab => [ab.1, ab.2]).getD (2 * j) 0 = (tuples.getD j (0, 0)).1 ∧
      (tuples.flatMap fun ab => [ab.1, ab.2]).getD (2 * j + 1) 0 = (tuples.getD j (0, 0)).2 := by
  induction tuples generalizing j with
  | nil => simp
  | cons ab tuples ih =>
    cases j with
    | zero => simp
    | succ j => simpa [Nat.mul_add] using ih j

theorem pairs_length (tuples : List (Int × Int)) :
    (tuples.flatMap fun ab => [ab.1, ab.2]).length = 2 * tuples.length := by
  induction tuples with
  | nil => rfl
  | cons ab tuples ih => simp [ih, Nat.mul_add]

/-- XQ[i] where the memory is the result of writing XQ. -/
theorem xqElem_of_mem {m : Memory} {vs : List Int} (h : t.mem = m.store XQ_BASE (paddedWords vs)) {i : Nat}
    (hi : i < 400) : xqElem t i = (BitVec.ofInt 32 (vs.getD i 0)).toInt := by
  have hset := xqElem_setXq { t with mem := m } vs hi
  rwa [State.setXq, ← h] at hset

theorem toInt_ofInt_of_natAbs_lt {v : Int} (h : v.natAbs < 2 ^ 16) : (BitVec.ofInt 32 v).toInt = v := by
  rw [BitVec.toInt_ofInt]
  exact Int.bmod_eq_of_le (by omega) (by omega)

theorem toNat_ofNat_of_lt {w n : Nat} (h : n < 2 ^ w) : (BitVec.ofNat w n).toNat = n :=
  (BitVec.toNat_ofNat ..).trans (Nat.mod_eq_of_lt h)

theorem lookup_getD_lt {ι : Type} [BEq ι] {ivs : List (ι × Nat)} {i : ι} {N : Nat} (hN : 0 < N)
    (h : ∀ iv ∈ ivs, iv.2 < N) : (ivs.lookup i).getD 0 < N := by
  induction ivs with
  | nil => exact hN
  | cons iv ivs ih =>
    rw [List.lookup]
    split
    · exact h iv (by simp)
    · exact ih fun jv hj => h jv (by simp [hj])

theorem order_le {ivs : List (Nat × Nat)} (h : ∀ iv ∈ ivs, iv.2 < 8) (f : Nat) :
    ((ivs.lookup f).map (· + 1)).getD 0 ≤ 8 := by
  have hlt := lookup_getD_lt (i := f) (by decide) h
  cases hl : ivs.lookup f with
  | none => simp
  | some o => rw [hl] at hlt; exact hlt

/-- What RC_DECODE writes holds the decoding that it got to. -/
theorem Decoding.fits.heldBy (h : d.fits) {f : RcFsm} {b : BitVec 10}
    (hdec : t.dec = (s.applyProgress ((d.progress s).withCoder c) f b).dec)
    (hmem : t.mem = (s.applyProgress ((d.progress s).withCoder c) f b).mem) : d.heldBy s t := by
  have hcount := h.count
  have hxq : ∀ i < 400, xqElem t i =
      (BitVec.ofInt 32 ((d.tuples.flatMap fun ab => [ab.1, ab.2]).getD i 0)).toInt := fun i hi =>
    xqElem_of_mem hmem hi
  refine ⟨?_, ?_, fun j hj => ?_, fun i hi hi' => ?_, fun f => ?_, fun f hf k hk fk hfk => ?_⟩
  · rw [hdec]
    exact toNat_ofNat_of_lt (show d.tuples.length < 2 ^ 9 by omega)
  · rw [hdec]
    exact toNat_ofNat_of_lt (contextAfter_lt d.tuples)
  · obtain ⟨ha, hb⟩ := pairs_getD d.tuples j
    have hmem : d.tuples.getD j (0, 0) ∈ d.tuples := by
      rw [List.getD_eq_getElem _ _ hj]; exact List.getElem_mem hj
    obtain ⟨hA, hB⟩ := h.tuples _ hmem
    rw [hxq _ (by omega), hxq _ (by omega), ha, hb]
    exact ⟨toInt_ofInt_of_natAbs_lt hA, toInt_ofInt_of_natAbs_lt hB⟩
  · rw [hxq i hi', List.getD_eq_default _ _ (by rw [pairs_length]; exact hi)]
    rfl
  · have hle := order_le (ivs := (activeFilters s).zip d.orders)
      (fun iv hiv => h.orders _ (List.of_mem_zip hiv).2) f
    rw [← Decoding.progress_orders f.isLt] at hle ⊢
    rw [hdec]
    exact (congrArg BitVec.toNat (vecOfFn_getElem _ f)).trans
      (toNat_ofNat_of_lt (hle.trans_lt (by decide : 8 < 2 ^ 4)))
  · have hlt := lookup_getD_lt (ivs := (coefPlaces s d.orders).zip d.coefs) (i := (f, k)) (N := 17)
      (by decide) fun iv hiv => h.coefs _ (List.of_mem_zip hiv).2
    rw [← h.progress_coefs hf hk, ← hfk] at hlt ⊢
    rw [hdec]
    exact (congrArg BitVec.toNat (vecOfFn_getElem _ fk)).trans
      (toNat_ofNat_of_lt (hlt.trans (by decide : 17 < 2 ^ 5)))

end

/-! ### How far a frame decodes (R208 to R217) -/

section
variable {s t : State} {r : Roms} {d : Decoding} {c : RangeCoder}

theorem tuplesLead_nil (c : RangeCoder) : tuplesLead r s c [] c :=
  ⟨fun _ => c, rfl, rfl, fun _ hj => absurd hj (Nat.not_lt_zero _)⟩

/-- The registers after each tuple, with one more tuple at the end. -/
theorem tuplesLead_snoc {tuples : List (Int × Int)} {ab : Int × Int} {c₁ c₂ : RangeCoder}
    (h : tuplesLead r s c tuples c₁)
    (hab : tupleIs r s (contextAfter tuples) tuples.length c₁ ab c₂) :
    tuplesLead r s c (tuples ++ [ab]) c₂ := by
  obtain ⟨regs, hfirst, hlast, hall⟩ := h
  refine ⟨fun k => if k ≤ tuples.length then regs k else c₂, by simpa using hfirst, by simp,
    fun j hj => ?_⟩
  rw [List.length_append, List.length_singleton] at hj
  rcases Nat.lt_succ_iff_lt_or_eq.mp hj with hlt | rfl
  · have hj := hall j hlt
    rw [List.take_append_of_le_length hlt.le, List.getD_append _ _ _ _ hlt]
    simpa [hlt.le, Nat.succ_le_of_lt hlt] using hj
  · rw [List.take_left, List.getD_append_right _ _ _ _ le_rfl]
    simpa [hlast] using hab

/-- The progress that a bit error leaves: a decoding that stops at it. -/
def Stopped (r : Roms) (s : State) (e : BitError) (p : Progress) : Prop :=
  ∃ d : Decoding, d.sound r s ∧ d.stops r s e.code p.coder ∧ e.ofDecoder ∧
    p = (d.progress s).withCoder p.coder

/-- The progress that decodings with a property leave. -/
def Reached (r : Roms) (s : State) (P : Decoding → Prop) (p : Progress) : Prop :=
  ∃ d : Decoding, d.sound r s ∧ P d ∧ p = d.progress s

theorem Decoding.sound_ofOrders {vs : List Nat}
    (h : decodeSymbols s ((orderTables r s).take vs.length) s.coder = .ok vs c) :
    (ofOrders vs c).sound r s where
  orders := h
  coefs := rfl
  tuples := tuplesLead_nil c
  inOrder := ⟨fun h => absurd rfl h, fun h => absurd rfl h⟩
  within := Nat.zero_le _

theorem Decoding.sound.withCoefs (h : d.sound r s) (hlen : d.orders.length = (activeFilters s).length)
    (htuples : d.tuples = []) {vs : List Nat}
    (hvs : decodeSymbols s ((coefTables r s d.orders).take vs.length) d.afterOrders = .ok vs c) :
    (d.withCoefs vs c).sound r s where
  orders := h.orders
  coefs := hvs
  tuples := by
    rw [Decoding.withCoefs, htuples]
    exact tuplesLead_nil c
  inOrder := ⟨fun _ => hlen, fun h => absurd htuples h⟩
  within := h.within

theorem Decoding.sound.withTuple (h : d.sound r s) (hdone : d.tnsDone s)
    (hlt : d.tuples.length < s.si.lastnz.toNat / 2) {ab : Int × Int}
    (hab : tupleIs r s (contextAfter d.tuples) d.tuples.length d.coder ab c) :
    (d.withTuple ab c).sound r s where
  orders := h.orders
  coefs := h.coefs
  tuples := tuplesLead_snoc h.tuples hab
  inOrder := ⟨h.inOrder.1, fun _ => hdone⟩
  within := by
    rw [Decoding.withTuple, List.length_append]
    exact hlt

/-- Before the coefficients and the tuples, the registers are those after the orders. -/
theorem Decoding.sound.coder_eq (h : d.sound r s) (hcoefs : d.coefs = []) (htuples : d.tuples = []) :
    d.afterOrders = d.coder := by
  have hc := h.coefs
  obtain ⟨regs, hfirst, hlast, -⟩ := h.tuples
  rw [hcoefs] at hc
  rw [htuples] at hlast
  have hafter : d.afterOrders = d.afterCoefs := by
    simpa [decodeSymbols] using hc
  exact hafter.trans (hfirst.symm.trans hlast)

theorem terminalStage_meets {p : Progress}
    (hp : Reached r s (fun d => d.tnsDone s ∧ d.tuples.length = s.si.lastnz.toNat / 2) p) :
    Stage.meets (Reached r s fun d => d.complete s) (Stopped r s) False (terminalStage p) := by
  obtain ⟨d, hd, ⟨hdone, hlen⟩, rfl⟩ := hp
  unfold terminalStage
  split
  · next hlow =>
    exact ⟨d, hd, .inr (.inr (.inr ⟨hdone, hlen, hlow, rfl, rfl⟩)), .inr (.inr (.inr rfl)), rfl⟩
  · next hlow => exact ⟨d, hd, ⟨hdone, hlen, not_not.mp hlow⟩, rfl⟩

section
variable (hr : CumTablesWf r) (hb : s.NBYTES ≤ Config.BYTES_MAX) (hw : payloadWritten s)
include hr hb hw

theorem orderSection_meets :
    Stage.meets
      (Reached r s fun d => d.orders.length = (activeFilters s).length ∧ d.coefs = [] ∧ d.tuples = [])
      (Stopped r s) False
      (forEach (orderStage r s) (List.range s.NF_TNS) (Progress.start s.coder)) := by
  have hread : ∀ i c, (decSym s (orderTable r s i).1 (orderTable r s i).2 c).readable := fun _ _ =>
    decSym_readable (hr.tnsOrder _) hb hw
  obtain ⟨vs, c, hdec, ⟨hlen, hall⟩ | ⟨f, e, c₁, hf, hfail, hstop⟩⟩ :=
    symbolStages_cases (orderProgress_records s.coder) hread (activeFilters s) [] s.coder
  · rw [orderSection_eq, hall, List.nil_append, orderProgress_zip]
    exact ⟨_, Decoding.sound_ofOrders hdec, ⟨hlen, rfl, rfl⟩, rfl⟩
  · rw [orderSection_eq, hstop, List.nil_append]
    obtain ⟨hlt, -⟩ := List.getElem?_eq_some_iff.mp hf
    obtain ⟨he, hsym⟩ := decSym_fail (hr.tnsOrder _) hb hfail
    refine ⟨Decoding.ofOrders vs c, Decoding.sound_ofOrders hdec, .inl ⟨hlt, hsym⟩,
      he.elim .inl fun he => .inr (.inr (.inl he)), ?_⟩
    rw [← orderProgress_zip s.coder]
    rfl

theorem coefSection_meets (hnf : s.NF_TNS ≤ 2) {p : Progress}
    (hp : Reached r s
      (fun d => d.orders.length = (activeFilters s).length ∧ d.coefs = [] ∧ d.tuples = []) p) :
    Stage.meets (Reached r s fun d => d.tnsDone s ∧ d.tuples = []) (Stopped r s) False
      (forEach (coefStage r s) (List.range s.NF_TNS) p) := by
  obtain ⟨d, hd, ⟨hlen, hcoefs, htuples⟩, rfl⟩ := hp
  have hread : ∀ i c, (decSym s (coefTable r i).1 (coefTable r i).2 c).readable := fun _ _ =>
    decSym_readable (hr.tnsCoef _) hb hw
  rw [coefSection_eq hnf hlen hcoefs]
  obtain ⟨vs, c, hdec, hcase⟩ :=
    symbolStages_cases (coefProgress_records d s) hread (coefPlaces s d.orders) [] d.coder
  rw [← hd.coder_eq hcoefs htuples] at hdec
  have hsound := hd.withCoefs hlen htuples hdec
  rcases hcase with ⟨hlen', hall⟩ | ⟨fk, e, c₁, hfk, hfail, hstop⟩
  · rw [hall, List.nil_append]
    exact ⟨_, hsound, ⟨⟨hlen, hlen'⟩, htuples⟩, rfl⟩
  · rw [hstop, List.nil_append]
    obtain ⟨he, hsym⟩ := decSym_fail (hr.tnsCoef _) hb hfail
    exact ⟨_, hsound, .inr (.inl ⟨hlen, fk, hfk, hsym⟩), he.elim .inl fun he => .inr (.inr (.inl he)),
      rfl⟩

theorem tupleSection_meets {p : Progress}
    (hp : Reached r s (fun d => d.tnsDone s ∧ d.tuples = []) p) :
    Stage.meets (Reached r s fun d => d.tnsDone s ∧ d.tuples.length = s.si.lastnz.toNat / 2) (Stopped r s)
      False (forEach (tupleStage r s) (List.range (s.si.lastnz.toNat / 2)) p) := by
  have hstart : Reached r s (fun d => d.tnsDone s ∧ d.tuples.length = 0) p := by
    obtain ⟨d, hd, ⟨hdone, htuples⟩, hp⟩ := hp
    exact ⟨d, hd, ⟨hdone, by rw [htuples]; rfl⟩, hp⟩
  have hall := forEach_meets (P := fun n => Reached r s fun d => d.tnsDone s ∧ d.tuples.length = n)
    (Q := Stopped r s) (R := False) (act := tupleStage r s) (List.range (s.si.lastnz.toNat / 2)) 0 ?_
    hstart
  · rwa [List.length_range, Nat.zero_add] at hall
  rintro m j _ hj ⟨d, hd, ⟨hdone, hlen⟩, rfl⟩
  rw [Nat.zero_add] at hlen
  obtain ⟨hm, hmj⟩ := List.getElem?_eq_some_iff.mp hj
  rw [List.length_range] at hm
  rw [List.getElem_range] at hmj
  obtain rfl : j = d.tuples.length := by omega
  have hread := decodeTuple_readable hb hw hr (ctx := contextAfter d.tuples) (j := d.tuples.length)
    (c := d.coder)
  rcases decodeTuple_cases hr hb (contextAfter d.tuples) d.tuples.length d.coder with
    ⟨ab, c, htup, hab⟩ | ⟨c, htup, hesc⟩ | ⟨e, c, htup, he, hfail⟩ | ⟨f, htup⟩
  · rw [tupleStage_of_ok htup]
    refine ⟨_, hd.withTuple hdone (by omega) hab, ⟨hdone, ?_⟩, rfl⟩
    rw [Decoding.withTuple, List.length_append]
    simp only [List.length_singleton]
    omega
  · rw [tupleStage_of_fail htup]
    exact ⟨d, hd, .inr (.inr (.inl ⟨hdone, by omega, .inl ⟨rfl, hesc⟩⟩)), .inr (.inl rfl), rfl⟩
  · rw [tupleStage_of_fail htup]
    exact ⟨d, hd, .inr (.inr (.inl ⟨hdone, by omega, .inr hfail⟩)),
      he.elim .inl fun he => .inr (.inr (.inl he)), rfl⟩
  · rw [htup] at hread
    exact hread.elim

/-- With the payload written, a frame decodes completely or up to what it stops at. -/
theorem decodeSections_decodes (hnf : s.NF_TNS ≤ 2) :
    Stage.meets (Reached r s fun d => d.complete s) (Stopped r s) False (decodeSections r s) :=
  Stage.next_meets (orderSection_meets hr hb hw) fun _ hp =>
    Stage.next_meets (coefSection_meets hr hb hw hnf hp) fun _ hp =>
      Stage.next_meets (tupleSection_meets hr hb hw hp) fun _ hp => terminalStage_meets hp

end

/-! ### What decodes fits the registers -/

theorem signLeads_natAbs {m : Nat} {v : Int} {c c' : RangeCoder} (h : signLeads s m c v c') :
    v.natAbs = m := by
  obtain ⟨rfl, rfl, -⟩ | ⟨-, x, -, rfl⟩ := h
  · rfl
  · split <;> simp

/-- The magnitudes of a tuple have at most 16 bits (R214). -/
theorem tupleIs_natAbs_lt {ctx j : Nat} {ab : Int × Int} {c' : RangeCoder}
    (h : tupleIs r s ctx j c ab c') : ab.1.natAbs < 2 ^ 16 ∧ ab.2.natAbs < 2 ^ 16 := by
  obtain ⟨lev, a, b, v, c₁, c₂, c₃, hlev, hesc, -, hv, hA, hB⟩ := h
  obtain ⟨ha, hb⟩ := escapesLead_lt hesc
  have hpow : 2 ^ lev ≤ 2 ^ 14 := Nat.pow_le_pow_right (by decide) hlev
  have hlow := Nat.mul_le_mul_right (2 ^ lev) (show v % 4 ≤ 3 by omega)
  have hhigh := Nat.mul_le_mul_right (2 ^ lev) (show v / 4 ≤ 3 by omega)
  rw [signLeads_natAbs hA, signLeads_natAbs hB]
  omega

theorem Decoding.sound.fits (h : d.sound r s) (hr : CumTablesWf r) (hlast : s.si.lastnz.toNat ≤ 400) :
    d.fits where
  orders := by
    refine decodeSymbols_lt (fun t ht => ?_) h.orders
    obtain ⟨_, -, rfl⟩ := List.mem_map.mp (List.mem_of_mem_take ht)
    exact ⟨hr.tnsOrder _, le_rfl⟩
  coefs := by
    refine decodeSymbols_lt (fun t ht => ?_) h.coefs
    obtain ⟨_, -, rfl⟩ := List.mem_map.mp (List.mem_of_mem_take ht)
    exact ⟨hr.tnsCoef _, le_rfl⟩
  tuples := by
    obtain ⟨_, -, -, hall⟩ := h.tuples
    intro ab hab
    obtain ⟨j, hj, rfl⟩ := List.getElem_of_mem hab
    have htup := tupleIs_natAbs_lt (hall j hj)
    rwa [List.getD_eq_getElem _ _ hj] at htup
  count := h.within.trans (by omega)

/-! ### RC_DECODE (R223) -/

theorem rcDecodeBody_of_stopped (hbfi : s.cfg.mode.bfi = false)
    (h : s.dec.fsm = .error ∨ s.NE < s.si.lastnz.toNat) :
    rcDecodeBody r s = .ok (s.applyProgress (Progress.start s.coder) .error 0) := by
  unfold rcDecodeBody
  rw [if_neg (by simp [hbfi]), if_pos h]

section
variable (hbfi : s.cfg.mode.bfi = false) (hf : s.dec.fsm = .ready) (hle : s.si.lastnz.toNat ≤ s.NE)
  {p : Progress}
include hbfi hf hle

theorem rcDecodeBody_of_complete (h : decodeSections r s = .ok (p, none)) :
    rcDecodeBody r s = .ok (s.applyProgress p .terminal p.coder.cursor) := by
  unfold rcDecodeBody
  rw [if_neg (by simp [hbfi]), if_neg (by simp [hf, hle]), h]

theorem rcDecodeBody_of_fail {e : BitError} (h : decodeSections r s = .ok (p, some e)) :
    rcDecodeBody r s = .ok ((s.applyProgress p .error 0).raise e) := by
  unfold rcDecodeBody
  rw [if_neg (by simp [hbfi]), if_neg (by simp [hf, hle]), h]

end

theorem rcDecodeWith_of_ok (hcfg : decodeConfigured s) (hf : s.dec.fsm = .ready ∨ s.dec.fsm = .error)
    (hrc : s.fstat.rcValid = false) (hbody : rcDecodeBody r s = .ok t) :
    rcDecodeWith r s = .next t.complete := by
  refine runCommand_ok (firstError_eq_none.mpr ?_) hbody
  simp [decodeConfigOk_of_decodeConfigured hcfg, rcDecodeLegal_iff.mpr ⟨hf, hrc⟩]

theorem applyProgress_sameBytesOutside {p : Progress}
    (h : t.mem = s.mem.store XQ_BASE (paddedWords p.xq)) : sameBytesOutside XQ_BASE 1600 s t := by
  intro a ha
  rw [h, s.mem.read_store_outside (by rwa [paddedWords_length])]

/-- RC_DECODE's start holds nothing decoded. -/
theorem applyProgress_start_dec (s : State) (c : RangeCoder) :
    (s.applyProgress (Progress.start c) .error 0).dec =
      { Decoder.zero with sym := s.dec.sym, fsm := .error } := by
  have horders : (vecOfFn 2 fun f => BitVec.ofNat 4 ((Progress.start c).orders.getD f 0)) =
      Vector.replicate 2 0 := by
    simp only [Progress.start]; decide
  have hcoefs : (vecOfFn 16 fun i => BitVec.ofNat 5 ((Progress.start c).coefs.getD i 0)) =
      Vector.replicate 16 0 := by
    simp only [Progress.start]; decide
  simp only [State.applyProgress, horders, hcoefs]
  rfl

/-- Settles O21: RC_DECODE writes the registers from the decoding that its sections got to. -/
theorem rcDecodeResult : Obligations.RcDecodeResult := by
  intro s hcfg hw hbfi hf hrc
  obtain ⟨-, hNE, -, -, hmax, hnf⟩ := id hcfg
  by_cases hstop : s.dec.fsm = .error ∨ s.NE < s.si.lastnz.toNat
  · refine ⟨_, rcDecodeWith_of_ok hcfg hf hrc (rcDecodeBody_of_stopped hbfi hstop), rfl,
      applyProgress_sameBytesOutside rfl, fun i _ hi => ?_, fun _ => ⟨rfl, rfl, ?_⟩, fun hr hle => ?_⟩
    · exact xqElem_of_mem (m := s.mem) (vs := []) rfl hi
    · exact applyProgress_start_dec s s.coder
    · exact absurd hstop (by simp [hr, hle])
  have hready := hf.resolve_right fun h => hstop (.inl h)
  have hle : s.si.lastnz.toNat ≤ s.NE := Nat.not_lt.mp fun h => hstop (.inr h)
  have hmeets := decodeSections_decodes blockRoms_cumTablesWf hmax hw (s := s) (by omega)
  match hdec : decodeSections blockRoms s with
  | .error f => rw [hdec] at hmeets; exact hmeets.elim
  | .ok (p, none) =>
    rw [hdec] at hmeets
    obtain ⟨d, hd, hcomplete, rfl⟩ := hmeets
    have hbody := rcDecodeBody_of_complete hbfi hready hle hdec
    have hheld := (hd.fits blockRoms_cumTablesWf (by omega)).heldBy (s := s) (c := d.coder)
      (t := (s.applyProgress (d.progress s) .terminal d.coder.cursor).complete) rfl rfl
    refine ⟨_, rcDecodeWith_of_ok hcfg hf hrc hbody, rfl, applyProgress_sameBytesOutside rfl,
      fun i hi => hheld.rest i (by rwa [← hheld.tuples]), fun h => absurd h hstop, fun _ _ =>
      ⟨d, hd, hheld.tuples, hheld.ctx, hheld.xq, hheld.orders, hheld.coefs, .inl
        ⟨hcomplete, rfl, rfl, rfl, hcomplete.2.2, rfl, hheld.tuples.trans hcomplete.2.1⟩⟩⟩
  | .ok (p, some e) =>
    rw [hdec] at hmeets
    obtain ⟨d, hd, hstops, he, hp⟩ := hmeets
    have hbody := rcDecodeBody_of_fail hbfi hready hle hdec
    have hheld := (hd.fits blockRoms_cumTablesWf (by omega)).heldBy (s := s) (c := p.coder)
      (t := ((s.applyProgress p .error 0).raise e).complete) (by rw [← hp]; rfl) (by rw [← hp]; rfl)
    have hcause : e.code ∈ ([1, 2, 3, 8] : List (BitVec 4)) := by
      rcases he with rfl | rfl | rfl | rfl <;> decide
    refine ⟨_, rcDecodeWith_of_ok hcfg hf hrc hbody, rfl, applyProgress_sameBytesOutside rfl,
      fun i hi => hheld.rest i (by rwa [← hheld.tuples]), fun h => absurd h hstop, fun _ _ =>
      ⟨d, hd, hheld.tuples, hheld.ctx, hheld.xq, hheld.orders, hheld.coefs, .inr
        ⟨rfl, rfl, hheld.tuples.trans_le hd.within, e.code, hcause, hstops, rfl⟩⟩⟩

end

/-! ### The escape level of a tuple (43_quantizer_gain.md R256) -/

theorem div_escapeLevel_lt {m n : Nat} (h : m ≤ n) : m / 2 ^ escapeLevel n m < 4 := by
  induction n generalizing m with
  | zero =>
    obtain rfl : m = 0 := by omega
    decide
  | succ n ih =>
    unfold escapeLevel
    split
    · next hlt => simpa using hlt
    · rw [pow_succ', ← Nat.div_div_eq_div_mul]
      exact ih (by omega)

theorem escapeLevel_le {m n k : Nat} (h : m < 2 ^ (k + 2)) : escapeLevel n m ≤ k := by
  induction n generalizing m k with
  | zero => exact Nat.zero_le k
  | succ n ih =>
    unfold escapeLevel
    split
    · exact Nat.zero_le k
    · next hge =>
      cases k with
      | zero => exact absurd h hge
      | succ k =>
        rw [show k + 1 + 2 = (k + 2) + 1 by omega, pow_succ] at h
        have hrest := ih (m := m / 2) (k := k) (by omega)
        omega

/-- At its escape level a tuple's magnitudes have two bits each. -/
theorem div_tupleLevel_lt (a b : Nat) : a / 2 ^ tupleLevel a b < 4 ∧ b / 2 ^ tupleLevel a b < 4 := by
  have hmax := div_escapeLevel_lt (le_refl (max a b))
  exact ⟨(Nat.div_le_div_right (le_max_left a b)).trans_lt hmax,
    (Nat.div_le_div_right (le_max_right a b)).trans_lt hmax⟩

theorem tupleLevel_le {a b : Nat} (ha : a ≤ 65535) (hb : b ≤ 65535) : tupleLevel a b ≤ 14 :=
  escapeLevel_le (by omega)

/-! ### A coded tuple decodes (R211 to R216) -/

section
variable {s : State} {r : Roms} {c c' : RangeCoder}

theorem decodes_append {xs ys : List Coded} :
    Decodes s (xs ++ ys) c c' ↔ ∃ c₁, Decodes s xs c c₁ ∧ Decodes s ys c₁ c' := by
  induction xs generalizing c with
  | nil => simp [decodes_nil]
  | cons x xs ih =>
    simp only [List.cons_append, decodes_cons, ih]
    exact ⟨fun ⟨c₁, hx, c₂, hxs, hys⟩ => ⟨c₂, ⟨c₁, hx, hxs⟩, hys⟩,
      fun ⟨c₂, ⟨c₁, hx, hxs⟩, hys⟩ => ⟨c₁, hx, c₂, hxs, hys⟩⟩

theorem decodes_codedBit {b : Bool} {xs : List Coded} :
    Decodes s (codedBit b :: xs) c c' ↔ ∃ c₁, decBit s c = .ok (bit b) c₁ ∧ Decodes s xs c₁ c' :=
  decodes_cons

/-- A raw bit put above the bits below it. -/
theorem mod_or_testBit (a l : Nat) : a % 2 ^ l ||| bit (a.testBit l) * 2 ^ l = a % 2 ^ (l + 1) := by
  have hbit : bit (a.testBit l) = a / 2 ^ l % 2 := by
    rw [Nat.testBit_eq_decide_div_mod_eq, bit]
    rcases Nat.mod_two_eq_zero_or_one (a / 2 ^ l) with h | h <;> simp [h]
  rw [or_shifted (Nat.mod_lt _ (by positivity)), hbit, Nat.mod_pow_succ, Nat.mul_comm]

theorem rawPair_of_decodes {l a b : Nat} (heven : s.si.lsb = true ∧ l = 0 → a % 2 = 0 ∧ b % 2 = 0)
    (h : Decodes s
      (if s.si.lsb = true ∧ l = 0 then [] else [codedBit (a.testBit l), codedBit (b.testBit l)]) c c') :
    rawPair s l (a % 2 ^ l) (b % 2 ^ l) c = .ok (a % 2 ^ (l + 1), b % 2 ^ (l + 1)) c' := by
  unfold rawPair
  by_cases hskip : s.si.lsb = true ∧ l = 0
  · obtain ⟨ha, hb⟩ := heven hskip
    obtain ⟨-, rfl⟩ := id hskip
    rw [if_pos hskip] at h ⊢
    rw [decodes_nil.mp h]
    simp [ha, hb, Nat.mod_one]
  · rw [if_neg hskip, decodes_codedBit] at h
    obtain ⟨c₁, hx, h⟩ := h
    obtain ⟨c₂, hy, h⟩ := decodes_codedBit.mp h
    rw [if_neg hskip, hx, Decoded.andThen_ok, hy, Decoded.andThen_ok, mod_or_testBit, mod_or_testBit,
      decodes_nil.mp h]

/-- Coded escapes bring the chain to their level, with the bits of the magnitudes below it. -/
theorem escapeChain_of_decodes {t a b n l left : Nat}
    (heven : s.si.lsb = true → l = 0 → 0 < n → a % 2 = 0 ∧ b % 2 = 0)
    (h : Decodes s (codedEscapes r s.si.lsb t a b l n) c c') :
    escapeChain r s t (left + n) l (a % 2 ^ l) (b % 2 ^ l) c =
      escapeChain r s t left (l + n) (a % 2 ^ (l + n)) (b % 2 ^ (l + n)) c' := by
  induction n generalizing l c with
  | zero =>
    rw [decodes_nil.mp h]
    rfl
  | succ n ih =>
    obtain ⟨c₁, hesc, h⟩ := decodes_cons.mp h
    obtain ⟨c₂, hraw, h⟩ := decodes_append.mp h
    have hpair := rawPair_of_decodes (fun hskip => heven hskip.1 hskip.2 (by omega)) hraw
    rw [← Nat.add_assoc left, escapeChain, hesc, Decoded.andThen_ok, if_neg (not_not.mpr rfl), hpair,
      Decoded.andThen_ok, ih (fun _ hl => absurd hl (by omega)) h, show l + 1 + n = l + (n + 1) by omega]

theorem escapeChain_of_value {t left lev a b v : Nat} (hv : v ≠ Config.ESC)
    (h : decSym s (r.cf (tableOf r lev t)) Config.NSYM_SPEC c = .ok v c') :
    escapeChain r s t left lev a b c = .ok (lev, a, b, v) c' := by
  cases left <;> rw [escapeChain, h, Decoded.andThen_ok, if_pos hv]

theorem signedMagnitude_of_decodes {v : Int} (h : Decodes s (codedSign v) c c') :
    signedMagnitude s v.natAbs c = .ok v c' := by
  unfold signedMagnitude
  by_cases hv : v = 0
  · rw [codedSign, if_pos hv] at h
    rw [decodes_nil.mp h, hv]
    rfl
  · rw [codedSign, if_neg hv, decodes_codedBit] at h
    obtain ⟨c₁, hx, h⟩ := h
    rw [if_neg (Int.natAbs_ne_zero.mpr hv), hx, Decoded.andThen_ok, decodes_nil.mp h]
    congr 1
    by_cases hneg : v < 0
    · simp only [bit, hneg, decide_true, if_true]
      omega
    · simp [bit, hneg]
      omega

/-- The two bit pairs of a value symbol (R213). -/
theorem pairs_of_value {x : Nat} (hx : x < 4) (y : Nat) : (x + 4 * y) % 4 = x ∧ (x + 4 * y) / 4 = y := by
  omega

/-- What a tuple needs for the tuple code to carry it (R133, R134). -/
def Codable (lsb : Bool) (ab : Int × Int) : Prop :=
  ab.1.natAbs ≤ 65535 ∧ ab.2.natAbs ≤ 65535 ∧ lsbFits lsb ab

theorem decodeTuple_of_decodes {ctx j : Nat} {ab : Int × Int} (hab : Codable s.si.lsb ab)
    (h : Decodes s (codedTuple r s.si.lsb (contextIndex s ctx j) ab) c c') :
    decodeTuple r s ctx j c = .ok ab c' := by
  obtain ⟨ha, hb, hlsb⟩ := hab
  have hlev := tupleLevel_le ha hb
  obtain ⟨hva, hvb⟩ := div_tupleLevel_lt ab.1.natAbs ab.2.natAbs
  unfold codedTuple at h
  set lev := tupleLevel ab.1.natAbs ab.2.natAbs with hlevdef
  obtain ⟨c₁, hesc, h⟩ := decodes_append.mp h
  obtain ⟨c₂, hval, h⟩ := decodes_cons.mp h
  obtain ⟨c₃, hA, hB⟩ := decodes_append.mp h
  have heven : s.si.lsb = true → 0 = 0 → 0 < lev → ab.1.natAbs % 2 = 0 ∧ ab.2.natAbs % 2 = 0 := by
    intro hl _ hpos
    obtain ⟨hx, hy⟩ := hlsb hl (by omega)
    omega
  have hsym : ab.1.natAbs / 2 ^ lev + 4 * (ab.2.natAbs / 2 ^ lev) ≠ Config.ESC := by
    simp only [Config.ESC]
    generalize ab.1.natAbs / 2 ^ lev = x at *
    generalize ab.2.natAbs / 2 ^ lev = y at *
    omega
  have hchain := escapeChain_of_decodes (left := 14 - lev) heven hesc
  rw [Nat.sub_add_cancel hlev, Nat.zero_add, escapeChain_of_value hsym hval,
    pow_zero, Nat.mod_one, Nat.mod_one] at hchain
  obtain ⟨hlow, hhigh⟩ := pairs_of_value hva (ab.2.natAbs / 2 ^ lev)
  have hwhole : ∀ a, a % 2 ^ lev ||| a / 2 ^ lev * 2 ^ lev = a := fun a => by
    rw [or_shifted (Nat.mod_lt _ (by positivity)), Nat.mul_comm, Nat.mod_add_div]
  rw [decodeTuple, show Config.LEV_LIMIT = 14 from rfl, hchain, Decoded.andThen_ok, hlow, hhigh, hwhole,
    hwhole, signedMagnitude_of_decodes hA, Decoded.andThen_ok, signedMagnitude_of_decodes hB]
  rfl

/-! ### A coded frame decodes (R230) -/

variable {d : Decoding}

theorem tupleSection_of_decodes {tuples : List (Int × Int)} (htuples : ∀ ab ∈ tuples, Codable s.si.lsb ab)
    (h : Decodes s (codedTuples r s d.tuples.length (contextAfter d.tuples) tuples) d.coder c) :
    forEach (tupleStage r s) (List.range' d.tuples.length tuples.length) (d.progress s) =
      .ok (({ d with tuples := d.tuples ++ tuples, coder := c } : Decoding).progress s, none) := by
  induction tuples generalizing d with
  | nil =>
    rw [← decodes_nil.mp h, List.append_nil]
    rfl
  | cons ab tuples ih =>
    obtain ⟨c₁, hab, h⟩ := decodes_append.mp h
    have htup := decodeTuple_of_decodes (htuples ab (by simp)) hab
    rw [← contextAfter_snoc] at h
    have hrest := ih (d := d.withTuple ab c₁) (fun x hx => htuples x (by simp [hx]))
      (by simpa [Decoding.withTuple] using h)
    rw [List.length_cons, List.range'_succ, forEach, tupleStage_of_ok htup, Stage.next]
    simpa [Decoding.withTuple] using hrest

theorem orderSection_of_ok {vs : List Nat}
    (h : decodeSymbols s ((activeFilters s).map (orderTable r s)) s.coder = .ok vs c) :
    forEach (orderStage r s) (List.range s.NF_TNS) (Progress.start s.coder) =
      .ok ((Decoding.ofOrders vs c).progress s, none) := by
  rw [orderSection_eq, symbolStages_of_ok (orderProgress_records s.coder) h, List.nil_append,
    orderProgress_zip]

theorem coefSection_of_ok (hnf : s.NF_TNS ≤ 2) (hlen : d.orders.length = (activeFilters s).length)
    (hcoefs : d.coefs = []) {vs : List Nat}
    (h : decodeSymbols s ((coefPlaces s d.orders).map (coefTable r)) d.coder = .ok vs c) :
    forEach (coefStage r s) (List.range s.NF_TNS) (d.progress s) =
      .ok ((d.withCoefs vs c).progress s, none) := by
  rw [coefSection_eq hnf hlen hcoefs, symbolStages_of_ok (coefProgress_records d s) h]
  rfl

theorem terminalStage_of_zero {p : Progress} (h : p.coder.low = 0) : terminalStage p = .ok (p, none) := by
  rw [terminalStage, if_neg (not_not.mpr h)]

/-- The order symbols of a frame. -/
def orderSymbols (s : State) (orders : Nat → Nat) : List Nat :=
  (activeFilters s).map fun f => orders f - 1

/-- The coefficient symbols of a frame. -/
def coefSymbols (s : State) (orders : Nat → Nat) (coefs : Nat → Nat → Nat) : List Nat :=
  (coefPlaces s (orderSymbols s orders)).map fun fk => coefs fk.1 fk.2

section
variable {orders : Nat → Nat} {coefs : Nat → Nat → Nat}
  (horders : ∀ f ∈ activeFilters s, 1 ≤ orders f ∧ orders f ≤ 8)
include horders

theorem coefPlaces_orderSymbols :
    coefPlaces s (orderSymbols s orders) =
      (activeFilters s).flatMap fun f => (List.range (orders f)).map fun k => (f, k) := by
  have hzip : (activeFilters s).zip (orderSymbols s orders) =
      (activeFilters s).map fun f => (f, orders f - 1) := by
    rw [orderSymbols, ← List.zip_map', List.map_id']
  rw [coefPlaces, hzip, List.flatMap_map]
  refine List.flatMap_congr fun f hf => ?_
  obtain ⟨hpos, -⟩ := horders f hf
  rw [Nat.sub_add_cancel hpos]

theorem mem_coefPlaces_orderSymbols {f k : Nat} :
    (f, k) ∈ coefPlaces s (orderSymbols s orders) ↔ f ∈ activeFilters s ∧ k < orders f := by
  rw [coefPlaces_orderSymbols horders]
  simp

/-- The TNS codes as the symbols of their places. -/
theorem codedTns_eq (r : Roms) :
    codedTns r s orders coefs =
      ((activeFilters s).map fun f => ⟨(orderTable r s f).1, (orderTable r s f).2, orders f - 1⟩) ++
        (coefPlaces s (orderSymbols s orders)).map fun fk =>
          ⟨(coefTable r fk).1, (coefTable r fk).2, coefs fk.1 fk.2⟩ := by
  rw [coefPlaces_orderSymbols horders, codedTns, List.map_flatMap]
  simp only [List.map_map]
  rfl

/-- A coded frame decodes section by section. -/
theorem decodeSections_of_decodes (hnf : s.NF_TNS ≤ 2) {tuples : List (Int × Int)}
    (hlast : s.si.lastnz.toNat = 2 * tuples.length) (htuples : ∀ ab ∈ tuples, Codable s.si.lsb ab)
    (h : Decodes s (codedTns r s orders coefs ++ codedTuples r s 0 0 tuples) s.coder c)
    (hlow : c.low = 0) :
    ∃ d : Decoding, d.orders = orderSymbols s orders ∧ d.coefs = coefSymbols s orders coefs ∧
      d.tuples = tuples ∧ d.coder = c ∧ decodeSections r s = .ok (d.progress s, none) := by
  rw [codedTns_eq horders] at h
  obtain ⟨c₂, h, htup⟩ := decodes_append.mp h
  obtain ⟨c₁, hord, hcoef⟩ := decodes_append.mp h
  simp only [Decodes, List.map_map] at hord hcoef
  have h₁ := orderSection_of_ok (r := r) (vs := orderSymbols s orders) hord
  have h₂ := coefSection_of_ok (r := r) (d := .ofOrders (orderSymbols s orders) c₁)
    (vs := coefSymbols s orders coefs) hnf (by simp [Decoding.ofOrders, orderSymbols]) rfl hcoef
  let d := (Decoding.ofOrders (orderSymbols s orders) c₁).withCoefs (coefSymbols s orders coefs) c₂
  have h₃ := tupleSection_of_decodes (d := d) htuples htup
  refine ⟨{ d with tuples := tuples, coder := c }, rfl, rfl, rfl, rfl, ?_⟩
  rw [decodeSections, h₁, Stage.next, h₂, Stage.next, hlast, Nat.mul_div_cancel_left _ (by decide),
    List.range_eq_range']
  exact (congrArg (Stage.next · terminalStage) h₃).trans (terminalStage_of_zero hlow)

end

/-- Settles O20: the payload decodes to the codes that it carries, the codes to the frame, and the frame
fits the registers. -/
theorem frameRoundTrip : Obligations.FrameRoundTrip := by
  refine ⟨fun _ => rfl, ?_⟩
  intro r s tuples orders coefs codes enc hcfg hbfi hf hrc hcoder hlast hle htuples horders hok hc
  obtain ⟨-, hNE, -, -, -, hnf⟩ := id hcfg
  obtain ⟨c, hdec, hlow, hcursor⟩ := carries_decodes hok hc
  rw [← hcoder] at hdec
  obtain ⟨d, hdo, hdc, rfl, rfl, hsections⟩ :=
    decodeSections_of_decodes horders (by omega) hlast htuples hdec hlow
  have hfits : d.fits := by
    refine ⟨fun o ho => ?_, fun v hv => ?_, fun ab hab => ?_, by omega⟩
    · rw [hdo] at ho
      obtain ⟨f, hf, rfl⟩ := List.mem_map.mp ho
      obtain ⟨hpos, hmax⟩ := horders f hf
      omega
    · rw [hdc] at hv
      obtain ⟨fk, hfk, rfl⟩ := List.mem_map.mp hv
      have hmem : (⟨(coefTable r fk).1, (coefTable r fk).2, coefs fk.1 fk.2⟩ : Coded) ∈ codes := by
        refine List.mem_append_left _ ?_
        rw [codedTns_eq horders]
        exact List.mem_append_right _ (List.mem_map_of_mem hfk)
      exact (hok _ hmem).2.1
    · obtain ⟨ha, hb, -⟩ := htuples ab hab
      omega
  have hbody := rcDecodeBody_of_complete hbfi hf (by omega) hsections
  have hheld := hfits.heldBy (s := s) (c := d.coder)
    (t := (s.applyProgress (d.progress s) .terminal d.coder.cursor).complete) rfl rfl
  refine ⟨_, rcDecodeWith_of_ok hcfg (.inl hf) hrc hbody, rfl, rfl, hcursor, hheld.tuples, hheld.xq,
    hheld.rest, fun f => (hheld.orders f).trans ?_, fun f hf k hk fk hfk =>
      (hheld.coefs f hf k hk fk hfk).trans ?_⟩
  · rw [hdo, orderSymbols, lookup_zip_map]
    split
    · next hmem =>
      obtain ⟨hpos, -⟩ := horders f hmem
      exact Nat.sub_add_cancel hpos
    · rfl
  · rw [hdo, hdc, coefSymbols, lookup_zip_map]
    by_cases hmem : f ∈ activeFilters s ∧ k < orders f
    · rw [if_pos ((mem_coefPlaces_orderSymbols horders).mpr hmem), if_pos hmem]
      rfl
    · rw [if_neg (mt (mem_coefPlaces_orderSymbols horders).mp hmem), if_neg hmem]
      rfl

end

end Sys2Proof.Machine

/-! ## Quantizer and gain (43_quantizer_gain.md)

The gain search, the two adjustments and what a quantization keeps. -/

namespace Sys2Proof.Machine

-- One proof at a time: in one file with the tests, waiting proofs would each hold a thread.
set_option Elab.async false

open Config (Roms)

/-! ### The log-energy of a quadruple (R245) -/

theorem leadingOne_spec {n P : Nat} (h0 : 0 < P) (hP : P < 2 ^ (n + 1)) :
    2 ^ leadingOne n P ≤ P ∧ P < 2 ^ (leadingOne n P + 1) := by
  induction n generalizing P with
  | zero => unfold leadingOne; omega
  | succ n ih =>
    unfold leadingOne
    split
    · omega
    · next hge =>
      obtain ⟨hle, hlt⟩ := ih (P := P / 2) (by omega) (by rw [pow_succ] at hP; omega)
      rw [pow_succ] at hlt
      rw [pow_succ, pow_succ]
      omega

/-- Scaled to nine bits, an energy is 256 and the table index. -/
theorem scaled_energy_bounds {P e : Nat} (hle : 2 ^ e ≤ P) (hlt : P < 2 ^ (e + 1)) :
    256 ≤ P * 2 ^ 8 / 2 ^ e ∧ P * 2 ^ 8 / 2 ^ e < 512 := by
  have hpos : 0 < 2 ^ e := Nat.two_pow_pos e
  rw [pow_succ] at hlt
  exact ⟨(Nat.le_div_iff_mul_le hpos).mpr (by omega), (Nat.div_lt_iff_lt_mul hpos).mpr (by omega)⟩

/-- Settles O22: the leading 1 of an energy puts its scaled form between 256 and 511. -/
theorem logEnergyInTable : Obligations.LogEnergyInTable := by
  refine ⟨fun r xexp P hpos hle => ?_, fun _ _ => rfl⟩
  obtain ⟨hlo, hhi⟩ := leadingOne_spec (n := 65) hpos (by omega)
  obtain ⟨hge, hlt⟩ := scaled_energy_bounds hlo hhi
  refine ⟨leadingOne 65 P, P * 2 ^ 8 / 2 ^ leadingOne 65 P - 256, hlo, hhi, by omega, by omega, ?_⟩
  rw [logEnergy, if_neg (by omega)]
  rfl

/-! ### The bit estimate (R246, R247) -/

/-- What one quadruple adds to est(g), where `iszero` says that none above it is coded. -/
def quadAdds (g : Int) (iszero : Bool) (le : Int) : Int := estimateFrom g iszero [le]

/-- A quadruple's log-energy at gain value g lies below T_ZERO. -/
def belowZero (g le : Int) : Bool := decide (le + g * 65536 < 2949120)

theorem quadAdds_eq (g : Int) (iszero : Bool) (le : Int) :
    quadAdds g iszero le =
      if le + g * 65536 < 2949120 then if iszero then 0 else 247726
      else if le + g * 65536 < 3945267 then 2 * (le + g * 65536) - 3303014
      else le + g * 65536 + 642253 := by
  simp only [quadAdds, estimateFrom, add_zero, Config.HEADROOM, Config.T_ZERO, Config.C_ZERO,
    Config.T_LIN, Config.C_A, Config.C_B]

theorem estimateFrom_cons (g : Int) (iszero : Bool) (le : Int) (rest : List Int) :
    estimateFrom g iszero (le :: rest) =
      quadAdds g iszero le + estimateFrom g (iszero && belowZero g le) rest := by
  have hbelow : belowZero g le = decide (le + g * 65536 + Config.HEADROOM < Config.T_ZERO) := by
    simp [belowZero, Config.HEADROOM, Config.T_ZERO]
  simp only [quadAdds, estimateFrom, add_zero, hbelow]
  by_cases hzero : le + g * 65536 + Config.HEADROOM < Config.T_ZERO
  · simp [hzero]
  · by_cases hlin : le + g * 65536 + Config.HEADROOM < Config.T_LIN <;> simp [hzero, hlin]

theorem estimateFrom_snoc (g : Int) (iszero : Bool) (les : List Int) (le : Int) :
    estimateFrom g iszero (les ++ [le]) =
      estimateFrom g iszero les + quadAdds g (iszero && les.all (belowZero g)) le := by
  induction les generalizing iszero with
  | nil => simp [estimateFrom, quadAdds]
  | cons x rest ih =>
    rw [List.cons_append, estimateFrom_cons, estimateFrom_cons, ih, List.all_cons, Bool.and_assoc,
      add_assoc]

theorem quadContribution_eq (les : List Int) (g : Int) (n : Nat) :
    quadContribution les g n =
      quadAdds g (decide (∀ m < les.length, n < m → quadLevel les g m < 2949120)) (les.getD n 0) := by
  rw [quadAdds_eq]
  simp only [quadContribution, decide_eq_true_eq]
  rfl

theorem quadContribution_zero (le : Int) (rest : List Int) (g : Int) :
    quadContribution (le :: rest) g 0 = quadAdds g (rest.all (belowZero g)) le := by
  have hall : (∀ m < (le :: rest).length, 0 < m → quadLevel (le :: rest) g m < 2949120) ↔
      rest.all (belowZero g) = true := by
    rw [List.all_eq_true, List.forall_mem_iff_getElem]
    constructor
    · exact fun h m hm => by simpa [quadLevel, belowZero, hm] using h (m + 1) (by simpa using hm) (by omega)
    · intro h m hm hpos
      obtain ⟨m, rfl⟩ := Nat.exists_eq_add_of_le' hpos
      have hm : m < rest.length := by simpa using hm
      simpa [quadLevel, belowZero, hm] using h m hm
  simp only [quadContribution_eq, hall, Bool.decide_eq_true]
  rfl

theorem quadContribution_succ (le : Int) (rest : List Int) (g : Int) (n : Nat) :
    quadContribution (le :: rest) g (n + 1) = quadContribution rest g n := by
  have hall : (∀ m < (le :: rest).length, n + 1 < m → quadLevel (le :: rest) g m < 2949120) ↔
      ∀ m < rest.length, n < m → quadLevel rest g m < 2949120 := by
    constructor
    · exact fun h m hm hn => by simpa [quadLevel] using h (m + 1) (by simpa using hm) (by omega)
    · intro h m hm hn
      obtain ⟨m, rfl⟩ := Nat.exists_eq_add_of_le' (show 1 ≤ m by omega)
      simpa [quadLevel] using h m (by simpa using hm) (by omega)
  simp only [quadContribution_eq, hall]
  rfl

/-- est(g) is the sum of what the quadruples add (R246). -/
theorem estimate_eq_sum (les : List Int) (g : Int) :
    estimate les g = ((List.range les.length).map (quadContribution les g)).sum := by
  induction les with
  | nil => rfl
  | cons le rest ih =>
    have hrest : (List.range rest.length).map (quadContribution (le :: rest) g ∘ Nat.succ) =
        (List.range rest.length).map (quadContribution rest g) :=
      List.map_congr_left fun n _ => quadContribution_succ le rest g n
    rw [estimate, List.reverse_cons, estimateFrom_snoc, ← estimate, ih, List.length_cons,
      List.range_succ_eq_map, List.map_cons, List.map_map, hrest, List.sum_cons,
      quadContribution_zero, Bool.true_and, List.all_reverse, add_comm]

theorem quadLevel_mono (les : List Int) {g h : Int} (hgh : g ≤ h) (n : Nat) :
    quadLevel les g n ≤ quadLevel les h n := by unfold quadLevel; omega

/-- What a quadruple adds does not fall as its level rises: each branch ends below where the next begins. -/
theorem quadAdds_mono {g h : Int} (hgh : g ≤ h) {iszero iszero' : Bool}
    (hz : iszero' = true → iszero = true) (le : Int) : quadAdds g iszero le ≤ quadAdds h iszero' le := by
  rw [quadAdds_eq, quadAdds_eq]
  cases iszero'
  · simp only [Bool.false_eq_true, if_false]
    split_ifs <;> omega
  · simp only [hz rfl, if_true]
    split_ifs <;> omega

theorem quadContribution_mono (les : List Int) {g h : Int} (hgh : g ≤ h) (n : Nat) :
    quadContribution les g n ≤ quadContribution les h n := by
  rw [quadContribution_eq, quadContribution_eq]
  refine quadAdds_mono hgh (fun hz => ?_) _
  rw [decide_eq_true_eq] at hz ⊢
  exact fun m hm hnm => (quadLevel_mono les hgh m).trans_lt (hz m hm hnm)

theorem estimate_mono (les : List Int) {g h : Int} (hgh : g ≤ h) : estimate les g ≤ estimate les h := by
  rw [estimate_eq_sum, estimate_eq_sum]
  exact List.sum_le_sum fun n _ => quadContribution_mono les hgh n

theorem quadEnergies_spec (xs : List Int) :
    (quadEnergies xs).length = xs.length / 4 ∧
      ∀ n < xs.length / 4, ((quadEnergies xs).getD n 0 : Int) =
        xs.getD (4 * n) 0 ^ 2 + xs.getD (4 * n + 1) 0 ^ 2 + xs.getD (4 * n + 2) 0 ^ 2 +
          xs.getD (4 * n + 3) 0 ^ 2 := by
  induction xs using quadEnergies.induct with
  | case1 a b c d rest ih =>
    obtain ⟨hlen, hsum⟩ := ih
    refine ⟨by simp [quadEnergies, hlen]; omega, fun n hn => ?_⟩
    simp only [List.length_cons] at hn
    cases n with
    | zero => simp [quadEnergies]
    | succ n => simpa [quadEnergies, Nat.mul_add] using hsum n (by omega)
  | case2 xs hshort =>
    have hlt : xs.length < 4 := by
      match xs, hshort with
      | [], _ | [_], _ | [_, _], _ | [_, _, _], _ => simp
      | a :: b :: c :: d :: rest, h => exact (h a b c d rest rfl).elim
    rw [quadEnergies.eq_2 xs hshort, Nat.div_eq_of_lt hlt]
    exact ⟨rfl, fun n hn => absurd hn n.not_lt_zero⟩

/-! ### The binary search (R248) -/

/-- Where every candidate below an accepted one is accepted, the search ends at the last accepted one that it
can reach. -/
theorem gainSearch_spec {accept : Nat → Bool}
    (hbelow : ∀ a b, a ≤ b → accept b = true → accept a = true) (n lo : Nat) :
    lo ≤ gainSearch accept (searchSteps n) lo ∧ gainSearch accept (searchSteps n) lo < lo + 2 ^ n ∧
      ∀ cand, lo < cand → cand < lo + 2 ^ n →
        (accept cand = true ↔ cand ≤ gainSearch accept (searchSteps n) lo) := by
  induction n generalizing lo with
  | zero => exact ⟨le_rfl, Nat.lt_succ_self lo, fun cand hlo hhi => by omega⟩
  | succ n ih =>
    rw [searchSteps, gainSearch, pow_succ]
    split
    · next hacc =>
      obtain ⟨hge, hlt, hiff⟩ := ih (lo + 2 ^ n)
      refine ⟨by omega, by omega, fun cand hlo hhi => ?_⟩
      rcases Nat.lt_or_ge (lo + 2 ^ n) cand with hc | hc
      · exact hiff cand hc (by omega)
      · exact iff_of_true (hbelow _ _ hc hacc) (hc.trans hge)
    · next hrej =>
      obtain ⟨hge, hlt, hiff⟩ := ih lo
      refine ⟨hge, by omega, fun cand hlo hhi => ?_⟩
      rcases Nat.lt_or_ge cand (lo + 2 ^ n) with hc | hc
      · exact hiff cand hlo hc
      · exact iff_of_false (fun h => hrej (hbelow _ _ hc h)) (by omega)

theorem searchGain_spec (les : List Int) (ggOff tEff : Int) :
    searchGain les ggOff tEff ≤ 255 ∧
      ∀ cand : Nat, 1 ≤ cand → cand ≤ 255 →
        (estimate les ((cand : Int) + ggOff) ≤ tEff * 128451 ↔ cand ≤ searchGain les ggOff tEff) := by
  have hbelow : ∀ a b : Nat, a ≤ b → acceptable les ggOff tEff b = true →
      acceptable les ggOff tEff a = true := by
    simp only [acceptable, decide_eq_true_eq]
    exact fun a b hab hb => (estimate_mono les (by omega)).trans hb
  obtain ⟨-, hlt, hiff⟩ := gainSearch_spec hbelow 8 0
  refine ⟨?_, fun cand h1 h255 => ?_⟩
  · exact Nat.le_of_lt_succ hlt
  · rw [searchGain, Config.SEARCH_ITERS, ← hiff cand (by omega) (by omega), acceptable, decide_eq_true_eq]
    rfl

/-- Settles O23: the sum makes the estimate monotone, and so every candidate below an accepted one is
accepted. -/
theorem gainSearchFindsLargest : Obligations.GainSearchFindsLargest :=
  ⟨estimate_eq_sum, by norm_num, quadEnergies_spec, fun les _ _ => estimate_mono les, searchGain_spec⟩

section
variable {s t : State} {r : Roms}

/-! ### A coefficient (R242, R243) -/

/-- The rounding of the model is that of the exact product. -/
theorem roundScaled_eq_floor (m : Nat) (sh : Int) :
    (roundScaled m sh : Int) = ⌊(m : ℚ) * (2 : ℚ) ^ sh + 1 / 2⌋ := by
  have hshift : (2 : ℚ) ^ sh = 2 ^ sh.toNat / 2 ^ (-sh).toNat := by
    apply Rat.cast_injective (α := ℝ)
    push_cast
    exact zpow_eq_div_toNat 2 sh
  have hquot : (m : ℚ) * (2 : ℚ) ^ sh + 1 / 2 =
      ((m * 2 ^ sh.toNat * 2 ^ 16 + Config.Q_RND * 2 ^ (-sh).toNat : Nat) : ℚ) /
        ((2 ^ (-sh).toNat * 2 ^ 16 : Nat) : ℚ) := by
    rw [hshift, Config.Q_RND]
    push_cast
    field_simp
    ring
  rw [hquot, Rat.floor_natCast_div_natCast]
  rfl

theorem scaledMagnitude_eq_natCast_mul (r : Roms) (s : State) (x : Int) :
    scaledMagnitude r s x =
      ((x.natAbs * (r.scale s.gainValue).1 : Nat) : ℚ) * (2 : ℚ) ^ scaleShift r s := by
  rw [scaledMagnitude, scaleShift, Nat.cast_mul]

/-- Settles O26: the two powers of two add up, and the model's quotient is the floor of the rational. -/
theorem coefficientRoundsHalfUp : Obligations.CoefficientRoundsHalfUp := by
  intro r s x
  constructor
  · have hexp : (r.scale s.gainValue).2 + s.X_EXP - 46 =
        (s.X_EXP - 31) + ((r.scale s.gainValue).2 - 15) := by ring
    have hpos : (0 : ℚ) < 2 ^ (s.X_EXP - 31) := zpow_pos two_pos _
    rw [scaledMagnitude, hexp, zpow_add₀ two_ne_zero, abs_mul, abs_of_pos hpos, Nat.cast_natAbs, Int.cast_abs]
    ring
  · rw [scaledMagnitude_eq_natCast_mul, ← roundScaled_eq_floor]
    simp [quantCoef, withSign, quantMagnitude, Config.QMAX, Config.LEV_LIMIT]

/-! ### What the encoder commands read (R357, 10_state.md R57) -/

theorem encodeConfigOk_of_encodeConfigured (h : encodeConfigured s) : encodeConfigOk s = true := by
  obtain ⟨hlo, hhi, hmod, hmin, hmax, htarget⟩ := h
  exact encodeConfigOk_iff.mpr ⟨⟨hlo, hhi, hmod⟩, ⟨hmin, hmax⟩, htarget⟩

theorem xElem_written {i : Nat} (h : ∀ b < 4, (s.mem.read (X_BASE + 4 * i + b)).isSome = true) :
    xElem s i = .ok (xValue s i) := by
  obtain ⟨b0, h0⟩ := Option.isSome_iff_exists.mp (h 0 (by decide))
  obtain ⟨b1, h1⟩ := Option.isSome_iff_exists.mp (h 1 (by decide))
  obtain ⟨b2, h2⟩ := Option.isSome_iff_exists.mp (h 2 (by decide))
  obtain ⟨b3, h3⟩ := Option.isSome_iff_exists.mp (h 3 (by decide))
  rw [Nat.add_zero] at h0
  simp only [xElem, xValue, h0, h1, h2, h3, Option.getD_some]

theorem xElems_written {i n : Nat}
    (h : ∀ j < 4 * (i + n), (s.mem.read (X_BASE + j)).isSome = true) :
    xElems s i n = .ok ((List.range' i n).map (xValue s)) := by
  induction n generalizing i with
  | zero => rfl
  | succ n ih =>
    have hx : xElem s i = .ok (xValue s i) := xElem_written fun b hb => by
      rw [Nat.add_assoc]
      exact h _ (by omega)
    have hrest := ih (i := i + 1) fun j hj => h j (by omega)
    simp only [xElems, hx, hrest, List.range'_succ, List.map_cons]

theorem xElems_spectrum (h : spectrumWritten s) : xElems s 0 s.NE = .ok (spectrum s) := by
  rw [spectrum, List.range_eq_range']
  exact xElems_written fun j hj => h j (by omega)

/-! ### GAIN_EST (R244, R248, R250) -/

theorem newOffset_bounds (s : State) : -320 ≤ newOffset s ∧ newOffset s ≤ 320 := by
  have h320 : smoothBound = 320 := by decide
  simp only [newOffset, clamp, h320]
  omega

/-- NB_OFF fits its register. -/
theorem newOffset_toInt (s : State) : (BitVec.ofInt 16 (newOffset s)).toInt = newOffset s := by
  obtain ⟨hlo, hhi⟩ := newOffset_bounds s
  exact (BitVec.toInt_ofInt ..).trans (Int.bmod_eq_of_le (by omega) (by omega))

/-- T_EFF fits its register. -/
theorem effectiveTarget_toInt (s : State) :
    (BitVec.ofInt 32 (effectiveTarget s)).toInt = effectiveTarget s := by
  obtain ⟨hlo, hhi⟩ := newOffset_bounds s
  have htarget : s.TARGET < 2 ^ 16 := s.cfg.target.isLt
  have heff : effectiveTarget s = s.TARGET + newOffset s / 8 := rfl
  exact (BitVec.toInt_ofInt ..).trans (Int.bmod_eq_of_le (by omega) (by omega))

/-- The all-zero test of R250, of the model and of the statement. -/
theorem all_zero_eq (xs : List Int) :
    (xs.all fun x => decide (x = 0)) = decide (∀ x ∈ xs, x = 0) := by simp [List.all_eq]

theorem rawGain_le (r : Roms) (s : State) (xs : List Int) : rawGain r s xs ≤ 255 := by
  unfold rawGain
  split
  · exact Nat.zero_le _
  · exact (searchGain_spec _ _ _).1

/-- GEST_RAW fits its register. -/
theorem rawGain_toNat (r : Roms) (s : State) (xs : List Int) :
    (BitVec.ofNat 8 (rawGain r s xs)).toNat = rawGain r s xs :=
  toNat_ofNat_of_lt (Nat.lt_succ_of_le (rawGain_le r s xs))

/-- GG_IND of an estimate fits its register. -/
theorem flooredGain_toNat (r : Roms) (s : State) (xs : List Int) :
    (BitVec.ofNat 8 (max (rawGain r s xs) s.GG_FLOOR)).toNat = max (rawGain r s xs) s.GG_FLOOR :=
  toNat_ofNat_of_lt (max_lt (Nat.lt_succ_of_le (rawGain_le r s xs)) s.cfg.ggFloor.isLt)

theorem exec_gainEst (hcfg : encodeConfigured s) (hq : s.fstat.qCount = 0) (hx : spectrumWritten s) :
    exec .gainEst s =
      .next ((s.applyEstimate (rawGain blockRoms s (spectrum s))
        ((spectrum s).all fun x => decide (x = 0))).loadScale blockRoms).complete := by
  refine exec_ok (firstError_eq_none.mpr ?_) ?_
  · simp [checksOf, encodeConfigOk_of_encodeConfigured hcfg, hq]
  · simp only [bodyOf, gainEstBody, xElems_spectrum hx]

/-- Settles O25: the body's writes are those of the statement, and each value fits its register. -/
theorem gainEstResult : Obligations.GainEstResult := by
  intro s hcfg hq hx prev spent raw nbOff tEff found gg
  have hfound : rawGain blockRoms s (spectrum s) = found := by
    unfold rawGain
    simp only [all_zero_eq, decide_eq_true_eq]
    rfl
  have hgg : max (rawGain blockRoms s (spectrum s)) s.GG_FLOOR = gg := congrArg (max · _) hfound
  have hind := flooredGain_toNat blockRoms s (spectrum s)
  have hscale := congrArg (fun n : Nat => (n : Int) + s.GG_OFF) (hind.trans hgg)
  refine ⟨_, exec_gainEst hcfg hq hx, ?_⟩
  rw [all_zero_eq]
  exact ⟨rfl, newOffset_toInt s, effectiveTarget_toInt s, (rawGain_toNat ..).trans hfound,
    hind.trans hgg, congrArg (fun g => BitVec.ofNat 16 (blockRoms.scale g).1) hscale,
    congrArg (fun g => BitVec.ofInt 8 (blockRoms.scale g).2) hscale⟩

/-! ### A larger target (R249) -/

/-- A candidate that fits a target fits every larger one. -/
theorem searchGain_mono (les : List Int) (ggOff : Int) {t t' : Int} (h : t ≤ t') :
    searchGain les ggOff t ≤ searchGain les ggOff t' := by
  obtain ⟨hle, hiff⟩ := searchGain_spec les ggOff t
  obtain ⟨-, hiff'⟩ := searchGain_spec les ggOff t'
  rcases Nat.eq_zero_or_pos (searchGain les ggOff t) with h0 | hpos
  · rw [h0]; exact Nat.zero_le _
  · have hfits := (hiff _ hpos hle).mpr le_rfl
    exact (hiff' _ hpos hle).mp (by omega)

/-- The raw gain index does not fall as the target rises, the offset of R244 not depending on it. -/
theorem rawGain_mono (r : Roms) (s : State) {target : BitVec 16} (h : s.cfg.target.toNat ≤ target.toNat)
    (xs : List Int) :
    rawGain r s xs ≤ rawGain r { s with cfg := { s.cfg with target := target } } xs := by
  unfold rawGain
  split
  · exact le_rfl
  · exact searchGain_mono _ _ (add_le_add_left (Int.ofNat_le.mpr h) _)

/-- Settles O24: the effective target, the search over it and the floored index rise with the target. -/
theorem gainMonotoneInTarget : Obligations.GainMonotoneInTarget := by
  intro s target s' hle hcfg' hq hx
  have hcfg : encodeConfigured s := by
    obtain ⟨hlo, hhi, hmod, hmin, hmax, htop⟩ := hcfg'
    exact ⟨hlo, hhi, hmod, hmin, hmax, hle.trans htop⟩
  have heff : effectiveTarget s ≤ effectiveTarget s' := add_le_add_left (Int.ofNat_le.mpr hle) _
  have hraw : rawGain blockRoms s (spectrum s) ≤ rawGain blockRoms s' (spectrum s') :=
    rawGain_mono blockRoms s hle (spectrum s)
  refine ⟨_, _, exec_gainEst hcfg hq hx, exec_gainEst hcfg' hq hx, ?_, ?_, ?_⟩
  · exact (effectiveTarget_toInt s).trans_le (heff.trans (effectiveTarget_toInt s').ge)
  · exact (rawGain_toNat ..).trans_le (hraw.trans (rawGain_toNat ..).ge)
  · exact (flooredGain_toNat ..).trans_le
      ((max_le_max_right s.GG_FLOOR hraw).trans (flooredGain_toNat ..).ge)

end

section
variable {s t u : State}

/-! ### GAIN_ADJ (R270) -/

section
variable {nb T Δ floor gg : Nat}

theorem firstAdjustment_over (hT : T < nb) (hgg : floor < gg) :
    firstAdjustment nb T Δ floor gg = .moveTo (gg - 1) := by
  rw [firstAdjustment, if_pos hT, if_pos hgg]

theorem firstAdjustment_floor (hT : T < nb) (hgg : gg ≤ floor) :
    firstAdjustment nb T Δ floor gg = .flag := by
  rw [firstAdjustment, if_pos hT, if_neg (not_lt.mpr hgg)]

theorem firstAdjustment_under (hT : nb ≤ T) (hΔ : (nb : Int) < (T : Int) - Δ) (hgg : gg < 255) :
    firstAdjustment nb T Δ floor gg =
      .moveTo (if (nb : Int) < (T : Int) - 2 * Δ ∧ gg ≤ 253 then gg + 2 else gg + 1) := by
  rw [firstAdjustment, if_neg (not_lt.mpr hT), if_pos ⟨hΔ, hgg⟩]
  split <;> rfl

theorem firstAdjustment_within (hT : nb ≤ T) (h : (T : Int) - Δ ≤ nb ∨ gg = 255) :
    firstAdjustment nb T Δ floor gg = .keep := by
  rw [firstAdjustment, if_neg (not_lt.mpr hT), if_neg (by omega)]

end

/-- What the first GAIN_ADJ of a frame leaves for its adjustment. -/
def State.adjusted (s : State) : Adjustment → State
  | .moveTo gg =>
    { s with
      cfg := { s.cfg with ggInd := BitVec.ofNat 8 gg }
      fstat := { s.fstat with adjCount := 1, requant := true } }
  | .flag => { s with fstat := { s.fstat with adjCount := 1, budgetFlag := true } }
  | .keep => { s with fstat := { s.fstat with adjCount := 1 } }

/-- The adjustment of the state's operands. -/
def State.adjustment (s : State) : Adjustment :=
  firstAdjustment s.cfg.nbitsReal.toNat s.TARGET s.cfg.delta.toNat s.GG_FLOOR s.GG_IND

theorem gainAdjBody_first (h : s.fstat.adjCount = 0) : gainAdjBody s = s.adjusted s.adjustment := by
  simp only [gainAdjBody, h, if_true]
  rw [← State.adjustment]
  cases s.adjustment <;> rfl

theorem gainAdjBody_second (h : s.fstat.adjCount = 1) :
    gainAdjBody s =
      { s with
        fstat :=
          { s.fstat with
            adjCount := 2, budgetFlag := decide (s.TARGET < s.cfg.nbitsReal.toNat) } } := by
  simp only [gainAdjBody, h]
  rfl

theorem exec_gainAdj (hcfg : encodeConfigured s)
    (h : s.fstat.adjCount = 0 ∧ s.fstat.qCount = 1 ∨
      s.fstat.adjCount = 1 ∧ s.fstat.requant = true ∧ s.fstat.qCount = 2) :
    exec .gainAdj s = .next (gainAdjBody s).complete := by
  refine exec_ok (firstError_eq_none.mpr ?_) rfl
  rcases h with ⟨hadj, hq⟩ | ⟨hadj, hreq, hq⟩
  · simp [checksOf, encodeConfigOk_of_encodeConfigured hcfg, gainAdjLegal, gainAdjPastLimit, hadj, hq]
  · simp [checksOf, encodeConfigOk_of_encodeConfigured hcfg, gainAdjLegal, gainAdjPastLimit, hadj, hreq,
      hq]

/-- Settles O29: the outcome of the first pass is its adjustment's, and the second only flags. -/
theorem gainAdjResult : Obligations.GainAdjResult := by
  intro s hcfg nb T Δ gg moved
  refine ⟨fun hadj hq => ⟨_, exec_gainAdj hcfg (.inl ⟨hadj, hq⟩), ?_⟩, fun hadj hreq hq =>
    ⟨_, exec_gainAdj hcfg (.inr ⟨hadj, hreq, hq⟩), ?_⟩⟩
  · rw [gainAdjBody_first hadj, State.adjustment]
    refine ⟨fun hT hgg => ?_, fun hT hgg => ?_, fun hT hΔ hgg => ?_, fun hT h => ?_⟩
    · rw [firstAdjustment_over (Int.ofNat_lt.mp hT) hgg]
      rfl
    · rw [firstAdjustment_floor (Int.ofNat_lt.mp hT) hgg]
      rfl
    · rw [firstAdjustment_under (Int.ofNat_le.mp hT) hΔ hgg]
      rfl
    · rw [firstAdjustment_within (Int.ofNat_le.mp hT) h]
      rfl
  · rw [gainAdjBody_second hadj, show decide (T < nb) = decide (s.TARGET < s.cfg.nbitsReal.toNat) from
      decide_eq_decide.mpr Int.ofNat_lt]
    rfl

/-- Every outcome of the first adjustment: the index moves within its register, or the overrun is flagged,
or the count is within the target. -/
theorem firstAdjustment_cases (nb T Δ floor gg : Nat) (hgg : gg < 256) :
    (∃ gg', gg' ≠ gg ∧ gg' < 256 ∧ firstAdjustment nb T Δ floor gg = .moveTo gg') ∨
      firstAdjustment nb T Δ floor gg = .flag ∨
      (nb ≤ T ∧ firstAdjustment nb T Δ floor gg = .keep) := by
  rcases Nat.lt_or_ge T nb with hT | hT
  · rcases Nat.lt_or_ge floor gg with hfloor | hfloor
    · exact .inl ⟨gg - 1, by omega, by omega, firstAdjustment_over hT hfloor⟩
    · exact .inr (.inl (firstAdjustment_floor hT hfloor))
  · by_cases hunder : (nb : Int) < (T : Int) - Δ ∧ gg < 255
    · refine .inl ⟨_, ?_, ?_, firstAdjustment_under hT hunder.1 hunder.2⟩ <;> split <;> omega
    · exact .inr (.inr ⟨hT, firstAdjustment_within hT (by omega)⟩)

/-- Settles O30: an adjustment that moves nothing flags an overrun or sees none. -/
theorem budgetNeverSilent : Obligations.BudgetNeverSilent := by
  intro s hcfg hcoh hlegal
  refine ⟨_, exec_gainAdj hcfg hlegal, ?_⟩
  rcases hlegal with ⟨hadj, -⟩ | ⟨hadj, hreq, -⟩
  · have hnr : s.fstat.requant = false :=
      Bool.eq_false_iff.mpr fun hr => hcoh.passes.adjusted hr hadj
    rw [gainAdjBody_first hadj]
    rcases firstAdjustment_cases s.cfg.nbitsReal.toNat s.TARGET s.cfg.delta.toNat s.GG_FLOOR s.GG_IND
      s.cfg.ggInd.isLt with ⟨gg, hne, hlt, h⟩ | h | ⟨hle, h⟩ <;> rw [State.adjustment, h]
    · refine ⟨fun hd => ?_, fun _ _ heq => hne ?_⟩
      · rcases hd with (hd : true = false) | (hd : 1#2 = 2) <;> exact absurd hd (by decide)
      · exact (toNat_ofNat_of_lt hlt).symm.trans (congrArg BitVec.toNat heq)
    · exact ⟨fun _ => .inr rfl, fun hr => absurd (hnr.symm.trans hr) (by decide)⟩
    · exact ⟨fun _ => .inl hle, fun hr => absurd (hnr.symm.trans hr) (by decide)⟩
  · rw [gainAdjBody_second hadj]
    refine ⟨fun _ => ?_, fun _ (h1 : 2#2 = 1) => absurd h1 (by decide)⟩
    exact (Nat.lt_or_ge s.TARGET s.cfg.nbitsReal.toNat).symm.imp id decide_eq_true

/-! ### The pass counters (R272) -/

/-- Two states with the same pass counters. -/
structure SamePasses (s t : State) : Prop where
  qCount : t.fstat.qCount = s.fstat.qCount
  adjCount : t.fstat.adjCount = s.fstat.adjCount

theorem SamePasses.trans (h : SamePasses s t) (h' : SamePasses t u) : SamePasses s u :=
  ⟨h'.qCount.trans h.qCount, h'.adjCount.trans h.adjCount⟩

theorem pvqDeenumBody_samePasses (s : State) : SamePasses s (pvqDeenumBody s) := by
  unfold pvqDeenumBody
  dsimp only
  split <;> exact ⟨rfl, rfl⟩

theorem pvqShapeBody_samePasses (s : State) : SamePasses s (pvqShapeBody s) := by
  unfold pvqShapeBody
  split
  · exact ⟨rfl, rfl⟩
  · dsimp only
    split <;> exact ⟨rfl, rfl⟩

theorem siUnpackBody_samePasses (hcfg : decodeConfigOk s = true) (h : siUnpackBody s = .ok u) :
    SamePasses s u := by
  obtain ⟨si, -, v, rfl | rfl | rfl, rfl⟩ := siUnpackBody_cases hcfg h <;> exact ⟨rfl, rfl⟩

theorem prime_samePasses (h : prime s = .ok u) : SamePasses s u := by
  unfold prime at h
  split at h
  · cases h; exact ⟨rfl, rfl⟩
  · split at h
    · dsimp only at h
      split at h <;> cases h <;> exact ⟨rfl, rfl⟩
    · cases h
    · cases h
    · cases h

theorem rcInitBody_samePasses (h : rcInitBody s = .ok u) : SamePasses s u := by
  unfold rcInitBody at h
  dsimp only at h
  split at h
  · cases h; exact ⟨rfl, rfl⟩
  · exact .trans (t := s.clearContext) ⟨rfl, rfl⟩ (prime_samePasses h)

theorem decsymBody_samePasses {cum : Nat → Nat} {n : Nat} (h : decsymBody cum n s = .ok u) :
    SamePasses s u := by
  unfold decsymBody at h
  split at h <;> cases h <;> exact ⟨rfl, rfl⟩

theorem rcDecodeBody_samePasses {r : Roms} (h : rcDecodeBody r s = .ok u) : SamePasses s u := by
  rcases rcDecodeBody_cases h with ⟨-, rfl⟩ | ⟨-, rfl⟩ | ⟨-, -, ⟨p, e, -, rfl⟩ | ⟨p, -, rfl⟩⟩ <;>
    exact ⟨rfl, rfl⟩

theorem resDecodeBody_samePasses (h : resDecodeBody s = .ok u) : SamePasses s u := by
  obtain ⟨vs, n, v, rfl | rfl, rfl⟩ := resDecodeBody_cases h <;> exact ⟨rfl, rfl⟩

theorem decodeFrameBody_samePasses {r : Roms} (hcfg : decodeConfigOk s = true)
    (h : decodeFrameBody r s = .ok u) : SamePasses s u := by
  obtain ⟨s1, h1, h⟩ := thenBody_ok h
  obtain ⟨s2, h2, h⟩ := thenBody_ok h
  obtain ⟨s3, h3, h⟩ := thenBody_ok h
  obtain ⟨s4, h4, h⟩ := thenBody_ok h
  cases h
  exact (siUnpackBody_samePasses hcfg h1).trans <| (rcInitBody_samePasses h2).trans <|
    (rcDecodeBody_samePasses h3).trans <| (resDecodeBody_samePasses h4).trans <|
      pvqShapeBody_samePasses s4

/-- Both pass counters are at most two. -/
def PassesBounded (s : State) : Prop := s.fstat.qCount.toNat ≤ 2 ∧ s.fstat.adjCount.toNat ≤ 2

theorem SamePasses.bounded (h : SamePasses s t) (hs : PassesBounded s) : PassesBounded t := by
  unfold PassesBounded
  rwa [h.qCount, h.adjCount]

/-- A counter that a legal pass finds at 0 or 1 stays within two. -/
theorem toNat_succ_le_two {n : BitVec 2} (h : n = 0 ∨ n = 1) : (n + 1).toNat ≤ 2 := by
  rcases h with rfl | rfl <;> decide

/-- No command whose checks pass takes a pass counter beyond two. -/
theorem bodyOf_passesBounded {i : Instr} (hs : PassesBounded s)
    (hc : firstError (checksOf s i) = none) (hu : bodyOf i s = .ok u) : PassesBounded u := by
  have hconfig : ∀ {legal e f}, firstError [(!decodeConfigOk s, e), (legal, f)] = none →
      decodeConfigOk s = true := fun h => by
    simpa using firstError_eq_none.mp h (_, _) List.mem_cons_self
  cases i with
  | nop => cases hu; exact hs
  | frameStart => cases hu; exact ⟨Nat.zero_le _, Nat.zero_le _⟩
  | pvqDeenum => cases hu; exact (pvqDeenumBody_samePasses s).bounded hs
  | pvqShape => cases hu; exact (pvqShapeBody_samePasses s).bounded hs
  | rcInit => exact (rcInitBody_samePasses hu).bounded hs
  | rcDecsym cls id => exact (decsymBody_samePasses hu).bounded hs
  | rcDecbit => exact (decsymBody_samePasses hu).bounded hs
  | rcDecode => exact (rcDecodeBody_samePasses hu).bounded hs
  | gainEst =>
    obtain ⟨raw, zero, rfl⟩ := gainEstBody_cases hu
    exact hs
  | quantize =>
    obtain ⟨c, rfl⟩ := quantizeBody_cases hu
    have hlegal : quantizeLegal s = true := pass_legal hc
    simp only [quantizeLegal, Bool.or_eq_true, Bool.and_eq_true, decide_eq_true_eq] at hlegal
    exact ⟨toNat_succ_le_two (hlegal.imp id fun h => h.1.1), hs.2⟩
  | gainAdj =>
    cases hu
    obtain ⟨cfg, requant, budget, -, he⟩ := gainAdjBody_cases s
    have hlegal : gainAdjLegal s = true := pass_legal hc
    simp only [gainAdjLegal, Bool.or_eq_true, Bool.and_eq_true, decide_eq_true_eq] at hlegal
    rw [he]
    exact ⟨hs.1, toNat_succ_le_two (hlegal.imp And.left fun h => h.1.1)⟩
  | resEncode =>
    obtain ⟨bits, n, rfl⟩ := resEncodeBody_cases hu
    exact hs
  | resDecode => exact (resDecodeBody_samePasses hu).bounded hs
  | siUnpack => exact (siUnpackBody_samePasses (hconfig hc) hu).bounded hs
  | decodeFrame => exact (decodeFrameBody_samePasses (hconfig hc) hu).bounded hs

theorem exec_passesBounded {i : Instr} (hs : PassesBounded s) (h : exec i s = .next t) :
    PassesBounded t := by
  rw [exec_eq_runCommand] at h
  rcases runCommand_next h with ⟨e, -, rfl⟩ | ⟨hc, u, hu, rfl⟩
  · exact hs
  · have hb : PassesBounded u := bodyOf_passesBounded hs hc hu
    exact hb

/-- A command whose first failing check is `e` ends with that error. -/
theorem exec_error {i : Instr} {e : CmdError} (h : firstError (checksOf s i) = some e) :
    ∃ t, exec i s = .next t ∧ CompletedWithError s e t :=
  ⟨_, (exec_eq_runCommand i s).trans (runCommand_error h), rfl⟩

/-- Settles O31: the limit is the failing check of a third pass, and no body takes a counter beyond two. -/
theorem passBound : Obligations.PassBound := by
  refine ⟨fun s hcfg => ⟨fun hq => exec_error ?_, fun hadj => exec_error ?_⟩,
    fun i s t h hq hadj => exec_passesBounded ⟨hq, hadj⟩ h⟩
  · simp [checksOf, firstError, encodeConfigOk_of_encodeConfigured hcfg, quantizePastLimit, hq]
  · simp [checksOf, firstError, encodeConfigOk_of_encodeConfigured hcfg, gainAdjPastLimit, hadj]

end

/-! ### Escape levels and track magnitudes (R256, R257) -/

theorem tupleLevel_le_iff {a b l : Nat} : tupleLevel a b ≤ l ↔ max a b < 2 ^ (l + 2) := by
  refine ⟨fun h => ?_, escapeLevel_le⟩
  have hdiv : max a b / 2 ^ tupleLevel a b < 4 := div_escapeLevel_lt le_rfl
  have hlt := (Nat.div_lt_iff_lt_mul (Nat.two_pow_pos _)).mp hdiv
  calc max a b < 4 * 2 ^ tupleLevel a b := hlt
    _ ≤ 4 * 2 ^ l := Nat.mul_le_mul_left 4 (Nat.pow_le_pow_right two_pos h)
    _ = 2 ^ (l + 2) := by ring

theorem tupleLevel_least (a b : Nat) :
    max a b / 2 ^ tupleLevel a b < 4 ∧ ∀ l < tupleLevel a b, 4 ≤ max a b / 2 ^ l := by
  refine ⟨div_escapeLevel_lt le_rfl, fun l hl => ?_⟩
  have hge : 2 ^ (l + 2) ≤ max a b := not_lt.mp (mt tupleLevel_le_iff.mpr (not_le.mpr hl))
  rw [pow_add, mul_comm] at hge
  exact (Nat.le_div_iff_mul_le (Nat.two_pow_pos l)).mpr hge

/-- Bit 0 does not count towards the escape level. -/
theorem tupleLevel_clear (a b : Nat) : tupleLevel (a / 2 * 2) (b / 2 * 2) = tupleLevel a b := by
  refine eq_of_forall_ge_iff fun l => ?_
  rw [tupleLevel_le_iff, tupleLevel_le_iff, pow_succ]
  omega

/-- Whether a track codes in LSB mode. -/
def Track.lsbMode (tr : Track) : Bool := decide (tr = .lsb)

theorem trackMagnitude_eq (tr : Track) (a b m : Nat) :
    trackMagnitude tr (tupleLevel a b) m =
      if tr.lsbMode = true ∧ 4 ≤ max a b then m / 2 * 2 else m := by
  have hlev : tupleLevel a b = 0 ↔ ¬ 4 ≤ max a b := by
    rw [← Nat.le_zero, tupleLevel_le_iff, not_le]
    exact Iff.rfl
  cases tr with
  | full => simp [trackMagnitude, Track.lsbMode]
  | lsb => simp only [trackMagnitude, hlev, ite_not, Track.lsbMode, decide_true, true_and]

theorem rawPairBits_eq (tr : Track) (l : Nat) :
    rawPairBits tr l = if tr.lsbMode = true ∧ l = 0 then 0 else 2 := by
  cases tr <;> simp [rawPairBits, Track.lsbMode]

section
variable (r : Roms) (s : State) (tr : Track) (vs : List Int)

/-! ### A track's tuples (R255, R258) -/

/-- The magnitudes of tuple j of some values. -/
def tupleAt (j : Nat) : Nat × Nat := ((vs.getD (2 * j) 0).natAbs, (vs.getD (2 * j + 1) 0).natAbs)

/-- What a track's pass over some values finds at tuple j. -/
def tupleRecord (j : Nat) : TupleCost where
  a := codedMagnitude tr.lsbMode vs (2 * j)
  b := codedMagnitude tr.lsbMode vs (2 * j + 1)
  cost := tupleCost r s tr.lsbMode vs j
  raw := tupleRaw tr.lsbMode vs j
  cum := tuplesCost r s tr.lsbMode vs (j + 1)

theorem tuplesOf_eq : tuplesOf vs = (List.range (vs.length / 2)).map (tupleAt vs) := by
  induction vs using tuplesOf.induct with
  | case1 a b rest ih =>
    have hlen : (a :: b :: rest).length / 2 = rest.length / 2 + 1 := Nat.add_div_right _ two_pos
    rw [tuplesOf, ih, hlen, List.range_succ_eq_map, List.map_cons, List.map_map]
    rfl
  | case2 vs hshort =>
    have hlt : vs.length < 2 := by
      match vs, hshort with
      | [], _ | [_], _ => simp
      | a :: b :: rest, h => exact (h a b rest rfl).elim
    rw [tuplesOf.eq_2 vs hshort, Nat.div_eq_of_lt hlt]
    rfl

theorem codedMagnitude_tuple (j : Nat) :
    codedMagnitude tr.lsbMode vs (2 * j) =
        trackMagnitude tr (tupleLevel (tupleAt vs j).1 (tupleAt vs j).2) (tupleAt vs j).1 ∧
      codedMagnitude tr.lsbMode vs (2 * j + 1) =
        trackMagnitude tr (tupleLevel (tupleAt vs j).1 (tupleAt vs j).2) (tupleAt vs j).2 := by
  rw [trackMagnitude_eq, trackMagnitude_eq]
  simp only [codedMagnitude, tupleAt, show 2 * j / 2 * 2 = 2 * j by omega,
    show (2 * j + 1) / 2 * 2 = 2 * j by omega]
  exact ⟨rfl, rfl⟩

theorem tupleLevel_codedMagnitude (j : Nat) :
    tupleLevel (codedMagnitude tr.lsbMode vs (2 * j)) (codedMagnitude tr.lsbMode vs (2 * j + 1)) =
      tupleLevel (tupleAt vs j).1 (tupleAt vs j).2 := by
  obtain ⟨ha, hb⟩ := codedMagnitude_tuple tr vs j
  rw [ha, hb, trackMagnitude_eq, trackMagnitude_eq]
  split
  · exact tupleLevel_clear _ _
  · rfl

theorem bit_ne_zero (n : Nat) : bit (decide (n ≠ 0)) = if n = 0 then 0 else 1 := by
  by_cases h : n = 0 <;> simp [bit, h]

theorem tuplesCost_succ (lsb : Bool) (n : Nat) :
    tuplesCost r s lsb vs (n + 1) = tuplesCost r s lsb vs n + tupleCost r s lsb vs n := by
  simp [tuplesCost, List.range_succ]

/-- One tuple of the forward pass is the tuple's record. -/
theorem costTuple_eq (j : Nat) :
    costTuple r s tr j (trackContext tr.lsbMode vs j) (tuplesCost r s tr.lsbMode vs j) (tupleAt vs j) =
      tupleRecord r s tr vs j := by
  obtain ⟨ha, hb⟩ := codedMagnitude_tuple tr vs j
  have hlev := tupleLevel_codedMagnitude tr vs j
  have hcost : tupleBits r tr (contextIndex s (trackContext tr.lsbMode vs j) j)
      (tupleLevel (tupleAt vs j).1 (tupleAt vs j).2) (codedMagnitude tr.lsbMode vs (2 * j))
      (codedMagnitude tr.lsbMode vs (2 * j + 1)) = tupleCost r s tr.lsbMode vs j := by
    have hraw (l : Nat) : 2048 * rawPairBits tr l =
        if tr.lsbMode = true ∧ l = 0 then 0 else 2 * 2048 := by
      rw [rawPairBits_eq, mul_ite, mul_zero]
    simp only [tupleBits, tupleCost, hlev, hraw, bit_ne_zero, contextIndex_eq]
    rfl
  have hraw : tupleRawBits tr (tupleLevel (tupleAt vs j).1 (tupleAt vs j).2)
      (codedMagnitude tr.lsbMode vs (2 * j)) (codedMagnitude tr.lsbMode vs (2 * j + 1)) =
        tupleRaw tr.lsbMode vs j := by
    simp only [tupleRawBits, tupleRaw, hlev, funext (rawPairBits_eq tr), bit_ne_zero]
  simp only [costTuple, ← ha, ← hb, hcost, hraw, tupleRecord, tuplesCost_succ]

theorem runTrack_range' (j n : Nat) :
    runTrack r s tr j (trackContext tr.lsbMode vs j) (tuplesCost r s tr.lsbMode vs j)
        ((List.range' j n).map (tupleAt vs)) =
      (List.range' j n).map (tupleRecord r s tr vs) := by
  induction n generalizing j with
  | zero => rfl
  | succ n ih =>
    rw [List.range'_succ, List.map_cons, runTrack, costTuple_eq]
    exact congrArg _ (ih (j + 1))

/-- The forward pass of a track over some values. -/
theorem runTrack_tuplesOf :
    runTrack r s tr 0 0 0 (tuplesOf vs) = (List.range (vs.length / 2)).map (tupleRecord r s tr vs) := by
  rw [tuplesOf_eq, List.range_eq_range']
  exact runTrack_range' r s tr vs 0 _

theorem cumAt_runTrack {j : Nat} (hj : j < vs.length / 2) :
    cumAt (runTrack r s tr 0 0 0 (tuplesOf vs)) j = tuplesCost r s tr.lsbMode vs (j + 1) := by
  simp [runTrack_tuplesOf, cumAt, hj, tupleRecord]

end

/-! ### What the costs depend on -/

section
variable {lsb : Bool} {vs ws : List Int} {n : Nat}
  (h : ∀ i < 2 * n, codedMagnitude lsb vs i = codedMagnitude lsb ws i)
include h

theorem trackContext_congr {j : Nat} (hj : j ≤ n) : trackContext lsb vs j = trackContext lsb ws j := by
  induction j with
  | zero => rfl
  | succ j ih => rw [trackContext, trackContext, ih (by omega), h _ (by omega), h _ (by omega)]

theorem tupleRaw_congr {j : Nat} (hj : j < n) : tupleRaw lsb vs j = tupleRaw lsb ws j := by
  simp only [tupleRaw, h (2 * j) (by omega), h (2 * j + 1) (by omega)]

/-- The first tuples cost what their coded magnitudes do. -/
theorem tuplesCost_congr (r : Roms) (s : State) : tuplesCost r s lsb vs n = tuplesCost r s lsb ws n := by
  refine congrArg List.sum (List.map_congr_left fun j hj => ?_)
  have hj : j < n := List.mem_range.mp hj
  simp only [tupleCost, trackContext_congr h hj.le, h (2 * j) (by omega), h (2 * j + 1) (by omega)]

end

/-! ### The values kept (R259, R260) -/

/-- The values that a quantization keeps of its first k tuples. -/
def keptPrefix (lsb : Bool) (vs : List Int) (k : Nat) : List Int :=
  (List.range (2 * k)).map fun i => (vs.getD i 0).sign * codedMagnitude lsb vs i

section
variable {lsb : Bool} {vs : List Int} {k i : Nat}

theorem keptPrefix_getD_of_lt (h : i < 2 * k) :
    (keptPrefix lsb vs k).getD i 0 = (vs.getD i 0).sign * codedMagnitude lsb vs i := by
  simp [keptPrefix, h]

theorem keptPrefix_getD_of_le (h : 2 * k ≤ i) : (keptPrefix lsb vs k).getD i 0 = 0 :=
  List.getD_eq_default _ _ (by simpa [keptPrefix] using h)

theorem keptPrefix_ne_nil : keptPrefix lsb vs k ≠ [] ↔ 0 < k := by
  rw [← List.length_pos_iff, keptPrefix, List.length_map, List.length_range]
  omega

theorem codedMagnitude_le (lsb : Bool) (vs : List Int) (i : Nat) :
    codedMagnitude lsb vs i ≤ (vs.getD i 0).natAbs := by
  unfold codedMagnitude
  split <;> omega

theorem keptPrefix_natAbs (h : i < 2 * k) :
    ((keptPrefix lsb vs k).getD i 0).natAbs = codedMagnitude lsb vs i := by
  rw [keptPrefix_getD_of_lt h, Int.natAbs_mul, Int.natAbs_natCast]
  rcases eq_or_ne (vs.getD i 0) 0 with h0 | h0
  · have hcoded : codedMagnitude lsb vs i = 0 := by
      have hle := codedMagnitude_le lsb vs i
      rw [h0] at hle
      exact Nat.le_zero.mp hle
    rw [h0, hcoded]
    rfl
  · rw [Int.natAbs_sign_of_ne_zero h0, one_mul]

theorem keptPrefix_natAbs_le (lsb : Bool) (vs : List Int) (k i : Nat) :
    ((keptPrefix lsb vs k).getD i 0).natAbs ≤ (vs.getD i 0).natAbs := by
  rcases Nat.lt_or_ge i (2 * k) with hi | hi
  · exact (keptPrefix_natAbs hi).trans_le (codedMagnitude_le lsb vs i)
  · rw [keptPrefix_getD_of_le hi]
    exact Nat.zero_le _

/-- What is kept codes as the values that it is kept of: a magnitude of 4 or more stays so with bit 0
cleared. -/
theorem codedMagnitude_keptPrefix (h : i < 2 * k) :
    codedMagnitude lsb (keptPrefix lsb vs k) i = codedMagnitude lsb vs i := by
  have hfst : (i / 2 * 2) / 2 * 2 = i / 2 * 2 := by omega
  have hsnd : (i / 2 * 2 + 1) / 2 * 2 = i / 2 * 2 := by omega
  rw [codedMagnitude, keptPrefix_natAbs h, keptPrefix_natAbs (show i / 2 * 2 < 2 * k by omega),
    keptPrefix_natAbs (show i / 2 * 2 + 1 < 2 * k by omega)]
  simp only [codedMagnitude, hfst, hsnd]
  split_ifs <;> omega

theorem keptValues_range' (r : Roms) (s : State) (tr : Track) {j n : Nat} (h : 2 * (j + n) ≤ vs.length) :
    keptValues (vs.drop (2 * j)) ((List.range' j n).map (tupleRecord r s tr vs)) =
      (List.range' (2 * j) (2 * n)).map fun i => (vs.getD i 0).sign * codedMagnitude tr.lsbMode vs i := by
  induction n generalizing j with
  | zero => rw [keptValues.eq_def]; simp
  | succ n ih =>
    have hdrop : vs.drop (2 * j) = vs.getD (2 * j) 0 :: vs.getD (2 * j + 1) 0 :: vs.drop (2 * (j + 1)) := by
      rw [List.drop_eq_getElem_cons (by omega), List.drop_eq_getElem_cons (by omega),
        List.getD_eq_getElem _ _ (by omega), List.getD_eq_getElem _ _ (by omega)]
      rfl
    rw [hdrop, List.range'_succ, List.map_cons, keptValues, ih (by omega), Nat.mul_succ 2 n, List.range'_succ,
      List.range'_succ]
    rfl

theorem keptValues_take (r : Roms) (s : State) (tr : Track) (h : 2 * k ≤ vs.length) :
    keptValues vs ((runTrack r s tr 0 0 0 (tuplesOf vs)).take k) = keptPrefix tr.lsbMode vs k := by
  rw [runTrack_tuplesOf, ← List.map_take, List.take_range, min_eq_left (by omega), keptPrefix,
    List.range_eq_range', List.range_eq_range']
  exact keptValues_range' r s tr (j := 0) (by omega)

end

/-! ### The choice (R259, R262) -/

theorem lastBelow_none {p : Nat → Bool} {n : Nat} (h : lastBelow p n = none) : ∀ j < n, p j = false := by
  induction n with
  | zero => exact fun j hj => absurd hj j.not_lt_zero
  | succ n ih =>
    unfold lastBelow at h
    split at h
    · cases h
    · next hn =>
      intro j hj
      rcases Nat.lt_succ_iff_lt_or_eq.mp hj with hj | rfl
      · exact ih h j hj
      · exact Bool.eq_false_iff.mpr hn

theorem lastBelow_some {p : Nat → Bool} {n k : Nat} (h : lastBelow p n = some k) :
    k < n ∧ p k = true ∧ ∀ j < n, p j = true → j ≤ k := by
  induction n with
  | zero => cases h
  | succ n ih =>
    unfold lastBelow at h
    split at h
    · next hn =>
      cases h
      exact ⟨Nat.lt_succ_self _, hn, fun j hj _ => Nat.le_of_lt_succ hj⟩
    · next hn =>
      obtain ⟨hlt, hk, hmax⟩ := ih h
      refine ⟨hlt.trans (Nat.lt_succ_self n), hk, fun j hj hpj => ?_⟩
      rcases Nat.lt_succ_iff_lt_or_eq.mp hj with hj | rfl
      · exact hmax j hj hpj
      · exact absurd hpj hn

/-- Tuple j is not (0, 0), and the first j + 1 tuples cost no more than the budget. -/
def CostFits (r : Roms) (s : State) (lsb : Bool) (vs : List Int) (j : Nat) : Prop :=
  nonzeroTuple vs j ∧ tuplesCost r s lsb vs (j + 1) ≤ s.TARGET * 2048

/-- The number of tuples that a choice keeps. -/
def Choice.keeps (ch : Choice) : Nat := ch.last.elim 0 (· + 1)

/-- The last nonzero tuple, 0 where there is none. -/
def Choice.lastNonzero (ch : Choice) : Nat := ch.J.getD 0

/-- What is chosen for some values (R259, R262): the last nonzero tuple, the track, and how many tuples are
kept. -/
structure Choice.Meets (ch : Choice) (r : Roms) (s : State) (vs : List Int) : Prop where
  le_last : ∀ j, nonzeroTuple vs j → j ≤ ch.lastNonzero
  last_nonzero : (∃ j, nonzeroTuple vs j) → nonzeroTuple vs ch.lastNonzero
  last_of_zero : (∀ j, ¬ nonzeroTuple vs j) → ch.lastNonzero = 0
  track : ch.track.lsbMode = true ↔ (∃ j, nonzeroTuple vs j) ∧ s.cfg.mode.lsbEn = true ∧
    s.TARGET * 2048 < tuplesCost r s false vs (ch.lastNonzero + 1)
  fits : 0 < ch.keeps → CostFits r s ch.track.lsbMode vs (ch.keeps - 1)
  keeps_all : ∀ j, CostFits r s ch.track.lsbMode vs j → j < ch.keeps

section
variable {r : Roms} {s : State} {vs : List Int}

theorem nonzeroTuple_iff {j : Nat} : tupleAt vs j ≠ (0, 0) ↔ nonzeroTuple vs j := by
  simp only [tupleAt, nonzeroTuple, ne_eq, Prod.mk.injEq, Int.natAbs_eq_zero, not_and_or]

theorem nonzeroTuple.lt (hlen : vs.length % 2 = 0) {j : Nat} (h : nonzeroTuple vs j) :
    j < vs.length / 2 := by
  by_contra hge
  rcases h with h | h <;> exact h (List.getD_eq_default _ _ (by omega))

/-- The model's test of a tuple, on whole tuples. -/
theorem tuplesOf_nonzero (hlen : vs.length % 2 = 0) (j : Nat) :
    decide ((tuplesOf vs).getD j (0, 0) ≠ (0, 0)) = decide (tupleAt vs j ≠ (0, 0)) := by
  rw [tuplesOf_eq]
  rcases Nat.lt_or_ge j (vs.length / 2) with hj | hj
  · simp [hj]
  · have hzero : tupleAt vs j = (0, 0) :=
      not_not.mp fun h => (not_lt.mpr hj) ((nonzeroTuple_iff.mp h).lt hlen)
    simp [hj, hzero]

/-- The track of a spectrum whose last nonzero tuple is J (R259, R262). -/
def budgetTrack (r : Roms) (s : State) (vs : List Int) (J : Nat) : Track :=
  if s.cfg.mode.lsbEn = true ∧ s.TARGET * 2048 < tuplesCost r s false vs (J + 1) then .lsb else .full

theorem budgetTrack_lsbMode {J : Nat} : (budgetTrack r s vs J).lsbMode = true ↔
    s.cfg.mode.lsbEn = true ∧ s.TARGET * 2048 < tuplesCost r s false vs (J + 1) := by
  unfold budgetTrack
  split
  · next h => exact iff_of_true rfl h
  · next h => exact iff_of_false (by decide) h

/-- The model's test of a tuple with the cost up to it. -/
def fitsTest (r : Roms) (s : State) (tr : Track) (vs : List Int) (j : Nat) : Bool :=
  decide (tupleAt vs j ≠ (0, 0)) &&
    decide (cumAt (runTrack r s tr 0 0 0 (tuplesOf vs)) j ≤ s.TARGET * 2048)

theorem fitsTest_iff (hlen : vs.length % 2 = 0) {tr : Track} {j : Nat} :
    fitsTest r s tr vs j = true ↔ CostFits r s tr.lsbMode vs j := by
  rw [fitsTest, Bool.and_eq_true, decide_eq_true_eq, decide_eq_true_eq, nonzeroTuple_iff]
  exact and_congr_right fun h => by rw [cumAt_runTrack r s tr vs (h.lt hlen)]

section
variable (hlen : vs.length % 2 = 0)
include hlen

theorem chooseCoding_of_none
    (h : lastBelow (fun j => decide (tupleAt vs j ≠ (0, 0))) (vs.length / 2) = none)
    (full lsb : List TupleCost) :
    chooseCoding s (tuplesOf vs) full lsb = { track := .full, last := none, J := none } := by
  have hcount : (tuplesOf vs).length = vs.length / 2 := by simp [tuplesOf_eq]
  simp only [chooseCoding, tuplesOf_nonzero hlen, hcount, h]

theorem chooseCoding_of_some {J : Nat}
    (h : lastBelow (fun j => decide (tupleAt vs j ≠ (0, 0))) (vs.length / 2) = some J) :
    chooseCoding s (tuplesOf vs) (runTrack r s .full 0 0 0 (tuplesOf vs))
        (runTrack r s .lsb 0 0 0 (tuplesOf vs)) =
      { track := budgetTrack r s vs J
        last := lastBelow (fitsTest r s (budgetTrack r s vs J) vs) (J + 1)
        J := some J } := by
  have hcount : (tuplesOf vs).length = vs.length / 2 := by simp [tuplesOf_eq]
  have hcost := cumAt_runTrack r s .full vs (lastBelow_some h).1
  simp only [chooseCoding, tuplesOf_nonzero hlen, hcount, h, hcost, budgetTrack,
    show Track.full.lsbMode = false from rfl]
  split <;> rfl

theorem chooseCoding_meets :
    (chooseCoding s (tuplesOf vs) (runTrack r s .full 0 0 0 (tuplesOf vs))
      (runTrack r s .lsb 0 0 0 (tuplesOf vs))).Meets r s vs := by
  cases hJ : lastBelow (fun j => decide (tupleAt vs j ≠ (0, 0))) (vs.length / 2) with
  | none =>
    have hzero : ∀ j, ¬ nonzeroTuple vs j := fun j hj =>
      absurd (nonzeroTuple_iff.mpr hj) (by simpa using lastBelow_none hJ j (hj.lt hlen))
    rw [chooseCoding_of_none hlen hJ]
    exact {
      le_last := fun j hj => absurd hj (hzero j)
      last_nonzero := fun ⟨j, hj⟩ => absurd hj (hzero j)
      last_of_zero := fun _ => rfl
      track := iff_of_false (by simp [Track.lsbMode]) fun h => h.1.elim hzero
      fits := fun h => absurd h (Nat.lt_irrefl 0)
      keeps_all := fun j hj => absurd hj.1 (hzero j) }
  | some J =>
    obtain ⟨-, hnz, hmax⟩ := lastBelow_some hJ
    have hnz : nonzeroTuple vs J := nonzeroTuple_iff.mp (of_decide_eq_true hnz)
    have hmax : ∀ j, nonzeroTuple vs j → j ≤ J := fun j hj =>
      hmax j (hj.lt hlen) (decide_eq_true (nonzeroTuple_iff.mpr hj))
    rw [chooseCoding_of_some hlen hJ]
    refine
      { le_last := hmax
        last_nonzero := fun _ => hnz
        last_of_zero := fun h => absurd hnz (h J)
        track := budgetTrack_lsbMode.trans (and_iff_right ⟨J, hnz⟩).symm
        fits := fun hpos => ?_
        keeps_all := fun j hj => ?_ } <;> dsimp only [Choice.keeps] at *
    · cases hk : lastBelow (fitsTest r s (budgetTrack r s vs J) vs) (J + 1) with
      | none => rw [hk] at hpos; exact absurd hpos (Nat.lt_irrefl 0)
      | some k => exact (fitsTest_iff hlen).mp (lastBelow_some hk).2.1
    · have hlt : j < J + 1 := Nat.lt_succ_of_le (hmax j hj.1)
      have htest := (fitsTest_iff hlen).mpr hj
      cases hk : lastBelow (fitsTest r s (budgetTrack r s vs J) vs) (J + 1) with
      | none => exact absurd htest (Bool.eq_false_iff.mp (lastBelow_none hk j hlt))
      | some k =>
        obtain ⟨-, -, hlast⟩ := lastBelow_some hk
        exact Nat.lt_succ_of_le (hlast j hlt htest)

end

/-! ### The coding of a spectrum (R260) -/

/-- The first n tuples of some values, past the end zeros. -/
def padTo (vs : List Int) (n : Nat) : List Int := (List.range (2 * n)).map fun i => vs.getD i 0

theorem codedMagnitude_padTo {lsb : Bool} {n i : Nat} (h : i < 2 * n) :
    codedMagnitude lsb (padTo vs n) i = codedMagnitude lsb vs i := by
  have hget {i : Nat} (hi : i < 2 * n) : (padTo vs n).getD i 0 = vs.getD i 0 := by simp [padTo, hi]
  simp only [codedMagnitude, hget h, hget (show i / 2 * 2 < 2 * n by omega),
    hget (show i / 2 * 2 + 1 < 2 * n by omega)]

theorem runTrack_padTo_take (tr : Track) (n : Nat) :
    (runTrack r s tr 0 0 0 (tuplesOf (padTo vs n))).take n =
      (List.range n).map (tupleRecord r s tr (padTo vs n)) := by
  have hlen : (padTo vs n).length / 2 = n := by simp [padTo]
  rw [runTrack_tuplesOf, hlen, ← List.map_take, List.take_range, min_self]

theorem sumFirst_cost (tr : Track) (n : Nat) :
    sumFirst n TupleCost.cost (runTrack r s tr 0 0 0 (tuplesOf (padTo vs n))) =
      tuplesCost r s tr.lsbMode vs n := by
  rw [sumFirst, runTrack_padTo_take, List.map_map]
  exact tuplesCost_congr (fun i hi => codedMagnitude_padTo hi) r s

theorem sumFirst_raw (tr : Track) (n : Nat) :
    sumFirst n TupleCost.raw (runTrack r s tr 0 0 0 (tuplesOf (padTo vs n))) =
      ((List.range n).map (tupleRaw tr.lsbMode vs)).sum := by
  rw [sumFirst, runTrack_padTo_take, List.map_map]
  exact congrArg List.sum (List.map_congr_left fun j hj =>
    tupleRaw_congr (fun i hi => codedMagnitude_padTo hi) (List.mem_range.mp hj))

/-- What QUANTIZE chooses for some values. -/
def codeChoice (r : Roms) (s : State) (vs : List Int) : Choice :=
  chooseCoding s (tuplesOf vs) (runTrack r s .full 0 0 0 (tuplesOf vs))
    (runTrack r s .lsb 0 0 0 (tuplesOf vs))

/-- The values that a choice keeps. -/
def Choice.kept (ch : Choice) (vs : List Int) : List Int := keptPrefix ch.track.lsbMode vs ch.keeps

/-- The number of tuples below LASTNZ: one where nothing is kept (R260). -/
def Choice.tuples (ch : Choice) : Nat := ch.last.elim 1 (· + 1)

theorem Choice.tuples_eq_max (ch : Choice) : ch.tuples = max ch.keeps 1 := by
  unfold Choice.tuples Choice.keeps
  cases ch.last with
  | none => rfl
  | some k => exact (max_eq_left (Nat.le_add_left 1 k)).symm

/-- The coding of some values by a choice, with the costs of R260. -/
def Choice.coding (ch : Choice) (r : Roms) (s : State) (vs : List Int) : Coding where
  kept := ch.kept vs
  tuples := ch.tuples
  tuplesFull := ch.lastNonzero + 1
  lsb := ch.track.lsbMode
  est := tuplesCost r s ch.track.lsbMode (ch.kept vs) ch.tuples
  estFull := cumAt (runTrack r s .full 0 0 0 (tuplesOf vs)) ch.lastNonzero
  estLsbFull := cumAt (runTrack r s .lsb 0 0 0 (tuplesOf vs)) ch.lastNonzero
  rawbits := ((List.range ch.tuples).map (tupleRaw ch.track.lsbMode (ch.kept vs))).sum

/-- A choice keeps whole tuples of the values. -/
theorem Choice.Meets.keeps_le {ch : Choice} (h : ch.Meets r s vs) (hlen : vs.length % 2 = 0) :
    2 * ch.keeps ≤ vs.length := by
  rcases Nat.eq_zero_or_pos ch.keeps with h0 | hpos
  · omega
  · have hlt := (h.fits hpos).1.lt hlen
    omega

/-- What QUANTIZE chooses for a spectrum of whole tuples. -/
theorem codeChoice_meets (r : Roms) (s : State) {xs : List Int} (hlen : xs.length % 2 = 0) :
    (codeChoice r s (xs.map (quantCoef r s))).Meets r s (xs.map (quantCoef r s)) :=
  chooseCoding_meets (by rwa [List.length_map])

theorem codeSpectrum_eq {xs : List Int} (hlen : xs.length % 2 = 0) :
    codeSpectrum r s xs =
      (codeChoice r s (xs.map (quantCoef r s))).coding r s (xs.map (quantCoef r s)) := by
  have hle := (codeChoice_meets r s hlen).keeps_le (by rwa [List.length_map])
  unfold codeSpectrum
  dsimp only
  rw [← codeChoice]
  generalize xs.map (quantCoef r s) = vs at *
  generalize codeChoice r s vs = ch at *
  obtain ⟨track, last, J⟩ := ch
  rw [Choice.coding, Coding.mk.injEq]
  cases last with
  | none => exact ⟨rfl, rfl, rfl, rfl, sumFirst_cost track 1, rfl, rfl, sumFirst_raw track 1⟩
  | some k =>
    have hkept := keptValues_take r s track (k := k + 1) hle
    have hcost := (congrArg (fun ws => sumFirst (k + 1) TupleCost.cost
      (runTrack r s track 0 0 0 (tuplesOf (padTo ws (k + 1))))) hkept).trans (sumFirst_cost track (k + 1))
    have hraw := (congrArg (fun ws => sumFirst (k + 1) TupleCost.raw
      (runTrack r s track 0 0 0 (tuplesOf (padTo ws (k + 1))))) hkept).trans (sumFirst_raw track (k + 1))
    cases track <;> exact ⟨hkept, rfl, rfl, rfl, hcost, rfl, rfl, hraw⟩

/-! ### QUANTIZE's coding as the rules state it -/

theorem exists_ne_zero_iff (hlen : vs.length % 2 = 0) :
    (∃ q ∈ vs, q ≠ 0) ↔ ∃ j, nonzeroTuple vs j := by
  constructor
  · rintro ⟨q, hq, hne⟩
    obtain ⟨i, hi, rfl⟩ := List.mem_iff_getElem.mp hq
    refine ⟨i / 2, ?_⟩
    have hi' : i = 2 * (i / 2) ∨ i = 2 * (i / 2) + 1 := by omega
    rw [← List.getD_eq_getElem _ 0 hi] at hne
    rcases hi' with h | h <;> rw [h] at hne
    · exact .inl hne
    · exact .inr hne
  · rintro ⟨j, hj⟩
    have hlt := hj.lt hlen
    have hmem {i : Nat} (hi : i < vs.length) : vs.getD i 0 ∈ vs := by
      rw [List.getD_eq_getElem _ 0 hi]
      exact List.getElem_mem hi
    rcases hj with h | h
    · exact ⟨_, hmem (by omega), h⟩
    · exact ⟨_, hmem (by omega), h⟩

/-- In full coding a magnitude is coded as it is. -/
theorem codedMagnitude_full (vs : List Int) (i : Nat) : codedMagnitude false vs i = (vs.getD i 0).natAbs := by
  simp [codedMagnitude]

theorem keptPrefix_full_getD {k i : Nat} (h : i < 2 * k) :
    (keptPrefix false vs k).getD i 0 = vs.getD i 0 := by
  rw [keptPrefix_getD_of_lt h, codedMagnitude_full, Int.sign_mul_natAbs]

theorem getD_eq_zero_of_tuple {i : Nat} (h : ¬ nonzeroTuple vs (i / 2)) : vs.getD i 0 = 0 := by
  rw [nonzeroTuple, not_or, not_not, not_not] at h
  obtain ⟨hfst, hsnd⟩ := h
  rcases (show i = 2 * (i / 2) ∨ i = 2 * (i / 2) + 1 by omega) with hi | hi <;> rw [hi]
  · exact hfst
  · exact hsnd

section
variable {ch : Choice} (h : ch.Meets r s vs)
include h

theorem Choice.Meets.tuples_le : ch.tuples ≤ ch.lastNonzero + 1 := by
  rw [ch.tuples_eq_max]
  rcases Nat.eq_zero_or_pos ch.keeps with h0 | hpos
  · omega
  · have hle := h.le_last _ (h.fits hpos).1
    omega

/-- Where the full coding fits the budget it is chosen, and every value is kept. -/
theorem Choice.Meets.keeps_values
    (hfits : (∃ j, nonzeroTuple vs j) →
      tuplesCost r s false vs (ch.lastNonzero + 1) ≤ s.TARGET * 2048) :
    ch.track.lsbMode = false ∧ ∀ i, (ch.kept vs).getD i 0 = vs.getD i 0 := by
  have hlsb : ch.track.lsbMode = false := by
    refine Bool.eq_false_iff.mpr fun hl => ?_
    obtain ⟨hnz, -, hover⟩ := h.track.mp hl
    exact not_lt.mpr (hfits hnz) hover
  refine ⟨hlsb, fun i => ?_⟩
  rw [Choice.kept, hlsb]
  rcases Nat.lt_or_ge i (2 * ch.keeps) with hi | hi
  · exact keptPrefix_full_getD hi
  · refine (keptPrefix_getD_of_le hi).trans (getD_eq_zero_of_tuple fun hnz => ?_).symm
    have hkept := h.keeps_all _ ⟨h.last_nonzero ⟨_, hnz⟩, hlsb ▸ hfits ⟨_, hnz⟩⟩
    have hle := h.le_last _ hnz
    omega

theorem Choice.Meets.estFull_eq (hlen : vs.length % 2 = 0) (hne : vs ≠ []) (tr : Track) :
    cumAt (runTrack r s tr 0 0 0 (tuplesOf vs)) ch.lastNonzero =
      tuplesCost r s tr.lsbMode vs (ch.lastNonzero + 1) := by
  refine cumAt_runTrack r s tr vs ?_
  by_cases hnz : ∃ j, nonzeroTuple vs j
  · exact (h.last_nonzero hnz).lt hlen
  · have hpos := List.length_pos_iff.mpr hne
    rw [h.last_of_zero (not_exists.mp hnz)]
    omega

end

section
variable {ch : Choice}

theorem Choice.kept_ne_nil : ch.kept vs ≠ [] ↔ 0 < ch.keeps := keptPrefix_ne_nil

theorem Choice.kept_eq_nil : ch.kept vs = [] ↔ ch.keeps = 0 :=
  not_iff_not.mp (Choice.kept_ne_nil.trans Nat.pos_iff_ne_zero)

theorem Choice.tuples_of_ne_nil (hk : ch.kept vs ≠ []) : ch.tuples = ch.keeps :=
  ch.tuples_eq_max.trans (max_eq_left (Choice.kept_ne_nil.mp hk))

theorem Choice.tuples_of_nil (hk : ch.kept vs = []) : ch.tuples = 1 := by
  rw [ch.tuples_eq_max, Choice.kept_eq_nil.mp hk]
  rfl

theorem Choice.keeps_le_tuples (ch : Choice) : ch.keeps ≤ ch.tuples ∧ 1 ≤ ch.tuples := by
  rw [ch.tuples_eq_max]
  exact ⟨le_max_left _ _, le_max_right _ _⟩

theorem Choice.kept_getD (hk : ch.kept vs ≠ []) {i : Nat} (hi : i < 2 * ch.tuples) :
    (ch.kept vs).getD i 0 = (vs.getD i 0).sign * codedMagnitude ch.track.lsbMode vs i :=
  keptPrefix_getD_of_lt (Choice.tuples_of_ne_nil hk ▸ hi)

theorem Choice.kept_getD_full (hlsb : ch.track.lsbMode = false) (hk : ch.kept vs ≠ []) {i : Nat}
    (hi : i < 2 * ch.tuples) : (ch.kept vs).getD i 0 = vs.getD i 0 := by
  rw [Choice.kept_getD hk hi, hlsb, codedMagnitude_full, Int.sign_mul_natAbs]

theorem Choice.kept_getD_of_le {i : Nat} (hi : 2 * ch.tuples ≤ i) : (ch.kept vs).getD i 0 = 0 := by
  obtain ⟨hle, -⟩ := ch.keeps_le_tuples
  exact keptPrefix_getD_of_le (by omega)

section
variable (h : ch.Meets r s vs)
include h

theorem Choice.Meets.fits_last (hk : ch.kept vs ≠ []) :
    CostFits r s ch.track.lsbMode vs (ch.tuples - 1) := by
  rw [Choice.tuples_of_ne_nil hk]
  exact h.fits (Choice.kept_ne_nil.mp hk)

theorem Choice.Meets.kept_of_fits {j : Nat} (hj : CostFits r s ch.track.lsbMode vs j) :
    ch.kept vs ≠ [] ∧ j < ch.tuples := by
  have hlt := h.keeps_all j hj
  exact ⟨Choice.kept_ne_nil.mpr (Nat.zero_lt_of_lt hlt), hlt.trans_le ch.keeps_le_tuples.1⟩

/-- What is kept costs what the first tuples of the values do, which fit the budget. -/
theorem Choice.Meets.est_le (hk : ch.kept vs ≠ []) :
    tuplesCost r s ch.track.lsbMode (ch.kept vs) ch.tuples ≤ s.TARGET * 2048 := by
  obtain ⟨-, hcost⟩ := h.fits_last hk
  rw [Nat.sub_add_cancel ch.keeps_le_tuples.2] at hcost
  refine (tuplesCost_congr (fun i hi => ?_) r s).trans_le hcost
  exact codedMagnitude_keptPrefix (Choice.tuples_of_ne_nil hk ▸ hi)

/-- An all-zero spectrum is kept as nothing, in full coding. -/
theorem Choice.Meets.of_zero (hlen : vs.length % 2 = 0) (hz : ∀ q ∈ vs, q = 0) :
    ch.track.lsbMode = false ∧ ch.kept vs = [] ∧ ch.lastNonzero + 1 = 1 := by
  have hzero : ∀ j, ¬ nonzeroTuple vs j := fun j hj => by
    obtain ⟨q, hq, hne⟩ := (exists_ne_zero_iff hlen).mpr ⟨j, hj⟩
    exact hne (hz q hq)
  refine ⟨Bool.eq_false_iff.mpr fun hl => (h.track.mp hl).1.elim hzero, ?_,
    congrArg (· + 1) (h.last_of_zero hzero)⟩
  exact Choice.kept_eq_nil.mpr (Nat.eq_zero_of_not_pos fun hpos => hzero _ (h.fits hpos).1)

theorem Choice.Meets.lsb_iff (hlen : vs.length % 2 = 0) (hne : ∃ q ∈ vs, q ≠ 0) :
    ch.track.lsbMode = true ↔ s.cfg.mode.lsbEn = true ∧
      s.TARGET * 2048 < cumAt (runTrack r s .full 0 0 0 (tuplesOf vs)) ch.lastNonzero := by
  obtain ⟨q, hq, -⟩ := id hne
  rw [h.track, and_iff_right ((exists_ne_zero_iff hlen).mp hne),
    h.estFull_eq hlen (List.ne_nil_of_mem hq) .full]
  rfl

end

end

/-- Settles O27: each clause is one of the choice's, of the values kept, or of their costs. -/
theorem truncationWithinBudget : Obligations.TruncationWithinBudget := by
  refine ⟨tupleLevel_least, fun r s xs hxs => ?_⟩
  have hm := codeChoice_meets r s hxs
  rw [codeSpectrum_eq hxs]
  generalize codeChoice r s (xs.map (quantCoef r s)) = ch at hm ⊢
  have hlen : (xs.map (quantCoef r s)).length % 2 = 0 := by rwa [List.length_map]
  have hest := fun hne => hm.estFull_eq hlen (mt List.map_eq_nil_iff.mp hne)
  refine ⟨ch.keeps_le_tuples.2, hm.tuples_le, fun j hj => Nat.lt_succ_of_le (hm.le_last j hj),
    hm.last_nonzero, hm.of_zero hlen, fun hne => ⟨hest hne .full, hest hne .lsb⟩, hm.lsb_iff hlen,
    fun j hj => hm.kept_of_fits hj, hm.fits_last, Choice.tuples_of_nil, fun hk i => Choice.kept_getD hk,
    fun hl hk i => Choice.kept_getD_full hl hk, fun i => Choice.kept_getD_of_le, rfl, rfl, hm.est_le,
    fun hfull => hm.keeps_values fun ⟨j, hj⟩ => ?_⟩
  have hlt := hj.lt hlen
  exact (hest (fun h => by simp [h] at hlt) .full).symm.trans_le hfull

/-! ### QUANTIZE (R260) -/

theorem quantCoef_natAbs_le (r : Roms) (s : State) (x : Int) : (quantCoef r s x).natAbs ≤ 65535 := by
  have hq : quantMagnitude r s x ≤ 65535 := min_le_right _ _
  rw [quantCoef, withSign, Int.natAbs_mul, Int.natAbs_natCast]
  rcases eq_or_ne x 0 with rfl | hx
  · simp
  · rwa [Int.natAbs_sign_of_ne_zero hx, one_mul]

/-- What is kept in XQ fits its words. -/
theorem codeSpectrum_kept_natAbs_le {xs : List Int} (hlen : xs.length % 2 = 0) (i : Nat) :
    ((codeSpectrum r s xs).kept.getD i 0).natAbs ≤ 65535 := by
  rw [codeSpectrum_eq hlen]
  refine (keptPrefix_natAbs_le _ _ _ i).trans ?_
  rcases Nat.lt_or_ge i xs.length with hi | hi
  · rw [List.getD_eq_getElem _ _ (by rwa [List.length_map]), List.getElem_map]
    exact quantCoef_natAbs_le r s _
  · rw [List.getD_eq_default _ _ (by rwa [List.length_map])]
    exact Nat.zero_le _

theorem exec_quantize (hcfg : encodeConfigured s) (hx : spectrumWritten s)
    (h : s.fstat.qCount = 0 ∨ s.fstat.qCount = 1 ∧ s.fstat.adjCount = 1 ∧ s.fstat.requant = true) :
    exec .quantize s =
      .next (s.applyCoding blockRoms (codeSpectrum blockRoms s (spectrum s))).complete := by
  refine exec_ok (firstError_eq_none.mpr ?_) ?_
  · rcases h with hq | ⟨hq, hadj, hreq⟩
    · simp [checksOf, encodeConfigOk_of_encodeConfigured hcfg, quantizeLegal, quantizePastLimit, hq]
    · simp [checksOf, encodeConfigOk_of_encodeConfigured hcfg, quantizeLegal, quantizePastLimit, hq, hadj,
        hreq]
  · simp only [bodyOf, quantizeBody, xElems_spectrum hx]

/-- Settles O28: the body's writes are those of the statement, and each value kept fits its word. -/
theorem quantizeResult : Obligations.QuantizeResult := by
  intro s hcfg hx hlegal c nnz
  obtain ⟨-, -, hmod, -⟩ := id hcfg
  have hlen : (spectrum s).length % 2 = 0 := by
    rw [spectrum, List.length_map, List.length_range]
    omega
  have hnnz : nnz = countNonzero c.kept := List.countP_eq_length_filter.symm
  refine ⟨_, exec_quantize hcfg hx hlegal, ?_, fun i hi => ?_, fun a ha => ?_⟩
  · rw [hnnz]
    rfl
  · have hfits := codeSpectrum_kept_natAbs_le (r := blockRoms) (s := s) hlen i
    exact (xqElem_of_mem (m := s.mem) rfl hi).trans (toInt_ofInt_of_natAbs_lt (Nat.lt_succ_of_le hfits))
  · exact s.mem.read_store_outside (by rwa [paddedWords_length])

end

end Sys2Proof.Machine

/-! ## Residual refinement (44_residual.md)

Both commands walk XQ and number its nonzero coefficients. What a walk leaves is said for each coefficient
by its refinement index, the number of nonzero coefficients before it. -/

namespace Sys2Proof.Machine

-- One proof at a time: in one file with the tests, waiting proofs would each hold a thread.
set_option Elab.async false

open Config (Roms)

variable {s t : State} {r : Roms}

/-! ### A refinement step (R302) -/

theorem refined_eq (q : Int) (b : Bool) :
    refined q b = q * 4096 + q.sign * if b then 0x500 else -0x300 := rfl

/-- Settles O34: a step is smaller than the 4096 that a nonzero coefficient stands for, on either side. -/
theorem refinementKeepsSign : Obligations.RefinementKeepsSign := by
  intro q b hq
  have hstep : -0x300 ≤ (if b then 0x500 else -0x300 : Int) := by cases b <;> decide
  rw [refined_eq]
  rcases lt_or_gt_of_ne hq with hneg | hpos
  · rw [Int.sign_eq_neg_one_of_neg hneg, Int.sign_eq_neg_one_iff_neg]
    omega
  · rw [Int.sign_eq_one_of_pos hpos, Int.sign_eq_one_iff_pos]
    omega

/-! ### Numbering the nonzero coefficients (R290) -/

theorem countNonzero_cons_zero (qs : List Int) : countNonzero (0 :: qs) = countNonzero qs := by
  simp [countNonzero]

theorem countNonzero_cons_of_ne {q : Int} (hq : q ≠ 0) (qs : List Int) :
    countNonzero (q :: qs) = countNonzero qs + 1 := by
  simp [countNonzero, hq]

theorem countNonzero_le_length (qs : List Int) : countNonzero qs ≤ qs.length := List.countP_le_length

theorem xqElems_getElem? {i n : Nat} (hi : i < n) : (xqElems s n)[i]? = some (xqElem s i) := by
  rw [xqElems, List.getElem?_map, List.getElem?_range hi]
  rfl

theorem countNonzero_take_xqElems {i n : Nat} (hi : i ≤ n) :
    countNonzero ((xqElems s n).take i) = refinementIndex s i := by
  rw [refinementIndex, xqElems, xqElems, ← List.map_take, List.take_range, Nat.min_eq_left hi]

/-! ### The bits that RES_ENCODE finds (R294) -/

theorem two_zpow_eq_div (sh : Int) : (2 : ℚ) ^ sh = 2 ^ sh.toNat / 2 ^ (-sh).toNat := by
  apply Rat.cast_injective (α := ℝ)
  push_cast
  exact zpow_eq_div_toNat 2 sh

/-- The comparison in whole numbers is that of the exact product. -/
theorem refinementBit_iff {m q : Nat} {sh : Int} :
    refinementBit m sh q = true ↔ (q : ℚ) ≤ m * (2 : ℚ) ^ sh := by
  have hpos : (0 : ℚ) < 2 ^ (-sh).toNat := by positivity
  rw [refinementBit, decide_eq_true_iff, two_zpow_eq_div, ← mul_div_assoc, le_div_iff₀ hpos]
  norm_cast

/-- The bit of a coefficient q at index i. -/
def encodedBit (r : Roms) (s : State) (i : Nat) (q : Int) : Bool :=
  refinementBit ((xValue s i).natAbs * (r.scale s.gainValue).1) (scaleShift r s) q.natAbs

theorem encodedBit_iff {i : Nat} {q : Int} :
    encodedBit r s i q = true ↔ (q.natAbs : ℚ) ≤ scaledMagnitude r s (xValue s i) := by
  rw [encodedBit, refinementBit_iff, scaledMagnitude_eq_natCast_mul]

/-- At most `left` bits for the coefficients `qs` from index i on, each at its coefficient's place among the
nonzero ones. -/
structure EncodesBits (r : Roms) (s : State) (i left : Nat) (qs : List Int) (bits : List Bool) : Prop where
  length_le : bits.length ≤ left
  value : ∀ j q, qs[j]? = some q → q ≠ 0 → countNonzero (qs.take j) < left →
    bits.getD (countNonzero (qs.take j)) false = encodedBit r s (i + j) q

theorem EncodesBits.cons_zero {i left : Nat} {qs : List Int} {bits : List Bool}
    (h : EncodesBits r s (i + 1) left qs bits) : EncodesBits r s i left (0 :: qs) bits where
  length_le := h.length_le
  value
    | 0, q, hq, hne, _ => absurd (by simpa using hq.symm) hne
    | j + 1, q, hq, hne, hlt => by
      rw [List.take_succ_cons, countNonzero_cons_zero] at hlt ⊢
      rw [h.value j q hq hne hlt, Nat.add_right_comm, Nat.add_assoc]

theorem EncodesBits.cons_of_ne {i left : Nat} {p : Int} (hp : p ≠ 0) {qs : List Int} {bits : List Bool}
    (h : EncodesBits r s (i + 1) left qs bits) :
    EncodesBits r s i (left + 1) (p :: qs) (encodedBit r s i p :: bits) where
  length_le := Nat.succ_le_succ h.length_le
  value
    | 0, q, hq, _, _ => by cases hq; rfl
    | j + 1, q, hq, hne, hlt => by
      rw [List.take_succ_cons, countNonzero_cons_of_ne hp] at hlt ⊢
      rw [List.getD_cons_succ, h.value j q hq hne (Nat.lt_of_succ_lt_succ hlt), Nat.add_right_comm,
        Nat.add_assoc]

theorem encodeBits_encodes {i left : Nat} {qs : List Int}
    (hx : ∀ j < qs.length, xElem s (i + j) = .ok (xValue s (i + j))) :
    ∃ bits, encodeBits r s i left qs = .ok bits ∧ EncodesBits r s i left qs bits := by
  induction qs generalizing i left with
  | nil => exact ⟨[], by rw [encodeBits], Nat.zero_le _, nofun⟩
  | cons q rest ih =>
    cases left with
    | zero => exact ⟨[], rfl, le_rfl, fun _ _ _ _ hlt => absurd hlt (Nat.not_lt_zero _)⟩
    | succ left =>
      have hrest : ∀ j < rest.length, xElem s (i + 1 + j) = .ok (xValue s (i + 1 + j)) := fun j hj => by
        rw [Nat.add_assoc, Nat.add_comm 1 j]
        exact hx (j + 1) (Nat.succ_lt_succ hj)
      by_cases hq : q = 0
      · subst hq
        obtain ⟨bits, hbits, henc⟩ := ih (left := left + 1) hrest
        exact ⟨bits, by rw [encodeBits, if_pos rfl, hbits], henc.cons_zero⟩
      · obtain ⟨bits, hbits, henc⟩ := ih (left := left) hrest
        have hxi : xElem s i = .ok (xValue s i) := hx 0 (Nat.succ_pos _)
        refine ⟨encodedBit r s i q :: bits, ?_, henc.cons_of_ne hq⟩
        simp only [encodeBits, if_neg hq, hxi, hbits, encodedBit]

/-! ### RESBUF (20_memory.md R95) -/

/-- The weighted sum of bits is below the next weight and has the bits as its binary digits. -/
theorem testBit_sum_bits (f : Nat → Bool) (n : Nat) :
    ((List.range n).map fun b => bit (f b) * 2 ^ b).sum < 2 ^ n ∧
      ∀ b < n, ((List.range n).map fun b => bit (f b) * 2 ^ b).sum.testBit b = f b := by
  induction n with
  | zero => exact ⟨by simp, nofun⟩
  | succ n ih =>
    obtain ⟨hlt, hbit⟩ := ih
    have htop : bit (f n) ≤ 1 := Nat.le_of_lt_succ (bit_lt_two _)
    have hsum : ((List.range (n + 1)).map fun b => bit (f b) * 2 ^ b).sum =
        2 ^ n * bit (f n) + ((List.range n).map fun b => bit (f b) * 2 ^ b).sum := by
      rw [List.range_succ, List.map_append, List.sum_append, List.map_singleton, List.sum_singleton]
      ring
    rw [hsum]
    refine ⟨?_, fun b hb => ?_⟩
    · have := Nat.mul_le_mul_left (2 ^ n) htop
      rw [pow_succ]
      omega
    · rw [Nat.testBit_two_pow_mul_add _ hlt]
      rcases Nat.lt_succ_iff_lt_or_eq.mp hb with hb | rfl
      · rw [if_pos hb, hbit b hb]
      · rw [if_neg (lt_irrefl b), Nat.sub_self]
        cases f b <;> rfl

theorem resbufByte_getLsbD (bits : List Bool) (k : Nat) {b : Nat} (hb : b < 8) :
    (resbufByte bits k).getLsbD b = bits.getD (8 * k + b) false := by
  obtain ⟨-, hbit⟩ := testBit_sum_bits (fun b => bits.getD (8 * k + b) false) 8
  rw [resbufByte, BitVec.getLsbD_ofNat, hbit b hb, decide_eq_true hb, Bool.true_and]

/-! ### RES_ENCODE (R290 to R294) -/

/-- The state that RES_ENCODE completes, from the bits it found and their number. -/
def State.applyRefinement (s : State) (bits : List Bool) (n : Nat) : State :=
  { s.setResbuf bits with
    resNbits := BitVec.ofNat 10 n
    fstat := { s.fstat with resencValid := true } }

/-- RESBUF[k] once RES_ENCODE has completed. -/
theorem resbufBit_applyRefinement (s : State) (bits : List Bool) (n : Nat) {k : Nat} (hk : k < 400) :
    resbufBit (s.applyRefinement bits n).complete k = bits.getD k false := by
  have hlt : k / 8 < RESBUF_BYTES := show k / 8 < 50 by omega
  have hbyte : ((List.range RESBUF_BYTES).map (resbufByte bits))[k / 8]? =
      some (resbufByte bits (k / 8)) := by
    rw [List.getElem?_map, List.getElem?_range hlt]
    rfl
  have hram : ramByte (s.applyRefinement bits n).complete (RESBUF_BASE + k / 8) = resbufByte bits (k / 8) :=
    ramByte_store { (s.applyRefinement bits n).complete with mem := s.mem } hbyte
      (Nat.add_lt_add_left hlt _)
  rw [resbufBit, hram, resbufByte_getLsbD _ _ (Nat.mod_lt _ (by decide)), Nat.div_add_mod]

theorem resEncodeBody_of_bits {bits : List Bool}
    (h : encodeBits r s 0 (encoderCount s (refinementIndex s s.NE)) (xqElems s s.NE) = .ok bits) :
    resEncodeBody r s = .ok (s.applyRefinement bits (encoderCount s (refinementIndex s s.NE))) := by
  rw [refinementIndex] at h ⊢
  simp only [resEncodeBody, h, State.applyRefinement]

theorem exec_resEncode (hcfg : encodeConfigured s) (hq : s.fstat.qValid = true)
    (hnone : ¬ (s.fstat.requant = true ∧ s.fstat.qCount = 1)) (hbody : resEncodeBody blockRoms s = .ok t) :
    exec .resEncode s = .next t.complete := by
  refine exec_ok (firstError_eq_none.mpr ?_) hbody
  simpa [checksOf, encodeConfigOk_of_encodeConfigured hcfg, resEncodeLegal, hq] using hnone

theorem encoderCount_eq (s : State) (nnz : Nat) :
    (encoderCount s nnz : Int) =
      min (max ((s.TARGET : Int) - s.cfg.consumed.toNat + s.cfg.resSlack.toInt) 0) nnz := by
  rw [encoderCount, clamp]
  omega

/-- There are no more refinement bits than coefficients. -/
theorem encoderCount_le (s : State) : encoderCount s (refinementIndex s s.NE) ≤ s.NE := by
  have hcount := encoderCount_eq s (refinementIndex s s.NE)
  have hnnz : refinementIndex s s.NE ≤ s.NE := (countNonzero_le_length _).trans_eq (xqElems_length s _)
  omega

theorem xElem_of_spectrumWritten (h : spectrumWritten s) {i : Nat} (hi : i < s.NE) :
    xElem s i = .ok (xValue s i) :=
  xElem_written fun b hb => by
    rw [Nat.add_assoc]
    exact h _ (by omega)

/-- Settles O32: the bits found are those of the coefficients refined, and RESBUF holds them. -/
theorem resEncodeResult : Obligations.ResEncodeResult := by
  intro s hcfg hx hq hnone nres
  obtain ⟨-, hne, -⟩ := id hcfg
  have hnres : (encoderCount s (refinementIndex s s.NE) : Int) = nres := encoderCount_eq s _
  have hle := encoderCount_le s
  obtain ⟨bits, hbits, henc⟩ := encodeBits_encodes (r := blockRoms) (i := 0)
    (left := encoderCount s (refinementIndex s s.NE)) (qs := xqElems s s.NE) fun j hj => by
      rw [Nat.zero_add]
      exact xElem_of_spectrumWritten hx (hj.trans_eq (xqElems_length s _))
  refine ⟨_, exec_resEncode hcfg hq hnone (resEncodeBody_of_bits hbits), rfl, ?_, fun a ha => ?_,
    fun i hi hnz hlt => ?_, fun n hn hge => ?_⟩
  · rw [← hnres]
    exact congrArg _ (toNat_ofNat_of_lt (by omega))
  · exact s.mem.read_store_outside (by rwa [resbufBytes_length])
  · have hbit := henc.value i _ (xqElems_getElem? hi) hnz
    rw [countNonzero_take_xqElems hi.le, Nat.zero_add] at hbit
    rw [resbufBit_applyRefinement _ _ _ (by omega), hbit (by omega)]
    exact encodedBit_iff
  · have hlen := henc.length_le
    rw [resbufBit_applyRefinement _ _ _ hn, List.getD_eq_default _ _ (by omega)]

/-! ### The coefficients that RES_DECODE refines (R300, 30_encoding.md R131) -/

theorem refinementBitAt_written (hpos : 0 < s.NBYTES) (hmax : s.NBYTES ≤ 400)
    (hw : payloadWritten s) (n : Nat) :
    refinementBitAt s n = .ok (payloadBit s n) := by
  have hbyte : payloadByte s (s.dec.bytes.toNat + n / 8) = .ok (payloadValue s (s.dec.bytes.toNat + n / 8)) :=
    payByte_written (show _ < 400 by omega) (hw _ (by omega))
  rw [refinementBitAt, hbyte, payloadBit]

/-- The reconstruction of a coefficient q that has k nonzero ones before it, with `left` refinement bits from
bit n on. -/
def reconstruction (s : State) (n left k : Nat) (q : Int) : Int :=
  if q ≠ 0 ∧ k < left then refined q (payloadBit s (n + k)) else q * 4096

theorem reconstruction_unrefined {n left : Nat} {q : Int} (h : q = 0 ∨ left = 0) (k : Nat) :
    reconstruction s n left k q = q * 4096 := by
  rw [reconstruction, if_neg (by omega)]

theorem reconstruction_refined {n left k : Nat} {q : Int} (hq : q ≠ 0) (hk : k < left) :
    reconstruction s n left k q = refined q (payloadBit s (n + k)) := if_pos ⟨hq, hk⟩

/-- A bit taken moves the following coefficients on by one. -/
theorem reconstruction_shift (n left k : Nat) (q : Int) :
    reconstruction s (n + 1) left k q = reconstruction s n (left + 1) (k + 1) q := by
  simp only [reconstruction, Nat.add_lt_add_iff_right, Nat.add_right_comm n 1 k, Nat.add_assoc]

/-- The values of the coefficients `qs`, each its coefficient's reconstruction. -/
structure Refines (s : State) (n left : Nat) (qs vs : List Int) : Prop where
  length_eq : vs.length = qs.length
  value : ∀ j q, qs[j]? = some q →
    vs.getD j 0 = reconstruction s n left (countNonzero (qs.take j)) q

theorem Refines.cons_unrefined {n left : Nat} {p : Int} (hp : p = 0 ∨ left = 0) {qs vs : List Int}
    (h : Refines s n left qs vs) : Refines s n left (p :: qs) (p * 4096 :: vs) where
  length_eq := congrArg Nat.succ h.length_eq
  value
    | 0, q, hq => by
      cases hq
      exact (reconstruction_unrefined hp _).symm
    | j + 1, q, hq => by
      rw [List.getD_cons_succ, h.value j q hq, List.take_succ_cons]
      rcases hp with rfl | rfl
      · rw [countNonzero_cons_zero]
      · rw [reconstruction_unrefined (.inr rfl), reconstruction_unrefined (.inr rfl)]

theorem Refines.cons_refined {n left : Nat} {p : Int} (hp : p ≠ 0) {qs vs : List Int}
    (h : Refines s (n + 1) left qs vs) :
    Refines s n (left + 1) (p :: qs) (refined p (payloadBit s n) :: vs) where
  length_eq := congrArg Nat.succ h.length_eq
  value
    | 0, q, hq => by
      cases hq
      exact (reconstruction_refined hp (Nat.succ_pos _)).symm
    | j + 1, q, hq => by
      rw [List.getD_cons_succ, h.value j q hq, List.take_succ_cons, countNonzero_cons_of_ne hp,
        reconstruction_shift]

theorem refineFrom_refines (hbits : ∀ n, refinementBitAt s n = .ok (payloadBit s n)) (n left : Nat)
    (qs : List Int) : ∃ vs, refineFrom s n left qs = .ok vs ∧ Refines s n left qs vs := by
  induction qs generalizing n left with
  | nil => exact ⟨[], rfl, rfl, nofun⟩
  | cons q rest ih =>
    by_cases h : q = 0 ∨ left = 0
    · obtain ⟨vs, hvs, href⟩ := ih n left
      exact ⟨_, by rw [refineFrom, if_pos h, hvs], href.cons_unrefined h⟩
    · obtain ⟨hq, hleft⟩ := not_or.mp h
      obtain ⟨left, rfl⟩ := Nat.exists_eq_succ_of_ne_zero hleft
      obtain ⟨vs, hvs, href⟩ := ih (n + 1) left
      exact ⟨_, by simp only [refineFrom, if_neg h, hbits, Nat.succ_sub_one, hvs], href.cons_refined hq⟩

/-! ### RES_DECODE (R299, R300) -/

/-- The number of refinements of a good frame (R299), as a signed number. -/
def decodedCount (s : State) : Int :=
  if s.fstat.biterr then 0 else decoderCount s (refinementIndex s s.NE)

/-- The state that RES_DECODE completes, from the values of XR and the count. -/
def State.applyReconstruction (s : State) (vs : List Int) (n : Int) : State :=
  { s.setXr vs with
    resNbits := BitVec.ofInt 10 n
    fstat := { s.fstat with resValid := true } }

/-- XR[i] as a word, once RES_DECODE has completed. -/
theorem xrWord_applyReconstruction (s : State) (vs : List Int) (n : Int) {i : Nat} (hi : i < 400) :
    ramWord (s.applyReconstruction vs n).complete (XR_BASE + 4 * i) = BitVec.ofInt 32 (vs.getD i 0) :=
  ramWord_store_paddedWords { (s.applyReconstruction vs n).complete with mem := s.mem } XR_BASE vs
    (by decide) hi

theorem resDecodeBody_of_values (hbfi : s.cfg.mode.bfi = false) {vs : List Int}
    (h : refineFrom s 0 (decodedCount s).toNat (xqElems s s.NE) = .ok vs) :
    resDecodeBody s = .ok (s.applyReconstruction vs (decodedCount s)) := by
  rw [decodedCount, refinementIndex] at h ⊢
  simp only [resDecodeBody, hbfi, Bool.false_eq_true, if_false, h, State.applyReconstruction]

theorem exec_resDecode (hcfg : decodeConfigured s) (hrc : s.fstat.rcValid = true)
    (hres : s.fstat.resValid = false) (hbody : resDecodeBody s = .ok t) :
    exec .resDecode s = .next t.complete := by
  refine exec_ok (firstError_eq_none.mpr ?_) hbody
  simp [checksOf, decodeConfigOk_of_decodeConfigured hcfg, resDecodeLegal, hrc, hres]

/-- A reconstruction from bit 0 on, with a count that may be negative, in the form of the rule. -/
theorem reconstruction_eq (s : State) (nres : Int) (k : Nat) (q : Int) :
    reconstruction s 0 nres.toNat k q =
      q * 4096 +
        if q ≠ 0 ∧ (k : Int) < nres then q.sign * (if payloadBit s k then 0x500 else -0x300) else 0 := by
  simp only [reconstruction, Int.lt_toNat, Nat.zero_add, refined_eq]
  split
  · rfl
  · rw [add_zero]

/-- Settles O33: the walk reconstructs every coefficient, and XR holds what it leaves. -/
theorem resDecodeResult : Obligations.ResDecodeResult := by
  intro s hcfg hw hbfi hrc hres left nres
  obtain ⟨-, hne, -, hmin, hmax, -⟩ := id hcfg
  obtain ⟨vs, hvs, href⟩ :=
    refineFrom_refines (refinementBitAt_written (by omega) hmax hw) 0 nres.toNat (xqElems s s.NE)
  have hlen : vs.length = s.NE := href.length_eq.trans (xqElems_length s _)
  have hbody := resDecodeBody_of_values hbfi hvs
  refine ⟨_, exec_resDecode hcfg hrc hres hbody, rfl, fun a ha => ?_, fun i hi => ?_, fun i hge hi => ?_⟩
  · exact s.mem.read_store_outside (by rwa [paddedWords_length])
  · have hvalue := href.value i _ (xqElems_getElem? hi)
    rw [countNonzero_take_xqElems hi.le, reconstruction_eq] at hvalue
    rw [xrWord_applyReconstruction _ _ _ (by omega), hvalue]
  · rw [xrElem, xrWord_applyReconstruction _ _ _ hi, List.getD_eq_default _ _ (by omega)]
    rfl

end Sys2Proof.Machine

/-! ## Side information (45_sideinfo.md)

SI_UNPACK walks one reader over the fields of 30_encoding.md R125. In a legal configuration with a written
payload the reader never overruns, so that its whole state is a position, and the walk is a table of the
positions at which each field ends. -/

namespace Sys2Proof.Machine

-- One proof at a time: in one file with the tests, waiting proofs would each hold a thread.
set_option Elab.async false

variable {s t : State} {p q w n : Nat}

/-! ### Where the fields stand (30_encoding.md R125) -/

/-- The position of the pitch-present bit, the first after the TNS flags. -/
def pitchPos (s : State) : Nat := s.BW_BITS + ceilLog2 (s.NE / 2) + 9 + s.NF_TNS

/-- The pitch-present bit. -/
def pitchPresent (s : State) : Bool := sideBitAt s (pitchPos s)

/-- The submode number j. -/
def submode (s : State) : Nat := sideNumber s (pitchPos s + 11) 2

/-- The position of the leading sign of section A, after the gain index. -/
def signAPos (s : State) : Nat := pitchPos s + 13 + gainWidth (submode s)

/-- The position of section B, after the index of section A. -/
def sectionBPos (s : State) : Nat := signAPos s + 1 + indexWidthA (submode s)

/-- The position of the pitch index. -/
def pitchIndexPos (s : State) : Nat := sectionBPos s + if submode s = 0 then 4 else 0

/-- The position of the noise-filling level, the last field. -/
def noiseFillPos (s : State) : Nat := pitchIndexPos s + if pitchPresent s = true then 10 else 0

theorem submode_lt (s : State) : submode s < 4 := sideNumber_lt s _ 2

theorem sideInfoOf_snsShape (s : State) : (sideInfoOf s).snsShape.toNat = submode s :=
  (BitVec.toNat_ofNat ..).trans (Nat.mod_eq_of_lt (submode_lt s))

theorem sideInfoOf_pitch (s : State) : (sideInfoOf s).pitch = pitchPresent s := rfl

/-- The walk up to the pitch-present bit ends within 22 bits of a legal configuration. -/
theorem pitchPos_le (hne : s.NE ≤ 400) (htns : s.NF_TNS ≤ 2) : pitchPos s ≤ 22 := by
  have hbw : s.BW_BITS ≤ 3 := Nat.le_of_lt_succ s.cfg.mode.bwBits.isLt
  have hlast := ceilLog2_half_le hne
  unfold pitchPos
  omega

/-! ### Reading at a position (R310) -/

/-- A reader at position p that has not overrun. -/
def BitReader.ofPos (p : Nat) : BitReader := { pos := p, overrun := false }

theorem bind_eq_of_ok {ε α β : Type} {x : Except ε α} {f : α → Except ε β} {a : α} {r : Except ε β}
    (hx : x = .ok a) (hf : f a = r) : (x >>= f) = r := by rw [hx]; exact hf

theorem sideNumber_one (s : State) (p : Nat) : sideNumber s p 1 = bit (sideBitAt s p) := by
  simp [sideNumber]

@[simp] theorem bit_eq_one (b : Bool) : bit b = 1 ↔ b = true := by cases b <;> decide

theorem decide_sideNumber_one (s : State) (p : Nat) :
    decide (sideNumber s p 1 = 1) = sideBitAt s p := by
  rw [sideNumber_one]; simp

/-- A field of one bit that may be absent, as a flag. -/
theorem decide_optional_bit (s : State) (p : Nat) (c : Prop) [Decidable c] :
    decide ((if c then sideNumber s p 1 else 0) = 1) = (decide c && sideBitAt s p) := by
  by_cases hc : c
  · simp only [if_pos hc, decide_sideNumber_one, decide_eq_true hc, Bool.true_and]
  · simp [hc]

section
variable (hmax : s.NBYTES ≤ 400) (hw : payloadWritten s)
include hmax hw

/-- A field from p to q, both within the frame, reads as its number and leaves the reader at q. -/
theorem readField_ofPos (q : Nat) (hq : p + w = q) (hle : q ≤ 8 * s.NBYTES) :
    readField s w (.ofPos p) = .ok (sideNumber s p w, .ofPos q) := by
  subst hq
  exact readField_written hmax hw rfl hle

/-- A field that is present under the condition c, and then starts at start. -/
theorem readFieldIf_ofPos {present : Bool} (c : Prop) [Decidable c] (start q : Nat)
    (hc : present = true ↔ c) (hp : c → p = start) (hq : p + (if c then w else 0) = q)
    (hle : q ≤ 8 * s.NBYTES) :
    readFieldIf s present w (.ofPos p) =
      .ok (if c then sideNumber s start w else 0, .ofPos q) := by
  unfold readFieldIf
  by_cases h : c
  · rw [if_pos h] at hq ⊢
    rw [if_pos (hc.mpr h), ← hp h, readField_ofPos hmax hw q hq hle]
  · rw [if_neg h] at hq ⊢
    rw [if_neg (mt hc.mp h), ← hq]
    rfl

/-- The TNS flags are the bits from p on, that of filter f weighted by 2^f (R311). -/
theorem readTnsFlags_ofPos (f q : Nat) (hq : p + n = q) (hle : q ≤ 8 * s.NBYTES) :
    readTnsFlags s n f (.ofPos p) =
      .ok (((List.range n).map fun i => bit (sideBitAt s (p + i)) * 2 ^ (f + i)).sum, .ofPos q) := by
  induction n generalizing p f with
  | zero => subst hq; rfl
  | succ n ih =>
    have hbit := readField_ofPos hmax hw (w := 1) (p + 1) rfl (by omega)
    have hrest := ih (p := p + 1) (f + 1) (by omega)
    simp only [readTnsFlags, hbit, hrest, sideNumber_one, List.range_succ_eq_map, List.map_cons,
      List.map_map, List.sum_cons, Nat.add_zero, Function.comp_def, Nat.succ_eq_add_one,
      Nat.add_assoc, Nat.add_comm 1]

end

/-- In a legal configuration with a written payload every field reads as what stands at its place, and the
reader ends after the noise-filling level. Each step of the walk names the position at which its field ends,
in the order of R125; an optional field also names where it starts when it is present. -/
theorem readSideInfo_written (hcfg : decodeConfigured s) (hw : payloadWritten s) :
    readSideInfo s =
      .ok ({ sideInfoOf s with bits := 0, bytes := 0 }, .ofPos (noiseFillPos s + 3)) := by
  obtain ⟨-, hne, -, hmin, hmax, htns⟩ := hcfg
  have hpitch := pitchPos_le hne (by omega)
  have hp : pitchPos s = s.BW_BITS + ceilLog2 (s.NE / 2) + 9 + s.NF_TNS := rfl
  have hstage := stageTwoBits_le (submode s)
  have ha : signAPos s = pitchPos s + 13 + gainWidth (submode s) := rfl
  have hb : sectionBPos s = signAPos s + 1 + indexWidthA (submode s) := rfl
  have hc : pitchIndexPos s = sectionBPos s + if submode s = 0 then 4 else 0 := rfl
  have hn : noiseFillPos s = pitchIndexPos s + if pitchPresent s = true then 10 else 0 := rfl
  have hsectionB : (if submode s = 0 then 4 else 0) =
      (if submode s = 0 then 1 else 0) + if submode s = 0 then 3 else 0 := by split <;> rfl
  have hpitchFields : (if pitchPresent s = true then 10 else 0) =
      (if pitchPresent s = true then 9 else 0) + if pitchPresent s = true then 1 else 0 := by split <;> rfl
  have hpitchWidth : (if pitchPresent s = true then 10 else 0) ≤ 10 := by split <;> decide
  have hpresent : decide (sideNumber s (pitchPos s) 1 = 1) = true ↔ pitchPresent s = true := by
    rw [decide_sideNumber_one, pitchPresent]
  have field {w p : Nat} := readField_ofPos (w := w) (p := p) hmax hw
  have fieldIf {w p : Nat} {b : Bool} := readFieldIf_ofPos (w := w) (p := p) (present := b) hmax hw
  unfold readSideInfo
  refine
    bind_eq_of_ok (field (p := 0) s.BW_BITS (by omega) (by omega)) <|
    bind_eq_of_ok (field (s.BW_BITS + ceilLog2 (s.NE / 2)) rfl (by omega)) <|
    bind_eq_of_ok (field (s.BW_BITS + ceilLog2 (s.NE / 2) + 1) rfl (by omega)) <|
    bind_eq_of_ok (field (s.BW_BITS + ceilLog2 (s.NE / 2) + 9) rfl (by omega)) <|
    bind_eq_of_ok (readTnsFlags_ofPos hmax hw 0 (pitchPos s) rfl (by omega)) <|
    bind_eq_of_ok (field (pitchPos s + 1) rfl (by omega)) <|
    bind_eq_of_ok (field (pitchPos s + 6) rfl (by omega)) <|
    bind_eq_of_ok (field (pitchPos s + 11) rfl (by omega)) <|
    bind_eq_of_ok (field (pitchPos s + 13) rfl (by omega)) <|
    bind_eq_of_ok (field (signAPos s) rfl (by omega)) <|
    bind_eq_of_ok (field (signAPos s + 1) rfl (by omega)) <|
    bind_eq_of_ok (field (sectionBPos s) rfl (by omega)) <|
    bind_eq_of_ok (fieldIf (submode s = 0) (sectionBPos s)
      (sectionBPos s + if submode s = 0 then 1 else 0) decide_eq_true_iff (fun _ => rfl) rfl ?_) <|
    bind_eq_of_ok (fieldIf (submode s = 0) (sectionBPos s + 1) (pitchIndexPos s) decide_eq_true_iff
      (fun hj => by rw [if_pos hj]) ?_ ?_) <|
    bind_eq_of_ok (fieldIf (pitchPresent s = true) (pitchIndexPos s)
      (pitchIndexPos s + if pitchPresent s = true then 9 else 0) hpresent (fun _ => rfl) rfl ?_) <|
    bind_eq_of_ok (fieldIf (pitchPresent s = true) (pitchIndexPos s + 9) (noiseFillPos s) hpresent
      (fun hj => by rw [if_pos hj]) ?_ ?_) <|
    bind_eq_of_ok (field (noiseFillPos s + 3) rfl ?_) ?fields
  case fields =>
    simp only [decide_sideNumber_one, decide_optional_bit, apply_ite (BitVec.ofNat _), Nat.zero_add,
      Bool.decide_eq_true]
    rfl
  all_goals omega

/-! ### SI_UNPACK (R311, R313, R314) -/

/-- FSTAT after the side information: a last line index above NE is a bit error (R314). -/
def sideInfoStatus (s : State) : FrameStatus :=
  { (if s.NE < (sideInfoOf s).lastnz.toNat then s.fstat.flagged 5 else s.fstat) with siValid := true }

theorem sideInfoStatus_of_lt (h : s.NE < (sideInfoOf s).lastnz.toNat) :
    sideInfoStatus s = { s.fstat.flagged 5 with siValid := true } := by
  rw [sideInfoStatus, if_pos h]

theorem sideInfoStatus_of_le (h : (sideInfoOf s).lastnz.toNat ≤ s.NE) :
    sideInfoStatus s = { s.fstat with siValid := true } := by
  rw [sideInfoStatus, if_neg (Nat.not_lt.mpr h)]

/-- What SI_UNPACK does with a frame that is not bad: no field overruns (R313), so that SI_BITS is the end
of the last field and the only bit error left is that of the last line index. -/
theorem siUnpackBody_written (hcfg : decodeConfigured s) (hw : payloadWritten s)
    (hbfi : s.cfg.mode.bfi = false) :
    siUnpackBody s = .ok { s with si := sideInfoOf s, fstat := sideInfoStatus s } := by
  simp only [siUnpackBody, hbfi, Bool.false_eq_true, if_false, readSideInfo_written hcfg hw,
    sideInfoErrors_within (rd := .ofPos _) rfl]
  rfl

/-- SI_UNPACK is legal once per frame (R311), and then completes with what its body leaves. -/
theorem exec_siUnpack (hcfg : decodeConfigured s) (hsi : s.fstat.siValid = false)
    (hbody : siUnpackBody s = .ok t) : exec .siUnpack s = .next t.complete := by
  refine exec_ok (firstError_eq_none.mpr ?_) hbody
  simp [checksOf, decodeConfigOk_of_decodeConfigured hcfg, hsi]

/-- Settles O35: what stands at each place is what the walk reads there. -/
theorem siUnpackResult : Obligations.SiUnpackResult := by
  intro s hcfg hw hbfi hsi
  exact ⟨_, exec_siUnpack hcfg hsi (siUnpackBody_written hcfg hw hbfi), rfl, sideInfoStatus_of_lt,
    sideInfoStatus_of_le⟩

/-! ### The size of the side information (R312) -/

theorem countP_range_lt (m n : Nat) : ((List.range n).countP fun v => decide (v < m)) = min n m := by
  induction n with
  | zero => simp
  | succ n ih =>
    simp only [List.range_succ, List.countP_append, ih, List.countP_cons, List.countP_nil,
      decide_eq_true_eq]
    split <;> omega

/-- The model's search for the width is Mathlib's logarithm rounded up. -/
theorem ceilLog2_eq_clog (n : Nat) : ceilLog2 n = Nat.clog 2 n := by
  have hle : Nat.clog 2 n ≤ n := Nat.clog_le_of_le_pow Nat.lt_two_pow_self.le
  simp only [ceilLog2, ← Nat.lt_clog_iff_pow_lt Nat.one_lt_two, countP_range_lt, Nat.min_eq_right hle]

theorem le_two_pow_ceilLog2 (n : Nat) : n ≤ 2 ^ ceilLog2 n := by
  rw [ceilLog2_eq_clog]
  exact Nat.le_pow_clog Nat.one_lt_two n

theorem lt_ceilLog2_iff {v n : Nat} : v < ceilLog2 n ↔ 2 ^ v < n := by
  rw [ceilLog2_eq_clog, Nat.lt_clog_iff_pow_lt Nat.one_lt_two]

/-- The stage-2 bits after the submode number (R312). -/
def stageTwoBits (j : Nat) : Nat := ([28, 25, 27, 24] : List Nat).getD j 0

theorem stageTwoBits_eq {j : Nat} (hj : j < 4) :
    gainWidth j + 1 + indexWidthA j + (if j = 0 then 4 else 0) = stageTwoBits j := by
  decide +revert

theorem stageTwoBits_bounds {j : Nat} (hj : j < 4) : 24 ≤ stageTwoBits j ∧ stageTwoBits j ≤ 28 := by
  decide +revert

/-- The number of side-information bits, by the rule's formula. -/
theorem noiseFillPos_add_three (s : State) :
    noiseFillPos s + 3 =
      s.BW_BITS + ceilLog2 (s.NE / 2) + 1 + 8 + s.NF_TNS + 1 + 5 + 5 + 2 + stageTwoBits (submode s) +
        (if pitchPresent s then 10 else 0) + 3 := by
  rw [← stageTwoBits_eq (submode_lt s), noiseFillPos, pitchIndexPos, sectionBPos, signAPos, pitchPos]
  omega

theorem noiseFillPos_bounds (hcfg : decodeConfigured s) :
    51 ≤ noiseFillPos s + 3 ∧ noiseFillPos s + 3 ≤ 76 := by
  obtain ⟨hmin, hmax, -, -, -, htns⟩ := hcfg
  have hbw : s.BW_BITS ≤ 3 := Nat.le_of_lt_succ s.cfg.mode.bwBits.isLt
  have hlast : 0 < ceilLog2 (s.NE / 2) := lt_ceilLog2_iff.mpr (by omega)
  have hlast' := ceilLog2_half_le hmax
  have hstage := stageTwoBits_bounds (submode_lt s)
  have hpitch : (if pitchPresent s = true then 10 else 0) ≤ 10 := by split <;> decide
  rw [noiseFillPos_add_three]
  omega

theorem sideInfoOf_bits (hcfg : decodeConfigured s) : (sideInfoOf s).bits.toNat = noiseFillPos s + 3 := by
  obtain ⟨-, hhi⟩ := noiseFillPos_bounds hcfg
  change (BitVec.ofNat 12 (noiseFillPos s + 3)).toNat = _
  exact (BitVec.toNat_ofNat ..).trans (Nat.mod_eq_of_lt (by omega))

theorem sideInfoOf_bytes (hcfg : decodeConfigured s) :
    (sideInfoOf s).bytes.toNat = ((sideInfoOf s).bits.toNat + 7) / 8 := by
  obtain ⟨-, hhi⟩ := noiseFillPos_bounds hcfg
  rw [sideInfoOf_bits hcfg]
  change (BitVec.ofNat 10 ((noiseFillPos s + 3 + 7) / 8)).toNat = _
  exact (BitVec.toNat_ofNat ..).trans (Nat.mod_eq_of_lt (by omega))

/-- Settles O36: the last field's end is the sum of the widths, the width of the last line index the least
that holds NE / 2 values. -/
theorem sideInfoSize : Obligations.SideInfoSize := by
  intro s hcfg hw hbfi hsi
  obtain ⟨hlo, hhi⟩ := noiseFillPos_bounds hcfg
  refine ⟨_, exec_siUnpack hcfg hsi (siUnpackBody_written hcfg hw hbfi), ?_⟩
  rw [State.complete_si, sideInfoOf_bytes hcfg, sideInfoOf_bits hcfg, sideInfoOf_snsShape,
    sideInfoOf_pitch]
  exact ⟨⟨_, le_two_pow_ceilLog2 _, fun v hv => lt_ceilLog2_iff.mp hv, noiseFillPos_add_three s⟩,
    hlo, hhi, rfl, by omega, by omega⟩

end Sys2Proof.Machine

/-! ## The whole frame (46_frame.md)

DECODE_FRAME runs the bodies of the five decode commands one after the other. The commands themselves run the
same bodies with a completion after each, which moves STATUS, the pending word and the count behind the free
values. No body reads the first two, and the third only decides what an XQ word that holds no value reads as,
which after RC_DECODE none is. So a body leaves the same block with or without the completion before it. -/

namespace Sys2Proof.Machine

-- One proof at a time: in one file with the tests, waiting proofs would each hold a thread.
set_option Elab.async false

open Config (Roms)

variable {s t u : State} {r : Roms} {a i : Nat}

/-! ### Bad frames (R333) -/

section
variable (hbfi : s.cfg.mode.bfi = true)
include hbfi

theorem siUnpackBody_of_bfi : siUnpackBody s =
    .ok { s with si := SideInfo.zero, fstat := { s.fstat with bfiSeen := true, siValid := true } } :=
  if_pos hbfi

theorem rcInitBody_of_bfi : rcInitBody s =
    .ok
      { s with
        coder := { low := 0, range := 0xFFFFFF, cursor := 0 }
        dec := { s.dec with ctx := 0, fsm := .ready }
        fstat := { s.fstat with bfiSeen := true } } :=
  if_pos hbfi

/-- RC_DECODE of a bad frame holds nothing decoded, from READY and from ERROR alike (R223). -/
theorem rcDecodeBody_of_bfi : rcDecodeBody r s =
    .ok
      { s with
        dec := { Decoder.zero with sym := s.dec.sym, fsm := .terminal }
        fstat := { s.fstat with bfiSeen := true, rcValid := true }
        mem := s.mem.store XQ_BASE (paddedWords []) } := by
  have hdec : (s.applyProgress (Progress.start s.coder) .terminal 0).dec =
      { Decoder.zero with sym := s.dec.sym, fsm := .terminal } :=
    congrArg (fun d : Decoder => { d with fsm := .terminal }) (applyProgress_start_dec s s.coder)
  rw [← hdec]
  exact if_pos hbfi

theorem resDecodeBody_of_bfi : resDecodeBody s =
    .ok
      { s with
        resNbits := 0
        fstat := { s.fstat with bfiSeen := true, resValid := true }
        mem := s.mem.store XR_BASE (paddedWords []) } :=
  if_pos hbfi

theorem pvqShapeBody_of_bfi : pvqShapeBody s =
    { s with snsY := snsYZero, fstat := { s.fstat with bfiSeen := true, shapeValid := true } } :=
  if_pos hbfi

/-- The five rows of R333 one after the other. -/
theorem decodeFrameBody_of_bfi : decodeFrameBody r s =
    .ok
      { s with
        si := SideInfo.zero
        coder := { low := 0, range := 0xFFFFFF, cursor := 0 }
        dec := { Decoder.zero with sym := s.dec.sym, fsm := .terminal }
        resNbits := 0
        snsY := snsYZero
        fstat :=
          { s.fstat with
            bfiSeen := true, siValid := true, rcValid := true, resValid := true, shapeValid := true }
        mem := (s.mem.store XQ_BASE (paddedWords [])).store XR_BASE (paddedWords []) } := by
  simp only [decodeFrameBody, thenBody, siUnpackBody_of_bfi hbfi, rcInitBody_of_bfi, rcDecodeBody_of_bfi,
    resDecodeBody_of_bfi, pvqShapeBody_of_bfi, hbfi]

end

/-! ### RAMs of a bad frame (R56) -/

theorem Memory.read_store_padded_nil (m : Memory) {lo : Nat} (h : inRange lo 1600 a) :
    (m.store lo (paddedWords [])).read a = some 0 := by
  rw [paddedWords_nil]
  exact m.read_store_replicate 0 h

theorem Memory.read_store_padded_outside (m : Memory) {lo : Nat} {vs : List Int} (h : ¬ inRange lo 1600 a) :
    (m.store lo (paddedWords vs)).read a = m.read a :=
  m.read_store_outside (by rwa [paddedWords_length])

theorem xqElem_eq_zero (h : ∀ a, inRange XQ_BASE 1600 a → t.mem.read a = some 0) (hi : i < 400) :
    xqElem t i = 0 := by
  rw [xqElem, ramWord_eq_zero fun k hk => h _ ⟨by omega, by omega⟩]
  rfl

theorem xrElem_eq_zero (h : ∀ a, inRange XR_BASE 1600 a → t.mem.read a = some 0) (hi : i < 400) :
    xrElem t i = 0 := by
  rw [xrElem, ramWord_eq_zero fun k hk => h _ ⟨by omega, by omega⟩]
  rfl

theorem not_inRange_xr_of_xq (h : inRange XQ_BASE 1600 a) : ¬ inRange XR_BASE 1600 a := by
  obtain ⟨-, hlt⟩ := h
  unfold XQ_BASE at hlt
  unfold inRange XR_BASE
  omega

/-! ### The commands as their bodies -/

theorem exec_rcDecode (hcfg : decodeConfigured s) (hf : s.dec.fsm = .ready ∨ s.dec.fsm = .error)
    (hrc : s.fstat.rcValid = false) (hbody : rcDecodeBody blockRoms s = .ok t) :
    exec .rcDecode s = .next t.complete :=
  rcDecodeWith_of_ok hcfg hf hrc hbody

theorem exec_decodeFrame (hcfg : decodeConfigured s) (hsi : s.fstat.siValid = false)
    (hbody : decodeFrameBody blockRoms s = .ok t) : exec .decodeFrame s = .next t.complete := by
  refine exec_ok (firstError_eq_none.mpr ?_) hbody
  simp [checksOf, decodeConfigOk_of_decodeConfigured hcfg, hsi]

/-- Settles O38: each body takes its bad-frame branch, which reads no memory, and the RAMs that it writes hold
zero bytes. -/
theorem badFrameDecode : Obligations.BadFrameDecode := by
  intro s hcfg hbfi
  refine ⟨fun hsi => ?_, fun hsi hidle => ?_, fun hf hrc => ?_, fun hrc hres => ?_, fun hsi hshape => ?_,
    fun hsi => ?_⟩
  · exact ⟨_, exec_siUnpack hcfg hsi (siUnpackBody_of_bfi hbfi), rfl⟩
  · exact ⟨_, exec_rcInit hcfg hsi hidle (rcInitBody_of_bfi hbfi), rfl⟩
  · exact ⟨_, exec_rcDecode hcfg hf hrc (rcDecodeBody_of_bfi hbfi), rfl,
      fun i hi => xqElem_eq_zero (fun a ha => s.mem.read_store_padded_nil ha) hi,
      fun a ha => s.mem.read_store_padded_outside ha⟩
  · exact ⟨_, exec_resDecode hcfg hrc hres (resDecodeBody_of_bfi hbfi), rfl,
      fun i hi => xrElem_eq_zero (fun a ha => s.mem.read_store_padded_nil ha) hi,
      fun a ha => s.mem.read_store_padded_outside ha⟩
  · exact ⟨_, exec_pvqShape hcfg hsi hshape, by rw [pvqShapeBody_of_bfi hbfi]; rfl⟩
  · refine ⟨_, exec_decodeFrame hcfg hsi (decodeFrameBody_of_bfi hbfi), rfl, fun i hi =>
      ⟨xqElem_eq_zero (fun a ha => ?_) hi, xrElem_eq_zero (fun a ha => ?_) hi⟩, fun a hxq hxr => ?_⟩
    · exact (Memory.read_store_padded_outside _ (not_inRange_xr_of_xq ha)).trans
        (s.mem.read_store_padded_nil ha)
    · exact Memory.read_store_padded_nil _ ha
    · exact (Memory.read_store_padded_outside _ hxr).trans (s.mem.read_store_padded_outside hxq)

/-! ### Bodies and completions (60_exceptions.md R367) -/

/-- The state with another STATUS, pending word and count behind the free values: what a completion moves. -/
def State.withControl (s : State) (st : Status) (w : Option Word) (n : Nat) : State :=
  { s with status := st, pending := w, epoch := n }

/-- From the state `s` the body does the same, whatever a completion has moved. -/
def IgnoresControl (f : State → Except Fault State) (s : State) : Prop :=
  ∀ st w n, f (s.withControl st w n) = (f s).map fun u => u.withControl st w n

theorem IgnoresControl.of_ok {f : State → Except Fault State} (h : IgnoresControl f s) (hu : f s = .ok u)
    (st : Status) (w : Option Word) (n : Nat) :
    f (s.withControl st w n) = .ok (u.withControl st w n) := by
  rw [h, hu]
  rfl

/-- Such a body leaves STATUS as it stands. -/
theorem IgnoresControl.status_eq {f : State → Except Fault State} (h : IgnoresControl f s)
    (hu : f s = .ok u) : u.status = s.status := by
  have hself : u = u.withControl s.status s.pending s.epoch :=
    Except.ok.inj (hu.symm.trans (h.of_ok hu s.status s.pending s.epoch))
  calc
    u.status = (u.withControl s.status s.pending s.epoch).status := congrArg State.status hself
    _ = s.status := rfl

section
variable (s : State) (r : Roms) (st : Status) (w : Option Word) (n : Nat)

@[simp] theorem State.withControl_cfg : (s.withControl st w n).cfg = s.cfg := rfl
@[simp] theorem State.withControl_fstat : (s.withControl st w n).fstat = s.fstat := rfl
@[simp] theorem State.withControl_si : (s.withControl st w n).si = s.si := rfl
@[simp] theorem State.withControl_dec : (s.withControl st w n).dec = s.dec := rfl
@[simp] theorem State.withControl_coder : (s.withControl st w n).coder = s.coder := rfl
@[simp] theorem State.withControl_mem : (s.withControl st w n).mem = s.mem := rfl
@[simp] theorem State.withControl_NE : (s.withControl st w n).NE = s.NE := rfl
@[simp] theorem State.withControl_PB : (s.withControl st w n).PB = s.PB := rfl

theorem payloadByte_withControl : payloadByte (s.withControl st w n) = payloadByte s := rfl

theorem renorm_withControl (sym avail low range cursor : Nat) :
    renorm (s.withControl st w n) sym avail low range cursor = renorm s sym avail low range cursor := by
  induction avail generalizing low range cursor with
  | zero => simp only [renorm]
  | succ avail ih => simp only [renorm, payloadByte_withControl, ih]

theorem decSym_withControl : decSym (s.withControl st w n) = decSym s := by
  funext cum m c
  simp only [decSym, State.withControl_PB, renorm_withControl]

theorem decBit_withControl : decBit (s.withControl st w n) = decBit s := by
  funext c
  rw [decBit, decSym_withControl, decBit]

theorem escapeChain_withControl (t left lev a b : Nat) (c : RangeCoder) :
    escapeChain r (s.withControl st w n) t left lev a b c = escapeChain r s t left lev a b c := by
  induction left generalizing lev a b c with
  | zero => simp only [escapeChain, decSym_withControl]
  | succ left ih =>
    simp only [escapeChain, rawPair, decSym_withControl, decBit_withControl, State.withControl_si, ih]

theorem decodeTuple_withControl : decodeTuple r (s.withControl st w n) = decodeTuple r s := by
  funext ctx j c
  have hctx : contextIndex (s.withControl st w n) = contextIndex s := rfl
  simp only [decodeTuple, signedMagnitude, hctx, escapeChain_withControl, decBit_withControl]

theorem decodeSections_withControl : decodeSections r (s.withControl st w n) = decodeSections r s := by
  have horder : orderStage r (s.withControl st w n) = orderStage r s := by
    funext f p
    simp only [orderStage, decSym_withControl, State.withControl_si, State.withControl_cfg]
  have hcoef : coefStage r (s.withControl st w n) = coefStage r s := by
    funext f p
    simp only [coefStage, decSym_withControl]
  have htuple : tupleStage r (s.withControl st w n) = tupleStage r s := by
    funext j p
    simp only [tupleStage, decodeTuple_withControl]
  unfold decodeSections
  rw [horder, hcoef, htuple]
  rfl

theorem refineFrom_withControl (k left : Nat) (qs : List Int) :
    refineFrom (s.withControl st w n) k left qs = refineFrom s k left qs := by
  have hbit : refinementBitAt (s.withControl st w n) = refinementBitAt s := rfl
  induction qs generalizing k left with
  | nil => rfl
  | cons q rest ih => simp only [refineFrom, hbit, ih]

end

/-- A byte that holds a value is no free value. -/
theorem ramByte_withControl (h : (s.mem.read a).isSome = true) (st : Status) (w : Option Word) (n : Nat) :
    ramByte (s.withControl st w n) a = ramByte s a := by
  obtain ⟨b, hb⟩ := Option.isSome_iff_exists.mp h
  simp only [ramByte, State.withControl_mem, hb, Option.getD_some]

theorem xqElem_withControl (h : XqWritten s.mem) (hi : i < 400) (st : Status) (w : Option Word) (n : Nat) :
    xqElem (s.withControl st w n) i = xqElem s i := by
  have hbyte : ∀ k < 4,
      ramByte (s.withControl st w n) (XQ_BASE + (4 * i + k)) = ramByte s (XQ_BASE + (4 * i + k)) :=
    fun k hk => ramByte_withControl (h _ (by unfold Config.NE_MAX; omega)) st w n
  simp only [xqElem, ramWord, Nat.add_assoc, hbyte 1 (by decide), hbyte 2 (by decide), hbyte 3 (by decide)]
  rw [show ramByte (s.withControl st w n) (XQ_BASE + 4 * i) = ramByte s (XQ_BASE + 4 * i) from
    hbyte 0 (by decide)]

theorem xqElems_withControl (h : XqWritten s.mem) (hne : s.NE ≤ 400) (st : Status) (w : Option Word)
    (n : Nat) : xqElems (s.withControl st w n) s.NE = xqElems s s.NE :=
  List.map_congr_left fun _ hi => xqElem_withControl h (by have := List.mem_range.mp hi; omega) st w n

theorem prime_ignoresControl (s : State) : IgnoresControl prime s := by
  intro st w n
  unfold prime
  rw [State.withControl_PB, payloadByte_withControl]
  by_cases hpb : s.PB < 3
  · rw [if_pos hpb, if_pos hpb]; rfl
  rw [if_neg hpb, if_neg hpb]
  match payloadByte s 0, payloadByte s 1, payloadByte s 2 with
  | .error f, _, _ => rfl
  | .ok b0, .error f, _ => rfl
  | .ok b0, .ok b1, .error f => rfl
  | .ok b0, .ok b1, .ok b2 =>
    dsimp only
    by_cases hlow : 0xFFFFFF ≤ b0 * 2 ^ 16 + b1 * 2 ^ 8 + b2
    · rw [if_pos hlow, if_pos hlow]; rfl
    · rw [if_neg hlow, if_neg hlow]; rfl

theorem rcInitBody_ignoresControl (s : State) : IgnoresControl rcInitBody s := by
  intro st w n
  cases hb : s.cfg.mode.bfi with
  | true => rw [rcInitBody_of_bfi hb, rcInitBody_of_bfi (s := s.withControl st w n) hb]; rfl
  | false =>
    rw [rcInitBody_of_noBfi hb, rcInitBody_of_noBfi (s := s.withControl st w n) hb]
    exact prime_ignoresControl s.clearContext st w n

theorem rcDecodeBody_ignoresControl (r : Roms) (s : State) : IgnoresControl (rcDecodeBody r) s := by
  intro st w n
  unfold rcDecodeBody
  rw [decodeSections_withControl, State.withControl_cfg, State.withControl_dec, State.withControl_si,
    State.withControl_NE]
  by_cases hb : s.cfg.mode.bfi = true
  · rw [if_pos hb, if_pos hb]; rfl
  rw [if_neg hb, if_neg hb]
  by_cases he : s.dec.fsm = .error ∨ s.NE < s.si.lastnz.toNat
  · rw [if_pos he, if_pos he]; rfl
  rw [if_neg he, if_neg he]
  match decodeSections r s with
  | .error f => rfl
  | .ok (p, some e) => rfl
  | .ok (p, none) => rfl

theorem resDecodeBody_ignoresControl (h : XqWritten s.mem) (hne : s.NE ≤ 400) :
    IgnoresControl resDecodeBody s := by
  intro st w n
  have hcount : decoderCount (s.withControl st w n) = decoderCount s := rfl
  unfold resDecodeBody
  dsimp only
  rw [State.withControl_cfg, State.withControl_fstat]
  by_cases hb : s.cfg.mode.bfi = true
  · rw [if_pos hb, if_pos hb]; rfl
  rw [if_neg hb, if_neg hb, State.withControl_NE, xqElems_withControl h hne, hcount, refineFrom_withControl]
  generalize (if s.fstat.biterr then 0 else decoderCount s (countNonzero (xqElems s s.NE))) = k
  cases refineFrom s 0 k.toNat (xqElems s s.NE) with
  | error f => rfl
  | ok vs => rfl

theorem pvqShapeBody_withControl (s : State) (st : Status) (w : Option Word) (n : Nat) :
    pvqShapeBody (s.withControl st w n) = (pvqShapeBody s).withControl st w n := by
  unfold pvqShapeBody
  rw [State.withControl_cfg]
  cases s.cfg.mode.bfi with
  | true => rfl
  | false => rfl

theorem pvqShapeBody_ignoresControl (s : State) : IgnoresControl (fun s => .ok (pvqShapeBody s)) s :=
  fun st w n => congrArg Except.ok (pvqShapeBody_withControl s st w n)

/-! ### The bodies of a frame (R331) -/

/-- What every decode body needs to run: a legal configuration and a written payload (R57, R357). -/
structure Decodable (s : State) : Prop where
  configured : decodeConfigured s
  written : payloadWritten s

theorem Decodable.nbytes_le (h : Decodable s) : s.NBYTES ≤ 400 := by
  obtain ⟨-, -, -, -, hmax, -⟩ := h.configured
  exact hmax

/-- With its payload written, a part of a command that stops on the payload only does not stop. -/
theorem Decodable.runs (h : Decodable s) {x : Except Fault State} (hx : StopsIn (PayloadFault s) x) :
    ∃ u, x = .ok u := by
  cases x with
  | ok u => exact ⟨u, rfl⟩
  | error f =>
    obtain ⟨j, -, hj, hnone⟩ := (hx f rfl).unwritten (decodeConfigOk_of_decodeConfigured h.configured)
    have hsome := h.written j hj
    rw [hnone] at hsome
    cases hsome

theorem Decodable.after (h : Decodable s) (hu : SameInputs s u) : Decodable u where
  configured := by
    have hcfg := h.configured
    simpa only [decodeConfigured, State.NE, State.NBYTES, State.NF_TNS, hu.cfg] using hcfg
  written j hj := by
    have hmax := h.nbytes_le
    rw [hu.nbytes] at hj
    rw [hu.mem _ (by unfold PAYLOAD_BASE XQ_BASE; omega)]
    exact h.written j hj

/-- The validity bits of the decode commands (10_state.md R36): SI_VALID, RC_VALID, RES_VALID and
SHAPE_VALID. -/
def FrameStatus.validIs (f : FrameStatus) (si rc res shape : Bool) : Prop :=
  f.siValid = si ∧ f.rcValid = rc ∧ f.resValid = res ∧ f.shapeValid = shape

section
variable {si rc res shape : Bool} (h : s.fstat.validIs si rc res shape)
include h

theorem siUnpackBody_validIs (hcfg : decodeConfigOk s = true) (hu : siUnpackBody s = .ok u) :
    u.fstat.validIs true rc res shape := by
  obtain ⟨-, hrest⟩ := h
  obtain ⟨_, -, v, rfl | rfl | rfl, rfl⟩ := siUnpackBody_cases hcfg hu
  all_goals exact ⟨rfl, hrest⟩

theorem rcDecodeBody_validIs (hu : rcDecodeBody r s = .ok u) : u.fstat.validIs si true res shape := by
  obtain ⟨hsi, -, hrest⟩ := h
  rcases rcDecodeBody_cases hu with ⟨-, rfl⟩ | ⟨-, rfl⟩ | ⟨-, -, ⟨p, e, -, rfl⟩ | ⟨p, -, rfl⟩⟩
  all_goals exact ⟨hsi, rfl, hrest⟩

theorem resDecodeBody_validIs (hu : resDecodeBody s = .ok u) : u.fstat.validIs si rc true shape := by
  obtain ⟨hsi, hrc, -, hshape⟩ := h
  obtain ⟨_, _, v, rfl | rfl, rfl⟩ := resDecodeBody_cases hu
  all_goals exact ⟨hsi, hrc, rfl, hshape⟩

theorem pvqShapeBody_validIs : (pvqShapeBody s).fstat.validIs si rc res true := by
  obtain ⟨hsi, hrc, hres, -⟩ := h
  cases hb : s.cfg.mode.bfi with
  | true => rw [pvqShapeBody_of_bfi hb]; exact ⟨hsi, hrc, hres, rfl⟩
  | false =>
    rw [pvqShapeBody_of_noBfi hb]
    cases hbad : (shapeVector s.si).2 with
    | true => exact ⟨hsi, hrc, hres, rfl⟩
    | false => exact ⟨hsi, hrc, hres, rfl⟩

end

/-- SI_UNPACK leaves STATUS and the decoder alone. -/
theorem siUnpackBody_keeps (hcfg : decodeConfigOk s = true) (hu : siUnpackBody s = .ok u) :
    u.status = s.status ∧ u.dec = s.dec := by
  obtain ⟨_, -, v, rfl | rfl | rfl, rfl⟩ := siUnpackBody_cases hcfg hu
  all_goals exact ⟨rfl, rfl⟩

/-- Priming ends in READY or in ERROR, with at most a bit error in FSTAT (R191). -/
theorem prime_outcome (hu : prime s = .ok u) :
    (u.dec.fsm = .ready ∨ u.dec.fsm = .error) ∧ (u.fstat = s.fstat ∨ ∃ e, u.fstat = s.fstat.raise e) := by
  unfold prime at hu
  split at hu
  · cases hu; exact ⟨.inr rfl, .inr ⟨_, rfl⟩⟩
  · split at hu
    · dsimp only at hu
      split at hu
      · cases hu; exact ⟨.inr rfl, .inr ⟨_, rfl⟩⟩
      · cases hu; exact ⟨.inl rfl, .inl rfl⟩
    · cases hu
    · cases hu
    · cases hu

theorem rcInitBody_outcome {si rc res shape : Bool} (h : s.fstat.validIs si rc res shape)
    (hu : rcInitBody s = .ok u) :
    (u.dec.fsm = .ready ∨ u.dec.fsm = .error) ∧ u.fstat.validIs si rc res shape := by
  cases hb : s.cfg.mode.bfi with
  | true =>
    rw [rcInitBody_of_bfi hb] at hu
    cases hu
    exact ⟨.inl rfl, h⟩
  | false =>
    obtain ⟨hfsm, hf | ⟨e, hf⟩⟩ := prime_outcome ((rcInitBody_of_noBfi hb).symm.trans hu)
    all_goals
      refine ⟨hfsm, ?_⟩
      rw [hf]
      exact h

/-- After RC_DECODE every XQ word holds a value (70_reset_and_hazards.md R391). -/
theorem rcDecodeBody_xqWritten (hu : rcDecodeBody r s = .ok u) : XqWritten u.mem := by
  rcases rcDecodeBody_cases hu with ⟨-, rfl⟩ | ⟨-, rfl⟩ | ⟨-, -, ⟨p, e, -, rfl⟩ | ⟨p, -, rfl⟩⟩
  all_goals exact xqWritten_store_xq s.mem _

theorem resDecodeBody_sameInputs (hu : resDecodeBody s = .ok u) : SameInputs s u := by
  obtain ⟨vs, _, v, rfl | rfl, rfl⟩ := resDecodeBody_cases hu
  all_goals exact ⟨rfl, fun a ha => Memory.read_store_outside _ (by
    unfold XQ_BASE at ha
    unfold XR_BASE
    omega)⟩

/-- The states between the bodies of a frame, each ready for the command of the next one. -/
structure FrameStages (s u₁ u₂ u₃ u₄ : State) : Prop where
  unpack : siUnpackBody s = .ok u₁
  init : rcInitBody u₁ = .ok u₂
  decode : rcDecodeBody blockRoms u₂ = .ok u₃
  refine : resDecodeBody u₃ = .ok u₄
  decodable₁ : Decodable u₁
  decodable₂ : Decodable u₂
  decodable₃ : Decodable u₃
  decodable₄ : Decodable u₄
  valid₁ : u₁.fstat.validIs true false false false
  valid₂ : u₂.fstat.validIs true false false false
  valid₃ : u₃.fstat.validIs true true false false
  valid₄ : u₄.fstat.validIs true true true false
  idle : u₁.dec.fsm = .idle
  primed : u₂.dec.fsm = .ready ∨ u₂.dec.fsm = .error

theorem exists_frameStages (hdec : DecoderCoherent s) (hs : Decodable s) (hsi : s.fstat.siValid = false) :
    ∃ u₁ u₂ u₃ u₄, FrameStages s u₁ u₂ u₃ u₄ := by
  obtain ⟨hidle, hrest⟩ := hdec.beforeUnpack hsi
  have hcfg := decodeConfigOk_of_decodeConfigured hs.configured
  obtain ⟨u₁, h₁⟩ := hs.runs (siUnpackBody_stopsIn s)
  have d₁ := hs.after (siUnpackBody_sameInputs h₁)
  have v₁ := siUnpackBody_validIs ⟨hsi, hrest⟩ hcfg h₁
  obtain ⟨-, hdec₁⟩ := siUnpackBody_keeps hcfg h₁
  obtain ⟨u₂, h₂⟩ := d₁.runs (rcInitBody_stopsIn u₁)
  have d₂ := d₁.after (rcInitBody_sameInputs h₂)
  obtain ⟨hprimed, v₂⟩ := rcInitBody_outcome v₁ h₂
  obtain ⟨u₃, h₃⟩ := d₂.runs (rcDecodeBody_stopsIn blockRoms u₂)
  have d₃ := d₂.after (rcDecodeBody_sameInputs h₃)
  have v₃ := rcDecodeBody_validIs v₂ h₃
  obtain ⟨-, -, -, hmin, -⟩ := d₃.configured
  obtain ⟨u₄, h₄⟩ := d₃.runs (resDecodeBody_stopsIn (by omega))
  exact ⟨u₁, u₂, u₃, u₄, h₁, h₂, h₃, h₄, d₁, d₂, d₃, d₃.after (resDecodeBody_sameInputs h₄), v₁, v₂, v₃,
    resDecodeBody_validIs v₃ h₄, by rw [hdec₁, hidle], hprimed⟩

namespace FrameStages

variable {u₁ u₂ u₃ u₄ : State}

theorem frameBody (h : FrameStages s u₁ u₂ u₃ u₄) :
    decodeFrameBody blockRoms s = .ok (pvqShapeBody u₄) := by
  simp only [decodeFrameBody, thenBody, h.unpack, h.init, h.decode, h.refine]

theorem ignoresControl₃ (h : FrameStages s u₁ u₂ u₃ u₄) : IgnoresControl resDecodeBody u₃ := by
  obtain ⟨-, hne, -⟩ := h.decodable₃.configured
  exact resDecodeBody_ignoresControl (rcDecodeBody_xqWritten h.decode) hne

section
variable (h : FrameStages s u₁ u₂ u₃ u₄) (st : Status) (w : Option Word) (n : Nat)
include h

theorem exec_init :
    exec .rcInit (u₁.withControl st w n) = .next (u₂.withControl st w n).complete := by
  obtain ⟨hsi, -⟩ := h.valid₁
  exact exec_rcInit (s := u₁.withControl st w n) h.decodable₁.configured hsi h.idle
    ((rcInitBody_ignoresControl u₁).of_ok h.init st w n)

theorem exec_decode :
    exec .rcDecode (u₂.withControl st w n) = .next (u₃.withControl st w n).complete := by
  obtain ⟨-, hrc, -⟩ := h.valid₂
  exact exec_rcDecode (s := u₂.withControl st w n) h.decodable₂.configured h.primed hrc
    ((rcDecodeBody_ignoresControl blockRoms u₂).of_ok h.decode st w n)

theorem exec_refine :
    exec .resDecode (u₃.withControl st w n) = .next (u₄.withControl st w n).complete := by
  obtain ⟨-, hrc, hres, -⟩ := h.valid₃
  exact exec_resDecode (s := u₃.withControl st w n) h.decodable₃.configured hrc hres
    (h.ignoresControl₃.of_ok h.refine st w n)

theorem exec_shape :
    exec .pvqShape (u₄.withControl st w n) = .next ((pvqShapeBody u₄).withControl st w n).complete := by
  obtain ⟨hsi, -, -, hshape⟩ := h.valid₄
  rw [← pvqShapeBody_withControl]
  exact exec_pvqShape (s := u₄.withControl st w n) h.decodable₄.configured hsi hshape

end

theorem status_eq (h : FrameStages s u₁ u₂ u₃ u₄) (hs : Decodable s) :
    (pvqShapeBody u₄).status = s.status := by
  obtain ⟨hstatus, -⟩ := siUnpackBody_keeps (decodeConfigOk_of_decodeConfigured hs.configured) h.unpack
  rw [(pvqShapeBody_ignoresControl u₄).status_eq rfl, h.ignoresControl₃.status_eq h.refine,
    (rcDecodeBody_ignoresControl blockRoms u₂).status_eq h.decode,
    (rcInitBody_ignoresControl u₁).status_eq h.init, hstatus]

end FrameStages

/-- Settles O37: the five commands run the bodies of DECODE_FRAME, and none of them sees the completions of
those before it. -/
theorem decodeFrameIsFiveCommands : Obligations.DecodeFrameIsFiveCommands := by
  intro s hdec hcfg hw hsi
  obtain ⟨u₁, u₂, u₃, u₄, h⟩ := exists_frameStages hdec ⟨hcfg, hw⟩ hsi
  obtain ⟨hsi', hrc', hres', hshape'⟩ := pvqShapeBody_validIs h.valid₄
  refine ⟨_, _, _, _, _, _, exec_siUnpack hcfg hsi h.unpack, h.exec_init _ _ _, h.exec_decode _ _ _,
    h.exec_refine _ _ _, h.exec_shape _ _ _, exec_decodeFrame hcfg hsi h.frameBody, rfl, ?_, hsi', hrc', hres',
    hshape'⟩
  rw [State.complete_status, h.status_eq ⟨hcfg, hw⟩]

end Sys2Proof.Machine

/-! ## Errors and completion (60_exceptions.md)

The checks of every command are four in the order of R354, so that which error a word reports is read off them
once. A body moves neither STATUS nor the agenda; a completion therefore moves DONE alone, and one with a
command error is told from it by ERRCODE. -/

namespace Sys2Proof.Machine

-- One proof at a time: in one file with the tests, waiting proofs would each hold a thread.
set_option Elab.async false

open Config (Roms)

variable {s t u : State} {w : Word} {i : Instr} {e : CmdError}

/-! ### The step of a pending word (R381) -/

theorem step_pending (hagenda : s.agenda = []) (hpending : s.pending = some w) : step s = runWord w s := by
  simp only [step, hagenda, engineStep, hpending]

theorem runWord_ok (hd : decode w = .ok i) (s : State) : runWord w s = exec i s := by
  simp only [runWord, hd]

theorem step_decoded (hagenda : s.agenda = []) (hpending : s.pending = some w) (hd : decode w = .ok i) :
    step s = exec i s := by
  rw [step_pending hagenda hpending, runWord_ok hd]

/-! ### The checks in their order (R354) -/

/-- The check of a command's argument. -/
def argumentOk : Instr → Bool
  | .rcDecsym cls id => argLegal cls id
  | _ => true

/-- The check of a command's configuration or operands. -/
def configurationOk (s : State) : Instr → Bool
  | .siUnpack | .rcInit | .rcDecode | .resDecode | .pvqShape | .decodeFrame => decodeConfigOk s
  | .gainEst | .quantize | .gainAdj | .resEncode => encodeConfigOk s
  | .pvqDeenum => pvqConfigOk s
  | .nop | .frameStart | .rcDecsym _ _ | .rcDecbit => true

/-- The check of a command's place in the frame. -/
def sequenceOk (s : State) : Instr → Bool
  | .nop | .frameStart | .pvqDeenum => true
  | .siUnpack | .decodeFrame => !s.fstat.siValid
  | .rcInit => rcInitLegal s
  | .rcDecsym _ _ | .rcDecbit => decsymLegal s
  | .rcDecode => rcDecodeLegal s
  | .resDecode => resDecodeLegal s
  | .pvqShape => pvqShapeLegal s
  | .gainEst => decide (s.fstat.qCount = 0)
  | .quantize => quantizeLegal s
  | .gainAdj => gainAdjLegal s
  | .resEncode => resEncodeLegal s

/-- The check of the pass counters, which only two commands have. -/
def passLimitReached (s : State) : Instr → Bool
  | .quantize => quantizePastLimit s
  | .gainAdj => gainAdjPastLimit s
  | _ => false

/-- The four checks of a command in the order of R354. -/
def orderedChecks (s : State) (i : Instr) : List (Bool × CmdError) :=
  [(!argumentOk i, .badArg), (!configurationOk s i, if i = .pvqDeenum then .pvqCfg else .configErr),
    (!sequenceOk s i && !passLimitReached s i, .seqErr), (passLimitReached s i, .passLimit)]

theorem firstError_cons (b : Bool) (e : CmdError) (rest : List (Bool × CmdError)) :
    firstError ((b, e) :: rest) = if b then some e else firstError rest := by cases b <;> rfl

/-- The checks that a command has are those of the four that can fail. -/
theorem firstError_checksOf (s : State) (i : Instr) :
    firstError (checksOf s i) = firstError (orderedChecks s i) := by
  cases i with
  | quantize => rfl
  | gainAdj => rfl
  | _ =>
    simp [checksOf, orderedChecks, argumentOk, configurationOk, sequenceOk, passLimitReached,
      firstError_cons, firstError]

/-! ### What each check says (R352, R353, R357) -/

theorem argumentOk_iff : argumentOk i = true ↔ argumentLegal i := by
  cases i with
  | rcDecsym cls id => cases cls <;> exact decide_eq_true_iff
  | _ => exact iff_of_true rfl trivial

theorem decodeConfigOk_iff_configured : decodeConfigOk s = true ↔ decodeConfigured s := by
  refine ⟨fun h => ?_, decodeConfigOk_of_decodeConfigured⟩
  obtain ⟨⟨hlo, hhi, hmod⟩, ⟨hmin, hmax⟩, htns, htns'⟩ := decodeConfigOk_iff.mp h
  exact ⟨hlo, hhi, hmod, hmin, hmax, by omega⟩

theorem encodeConfigOk_iff_configured : encodeConfigOk s = true ↔ encodeConfigured s := by
  refine ⟨fun h => ?_, encodeConfigOk_of_encodeConfigured⟩
  obtain ⟨⟨hlo, hhi, hmod⟩, ⟨hmin, hmax⟩, htarget⟩ := encodeConfigOk_iff.mp h
  exact ⟨hlo, hhi, hmod, hmin, hmax, htarget⟩

theorem configurationOk_iff (s : State) (i : Instr) : configurationOk s i = true ↔ configured s i :=
  match i with
  | .siUnpack | .rcInit | .rcDecode | .resDecode | .pvqShape | .decodeFrame =>
    decodeConfigOk_iff_configured
  | .gainEst | .quantize | .gainAdj | .resEncode => encodeConfigOk_iff_configured
  | .pvqDeenum => decide_eq_true_iff
  | .nop | .frameStart | .rcDecsym _ _ | .rcDecbit => iff_of_true rfl trivial

theorem sequenceOk_iff (s : State) (i : Instr) : sequenceOk s i = true ↔ sequenced s i := by
  cases i with
  | nop => exact iff_of_true rfl trivial
  | frameStart => exact iff_of_true rfl trivial
  | pvqDeenum => exact iff_of_true rfl trivial
  | rcDecode => exact rcDecodeLegal_iff
  | resEncode => simp [sequenceOk, sequenced, resEncodeLegal, imp_iff_not_or]
  | _ =>
    simp [sequenceOk, sequenced, rcInitLegal, decsymLegal, resDecodeLegal, pvqShapeLegal, quantizeLegal,
      gainAdjLegal, and_assoc]

theorem passLimitReached_iff (s : State) (i : Instr) :
    passLimitReached s i = true ↔ pastPassLimit s i := by
  cases i with
  | quantize => exact decide_eq_true_iff
  | gainAdj => exact decide_eq_true_iff
  | _ => exact iff_of_false nofun id

/-! ### The error reported (R354) -/

theorem firstError_badArg (harg : ¬ argumentLegal i) : firstError (checksOf s i) = some .badArg := by
  have ha : argumentOk i = false := Bool.eq_false_iff.mpr (mt argumentOk_iff.mp harg)
  simp [firstError_checksOf, orderedChecks, firstError, ha]

section
variable (harg : argumentLegal i)
include harg

theorem firstError_misconfigured (hcfg : ¬ configured s i) :
    firstError (checksOf s i) = some (if i = .pvqDeenum then .pvqCfg else .configErr) := by
  have hc : configurationOk s i = false := Bool.eq_false_iff.mpr (mt (configurationOk_iff s i).mp hcfg)
  simp [firstError_checksOf, orderedChecks, firstError, argumentOk_iff.mpr harg, hc]

variable (hcfg : configured s i)
include hcfg

/-- Past the argument and the configuration, the sequence and the pass limit are left. -/
theorem firstError_configured : firstError (checksOf s i) =
    firstError [(!sequenceOk s i && !passLimitReached s i, .seqErr), (passLimitReached s i, .passLimit)] := by
  rw [firstError_checksOf, orderedChecks, argumentOk_iff.mpr harg, (configurationOk_iff s i).mpr hcfg]
  rfl

theorem firstError_passLimit (hlimit : pastPassLimit s i) :
    firstError (checksOf s i) = some .passLimit := by
  rw [firstError_configured harg hcfg]
  simp [firstError, (passLimitReached_iff s i).mpr hlimit]

variable (hlimit : ¬ pastPassLimit s i)
include hlimit

theorem firstError_seqErr (hseq : ¬ sequenced s i) : firstError (checksOf s i) = some .seqErr := by
  have hs : sequenceOk s i = false := Bool.eq_false_iff.mpr (mt (sequenceOk_iff s i).mp hseq)
  have hp : passLimitReached s i = false := Bool.eq_false_iff.mpr (mt (passLimitReached_iff s i).mp hlimit)
  rw [firstError_configured harg hcfg, hs, hp]
  rfl

theorem firstError_none (hseq : sequenced s i) : firstError (checksOf s i) = none := by
  have hp : passLimitReached s i = false := Bool.eq_false_iff.mpr (mt (passLimitReached_iff s i).mp hlimit)
  rw [firstError_configured harg hcfg, (sequenceOk_iff s i).mpr hseq, hp]
  rfl

end

/-- A command whose checks pass is configured. -/
theorem configured_of_firstError_none (h : firstError (checksOf s i) = none) : configured s i := by
  rw [firstError_checksOf] at h
  have hc : (!configurationOk s i) = false :=
    firstError_eq_none.mp h _ (List.mem_cons_of_mem _ List.mem_cons_self)
  exact (configurationOk_iff s i).mp (by simpa using hc)

/-- A command that checks NE and NBYTES reports CONFIG_ERR exactly where its configuration is illegal. -/
theorem firstError_configErr_iff (harg : argumentLegal i) (hi : i ≠ .pvqDeenum) :
    firstError (checksOf s i) = some .configErr ↔ ¬ configured s i := by
  refine ⟨fun h hcfg => ?_, fun hcfg => by rw [firstError_misconfigured harg hcfg, if_neg hi]⟩
  by_cases hlimit : pastPassLimit s i
  · rw [firstError_passLimit harg hcfg hlimit] at h; cases h
  by_cases hseq : sequenced s i
  · rw [firstError_none harg hcfg hlimit hseq] at h; cases h
  · rw [firstError_seqErr harg hcfg hlimit hseq] at h; cases h

/-! ### What no body moves -/

/-- `t` has STATUS and the moves to come of `s`. -/
structure SameControl (s t : State) : Prop where
  status : t.status = s.status
  agenda : t.agenda = s.agenda

theorem SameControl.trans (h : SameControl s t) (h' : SameControl t u) : SameControl s u :=
  ⟨h'.status.trans h.status, h'.agenda.trans h.agenda⟩

theorem pvqDeenumBody_sameControl (s : State) : SameControl s (pvqDeenumBody s) := by
  unfold pvqDeenumBody
  dsimp only
  split <;> exact ⟨rfl, rfl⟩

theorem pvqShapeBody_sameControl (s : State) : SameControl s (pvqShapeBody s) := by
  unfold pvqShapeBody
  split <;> exact ⟨rfl, rfl⟩

theorem siUnpackBody_sameControl (hu : siUnpackBody s = .ok u) : SameControl s u := by
  unfold siUnpackBody at hu
  split at hu
  · cases hu; exact ⟨rfl, rfl⟩
  · split at hu
    · cases hu
    · cases hu; exact ⟨rfl, rfl⟩

theorem prime_sameControl (hu : prime s = .ok u) : SameControl s u := by
  unfold prime at hu
  split at hu
  · cases hu; exact ⟨rfl, rfl⟩
  · split at hu
    · dsimp only at hu
      split at hu <;> cases hu <;> exact ⟨rfl, rfl⟩
    · cases hu
    · cases hu
    · cases hu

theorem rcInitBody_sameControl (hu : rcInitBody s = .ok u) : SameControl s u := by
  cases hb : s.cfg.mode.bfi with
  | true => rw [rcInitBody_of_bfi hb] at hu; cases hu; exact ⟨rfl, rfl⟩
  | false =>
    rw [rcInitBody_of_noBfi hb] at hu
    exact .trans (t := s.clearContext) ⟨rfl, rfl⟩ (prime_sameControl hu)

theorem decsymBody_sameControl {cum : Nat → Nat} {n : Nat} (hu : decsymBody cum n s = .ok u) :
    SameControl s u := by
  unfold decsymBody at hu
  split at hu <;> cases hu <;> exact ⟨rfl, rfl⟩

theorem rcDecodeBody_sameControl {r : Roms} (hu : rcDecodeBody r s = .ok u) : SameControl s u := by
  rcases rcDecodeBody_cases hu with ⟨-, rfl⟩ | ⟨-, rfl⟩ | ⟨-, -, ⟨p, e, -, rfl⟩ | ⟨p, -, rfl⟩⟩
  all_goals exact ⟨rfl, rfl⟩

theorem gainAdjBody_sameControl (s : State) : SameControl s (gainAdjBody s) := by
  obtain ⟨cfg, requant, budget, -, he⟩ := gainAdjBody_cases s
  rw [he]
  exact ⟨rfl, rfl⟩

theorem resDecodeBody_sameControl (hu : resDecodeBody s = .ok u) : SameControl s u := by
  obtain ⟨vs, n, v, rfl | rfl, rfl⟩ := resDecodeBody_cases hu
  all_goals exact ⟨rfl, rfl⟩

theorem decodeFrameBody_sameControl {r : Roms} (hu : decodeFrameBody r s = .ok u) : SameControl s u := by
  obtain ⟨s1, h1, hu⟩ := thenBody_ok hu
  obtain ⟨s2, h2, hu⟩ := thenBody_ok hu
  obtain ⟨s3, h3, hu⟩ := thenBody_ok hu
  obtain ⟨s4, h4, hu⟩ := thenBody_ok hu
  cases hu
  exact (siUnpackBody_sameControl h1).trans <| (rcInitBody_sameControl h2).trans <|
    (rcDecodeBody_sameControl h3).trans <| (resDecodeBody_sameControl h4).trans <|
      pvqShapeBody_sameControl s4

/-- No body moves STATUS: a bit error is no command error (R361, R362). -/
theorem bodyOf_sameControl (hu : bodyOf i s = .ok u) : SameControl s u := by
  cases i with
  | nop => cases hu; exact ⟨rfl, rfl⟩
  | frameStart => cases hu; exact ⟨rfl, rfl⟩
  | pvqDeenum => cases hu; exact pvqDeenumBody_sameControl s
  | pvqShape => cases hu; exact pvqShapeBody_sameControl s
  | rcInit => exact rcInitBody_sameControl hu
  | rcDecsym cls id => exact decsymBody_sameControl hu
  | rcDecbit => exact decsymBody_sameControl hu
  | rcDecode => exact rcDecodeBody_sameControl hu
  | gainEst => obtain ⟨raw, zero, rfl⟩ := gainEstBody_cases hu; exact ⟨rfl, rfl⟩
  | quantize => obtain ⟨c, rfl⟩ := quantizeBody_cases hu; exact ⟨rfl, rfl⟩
  | gainAdj => cases hu; exact gainAdjBody_sameControl s
  | resEncode => obtain ⟨bits, n, rfl⟩ := resEncodeBody_cases hu; exact ⟨rfl, rfl⟩
  | resDecode => exact resDecodeBody_sameControl hu
  | siUnpack => exact siUnpackBody_sameControl hu
  | decodeFrame => exact decodeFrameBody_sameControl hu

/-! ### Command errors -/

/-- Settles O39: the engine step raises ERR only by completing with a command error, since a body leaves
STATUS as it stands. -/
theorem commandErrorChangesNothing : Obligations.CommandErrorChangesNothing := by
  intro s t hagenda _ herr hstep hterr
  have hengine : engineStep s = .next t := by simpa only [step, hagenda] using hstep
  rcases engineStep_cases hengine with rfl | ⟨e, rfl⟩ | ⟨_, _, u, -, -, -, hu, rfl⟩
  · rw [herr] at hterr; cases hterr
  · exact ⟨e, rfl⟩
  · rw [State.complete_status, (bodyOf_sameControl hu).status] at hterr
    exact absurd (herr.symm.trans hterr) Bool.false_ne_true

/-- A command whose checks pass moves no STATUS bit but DONE. -/
theorem exec_status (hc : firstError (checksOf s i) = none) (h : exec i s = .next t) :
    t.status = { s.status with done := true } := by
  rw [exec_eq_runCommand] at h
  rcases runCommand_next h with ⟨e, he, -⟩ | ⟨-, u, hu, rfl⟩
  · rw [hc] at he; cases he
  · rw [State.complete_status, (bodyOf_sameControl hu).status]

/-- Settles O41: a word that does not decode reports that; else the first failing check does. -/
theorem commandErrorOrder : Obligations.CommandErrorOrder := by
  refine ⟨fun s w hagenda hpending => ⟨fun hopc => ?_, fun _ hd => ?_, fun i hd => ?_⟩, rfl⟩
  · have hd : decode w = .error .illegalCmd := decode_eq_illegalCmd_iff.mpr (by rwa [opcField_eq_extract])
    obtain ⟨t, hstep, ht, -⟩ := step_decode_error hagenda hpending hd
    exact ⟨t, hstep, ht⟩
  · obtain ⟨t, hstep, ht, -⟩ := step_decode_error hagenda hpending hd
    exact ⟨t, hstep, ht⟩
  · rw [step_decoded hagenda hpending hd]
    exact ⟨fun harg => exec_error (firstError_badArg harg),
      fun harg hcfg => exec_error (firstError_misconfigured harg hcfg),
      fun harg hcfg hseq hlimit => exec_error (firstError_seqErr harg hcfg hlimit hseq),
      fun harg hcfg hlimit => exec_error (firstError_passLimit harg hcfg hlimit),
      fun harg hcfg hseq hlimit _ => exec_status (firstError_none harg hcfg hlimit hseq)⟩

theorem CmdError.code_injective : Function.Injective CmdError.code := by
  intro e e'
  cases e <;> cases e' <;> decide

/-- With ERRCODE 0 while the command runs (R366), ERRCODE afterwards tells which check failed. -/
theorem exec_endsWith_iff (herr : s.status.errcode = 0) :
    (∃ t, exec i s = .next t ∧ CompletedWithError s e t ∧ t.status.errcode = e.code) ↔
      firstError (checksOf s i) = some e := by
  constructor
  · rintro ⟨t, h, -, hcode⟩
    rcases exec_cases i s with ⟨e', he', hx⟩ | ⟨hc, -⟩
    · cases h.symm.trans hx
      rw [he', CmdError.code_injective hcode]
    · rw [exec_status hc h] at hcode
      exact absurd (hcode.symm.trans herr) e.code_ne_zero
  · intro h
    obtain ⟨t, hx, ht⟩ := exec_error h
    exact ⟨t, hx, ht, by rw [ht]⟩

/-- Settles O40: the configuration is the first check of each of these commands. -/
theorem configurationErrors : Obligations.ConfigurationErrors := by
  intro s herr
  have reports : ∀ i, argumentLegal i → i ≠ .pvqDeenum →
      ((∃ t, exec i s = .next t ∧ CompletedWithError s .configErr t ∧ t.status.errcode = 3) ↔
        ¬ configured s i) :=
    fun i harg hi => (exec_endsWith_iff herr).trans (firstError_configErr_iff harg hi)
  constructor
  · intro i hi
    fin_cases hi
    all_goals exact reports _ trivial nofun
  · intro i hi
    fin_cases hi
    all_goals exact reports _ trivial nofun

/-! ### Completion (R362, R364, R367) -/

theorem not_payloadFault_unwrittenX {j : Nat} : ¬ PayloadFault s (.unwrittenX j) := by
  intro h
  rcases h.names with ⟨_, hf, -⟩ | ⟨_, hf, -⟩ <;> cases hf

/-- Only a command with a legal NE reads the spectrum. -/
theorem NE_le_of_unwrittenX {j : Nat} (hc : firstError (checksOf s i) = none)
    (hf : bodyOf i s = .error (.unwrittenX j)) : s.NE ≤ Config.NE_MAX := by
  have hcfg := configured_of_firstError_none hc
  cases i with
  | nop => cases hf
  | frameStart => cases hf
  | pvqDeenum => cases hf
  | rcDecsym cls id => exact absurd (decsymBody_stopsIn _ _ s _ hf) not_payloadFault_unwrittenX
  | rcDecbit => exact absurd (decsymBody_stopsIn _ _ s _ hf) not_payloadFault_unwrittenX
  | _ =>
    obtain ⟨-, hle, -⟩ := hcfg
    exact hle

/-- With its inputs written no command stops the machine (R57). -/
theorem exec_not_fault (hw : inputsWritten s) (f : Fault) : exec i s ≠ .fault f := by
  intro hx
  obtain ⟨hbytes, hpay, hspec⟩ := hw
  rcases (faultsNameTheElementRead i s).2 f hx with
    ⟨j, -, hj, hnone⟩ | ⟨j, rfl, hj, b, hb, hnone⟩ | ⟨j, -, hge, hlt, -⟩
  · exact absurd (hpay j hj) (by simp [hnone])
  · rw [exec_eq_runCommand] at hx
    obtain ⟨hc, hbody⟩ := runCommand_fault hx
    have hsome := hspec (NE_le_of_unwrittenX hc hbody) (4 * j + b) (by omega)
    rw [← Nat.add_assoc, hnone] at hsome
    cases hsome
  · unfold Config.BYTES_MAX at hbytes
    omega

/-- With the inputs written a pending word completes, with a command error or with what its body leaves. -/
theorem runWord_completes (hw : inputsWritten s) (w : Word) :
    ∃ t, runWord w s = .next t ∧
      ((∃ e, t = s.completeError e) ∨ ∃ u, SameControl s u ∧ t = u.complete) := by
  cases hd : decode w with
  | error e => exact ⟨s.completeError (decodeErrorOf e), by simp only [runWord, hd], .inl ⟨_, rfl⟩⟩
  | ok i =>
    rw [runWord_ok hd]
    rcases exec_cases i s with ⟨e, -, hx⟩ | ⟨-, ⟨u, hu, hx⟩ | ⟨f, -, hx⟩⟩
    · exact ⟨_, hx, .inl ⟨e, rfl⟩⟩
    · exact ⟨_, hx, .inr ⟨u, bodyOf_sameControl hu, rfl⟩⟩
    · exact absurd hx (exec_not_fault hw f)

/-- Settles O42: either completion clears BUSY and sets DONE, and neither moves ACCESS_ERR. -/
theorem everyCommandCompletes : Obligations.EveryCommandCompletes := by
  intro s hagenda hbusy hw
  obtain ⟨w, hpending⟩ := Option.isSome_iff_exists.mp hbusy
  obtain ⟨t, hrun, ht⟩ := runWord_completes hw w
  refine ⟨t, by rw [step_pending hagenda hpending, hrun], ?_⟩
  rcases ht with ⟨e, rfl⟩ | ⟨u, hu, rfl⟩
  · exact ⟨rfl, rfl, rfl, hagenda, .inr rfl⟩
  · rw [State.complete_status, hu.status]
    exact ⟨rfl, rfl, rfl, hu.agenda.trans hagenda, .inl rfl⟩

/-! ### Moves, acceptance and the interrupt line (R366, R370, R381) -/

/-- Settles O7: the agenda says who moves, and the engine runs the command of the pending word. -/
theorem stepRunsDecodedCommand : Obligations.StepRunsDecodedCommand := by
  refine fun s rest => ⟨fun w i hpending hd _ => ⟨fun hagenda => step_decoded hagenda hpending hd,
    fun hagenda => ?_⟩, fun a hagenda => by simp only [step, hagenda]⟩
  simp only [step, hagenda, engineStep, hpending, runWord_ok hd]

/-- A host write of a word inside the window does what `hostWrite` says. -/
theorem hostStep_write {off : Nat} (hlt : off < WINDOW_BYTES) (halign : off % 4 = 0) (w : Word) (s : State) :
    hostStep (.write .word off w) s =
      .next { hostWrite off w s with response := .written, epoch := s.epoch + 1 } := by
  have hal : aligned .word off = true := by simp [aligned, halign]
  simp only [hostStep, if_neg (not_le.mpr hlt), hal, if_true]

/-- Settles O45: CMD accepts any word while idle, and is none of the registers writable while busy. -/
theorem commandAcceptance : Obligations.CommandAcceptance := by
  intro s w
  rw [hostStep_write (by decide) (by decide)]
  constructor
  · intro hb
    rw [show hostWrite 0x010 w s = s.accept w from hostWrite_idle hb .cmd w]
    exact ⟨_, rfl, rfl, rfl⟩
  · intro hb
    rw [hostWrite_busy hb (by decide) (by decide) (by decide)]
    exact ⟨_, rfl, rfl⟩

theorem bit_injective : Function.Injective bit := fun a b h =>
  Bool.eq_iff_iff.mpr (by rw [← bit_eq_one, ← bit_eq_one, h])

/-- The host reads DONE at bit 1 and ERR at bit 2 of STATUS (10_state.md R35). -/
theorem statusWord_getLsbD (s : State) :
    s.statusWord.getLsbD 1 = s.status.done ∧ s.statusWord.getLsbD 2 = s.status.err := by
  have hbusy := bit_lt_two s.busy
  have hdone := bit_lt_two s.status.done
  have herr := bit_lt_two s.status.err
  have haccess := bit_lt_two s.status.accessErr
  constructor
  · apply bit_injective
    rw [bit_getLsbD]
    simp only [State.statusWord, flagAt, BitVec.toNat_ofNat]
    omega
  · apply bit_injective
    rw [bit_getLsbD]
    simp only [State.statusWord, flagAt, BitVec.toNat_ofNat]
    omega

/-- The host reads DONE_IE at bit 0 and ERR_IE at bit 1 of IRQ_EN (10_state.md R37). -/
theorem irqEnable_word_getLsbD (en : IrqEnable) :
    en.word.getLsbD 0 = en.doneIe ∧ en.word.getLsbD 1 = en.errIe := by
  obtain ⟨doneIe, errIe⟩ := en
  cases doneIe <;> cases errIe <;> decide

theorem irq_completed (h : Completed s t) :
    t.irq = (s.irqEn.doneIe || (s.status.err && s.irqEn.errIe)) := by
  rw [h]
  simp [State.irq]

/-- Settles O46: the line is read off DONE and ERR as each of these leaves them. -/
theorem interruptLine : Obligations.InterruptLine := by
  refine ⟨fun s => ?_, fun s w => rfl, fun s t h hen => ?_, fun s t h herr => ?_, fun s e t h => ?_,
    fun s w hdone herr => ?_⟩
  · obtain ⟨hdone, herr⟩ := statusWord_getLsbD s
    obtain ⟨hdoneIe, herrIe⟩ := irqEnable_word_getLsbD s.irqEn
    rw [hdone, herr, hdoneIe, herrIe, State.irq]
  · rw [irq_completed h, hen, Bool.true_or]
  · rw [irq_completed h, herr, Bool.false_and, Bool.or_false]
  · rw [h]
    simp [State.irq]
  · rw [show hostWrite 0x014 w s = { s with status := s.status.clear w } from
      hostWrite_writable s (r := .status) rfl w]
    simp [State.irq, Status.clear, hdone, herr]

end Sys2Proof.Machine

/-! ## Reset (70_reset_and_hazards.md)

The three constant registers read the same in every state, so that what reset determines is the rest: each of
them is a field at 0. `rst` is a move of its own, which keeps nothing of the block. -/

namespace Sys2Proof.Machine

-- One proof at a time: in one file with the tests, waiting proofs would each hold a thread.
set_option Elab.async false

variable {s : State} {rest : List Move}

/-! ### What the host reads after reset (R391) -/

/-- An array reads its one repeated entry, and every other register a field at 0. -/
theorem Reg.read_reset_eq_zero {r : Reg} (hid : r ≠ .id) (hparam0 : r ≠ .param0) (hparam1 : r ≠ .param1) :
    r.read State.reset = 0 := by
  cases r
  case id => exact absurd rfl hid
  case param0 => exact absurd rfl hparam0
  case param1 => exact absurd rfl hparam1
  case pvqVec i => exact Vector.getElem_replicate i.isLt
  case tnsOrder f => exact congrArg zext (Vector.getElem_replicate f.isLt)
  case tnsCoef fk => exact congrArg zext (Vector.getElem_replicate fk.isLt)
  case snsY i => exact Vector.getElem_replicate i.isLt
  all_goals rfl

/-- The register file after reset: the constants of R32 to R34, and 0. -/
theorem Reg.read_reset (r : Reg) :
    r.read State.reset =
      if r = .id then 0x50564431#32 else if r = .param0 then 0x15064190#32
      else if r = .param1 then 0x10040A8E#32 else 0 := by
  split_ifs with hid hparam0 hparam1
  · rw [hid]; exact hostRead_id State.reset
  · rw [hparam0]; exact hostRead_param0 State.reset
  · rw [hparam1]; exact hostRead_param1 State.reset
  · exact Reg.read_reset_eq_zero hid hparam0 hparam1

theorem reset_mem_read (a : Nat) : State.reset.mem.read a = none := rfl

/-! ### The move of `rst` (R390) -/

/-- Whatever the block was doing, a pending command included, `rst` leaves only the moves to come. -/
theorem step_reset (h : s.agenda = .reset :: rest) :
    step s = .next (State.afterReset { s with agenda := rest }) := by
  simp only [step, h]

/-- Settles O55: the reset registers are read off one by one, and `rst` answers with the reset state. -/
theorem resetValues : Obligations.ResetValues :=
  ⟨fun r _ => r.read_reset, rfl, rfl, reset_mem_read, fun _ _ h => ⟨_, step_reset h, rfl⟩⟩

/-! ### Coherence (10_state.md R51) -/

/-- Settles O56: the decoder is in IDLE, so that R51 asks nothing beyond coherence. -/
theorem resetIsCoherent : Obligations.ResetIsCoherent :=
  ⟨reset_coherent, .of_coherent reset_coherent fun hterminal => RcFsm.noConfusion hterminal⟩

end Sys2Proof.Machine
